-- ==== Sys2Proof/Word.lean ====
section
/-!
DEFINITION. The word types of the core, and the plain data its registers and buffers hold
(00_scope.md R9, R10): command and data words, addresses, bytes, pixels, and the exact numbers
that stand for the spec's `NUM` values.
-/

namespace Sys2Proof

/-- A 32-bit command or data word (R9, R91). -/
abbrev Word := BitVec 32

/-- A byte of the output stream, a pixel component, or the accumulator (R31, R70, R72). -/
abbrev Byte := BitVec 8

/-- A 16-bit host word address (R9, R60). -/
abbrev Addr := BitVec 16

/-- A 16-bit two's-complement coefficient of Q, Z or a predictor (R9, R30, R35, R36). -/
abbrev Coef := BitVec 16

/-- One RGB triple of the pixel source (R60, R70). -/
structure Rgb where
  r : Byte
  g : Byte
  b : Byte
deriving DecidableEq, Repr, Inhabited

/-- A number of the field of cos(π/16) over the rationals: the real number
`a0 + a1 cos(π/16) + a2 cos(2π/16) + … + a7 cos(7π/16)` with rational `aᵢ`. These numbers are closed
under every operation the commands make (sums, differences, products with a cosine of a multiple of
π/16, products with rationals), the eight numbers are unique for a value, and `floor` and comparison on
them are computed exactly (Machine/CosNum.lean, Machine/CosReal.lean). -/
structure CosNum where
  a0 : Rat
  a1 : Rat
  a2 : Rat
  a3 : Rat
  a4 : Rat
  a5 : Rat
  a6 : Rat
  a7 : Rat
deriving DecidableEq, Repr, Inhabited

/-- A value of the spec's number type `NUM`, a real number (R9, R12): a number of the field of
cos(π/16), plus multiples by such numbers of further real numbers ρ₀, ρ₁, …, which the host may bring and
which are free values (Config.otherReals). Only sums and products with field numbers are ever made of a
`NUM` value, so these forms are closed; the results list `others` by rising index, with no multiple 0.
DESIGN CHOICE, safe: log entry 1. -/
structure NumVal where
  inField : CosNum
  others : List (Nat × CosNum)
deriving DecidableEq, Repr, Inhabited

/-- What an element that holds a `NUM` value holds (R33, R34, R37, R38): `num` is its value in the number
type `NUM`; `real` is the value the Real instance gives for it, which R157 sets the results of QUANT
against. With `NUM` = Real the two are the same. DESIGN CHOICE: log entry 8. -/
structure NumElem where
  real : NumVal
  num : NumVal
deriving DecidableEq, Repr, Inhabited

/-- What one host access carries (R62, R67): a 32-bit data word, or a `NUM` value. -/
inductive BusValue where
  | word (w : Word)
  | num (x : NumVal)
deriving DecidableEq, Repr, Inhabited

end Sys2Proof
end

