-- ==== Sys2Proof/Syntax.lean ====
section
/-!
DEFINITION. The command set: one constructor per row of opcode_table.json (30_encoding.md R98).
An operand is an unsigned field of the command word (R102): an index, a level, a count (a Nat), or
the raw bits of PUTBITS (a bit vector).
-/

namespace Sys2Proof

/-- The 17 commands (R98). Operands are named as R92 to R97 name them; `mcuload` and `encmcu` take
the column index first, as the assembler syntax does (R104). -/
inductive Instr where
  | nop
  | init
  | htbuild (t : Nat)
  | csc (r g b : Nat)
  | mcuload (mx my : Nat)
  | fdct (b : Nat)
  | quant (b : Nat)
  | idct (b : Nat)
  | zz (b : Nat)
  | dcenc (b : Nat)
  | acenc (b : Nat)
  | putbits (n : Nat) (v : BitVec 16)
  | flush
  | blkenc (b : Nat)
  | encmcu (mx my : Nat)
  | encimg
  | unzz (b : Nat)
deriving DecidableEq, Repr

end Sys2Proof
end

