-- ==== Sys2Proof/WellFormed.lean ====
section
/-!
DEFINITION. Which commands have a command word: every operand fits its field (30_encoding.md R92 to
R97). Whether a well-formed operand is also legal (b ≤ 5, n ≤ 16, an MCU index inside the canvas) is
no matter of form: the command checks it and raises an error (R101).
-/

namespace Sys2Proof

/-- Every operand fits its field of the command word (R93 to R97). -/
abbrev Instr.WellFormed : Instr → Prop
  | .nop | .init | .flush | .encimg => True
  | .htbuild t => t < 4
  | .csc r g b => r < 256 ∧ g < 256 ∧ b < 256
  | .mcuload mx my | .encmcu mx my => mx < 4096 ∧ my < 4096
  | .fdct b | .quant b | .idct b | .zz b | .unzz b | .dcenc b | .acenc b | .blkenc b => b < 8
  | .putbits n _ => n < 32

/-- The same check as a Boolean. -/
def Instr.wellFormed : Instr → Bool
  | .nop | .init | .flush | .encimg => true
  | .htbuild t => t < 4
  | .csc r g b => r < 256 && g < 256 && b < 256
  | .mcuload mx my | .encmcu mx my => mx < 4096 && my < 4096
  | .fdct b | .quant b | .idct b | .zz b | .unzz b | .dcenc b | .acenc b | .blkenc b => b < 8
  | .putbits n _ => n < 32

end Sys2Proof
end

