-- ==== Sys2Proof/Decode.lean ====
section
/-!
DEFINITION. The decoder and the encoder of command words (30_encoding.md R91 to R100). The decoder
is total over all 2^32 words and rejects a word by the name of what is wrong with it; whatever the
name, the core raises IllegalCommand(w) for it (R99, R100).
-/

namespace Sys2Proof

/-- Why a word is no command (R100). The core makes no difference between the two: it raises
IllegalCommand with ERRINFO = w (R300). -/
inductive Reject where
  /-- The opcode is one of 0x11..0xFF (R98). -/
  | reservedOpcode (op : Nat)
  /-- A must-be-zero field of the opcode's format is not zero (R92, R93, R94, R97). -/
  | mustBeZero (op : Nat)
deriving DecidableEq, Repr

/-- `w[hi:lo]` read as an unsigned number (R10). -/
def field (w : Word) (hi lo : Nat) : Nat := w.toNat / 2 ^ lo % 2 ^ (hi + 1 - lo)

/-- Answer `i` if the must-be-zero field holds 0, else reject (R92 to R94, R97, R100). -/
def zeroField (op mbz : Nat) (i : Instr) : Except Reject Instr :=
  if mbz = 0 then .ok i else .error (.mustBeZero op)

/-- Format N (R92): all of w[23:0] must be 0. -/
def decodeN (w : Word) (op : Nat) (i : Instr) : Except Reject Instr :=
  zeroField op (field w 23 0) i

/-- Format B (R93): w[23:3] must be 0 and b = w[2:0]. -/
def decodeB (w : Word) (op : Nat) (i : Nat → Instr) : Except Reject Instr :=
  zeroField op (field w 23 3) (i (field w 2 0))

/-- The decoder of R99: one arm per opcode of R98. -/
def decode (w : Word) : Except Reject Instr :=
  match field w 31 24 with
  | 0x00 => decodeN w 0x00 .nop
  | 0x01 => decodeN w 0x01 .init
  | 0x02 => zeroField 0x02 (field w 23 2) (.htbuild (field w 1 0))
  | 0x03 => .ok (.csc (field w 23 16) (field w 15 8) (field w 7 0))
  | 0x04 => .ok (.mcuload (field w 11 0) (field w 23 12))
  | 0x05 => decodeB w 0x05 .fdct
  | 0x06 => decodeB w 0x06 .quant
  | 0x07 => decodeB w 0x07 .idct
  | 0x08 => decodeB w 0x08 .zz
  | 0x09 => decodeB w 0x09 .dcenc
  | 0x0A => decodeB w 0x0A .acenc
  | 0x0B => zeroField 0x0B (field w 23 21)
              (.putbits (field w 20 16) (BitVec.ofNat 16 (field w 15 0)))
  | 0x0C => decodeN w 0x0C .flush
  | 0x0D => decodeB w 0x0D .blkenc
  | 0x0E => .ok (.encmcu (field w 11 0) (field w 23 12))
  | 0x0F => decodeN w 0x0F .encimg
  | 0x10 => decodeB w 0x10 .unzz
  | op => .error (.reservedOpcode op)

/-- The opcode of a command (R98). -/
def Instr.opcode : Instr → Nat
  | .nop => 0x00
  | .init => 0x01
  | .htbuild _ => 0x02
  | .csc _ _ _ => 0x03
  | .mcuload _ _ => 0x04
  | .fdct _ => 0x05
  | .quant _ => 0x06
  | .idct _ => 0x07
  | .zz _ => 0x08
  | .dcenc _ => 0x09
  | .acenc _ => 0x0A
  | .putbits _ _ => 0x0B
  | .flush => 0x0C
  | .blkenc _ => 0x0D
  | .encmcu _ _ => 0x0E
  | .encimg => 0x0F
  | .unzz _ => 0x10

/-- The mnemonic of a command (R98). -/
def Instr.mnemonic : Instr → String
  | .nop => "NOP"
  | .init => "INIT"
  | .htbuild _ => "HTBUILD"
  | .csc _ _ _ => "CSC"
  | .mcuload _ _ => "MCULOAD"
  | .fdct _ => "FDCT"
  | .quant _ => "QUANT"
  | .idct _ => "IDCT"
  | .zz _ => "ZZ"
  | .dcenc _ => "DCENC"
  | .acenc _ => "ACENC"
  | .putbits _ _ => "PUTBITS"
  | .flush => "FLUSH"
  | .blkenc _ => "BLKENC"
  | .encmcu _ _ => "ENCMCU"
  | .encimg => "ENCIMG"
  | .unzz _ => "UNZZ"

/-- The operand field w[23:0] of a command (R92 to R97). -/
def Instr.operands : Instr → Nat
  | .nop | .init | .flush | .encimg => 0
  | .htbuild t => t
  | .csc r g b => r * 2 ^ 16 + g * 2 ^ 8 + b
  | .mcuload mx my | .encmcu mx my => my * 2 ^ 12 + mx
  | .fdct b | .quant b | .idct b | .zz b | .unzz b | .dcenc b | .acenc b | .blkenc b => b
  | .putbits n v => n * 2 ^ 16 + v.toNat

/-- The command word of a command (R91): the opcode above the operand field. -/
def encode (i : Instr) : Word := BitVec.ofNat 32 (i.opcode * 2 ^ 24 + i.operands)

/-- One row of opcode_table.json: the words `w` with `w &&& mask = pattern` are the row's. -/
structure OpcodeRow where
  mnemonic : String
  pattern : Word
  mask : Word
deriving DecidableEq, Repr

/-- The 17 rows of opcode_table.json, in its order (R98, R99). -/
def opcodeRows : List OpcodeRow :=
  [⟨"NOP", 0x00000000, 0xFFFFFFFF⟩, ⟨"INIT", 0x01000000, 0xFFFFFFFF⟩,
   ⟨"HTBUILD", 0x02000000, 0xFFFFFFFC⟩, ⟨"CSC", 0x03000000, 0xFF000000⟩,
   ⟨"MCULOAD", 0x04000000, 0xFF000000⟩, ⟨"FDCT", 0x05000000, 0xFFFFFFF8⟩,
   ⟨"QUANT", 0x06000000, 0xFFFFFFF8⟩, ⟨"IDCT", 0x07000000, 0xFFFFFFF8⟩,
   ⟨"ZZ", 0x08000000, 0xFFFFFFF8⟩] ++
  [⟨"DCENC", 0x09000000, 0xFFFFFFF8⟩, ⟨"ACENC", 0x0A000000, 0xFFFFFFF8⟩,
   ⟨"PUTBITS", 0x0B000000, 0xFFE00000⟩, ⟨"FLUSH", 0x0C000000, 0xFFFFFFFF⟩,
   ⟨"BLKENC", 0x0D000000, 0xFFFFFFF8⟩, ⟨"ENCMCU", 0x0E000000, 0xFF000000⟩,
   ⟨"ENCIMG", 0x0F000000, 0xFFFFFFFF⟩, ⟨"UNZZ", 0x10000000, 0xFFFFFFF8⟩]

/-- The command the decoder reads from a word numbered as opcode_table.json numbers it. A command
is one 32-bit word (R91, R103), so a number of more than 32 bits is none. -/
def decodeTableWord (_nbits w : Nat) : Option Instr :=
  if w < 2 ^ 32 then (decode (BitVec.ofNat 32 w)).toOption else none

end Sys2Proof
end

