-- ==== Sys2Proof/Machine/CosNum.lean ====
section
/-!
DEFINITION. Exact arithmetic in the field of cos(π/16) over the rationals (00_scope.md R12): sums,
products with rationals and with cosines of multiples of π/16, sign and floor. Nothing here rounds but
`floor`, which answers an integer.
-/

namespace Sys2Proof

/-- The rational q as a field number. -/
def CosNum.ofRat (q : Rat) : CosNum := ⟨q, 0, 0, 0, 0, 0, 0, 0⟩

/-- The integer z as a field number. -/
def CosNum.ofInt (z : Int) : CosNum := CosNum.ofRat z

/-- 0. -/
def CosNum.zero : CosNum := CosNum.ofRat 0

def CosNum.add (x y : CosNum) : CosNum :=
  ⟨x.a0 + y.a0, x.a1 + y.a1, x.a2 + y.a2, x.a3 + y.a3,
   x.a4 + y.a4, x.a5 + y.a5, x.a6 + y.a6, x.a7 + y.a7⟩

/-- q·x for a rational q. -/
def CosNum.scale (q : Rat) (x : CosNum) : CosNum :=
  ⟨q * x.a0, q * x.a1, q * x.a2, q * x.a3, q * x.a4, q * x.a5, q * x.a6, q * x.a7⟩

def CosNum.sub (x y : CosNum) : CosNum := x.add (y.scale (-1))

/-- x + q·cos(iπ/16), for i < 8. -/
def CosNum.addBasis (i : Nat) (q : Rat) (x : CosNum) : CosNum :=
  match i with
  | 0 => { x with a0 := x.a0 + q }
  | 1 => { x with a1 := x.a1 + q }
  | 2 => { x with a2 := x.a2 + q }
  | 3 => { x with a3 := x.a3 + q }
  | 4 => { x with a4 := x.a4 + q }
  | 5 => { x with a5 := x.a5 + q }
  | 6 => { x with a6 := x.a6 + q }
  | 7 => { x with a7 := x.a7 + q }
  | _ => x

/-- x + q·cos(nπ/16), for any n: the cosine has period 32 in n, is even about 16, is 0 at 8 and
changes sign about 8. -/
def CosNum.addCos (n : Nat) (q : Rat) (x : CosNum) : CosNum :=
  let m := if n % 32 ≤ 16 then n % 32 else 32 - n % 32
  if m < 8 then x.addBasis m q else if m = 8 then x else x.addBasis (16 - m) (-q)

/-- acc + q·cos(jπ/16)·cos(kπ/16), by the product formula
cos α·cos β = (cos(α + β) + cos(α − β))/2. -/
def CosNum.addCosCos (k j : Nat) (q : Rat) (acc : CosNum) : CosNum :=
  if q = 0 then acc
  else CosNum.addCos (j + k) (q / 2) (CosNum.addCos (if j ≤ k then k - j else j - k) (q / 2) acc)

/-- x·cos(kπ/16). -/
def CosNum.mulCos (k : Nat) (x : CosNum) : CosNum :=
  CosNum.addCosCos k 7 x.a7 <| CosNum.addCosCos k 6 x.a6 <| CosNum.addCosCos k 5 x.a5 <|
  CosNum.addCosCos k 4 x.a4 <| CosNum.addCosCos k 3 x.a3 <| CosNum.addCosCos k 2 x.a2 <|
  CosNum.addCosCos k 1 x.a1 <| CosNum.addCosCos k 0 x.a0 CosNum.zero

/-! The sign of a value is found exactly, by squaring away one square root at a time:
2cos(4π/16) = √2, 2cos(2π/16) = √(2 + √2), 2cos(π/16) = √(2 + √(2 + √2)). -/

/-- p + q√2. -/
structure Root2 where
  p : Int
  q : Int
deriving DecidableEq, Repr

/-- x + y√(2 + √2). -/
structure Root4 where
  x : Root2
  y : Root2
deriving DecidableEq, Repr

/-- The sign of a + b√d from the sign of a, of b, and of a² − b²d (d > 0): the sign both share, or
the sign of the one that is larger in size. -/
def signOfSum (sa sb sdiff : Int) : Int :=
  if sa = sb ∨ sb = 0 then sa else if sa = 0 then sb else sa * sdiff

def Root2.add (u v : Root2) : Root2 := ⟨u.p + v.p, u.q + v.q⟩
def Root2.sub (u v : Root2) : Root2 := ⟨u.p - v.p, u.q - v.q⟩
def Root2.mul (u v : Root2) : Root2 := ⟨u.p * v.p + 2 * u.q * v.q, u.p * v.q + u.q * v.p⟩

/-- u·(2 + √2). -/
def Root2.mulTwoRoot (u : Root2) : Root2 := ⟨2 * u.p + 2 * u.q, u.p + 2 * u.q⟩

def Root2.sign (u : Root2) : Int := signOfSum u.p.sign u.q.sign (u.p * u.p - 2 * (u.q * u.q)).sign

def Root4.sub (u v : Root4) : Root4 := ⟨u.x.sub v.x, u.y.sub v.y⟩
def Root4.mul (u v : Root4) : Root4 :=
  ⟨(u.x.mul v.x).add (u.y.mul v.y).mulTwoRoot, (u.x.mul v.y).add (u.y.mul v.x)⟩

/-- u·(2 + √(2 + √2)). -/
def Root4.mulTwoRoot (u : Root4) : Root4 :=
  ⟨(u.x.add u.x).add u.y.mulTwoRoot, u.x.add (u.y.add u.y)⟩

def Root4.sign (u : Root4) : Int :=
  signOfSum u.x.sign u.y.sign ((u.x.mul u.x).sub (u.y.mul u.y).mulTwoRoot).sign

/-- The sign of u + v√(2 + √(2 + √2)). -/
def root8Sign (u v : Root4) : Int :=
  signOfSum u.sign v.sign ((u.mul u).sub (v.mul v).mulTwoRoot).sign

/-- (n0 + n1 cos(π/16) + … + n7 cos(7π/16)) / den: a field number with its denominators cleared. -/
structure CosSum where
  n0 : Int
  n1 : Int
  n2 : Int
  n3 : Int
  n4 : Int
  n5 : Int
  n6 : Int
  n7 : Int
  den : Nat
deriving DecidableEq, Repr

/-- The integer d·q, for d a multiple of q's denominator. -/
def clearDen (d : Nat) (q : Rat) : Int := q.num * (d / q.den : Nat)

/-- The least common denominator of the eight coefficients. -/
def CosNum.commonDen (x : CosNum) : Nat :=
  ((((((x.a0.den.lcm x.a1.den).lcm x.a2.den).lcm x.a3.den).lcm x.a4.den).lcm x.a5.den).lcm
    x.a6.den).lcm x.a7.den

def CosNum.cleared (x : CosNum) : CosSum :=
  let d := x.commonDen
  ⟨clearDen d x.a0, clearDen d x.a1, clearDen d x.a2, clearDen d x.a3,
   clearDen d x.a4, clearDen d x.a5, clearDen d x.a6, clearDen d x.a7, d⟩

/-- The sign of the numerator minus z·den, so the sign of the value minus z: twice the numerator is
written over √2, √(2 + √2) and √(2 + √(2 + √2)). -/
def CosSum.signMinus (c : CosSum) (z : Int) : Int :=
  root8Sign
    ⟨⟨2 * (c.n0 - z * c.den), c.n4⟩, ⟨c.n2 - c.n6, c.n6⟩⟩
    ⟨⟨c.n1 - c.n3 + c.n5 - c.n7, c.n5 - c.n7⟩, ⟨c.n3 - c.n5, c.n7⟩⟩

/-- The sign of x: 1, 0 or −1. -/
def CosNum.sign (x : CosNum) : Int := x.cleared.signMinus 0

/-- A natural number greater than |x|. -/
def CosSum.bound (c : CosSum) : Nat :=
  (c.n0.natAbs + c.n1.natAbs + c.n2.natAbs + c.n3.natAbs + c.n4.natAbs + c.n5.natAbs +
    c.n6.natAbs + c.n7.natAbs) / c.den + 1

/-- The greatest integer not above the value, among b, b + 1, …, b + 2^k − 1: one bit a step. -/
def CosSum.search (c : CosSum) : Nat → Int → Int
  | 0, b => b
  | k + 1, b =>
    if 0 ≤ c.signMinus (b + 2 ^ k) then CosSum.search c k (b + 2 ^ k) else CosSum.search c k b

/-- `floor(x)`: the greatest integer ≤ x (R12). -/
def CosNum.floor (x : CosNum) : Int :=
  let c := x.cleared
  let k := c.bound.log2 + 1
  c.search (k + 1) (-(2 ^ k))

end Sys2Proof
end

