-- ==== Sys2Proof/Machine/CosReal.lean ====
section
/-!
DEFINITION. The real number a field number denotes, and that the arithmetic of Machine/CosNum.lean is
that of the real numbers (00_scope.md R12). It stands before Config, since the type of the free value
Config.otherReals speaks of real numbers.
-/

namespace Sys2Proof

open Real

/-- The real number a field number denotes. A meaning for types and claims only: no step uses it. -/
noncomputable def CosNum.toReal (x : CosNum) : ℝ :=
  x.a0 + x.a1 * Real.cos (Real.pi / 16) + x.a2 * Real.cos (2 * Real.pi / 16) +
    x.a3 * Real.cos (3 * Real.pi / 16) + x.a4 * Real.cos (4 * Real.pi / 16) +
    x.a5 * Real.cos (5 * Real.pi / 16) + x.a6 * Real.cos (6 * Real.pi / 16) +
    x.a7 * Real.cos (7 * Real.pi / 16)

/-- The real number a `NUM` value denotes, where ρ gives the real numbers outside the field. -/
noncomputable def NumVal.toRealWith (ρ : Nat → ℝ) (x : NumVal) : ℝ :=
  x.inField.toReal + (x.others.map fun p => p.2.toReal * ρ p.1).sum

/-! ### Sums and products with rationals -/

@[simp] theorem CosNum.toReal_ofRat (q : Rat) : (CosNum.ofRat q).toReal = q := by
  simp [CosNum.toReal, CosNum.ofRat]

@[simp] theorem CosNum.toReal_ofInt (z : Int) : (CosNum.ofInt z).toReal = z := by
  simp [CosNum.ofInt]

@[simp] theorem CosNum.toReal_zero : CosNum.zero.toReal = 0 := by simp [CosNum.zero]

@[simp] theorem CosNum.toReal_add (x y : CosNum) : (x.add y).toReal = x.toReal + y.toReal := by
  simp only [CosNum.toReal, CosNum.add, Rat.cast_add]
  ring

@[simp] theorem CosNum.toReal_scale (q : Rat) (x : CosNum) :
    (x.scale q).toReal = q * x.toReal := by
  simp only [CosNum.toReal, CosNum.scale, Rat.cast_mul]
  ring

@[simp] theorem CosNum.toReal_sub (x y : CosNum) : (x.sub y).toReal = x.toReal - y.toReal := by
  simp [CosNum.sub]
  ring

/-! ### Products with cosines -/

theorem CosNum.toReal_addBasis (i : Nat) (hi : i < 8) (q : Rat) (x : CosNum) :
    (x.addBasis i q).toReal = x.toReal + q * cos (i * π / 16) := by
  interval_cases i <;>
    simp only [CosNum.toReal, CosNum.addBasis, Rat.cast_add, Nat.cast_zero, Nat.cast_one,
      Nat.cast_ofNat, zero_mul, zero_div, cos_zero, one_mul] <;> ring

/-- cos(nπ/16) depends on n modulo 32 only. -/
theorem cos_mod (n : Nat) : cos (n * π / 16) = cos ((n % 32 : Nat) * π / 16) := by
  have h : (n : ℝ) * π / 16 = (n % 32 : Nat) * π / 16 + (n / 32 : Nat) * (2 * π) := by
    have hn : (n : ℝ) = (n % 32 : Nat) + 32 * (n / 32 : Nat) := by
      exact_mod_cast (Nat.mod_add_div n 32).symm
    rw [hn]
    ring
  rw [h, cos_add_nat_mul_two_pi]

/-- cos((32 − n)π/16) = cos(nπ/16). -/
theorem cos_reflect (n : Nat) (hn : n ≤ 32) :
    cos ((32 - n : Nat) * π / 16) = cos (n * π / 16) := by
  rw [Nat.cast_sub hn, ← cos_two_pi_sub]
  congr 1
  push_cast
  ring

/-- cos((16 − n)π/16) = −cos(nπ/16). -/
theorem cos_supplement (n : Nat) (hn : n ≤ 16) :
    cos ((16 - n : Nat) * π / 16) = -cos (n * π / 16) := by
  rw [Nat.cast_sub hn, ← cos_pi_sub]
  congr 1
  push_cast
  ring

theorem CosNum.toReal_addCos (n : Nat) (q : Rat) (x : CosNum) :
    (x.addCos n q).toReal = x.toReal + q * cos (n * π / 16) := by
  have hfold : ∃ m ≤ 16, (if n % 32 ≤ 16 then n % 32 else 32 - n % 32) = m ∧
      cos (n * π / 16) = cos (m * π / 16) := by
    by_cases h : n % 32 ≤ 16
    · exact ⟨n % 32, h, by simp [h], cos_mod n⟩
    · refine ⟨32 - n % 32, by omega, by simp [h], ?_⟩
      rw [cos_reflect _ (by omega), cos_mod n]
  obtain ⟨m, hm, hmeq, hcos⟩ := hfold
  simp only [CosNum.addCos, hmeq, hcos]
  split_ifs with h1 h2
  · exact toReal_addBasis m h1 q x
  · subst h2
    have : ((8 : Nat) : ℝ) * π / 16 = π / 2 := by push_cast; ring
    rw [this, cos_pi_div_two, mul_zero, add_zero]
  · rw [toReal_addBasis (16 - m) (by omega) (-q) x, cos_supplement m hm]
    push_cast
    ring

theorem CosNum.toReal_addCosCos (k j : Nat) (q : Rat) (acc : CosNum) :
    (CosNum.addCosCos k j q acc).toReal =
      acc.toReal + q * cos (j * π / 16) * cos (k * π / 16) := by
  simp only [CosNum.addCosCos]
  split_ifs with h0 hjk
  · simp [h0]
  all_goals
    simp only [toReal_addCos]
    have hprod : cos (j * π / 16) * cos (k * π / 16) =
        (cos ((j * π / 16) + (k * π / 16)) + cos ((j * π / 16) - (k * π / 16))) / 2 := by
      rw [cos_add, cos_sub]
      ring
    have hsum : ((j + k : Nat) : ℝ) * π / 16 = j * π / 16 + k * π / 16 := by
      push_cast
      ring
    rw [mul_assoc, hprod, hsum]
  · have hd : ((k - j : Nat) : ℝ) * π / 16 = -(j * π / 16 - k * π / 16) := by
      rw [Nat.cast_sub hjk]
      ring
    rw [hd, cos_neg]
    push_cast
    ring
  · have hd : ((j - k : Nat) : ℝ) * π / 16 = j * π / 16 - k * π / 16 := by
      rw [Nat.cast_sub (by omega)]
      ring
    rw [hd]
    push_cast
    ring

/-- The product with cos(kπ/16) is exact. -/
@[simp] theorem CosNum.toReal_mulCos (k : Nat) (x : CosNum) :
    (x.mulCos k).toReal = x.toReal * cos (k * π / 16) := by
  simp only [CosNum.mulCos, toReal_addCosCos, toReal_zero]
  simp only [CosNum.toReal, Nat.cast_zero, Nat.cast_one, Nat.cast_ofNat, zero_mul, zero_div,
    cos_zero, one_mul]
  ring

/-! ### Signs -/

/-- z is the sign of x. -/
def IsSign (z : Int) (x : ℝ) : Prop := (z = 1 ∧ 0 < x) ∨ (z = 0 ∧ x = 0) ∨ (z = -1 ∧ x < 0)

theorem isSign_int (z : Int) : IsSign z.sign z := by
  rcases lt_trichotomy z 0 with h | h | h
  · exact .inr (.inr ⟨Int.sign_eq_neg_one_of_neg h, by exact_mod_cast h⟩)
  · exact .inr (.inl ⟨by simp [h], by simp [h]⟩)
  · exact .inl ⟨Int.sign_eq_one_of_pos h, by exact_mod_cast h⟩

theorem IsSign.of_pos_mul {z : Int} {x c : ℝ} (hc : 0 < c) (h : IsSign z (c * x)) : IsSign z x := by
  rcases h with ⟨h1, h2⟩ | ⟨h1, h2⟩ | ⟨h1, h2⟩
  · exact .inl ⟨h1, (mul_pos_iff_of_pos_left hc).mp h2⟩
  · exact .inr (.inl ⟨h1, (mul_eq_zero.mp h2).resolve_left hc.ne'⟩)
  · exact .inr (.inr ⟨h1, by_contra fun hx => absurd h2 (not_lt.mpr (mul_nonneg hc.le (not_lt.mp hx)))⟩)

theorem IsSign.nonneg_iff {z : Int} {x : ℝ} (h : IsSign z x) : 0 ≤ z ↔ 0 ≤ x := by
  rcases h with ⟨rfl, h⟩ | ⟨rfl, h⟩ | ⟨rfl, h⟩
  · exact ⟨fun _ => h.le, fun _ => by decide⟩
  · exact ⟨fun _ => h.ge, fun _ => le_refl _⟩
  · exact ⟨fun h0 => absurd h0 (by decide), fun h0 => absurd h0 (by linarith)⟩

theorem IsSign.neg_iff {z : Int} {x : ℝ} (h : IsSign z x) : z < 0 ↔ x < 0 := by
  have := h.nonneg_iff
  rw [← not_le, ← not_le]
  exact not_congr this

/-- The sign of a + b√d, as `signOfSum` finds it. -/
theorem isSign_signOfSum {sa sb sd : Int} {a b d : ℝ} (hd : 0 < d) (ha : IsSign sa a)
    (hb : IsSign sb b) (hs : IsSign sd (a * a - b * b * d)) :
    IsSign (signOfSum sa sb sd) (a + b * √d) := by
  have hr : 0 < √d := Real.sqrt_pos.mpr hd
  have hrr : √d * √d = d := Real.mul_self_sqrt hd.le
  have hfac : a * a - b * b * d = (a + b * √d) * (a - b * √d) := by
    linear_combination (b * b) * hrr
  rcases ha with ⟨rfl, ha⟩ | ⟨rfl, ha⟩ | ⟨rfl, ha⟩ <;>
    rcases hb with ⟨rfl, hb⟩ | ⟨rfl, hb⟩ | ⟨rfl, hb⟩
  · exact .inl ⟨by simp [signOfSum], by positivity⟩
  · exact .inl ⟨by simp [signOfSum], by simp [hb, ha]⟩
  · have hpos : 0 < a - b * √d := by nlinarith
    rw [hfac, mul_comm] at hs
    simpa [signOfSum] using hs.of_pos_mul hpos
  · exact .inl ⟨by simp [signOfSum], by simp [ha]; positivity⟩
  · exact .inr (.inl ⟨by simp [signOfSum], by simp [ha, hb]⟩)
  · exact .inr (.inr ⟨by simp [signOfSum], by simp [ha]; nlinarith⟩)
  · have hpos : 0 < -(a - b * √d) := by nlinarith
    have hneg : a * a - b * b * d = -(-(a - b * √d) * (a + b * √d)) := by
      rw [hfac]
      ring
    rw [hneg] at hs
    have h2 : IsSign (-sd) (-(a - b * √d) * (a + b * √d)) := by
      rcases hs with ⟨h1, h2⟩ | ⟨h1, h2⟩ | ⟨h1, h2⟩
      · exact .inr (.inr ⟨by omega, by linarith⟩)
      · exact .inr (.inl ⟨by omega, by linarith⟩)
      · exact .inl ⟨by omega, by linarith⟩
    simpa [signOfSum] using h2.of_pos_mul hpos
  · exact .inr (.inr ⟨by simp [signOfSum], by simp [hb, ha]⟩)
  · exact .inr (.inr ⟨by simp [signOfSum], by nlinarith⟩)

/-- The real number of a Root2. -/
noncomputable def Root2.toReal (u : Root2) : ℝ := u.p + u.q * √2

/-- The real number of a Root4. -/
noncomputable def Root4.toReal (u : Root4) : ℝ := u.x.toReal + u.y.toReal * √(2 + √2)

theorem sqrt_two_mul_self : √2 * √2 = (2 : ℝ) := Real.mul_self_sqrt (by norm_num)

theorem sqrt_tower_mul_self : √(2 + √2) * √(2 + √2) = (2 + √2 : ℝ) :=
  Real.mul_self_sqrt (by positivity)

@[simp] theorem Root2.toReal_add (u v : Root2) : (u.add v).toReal = u.toReal + v.toReal := by
  simp [Root2.toReal, Root2.add]
  ring

@[simp] theorem Root2.toReal_sub (u v : Root2) : (u.sub v).toReal = u.toReal - v.toReal := by
  simp [Root2.toReal, Root2.sub]
  ring

@[simp] theorem Root2.toReal_mul (u v : Root2) : (u.mul v).toReal = u.toReal * v.toReal := by
  simp [Root2.toReal, Root2.mul]
  linear_combination (-(u.q : ℝ) * v.q) * sqrt_two_mul_self

@[simp] theorem Root2.toReal_mulTwoRoot (u : Root2) :
    u.mulTwoRoot.toReal = u.toReal * (2 + √2) := by
  simp [Root2.toReal, Root2.mulTwoRoot]
  linear_combination (-(u.q : ℝ)) * sqrt_two_mul_self

theorem Root2.isSign_sign (u : Root2) : IsSign u.sign u.toReal := by
  refine isSign_signOfSum (by norm_num) (isSign_int u.p) (isSign_int u.q) ?_
  have h := isSign_int (u.p * u.p - 2 * (u.q * u.q))
  push_cast at h
  rwa [show (u.p : ℝ) * u.p - u.q * u.q * 2 = u.p * u.p - 2 * (u.q * u.q) by ring]

@[simp] theorem Root4.toReal_sub (u v : Root4) : (u.sub v).toReal = u.toReal - v.toReal := by
  simp [Root4.toReal, Root4.sub]
  ring

@[simp] theorem Root4.toReal_mul (u v : Root4) : (u.mul v).toReal = u.toReal * v.toReal := by
  simp only [Root4.toReal, Root4.mul, Root2.toReal_add, Root2.toReal_mul, Root2.toReal_mulTwoRoot]
  linear_combination (-u.y.toReal * v.y.toReal) * sqrt_tower_mul_self

@[simp] theorem Root4.toReal_mulTwoRoot (u : Root4) :
    u.mulTwoRoot.toReal = u.toReal * (2 + √(2 + √2)) := by
  simp only [Root4.toReal, Root4.mulTwoRoot, Root2.toReal_add, Root2.toReal_mulTwoRoot]
  linear_combination (-u.y.toReal) * sqrt_tower_mul_self

theorem Root4.isSign_sign (u : Root4) : IsSign u.sign u.toReal := by
  refine isSign_signOfSum (by positivity) u.x.isSign_sign u.y.isSign_sign ?_
  have h := Root2.isSign_sign ((u.x.mul u.x).sub (u.y.mul u.y).mulTwoRoot)
  simpa using h

theorem isSign_root8Sign (u v : Root4) :
    IsSign (root8Sign u v) (u.toReal + v.toReal * √(2 + √(2 + √2))) := by
  refine isSign_signOfSum (by positivity) u.isSign_sign v.isSign_sign ?_
  have h := Root4.isSign_sign ((u.mul u).sub (v.mul v).mulTwoRoot)
  simpa using h

/-! ### The cosines as nested square roots -/

theorem cos_one : cos (π / 16) = √(2 + √(2 + √2)) / 2 := cos_pi_div_sixteen

theorem cos_two : cos (2 * π / 16) = √(2 + √2) / 2 := by
  rw [show 2 * π / 16 = π / 8 by ring, cos_pi_div_eight]

theorem cos_four : cos (4 * π / 16) = √2 / 2 := by
  rw [show 4 * π / 16 = π / 4 by ring, cos_pi_div_four]

/-- cos((m+n)t) = 2 cos(mt) cos(nt) − cos((m−n)t). -/
theorem cos_sum_rule (a b : ℝ) : cos (a + b) = 2 * cos a * cos b - cos (a - b) := by
  rw [cos_add, cos_sub]
  ring

theorem cos_three : cos (3 * π / 16) = 2 * cos (2 * π / 16) * cos (π / 16) - cos (π / 16) := by
  rw [show 3 * π / 16 = 2 * π / 16 + π / 16 by ring, cos_sum_rule,
    show 2 * π / 16 - π / 16 = π / 16 by ring]

theorem cos_five :
    cos (5 * π / 16) = 2 * cos (4 * π / 16) * cos (π / 16) - cos (3 * π / 16) := by
  rw [show 5 * π / 16 = 4 * π / 16 + π / 16 by ring, cos_sum_rule,
    show 4 * π / 16 - π / 16 = 3 * π / 16 by ring]

theorem cos_six :
    cos (6 * π / 16) = 2 * cos (4 * π / 16) * cos (2 * π / 16) - cos (2 * π / 16) := by
  rw [show 6 * π / 16 = 4 * π / 16 + 2 * π / 16 by ring, cos_sum_rule,
    show 4 * π / 16 - 2 * π / 16 = 2 * π / 16 by ring]

theorem cos_seven :
    cos (7 * π / 16) = 2 * cos (4 * π / 16) * cos (3 * π / 16) - cos (π / 16) := by
  rw [show 7 * π / 16 = 4 * π / 16 + 3 * π / 16 by ring, cos_sum_rule,
    show 4 * π / 16 - 3 * π / 16 = π / 16 by ring]

/-! ### Cleared denominators, comparison, floor -/

/-- The real number a CosSum stands for. -/
noncomputable def CosSum.toReal (c : CosSum) : ℝ :=
  (c.n0 + c.n1 * cos (π / 16) + c.n2 * cos (2 * π / 16) + c.n3 * cos (3 * π / 16) +
    c.n4 * cos (4 * π / 16) + c.n5 * cos (5 * π / 16) + c.n6 * cos (6 * π / 16) +
    c.n7 * cos (7 * π / 16)) / c.den

theorem CosSum.isSign_signMinus (c : CosSum) (hden : 0 < c.den) (z : Int) :
    IsSign (c.signMinus z) (c.toReal - z) := by
  have hd : (0 : ℝ) < c.den := by exact_mod_cast hden
  have h := isSign_root8Sign ⟨⟨2 * (c.n0 - z * c.den), c.n4⟩, ⟨c.n2 - c.n6, c.n6⟩⟩
    ⟨⟨c.n1 - c.n3 + c.n5 - c.n7, c.n5 - c.n7⟩, ⟨c.n3 - c.n5, c.n7⟩⟩
  refine IsSign.of_pos_mul (c := 2 * c.den) (by positivity) ?_
  refine (fun y (e : y = _) => e ▸ h : ∀ y : ℝ, y = _ → IsSign (c.signMinus z) y) _ ?_
  simp only [CosSum.toReal, Root4.toReal, Root2.toReal, cos_seven, cos_six, cos_five, cos_three,
    cos_four, cos_two, cos_one]
  push_cast
  field_simp
  ring

theorem clearDen_cast (d : Nat) (q : Rat) (h : q.den ∣ d) : (clearDen d q : ℝ) = d * q := by
  obtain ⟨k, rfl⟩ := h
  have hq : (q.den : ℝ) ≠ 0 := by exact_mod_cast q.den_nz
  rw [clearDen, Nat.mul_div_cancel_left _ q.den_pos]
  push_cast
  rw [show (q : ℝ) = q.num / q.den by exact_mod_cast (Rat.num_div_den q).symm]
  field_simp

theorem CosNum.commonDen_pos (x : CosNum) : 0 < x.commonDen := by
  simp only [CosNum.commonDen]
  exact Nat.pos_of_ne_zero fun h => by simp [Nat.lcm_eq_zero_iff] at h

theorem CosNum.toReal_cleared (x : CosNum) : x.cleared.toReal = x.toReal := by
  have hd : (x.commonDen : ℝ) ≠ 0 := by exact_mod_cast x.commonDen_pos.ne'
  have hl : ∀ a b : Nat, a ∣ a.lcm b := Nat.dvd_lcm_left
  have hr : ∀ a b : Nat, b ∣ a.lcm b := Nat.dvd_lcm_right
  have e7 : x.a7.den ∣ x.commonDen := hr _ _
  have e6 : x.a6.den ∣ x.commonDen := (hr _ _).trans (hl _ _)
  have e5 : x.a5.den ∣ x.commonDen := ((hr _ _).trans (hl _ _)).trans (hl _ _)
  have e4 : x.a4.den ∣ x.commonDen := (((hr _ _).trans (hl _ _)).trans (hl _ _)).trans (hl _ _)
  have e3 : x.a3.den ∣ x.commonDen :=
    ((((hr _ _).trans (hl _ _)).trans (hl _ _)).trans (hl _ _)).trans (hl _ _)
  have e2 : x.a2.den ∣ x.commonDen :=
    (((((hr _ _).trans (hl _ _)).trans (hl _ _)).trans (hl _ _)).trans (hl _ _)).trans (hl _ _)
  have e1 : x.a1.den ∣ x.commonDen :=
    ((((((hr _ _).trans (hl _ _)).trans (hl _ _)).trans (hl _ _)).trans (hl _ _)).trans
      (hl _ _)).trans (hl _ _)
  have e0 : x.a0.den ∣ x.commonDen :=
    ((((((hl _ _).trans (hl _ _)).trans (hl _ _)).trans (hl _ _)).trans (hl _ _)).trans
      (hl _ _)).trans (hl _ _)
  simp only [CosNum.cleared, CosSum.toReal, CosNum.toReal, clearDen_cast _ _ e0,
    clearDen_cast _ _ e1, clearDen_cast _ _ e2, clearDen_cast _ _ e3, clearDen_cast _ _ e4,
    clearDen_cast _ _ e5, clearDen_cast _ _ e6, clearDen_cast _ _ e7]
  field_simp

/-- `sign` is the sign of the real number. -/
theorem CosNum.isSign_sign (x : CosNum) : IsSign x.sign x.toReal := by
  have h := CosSum.isSign_signMinus x.cleared x.commonDen_pos 0
  simpa [CosNum.toReal_cleared, CosNum.sign] using h

theorem CosSum.abs_toReal_lt_bound (c : CosSum) (hden : 0 < c.den) : |c.toReal| < c.bound := by
  have hd : (0 : ℝ) < c.den := by exact_mod_cast hden
  have hterm : ∀ (n : Int) (t : ℝ), |(n : ℝ) * cos t| ≤ n.natAbs := fun n t => by
    rw [abs_mul, Nat.cast_natAbs, Int.cast_abs]
    exact mul_le_of_le_one_right (abs_nonneg _) (abs_cos_le_one t)
  set total := c.n0.natAbs + c.n1.natAbs + c.n2.natAbs + c.n3.natAbs + c.n4.natAbs + c.n5.natAbs +
    c.n6.natAbs + c.n7.natAbs with htotal
  have hnum : |(c.n0 + c.n1 * cos (π / 16) + c.n2 * cos (2 * π / 16) + c.n3 * cos (3 * π / 16) +
      c.n4 * cos (4 * π / 16) + c.n5 * cos (5 * π / 16) + c.n6 * cos (6 * π / 16) +
      c.n7 * cos (7 * π / 16) : ℝ)| ≤ total := by
    have h0 := hterm c.n0 0
    rw [cos_zero, mul_one] at h0
    have h1 := hterm c.n1 (π / 16)
    have h2 := hterm c.n2 (2 * π / 16)
    have h3 := hterm c.n3 (3 * π / 16)
    have h4 := hterm c.n4 (4 * π / 16)
    have h5 := hterm c.n5 (5 * π / 16)
    have h6 := hterm c.n6 (6 * π / 16)
    have h7 := hterm c.n7 (7 * π / 16)
    rw [htotal]
    push_cast
    rw [abs_le] at *
    constructor <;> linarith [h0.1, h0.2, h1.1, h1.2, h2.1, h2.2, h3.1, h3.2, h4.1, h4.2, h5.1,
      h5.2, h6.1, h6.2, h7.1, h7.2]
  have hlt : (total : ℝ) < c.bound * c.den := by
    have h : total < (total / c.den + 1) * c.den := by
      have h1 := Nat.div_add_mod total c.den
      have h2 := Nat.mod_lt total hden
      rw [Nat.add_mul, Nat.one_mul, Nat.mul_comm]
      omega
    exact_mod_cast h
  rw [CosSum.toReal, abs_div, abs_of_pos hd, div_lt_iff₀ hd]
  exact hnum.trans_lt hlt

theorem CosSum.search_eq_floor (c : CosSum) (hden : 0 < c.den) (k : Nat) (b : Int)
    (hlo : (b : ℝ) ≤ c.toReal) (hhi : c.toReal < b + 2 ^ k) : c.search k b = ⌊c.toReal⌋ := by
  induction k generalizing b with
  | zero =>
    rw [CosSum.search, eq_comm, Int.floor_eq_iff]
    exact ⟨hlo, by simpa using hhi⟩
  | succ k ih =>
    have hs := (c.isSign_signMinus hden (b + 2 ^ k)).nonneg_iff
    push_cast at hs
    rw [CosSum.search]
    split_ifs with h
    · refine ih (b + 2 ^ k) ?_ ?_ <;> push_cast
      · linarith [hs.mp h]
      · rw [pow_succ] at hhi
        linarith
    · refine ih b hlo ?_
      by_contra hc
      exact h (hs.mpr (by linarith))

/-- `floor` is the floor of the real number (R12). -/
theorem CosNum.floor_eq (x : CosNum) : x.floor = ⌊x.toReal⌋ := by
  have hden := x.commonDen_pos
  have hb := x.cleared.abs_toReal_lt_bound hden
  have hpow : (x.cleared.bound : ℝ) < 2 ^ (x.cleared.bound.log2 + 1) := by
    exact_mod_cast Nat.lt_log2_self
  rw [abs_lt] at hb
  rw [CosNum.floor, ← CosNum.toReal_cleared]
  refine CosSum.search_eq_floor _ hden _ _ ?_ ?_ <;> push_cast
  · linarith [hb.1]
  · rw [pow_succ (2 : ℝ) (x.cleared.bound.log2 + 1)]
    linarith [hb.2]

end Sys2Proof
end

