-- ==== Sys2Proof/Config.lean ====
section
/-!
DEFINITION. What an implementation fixes, and the free values of the spec.
The OPEN parameters of 00_scope.md R9 are plain data (`Params`), which State carries and no step
writes; the free values are opaque constants, of which no proof can see the value.
-/

namespace Sys2Proof.Config

/-- The number type `NUM` (R9, R12, R157; 92_eei_decisions.md D4). -/
inductive NumMode where
  /-- Exact real arithmetic, the default. -/
  | real
  /-- Any other type, with tie tolerance `EPS_NUM = eps`: what it computes is a free value
  (`inexactNum`), and QUANT within `eps` of a rounding tie may give either neighbour (R157).
  R9, R157, D4 and U6 give EPS_NUM no type and no sign: it may be any real number here, and a negative
  one makes no tie near. DESIGN CHOICE, safe: log entry 8. -/
  | inexact (eps : NumVal)
deriving DecidableEq, Repr

/-- A formula whose result an element of type `NUM` takes. -/
inductive NumFormula where
  /-- Yc, Cbc and Crc of R, G, B (R120). -/
  | yc
  | cbc
  | crc
  /-- F(u, v) of the 64 elements of a sample block (R153). -/
  | dct (v u : Nat)
  /-- f(x, y) + 128 of the 64 coefficients of a block of group g (R158). -/
  | idct (g y x : Nat)
deriving DecidableEq, Repr

/-- `PAD_MODE` (R9, R242; D8). -/
inductive PadMode where
  | zero
  | stale
deriving DecidableEq, Repr

/-- `EMPTY_FLUSH` (R9, R243; D9). -/
inductive EmptyFlush where
  | skip
  | emit
deriving DecidableEq, Repr

/-- The five free bytes of `APP0_TAIL` (R9, R274). The last two of its seven bytes, the thumbnail
size, are 00 00 for any value of the parameter. -/
structure App0Tail where
  units : Byte
  xDensityHigh : Byte
  xDensityLow : Byte
  yDensityHigh : Byte
  yDensityLow : Byte
deriving DecidableEq, Repr

/-- The OPEN parameters of R9 that have a default. DESIGN CHOICE, safe: log entry 6. -/
structure Params where
  num : NumMode
  padMode : PadMode
  emptyFlush : EmptyFlush
  app0Tail : App0Tail
deriving DecidableEq, Repr

/-- R9's defaults: Real, zero, skip, 00 00 01 00 01 (00 00). -/
def defaultParams : Params :=
  ⟨.real, .zero, .skip, ⟨0x00, 0x00, 0x01, 0x00, 0x01⟩⟩

/-- FREE VALUE. Whether the n-th sink write succeeds that no listed draw answers (R72; U3).
DESIGN CHOICE, safe: log entry 4. -/
opaque sinkAnswer : Nat → Bool

/-- FREE VALUE. Whether the n-th tie of an inexact `NUM` that no listed draw answers goes up (R157; U5).
DESIGN CHOICE, safe: log entry 8. -/
opaque tieUp : Nat → Bool

/-- FREE VALUE. What a formula gives of its operands in a number type that is not Real, of which the spec
gives no precision (R12, R157; D4; U4). DESIGN CHOICE, safe: log entry 8. -/
opaque inexactNum : NumFormula → List NumVal → NumVal

/-- A value of a type of which no proof can see anything but that it is one; the instance only says
that there is one. -/
opaque someOf (α : Type) [Inhabited α] : α

/-- What is known of the real numbers ρ₀, ρ₁, … outside the field of cos(π/16): the floor of every `NUM`
value over them. -/
structure OtherReals where
  floor : NumVal → Int
  exact : ∃ ρ : Nat → ℝ, ∀ x : NumVal, floor x = ⌊x.toRealWith ρ⌋

/-- FREE VALUE. Some real numbers ρ₀, ρ₁, …, of which a proof can use only that they are real numbers:
the `NUM` values that the host may write and that are no numbers of the field (R67). The instance, in
which all of them are 0, only says that there are such. DESIGN CHOICE, safe: log entry 1. -/
def otherReals : OtherReals :=
  @someOf OtherReals ⟨⟨fun x => x.inField.floor, fun _ => 0, fun x => by
    simp [NumVal.toRealWith, CosNum.floor_eq]⟩⟩

/-- FREE VALUE. The pixel at (x, y) where the listed raster has none (R70, R71): the pixel source is
some function of the coordinates, fixed for the run. DESIGN CHOICE, safe: log entry 5. -/
opaque pixel : Nat → Nat → Rgb

/-- FREE VALUE. The `NUM` value that a 32-bit word written to a `NUM` element denotes (`NUM_WORD`,
R67; U7). DESIGN CHOICE, safe: log entry 7. -/
opaque numOfWord : Word → NumVal

/-- FREE VALUE. The 32-bit word that carries a `NUM` value to an element that is no `NUM`
(`NUM_WORD`, R67; U7). DESIGN CHOICE, safe: log entry 7. -/
opaque wordOfNum : NumVal → Word

/-- FREE VALUE. What the n-th read of unwritten elements gives for the `NUM` element at index i of its buffer
(R44, U1). DESIGN CHOICE, safe: log entry 2. -/
opaque unwrittenNum (n i : Nat) : NumVal

/-- FREE VALUE. What the n-th read of unwritten elements gives for the coefficient at index i of its buffer
(R44, U1). DESIGN CHOICE, safe: log entry 2. -/
opaque unwrittenCoef (n i : Nat) : Coef

/-- FREE VALUE. The default comment bytes, `COM_DEFAULT` (R9, R275; U11). DESIGN CHOICE, safe: log entry 11. -/
opaque comDefault : List Byte

end Sys2Proof.Config
end

