-- ==== Sys2Proof/Machine/State.lean ====
section
/-!
DEFINITION. The state of the core (10_state.md R20 to R46), of the two ports it reads and writes
(20_memory.md R70, R72), and of the host's coming accesses; how a step stops; the state after reset
(70_reset_and_hazards.md R340).
-/

namespace Sys2Proof.Machine

/-- A buffer of elements by index, only the written ones listed, index strictly rising (`bufWf`).
An index that is not listed is unwritten (R44). Element k of block b of a stage buffer has index
64 b + k, its offset in the host address map (R61); an entry of a Huffman table has its symbol. DESIGN CHOICE,
safe: log entry 19. -/
abbrev Buf (α : Type) := List (Nat × α)

/-- The code of one symbol: `len` bits, `code` as an unsigned number (R42). -/
structure HCode where
  code : Nat
  len : Nat
deriving DecidableEq, Repr, Inhabited

/-- The four built Huffman tables HT[0..3] in the order of R16. A symbol that is not listed is absent. -/
structure HTables where
  dcLum : Buf HCode
  dcChr : Buf HCode
  acLum : Buf HCode
  acChr : Buf HCode
deriving DecidableEq, Repr

/-- The fields of STATUS (R25). BUSY is no field: it always reads 0. -/
structure Status where
  err : Bool
  done : Bool
  ecode : BitVec 8
deriving DecidableEq, Repr

/-- A source of oracle draws: the listed answers first, the oldest at the head, then the free value
at `draws`, which counts the draws beyond the list. DESIGN CHOICE, safe: log entries 4 and 8. -/
structure Oracle where
  answers : List Bool
  draws : Nat
deriving DecidableEq, Repr

/-- The byte-sink port (R72): the output stream, whether the host has called flush() since the last
byte (R74, R279; DESIGN CHOICE, safe: log entry 14), and the draws that say which writes succeed. -/
structure Sink where
  stream : List Byte
  flushed : Bool
  oracle : Oracle
deriving DecidableEq, Repr

/-- One thing the host does, or one event from outside (R62, R104, R279, R317). DESIGN CHOICE, unsafe: log
entry 3. -/
inductive HostOp where
  /-- `RD a`: MemRead(a, 1). -/
  | read (a : Addr)
  /-- `WR a, v`: MemWrite(a, 1, v). At address 0x0000 it issues a command. -/
  | write (a : Addr) (v : BusValue)
  /-- `SINK x`: the host appends x to the output stream (R270). DEDUCED, unsafe: log entry 10. -/
  | sink (x : Byte)
  /-- The host calls the sink's flush() (R74, R279). -/
  | sinkFlush
  /-- Hardware reset (R317, R340). -/
  | reset
deriving DecidableEq, Repr

/-- An element that can be unwritten (R44). -/
inductive Location where
  | bufS (b k : Nat)
  | bufF (b k : Nat)
  | bufQ (b k : Nat)
  | bufZ (b k : Nat)
  | bufR (b k : Nat)
  | cscY
  | cscCb
  | cscCr
deriving DecidableEq, Repr

/-- Where the machine has no next step. It is no hardware error and sets no STATUS field (R311). The other
model fault of R311, UninitRead, stops nothing here: see `State.uninit`. -/
inductive Fault where
  /-- `Stuck`: a host access to an unmapped address (R68, U2). Raised by the host accesses of
  Machine/HostAccess.lean. Safe: the hardware's behaviour there is unspecified. -/
  | stuck (a : Addr)
deriving DecidableEq, Repr

/-- Why a step has no meaning. -/
inductive Refusal where
  /-- The command has no meaning yet. Raised by `exec` alone; no arm raises it now. Safe. -/
  | notModelled (mnemonic : String)
deriving DecidableEq, Repr

/-- The whole state. -/
structure State where
  /-- STATUS (R25). -/
  status : Status
  /-- ERRINFO (R26). -/
  errinfo : Word
  /-- IMG_W (R27). -/
  imgW : BitVec 16
  /-- IMG_H (R27). -/
  imgH : BitVec 16
  /-- MCU_X (R29). -/
  mcuX : BitVec 12
  /-- MCU_Y (R29). -/
  mcuY : BitVec 12
  /-- PRED_Y (R30). -/
  predY : Coef
  /-- PRED_CB (R30). -/
  predCb : Coef
  /-- PRED_CR (R30). -/
  predCr : Coef
  /-- BITACC (R31). -/
  bitacc : Byte
  /-- BITIDX (R31). -/
  bitidx : BitVec 3
  /-- HTVALID, bit t for table t (R32). -/
  htvalid : BitVec 4
  /-- CSC_Y (R38); `none` is the spec's "unwritten" (R44, R340), which reads as a free value. -/
  cscY : Option NumElem
  /-- CSC_CB (R38). -/
  cscCb : Option NumElem
  /-- CSC_CR (R38). -/
  cscCr : Option NumElem
  /-- The sample buffers S (R33). -/
  bufS : Buf NumElem
  /-- The coefficient buffers F (R34). -/
  bufF : Buf NumElem
  /-- The quantised buffers Q (R35). -/
  bufQ : Buf Coef
  /-- The zigzag buffers Z (R36). -/
  bufZ : Buf Coef
  /-- The reconstruction buffers R (R37). -/
  bufR : Buf NumElem
  /-- The built Huffman tables HT (R42). -/
  ht : HTables
  /-- The byte-sink port (R72). -/
  sink : Sink
  /-- The pixel source (R70, R71): row y, column x of the raster; `Config.pixel` where it has none.
  DESIGN CHOICE, safe: log entry 5. -/
  raster : List (List Rgb)
  /-- The model's own: the host's coming accesses, the next one at the head. DESIGN CHOICE, unsafe:
  log entry 3. -/
  host : List HostOp
  /-- The model's own: what the last host read returned (R62). DESIGN CHOICE: log entry 3. -/
  readData : Option BusValue
  /-- The model's own: the draws of R157. DESIGN CHOICE, safe: log entry 8. -/
  tie : Oracle
  /-- The model's own: the number the next draw of free values for unwritten elements takes (R44). DESIGN
  CHOICE, safe: log entry 2. -/
  reads : Nat
  /-- The model fault UninitRead(location) of R44 and R311 as a record: the location of the first unwritten
  element that was read, never cleared. The machine goes on with a free value, as the hardware does. DESIGN
  CHOICE, safe: log entry 2. -/
  uninit : Option Location
  /-- The OPEN parameters of R9; no step writes them. DESIGN CHOICE, safe: log entry 6. -/
  params : Config.Params
deriving DecidableEq, Repr

/-- The machine right after reset (R340), with nothing yet in the output stream, no access of the
host pending, R9's default parameters, no UninitRead recorded, and every draw and pixel free. -/
def State.reset : State where
  status := ⟨false, false, 0⟩
  errinfo := 0
  imgW := 0
  imgH := 0
  mcuX := 0
  mcuY := 0
  predY := 0
  predCb := 0
  predCr := 0
  bitacc := 0
  bitidx := 7
  htvalid := 0
  cscY := none
  cscCb := none
  cscCr := none
  bufS := []
  bufF := []
  bufQ := []
  bufZ := []
  bufR := []
  ht := ⟨[], [], [], []⟩
  sink := ⟨[], false, ⟨[], 0⟩⟩
  raster := []
  host := []
  readData := none
  tie := ⟨[], 0⟩
  reads := 0
  uninit := none
  params := Config.defaultParams

end Sys2Proof.Machine
end

