-- ==== Sys2Proof/Machine/Flags.lean ====
section
/-!
DEFINITION. The status register and the error codes (10_state.md R25, R26, R45; 60_exceptions.md
R300). The core computes no flag from an arithmetic result (R45): its only flags are ERR and DONE.
-/

namespace Sys2Proof.Machine

/-- The errors of R300. -/
inductive ErrorKind where
  | sourceError
  | sinkError
  | invalidBlock
  | illegalCommand
  | badOperand
  | tableNotBuilt
  | symbolMissing
  | rangeError
deriving DecidableEq, Repr

/-- The ECODE of an error (R300). -/
def ErrorKind.code : ErrorKind → BitVec 8
  | .sourceError => 0x01
  | .sinkError => 0x02
  | .invalidBlock => 0x03
  | .illegalCommand => 0x04
  | .badOperand => 0x05
  | .tableNotBuilt => 0x06
  | .symbolMissing => 0x07
  | .rangeError => 0x08

/-- STATUS with ERR, DONE and ECODE all 0 (R261, R340). -/
def Status.clear : Status := ⟨false, false, 0⟩

/-- The word a host read of STATUS returns: ERR in bit 0, DONE in bit 1, ECODE in bits 15..8; BUSY
(bit 3) and every other bit read 0 (R25, R350). -/
def Status.word (st : Status) : Word :=
  (st.ecode.setWidth 32 <<< 8) ||| ((BitVec.ofBool st.done).setWidth 32 <<< 1) |||
    (BitVec.ofBool st.err).setWidth 32

/-- What `raise` does to STATUS (R305): the first error since INIT or reset is recorded, a later
one is not; DONE is cleared in either case. -/
def Status.raised (st : Status) (e : ErrorKind) : Status :=
  if st.err then { st with done := false } else ⟨true, false, e.code⟩

/-- The legal values of STATUS (R25). -/
def Status.legal (st : Status) : Bool :=
  if st.err then 1 ≤ st.ecode.toNat && st.ecode.toNat ≤ 8 else st.ecode == 0

end Sys2Proof.Machine
end

