-- ==== Sys2Proof/Machine/NumVal.lean ====
section
/-!
DEFINITION. Exact arithmetic on `NUM` values (00_scope.md R12, R13): sums, products with rationals
and with cosines of multiples of π/16, comparison, floor, clamp and round_hu. Nothing here rounds
but `floor` and `roundHu`, which answer integers.
-/

namespace Sys2Proof

/-- The field number x as a `NUM` value. -/
def NumVal.ofField (x : CosNum) : NumVal := ⟨x, []⟩

/-- The rational q as a `NUM` value. -/
def NumVal.ofRat (q : Rat) : NumVal := .ofField (.ofRat q)

/-- The integer z as a `NUM` value. -/
def NumVal.ofInt (z : Int) : NumVal := NumVal.ofRat z

/-- 0. -/
def NumVal.zero : NumVal := NumVal.ofRat 0

/-- Put the multiple c of ρᵢ in front, unless it is 0. -/
def consOther (i : Nat) (c : CosNum) (xs : List (Nat × CosNum)) : List (Nat × CosNum) :=
  if c = .zero then xs else (i, c) :: xs

/-- Add c·ρᵢ, keeping the indexes rising. -/
def addOther (i : Nat) (c : CosNum) : List (Nat × CosNum) → List (Nat × CosNum)
  | [] => consOther i c []
  | (j, d) :: rest =>
    if i < j then consOther i c ((j, d) :: rest)
    else if i = j then consOther i (c.add d) rest
    else (j, d) :: addOther i c rest

/-- Add the multiples f(c)·ρᵢ for every listed c·ρᵢ. -/
def addOthers (f : CosNum → CosNum) (xs acc : List (Nat × CosNum)) : List (Nat × CosNum) :=
  match xs with
  | [] => acc
  | p :: rest => addOther p.1 (f p.2) (addOthers f rest acc)

def NumVal.add (x y : NumVal) : NumVal := ⟨x.inField.add y.inField, addOthers id x.others y.others⟩

/-- q·x for a rational q. -/
def NumVal.scale (q : Rat) (x : NumVal) : NumVal :=
  ⟨x.inField.scale q, addOthers (CosNum.scale q) x.others []⟩

def NumVal.sub (x y : NumVal) : NumVal := x.add (y.scale (-1))

/-- x·cos(kπ/16). -/
def NumVal.mulCos (k : Nat) (x : NumVal) : NumVal :=
  ⟨x.inField.mulCos k, addOthers (CosNum.mulCos k) x.others []⟩

/-- `floor(x)`: the greatest integer ≤ x (R12), computed in the field, and the free value's outside it. -/
def NumVal.floor (x : NumVal) : Int :=
  match x.others with
  | [] => x.inField.floor
  | _ :: _ => Config.otherReals.floor x

/-- x < 0. -/
def NumVal.isNeg (x : NumVal) : Bool :=
  match x.others with
  | [] => x.inField.sign < 0
  | _ :: _ => x.floor < 0

/-- x < y. -/
def NumVal.lt (x y : NumVal) : Bool := (x.sub y).isNeg

/-- `clamp(x, lo, hi)` for integer bounds (R12). -/
def NumVal.clamp (x : NumVal) (lo hi : Int) : NumVal :=
  if x.lt (NumVal.ofInt lo) then NumVal.ofInt lo
  else if (NumVal.ofInt hi).lt x then NumVal.ofInt hi
  else x

/-- `round_hu(x) = floor(x + 1/2)`: round half toward positive infinity (R13). -/
def roundHu (x : NumVal) : Int := (x.add (NumVal.ofRat (1 / 2))).floor

/-! ### Elements (R33, R34, R37, R38) -/

/-- An element that holds the `NUM` value x as the host has written it (R67). -/
def NumElem.of (x : NumVal) : NumElem := ⟨x, x⟩

/-- The element that takes the result of a formula: `real` is the Real instance's, `free` the free value
of a number type that is not Real (R12, R157). -/
def numElem (mode : Config.NumMode) (real free : NumVal) : NumElem :=
  match mode with
  | .real => .of real
  | .inexact _ => ⟨real, free⟩

/-- The `NUM` value an element holds. -/
def NumElem.value (mode : Config.NumMode) (e : NumElem) : NumVal :=
  match mode with
  | .real => e.real
  | .inexact _ => e.num

/-- The elements that take the results of a block's formulas, in order. -/
def numElems (mode : Config.NumMode) (reals : List NumVal) (free : Nat → NumVal) : List NumElem :=
  reals.zipIdx.map fun p => numElem mode p.1 (free p.2)

/-- The sum of g 0, g 1, …, g 7. -/
def sum8 (g : Nat → NumVal) : NumVal :=
  ((((((((g 0).add (g 1)).add (g 2)).add (g 3)).add (g 4)).add (g 5)).add (g 6)).add (g 7))

end Sys2Proof
end

