-- ==== Sys2Proof/Machine/Ops.lean ====
section
/-!
DEFINITION. The shared operations of the commands: buffers, tables, the two ports, raising an error
and recovering from it, and the frame every command but NOP and INIT runs in.
-/

namespace Sys2Proof.Machine

/-- The outcome of a step of the core. -/
abbrev Result := Host.Outcome State Fault Refusal

/-! ### Buffers (R33 to R37, R42, R44) -/

/-- The element at index i; none where it is unwritten. -/
def Buf.get {α : Type} (i : Nat) : Buf α → Option α
  | [] => none
  | (j, x) :: rest => if j = i then some x else if i < j then none else Buf.get i rest

/-- Write x at index i, keeping the indexes strictly rising. -/
def Buf.set {α : Type} (i : Nat) (x : α) : Buf α → Buf α
  | [] => [(i, x)]
  | (j, y) :: rest =>
    if i < j then (i, x) :: (j, y) :: rest
    else if i = j then (i, x) :: rest
    else (j, y) :: Buf.set i x rest

/-- Write the listed elements at i, i + 1, …, in that order. -/
def Buf.setFrom {α : Type} (i : Nat) : List α → Buf α → Buf α
  | [], buf => buf
  | x :: xs, buf => Buf.setFrom (i + 1) xs (Buf.set i x buf)

/-- Every index is above `lo`, in strictly rising order, and below `n`. -/
def Buf.wfFrom {α : Type} (n : Nat) : Nat → Buf α → Bool
  | _, [] => true
  | lo, (j, _) :: rest => lo ≤ j && j < n && Buf.wfFrom n (j + 1) rest

/-- The canonical form of a buffer of n elements: indexes strictly rising, all below n. No entry
says "unwritten", so equal buffers are equal lists. -/
def bufWf {α : Type} (n : Nat) (buf : Buf α) : Bool := Buf.wfFrom n 0 buf

/-- The index of element k of block b (R61). -/
def elemIndex (b k : Nat) : Nat := 64 * b + k

/-- Write a block of 64 elements (a list of 64) as block b. It does not unfold by itself: see
Laws/Buf.lean for what it does. -/
@[irreducible] def Buf.setBlock {α : Type} (b : Nat) (xs : List α) (buf : Buf α) : Buf α :=
  Buf.setFrom (elemIndex b 0) xs buf

/-! ### The course of a command -/

/-- Where a command stands after a part of its pseudocode: it goes on in a state, or it has ended in a
state by raising an error (R305). -/
inductive Flow where
  | go (s : State)
  | stop (s : State)

/-- Run `f` where the command goes on. -/
def Flow.andThen (x : Flow) (f : State → Flow) : Flow :=
  match x with
  | .go s => f s
  | .stop s => .stop s

/-- The state a command's course has come to. -/
def Flow.state : Flow → State
  | .go s => s
  | .stop s => s

/-- The outcome of a command: always a next state, since the core reports an error in STATUS (R305). -/
def Flow.result (x : Flow) : Result := .next x.state

/-- Run `f x` for every x of the list in order, while the command goes on. -/
def forEach {α : Type} (xs : List α) (f : α → State → Flow) (s : State) : Flow :=
  match xs with
  | [] => .go s
  | x :: rest => (f x s).andThen (forEach rest f)

/-! ### Raising an error and recovering from it (R305, R309) -/

/-- The state after `raise e(info)` (R305): STATUS records the first error, ERRINFO its info, DONE is
cleared, and nothing else changes. -/
def State.raised (s : State) (e : ErrorKind) (info : Word) : State :=
  { s with
    status := s.status.raised e
    errinfo := if s.status.err then s.errinfo else info }

/-- `raise e(info)`: the command ends here (R305). -/
def raise (e : ErrorKind) (info : Word) (s : State) : Flow := .stop (s.raised e info)

/-- The way out of the error state that INIT and reset share (R261, R309): STATUS and ERRINFO are
cleared. -/
def State.recovered (s : State) : State := { s with status := .clear, errinfo := 0 }

/-- `STATUS.DONE <- v` (R25). -/
def State.setDone (s : State) (v : Bool) : State := { s with status := { s.status with done := v } }

/-- The frame of every command but NOP and INIT: while ERR = 1 it is refused with no effect (R90,
R308); otherwise DONE is cleared (R25, R45) and the command's checks and body run. DESIGN CHOICE, safe: log
entry 16. -/
def command (body : State → Flow) (s : State) : Result :=
  if s.status.err then .next s else (body (s.setDone false)).result

/-! ### The stage buffers -/

/-- The first of the elements ks of block b, in that order, that is unwritten; none where all are written. -/
def Buf.firstUnwritten {α : Type} (b : Nat) (ks : List Nat) (buf : Buf α) : Option Nat :=
  ks.find? fun k => (Buf.get (elemIndex b k) buf).isNone

/-- The elements ks of block b, in that order, each unwritten one taken from `free`. -/
def Buf.readOr {α : Type} (free : Nat → α) (b : Nat) (ks : List Nat) (buf : Buf α) : List α :=
  ks.map fun k => (Buf.get (elemIndex b k) buf).getD (free (elemIndex b k))

/-- What a read of unwritten elements leaves beside its values: one number of the draws is taken, and the
model fault UninitRead of the first of them, at `loc`, is recorded, unless one is already (R44, R311). It
sets no STATUS field. DESIGN CHOICE, safe: log entry 2. -/
def State.unwrittenRead (s : State) (loc : Location) : State :=
  { s with reads := s.reads + 1, uninit := s.uninit.or (some loc) }

/-- The kind of element a buffer holds: the location an element is named by, and the free value of the
n-th read for the element at index i. -/
structure ElemKind (α : Type) where
  loc : Nat → Nat → Location
  free : Nat → Nat → α

/-- Elements of the kind `NUM`. -/
def ElemKind.num (loc : Nat → Nat → Location) : ElemKind NumElem :=
  ⟨loc, fun n i => .of (Config.unwrittenNum n i)⟩

/-- Elements of the kind int16. -/
def ElemKind.coef (loc : Nat → Nat → Location) : ElemKind Coef := ⟨loc, Config.unwrittenCoef⟩

/-- Read the elements ks of block b, in that order, and go on with their list. The hardware reads an unwritten
element as an unspecified value (R44), which is a free value, and UninitRead of the first such is recorded.
DESIGN CHOICE, safe: log entry 2. -/
def readElems {α : Type} (kind : ElemKind α) (buf : Buf α) (b : Nat) (ks : List Nat) (s : State)
    (f : List α → State → Flow) : Flow :=
  let xs := Buf.readOr (kind.free s.reads) b ks buf
  match Buf.firstUnwritten b ks buf with
  | none => f xs s
  | some k => f xs (s.unwrittenRead (kind.loc b k))

/-- Read block b whole, in natural order. -/
def readBlock {α : Type} (kind : ElemKind α) (buf : Buf α) (b : Nat) (s : State)
    (f : List α → State → Flow) : Flow :=
  readElems kind buf b (List.range 64) s f

/-- S[b][0..63] <- xs. -/
def State.setS (s : State) (b : Nat) (xs : List NumElem) : State :=
  { s with bufS := Buf.setBlock b xs s.bufS }

/-- F[b][0..63] <- xs. -/
def State.setF (s : State) (b : Nat) (xs : List NumElem) : State :=
  { s with bufF := Buf.setBlock b xs s.bufF }

/-- Q[b][0..63] <- xs. -/
def State.setQ (s : State) (b : Nat) (xs : List Coef) : State :=
  { s with bufQ := Buf.setBlock b xs s.bufQ }

/-- Z[b][0..63] <- xs. -/
def State.setZ (s : State) (b : Nat) (xs : List Coef) : State :=
  { s with bufZ := Buf.setBlock b xs s.bufZ }

/-- R[b][0..63] <- xs. -/
def State.setR (s : State) (b : Nat) (xs : List NumElem) : State :=
  { s with bufR := Buf.setBlock b xs s.bufR }

/-! ### The built Huffman tables (R42) -/

/-- HT[t] as stored, whatever HTVALID says. -/
def HTables.table (h : HTables) (t : Nat) : Buf HCode :=
  match t with
  | 0 => h.dcLum
  | 1 => h.dcChr
  | 2 => h.acLum
  | _ => h.acChr

/-- Store HT[t]. -/
def HTables.setTable (h : HTables) (t : Nat) (tab : Buf HCode) : HTables :=
  match t with
  | 0 => { h with dcLum := tab }
  | 1 => { h with dcChr := tab }
  | 2 => { h with acLum := tab }
  | _ => { h with acChr := tab }

/-- HTVALID[t] (R32). -/
def State.tableValid (s : State) (t : Nat) : Bool := s.htvalid.getLsbD t

/-- HT[t][sym]: every entry of a table that is not built reads as absent (R42). -/
def State.htEntry (s : State) (t sym : Nat) : Option HCode :=
  if s.tableValid t then Buf.get sym (s.ht.table t) else none

/-! ### The ports (R70 to R73) -/

/-- The next draw of an oracle, and the oracle after it. -/
def Oracle.draw (o : Oracle) (free : Nat → Bool) : Bool × Oracle :=
  match o.answers with
  | a :: rest => (a, { o with answers := rest })
  | [] => (free o.draws, { o with draws := o.draws + 1 })

/-- The sink with one draw taken. -/
def Sink.drawn (k : Sink) : Sink := { k with oracle := (k.oracle.draw Config.sinkAnswer).2 }

/-- Whether the sink's next write succeeds. -/
def Sink.accepts (k : Sink) : Bool := (k.oracle.draw Config.sinkAnswer).1

/-- The sink with x appended (R72, R73). -/
def Sink.append (k : Sink) (x : Byte) : Sink :=
  { k with stream := k.stream ++ [x], flushed := false }

/-- `SinkWrite(x)` (R72): append x, or, where the draw says the write fails, append nothing and raise
SinkError with the byte that could not be written (R300). -/
def sinkWrite (x : Byte) (s : State) : Flow :=
  if s.sink.accepts then .go { s with sink := s.sink.drawn.append x }
  else raise .sinkError (x.setWidth 32) { s with sink := s.sink.drawn }

/-- `PixelRead(x, y)` (R70): the listed pixel of row y and column x, else the free one. -/
def State.pixelRead (s : State) (x y : Nat) : Rgb :=
  match (s.raster.getD y [])[x]? with
  | some p => p
  | none => Config.pixel x y

end Sys2Proof.Machine
end

