-- ==== Sys2Proof/Machine/Operands.lean ====
section
/-!
DEFINITION. Operands: what a block, table or MCU index stands for (00_scope.md R15, R16;
41_mcu_pipeline.md R123), and the operand checks of the commands with the error each raises
(60_exceptions.md R300, R307).
-/

namespace Sys2Proof.Machine

/-- The table group of block b (R15): 0 = LUM for the four luma blocks, 1 = CHR for Cb and Cr. -/
def group (b : Nat) : Nat := if b ≤ 3 then 0 else 1

/-- The DC table of a group (R16). -/
def tdc (g : Nat) : Nat := g

/-- The AC table of a group (R16). -/
def tac (g : Nat) : Nat := 2 + g

/-- The predictor slot of block b (R15). -/
inductive Slot where
  | y
  | cb
  | cr
deriving DecidableEq, Repr

def slot (b : Nat) : Slot := if b ≤ 3 then .y else if b = 4 then .cb else .cr

/-- PRED[slot] (R30). -/
def State.pred (s : State) : Slot → Coef
  | .y => s.predY
  | .cb => s.predCb
  | .cr => s.predCr

/-- PRED[slot] <- v (R30, R210). -/
def State.setPred (s : State) (sl : Slot) (v : Coef) : State :=
  match sl with
  | .y => { s with predY := v }
  | .cb => { s with predCb := v }
  | .cr => { s with predCr := v }

/-- 16 × ceil(n/16) (R28). -/
def completion (n : Nat) : Nat := 16 * ((n + 15) / 16)

/-- COMP_W (R28). -/
def State.compW (s : State) : Nat := completion s.imgW.toNat

/-- COMP_H (R28). -/
def State.compH (s : State) : Nat := completion s.imgH.toNat

/-- NX = COMP_W/16, the number of MCU columns (R123). -/
def State.nx (s : State) : Nat := s.compW / 16

/-- NY = COMP_H/16, the number of MCU rows (R123). -/
def State.ny (s : State) : Nat := s.compH / 16

/-- The check of format B (R93): b ≤ 5, else InvalidBlockError(b). -/
def checkBlock (b : Nat) (s : State) : Flow :=
  if b ≤ 5 then .go s else raise .invalidBlock (BitVec.ofNat 32 b) s

/-- The first check of an MCU command (R131): IMG_W ≥ 1 and IMG_H ≥ 1, else
SourceError(IMG_H ‖ IMG_W). -/
def checkDims (s : State) : Flow :=
  if 1 ≤ s.imgW.toNat ∧ 1 ≤ s.imgH.toNat then .go s
  else raise .sourceError (s.imgH ++ s.imgW) s

/-- The check of format M (R96, R131): mx < NX and my < NY, else BadOperand(w). -/
def checkMcu (mx my : Nat) (w : Word) (s : State) : Flow :=
  if mx < s.nx ∧ my < s.ny then .go s else raise .badOperand w s

/-- The check of format P (R97): n ≤ 16, else BadOperand(w). -/
def checkCount (n : Nat) (w : Word) (s : State) : Flow :=
  if n ≤ 16 then .go s else raise .badOperand w s

/-- Every listed table is built (R32), else TableNotBuilt of the first that is not; the list is
rising, so it is the lowest (R300). -/
def checkTables (ts : List Nat) (s : State) : Flow :=
  match ts.find? fun t => !s.tableValid t with
  | none => .go s
  | some t => raise .tableNotBuilt (BitVec.ofNat 32 t) s

end Sys2Proof.Machine
end

