-- ==== Sys2Proof/Machine/Huffman.lean ====
section
/-!
DEFINITION. The canonical Huffman table builder: HTBUILD (43_huffman_build.md R180 to R182).
-/

namespace Sys2Proof.Machine

/-- The codes of one length (R180): the next n symbols get the codes code, code + 1, …. Answers the
table, the next code and the symbols that are left. -/
def assignCodes (len : Nat) : Nat → Nat → List Nat → Buf HCode → Buf HCode × Nat × List Nat
  | 0, code, syms, tab => (tab, code, syms)
  | _ + 1, code, [], tab => (tab, code, [])
  | n + 1, code, sym :: syms, tab => assignCodes len n (code + 1) syms (Buf.set sym ⟨code, len⟩ tab)

/-- The lengths len, len + 1, … with the counts `bits` (R180): the code is shifted left once after
each length, and nothing is reset. -/
def buildFrom (len code : Nat) (bits syms : List Nat) (tab : Buf HCode) : Buf HCode :=
  match bits with
  | [] => tab
  | n :: rest =>
    let r := assignCodes len n code syms tab
    buildFrom (len + 1) (2 * r.2.1) rest r.2.2 r.1

/-- `build(BITS[1..16], VALUES)` (R180). -/
def build (bits values : List Nat) : Buf HCode := buildFrom 1 0 bits values []

/-- What HTBUILD t stores in HT[t] (R182). -/
@[irreducible] def builtTable (t : Nat) : Buf HCode := build (htBitsOf t) (htValuesOf t)

/-- The state after HT[t] has been built and HTVALID[t] set (R182). -/
def State.withTable (s : State) (t : Nat) : State :=
  { s with
    ht := s.ht.setTable t (builtTable t)
    htvalid := s.htvalid ||| (1#4 <<< t) }

/-- The body of HTBUILD (R182). -/
def htbuildBody (t : Nat) (s : State) : Flow := .go (s.withTable t)

/-- HTBUILD t (R182). -/
def execHtbuild (t : Nat) (s : State) : Result := command (htbuildBody t) s

end Sys2Proof.Machine
end

