-- ==== Sys2Proof/Machine/Control.lean ====
section
/-!
DEFINITION. The control commands NOP and INIT (46_control.md R260, R261), and hardware reset
(70_reset_and_hazards.md R340), which shares INIT's way out of the error state (60_exceptions.md R309).
-/

namespace Sys2Proof.Machine

/-- NOP (R260): no effect, also while ERR = 1; DONE is kept. -/
def execNop (s : State) : Result := .next s

/-- The stream state that INIT and reset both put back (R261, R342): the predictors, the packer and
the MCU position. Pending bits are discarded. -/
def State.streamCleared (s : State) : State :=
  { s with
    predY := 0, predCb := 0, predCr := 0
    bitacc := 0, bitidx := 7
    mcuX := 0, mcuY := 0 }

/-- The state after INIT (R261): the four tables built, the stream state and the error state cleared. -/
def State.inited (s : State) : State :=
  ((((s.withTable 0).withTable 1).withTable 2).withTable 3).streamCleared.recovered

/-- INIT (R261): accepted also while ERR = 1, and it cannot fail. -/
def execInit (s : State) : Result := .next s.inited

/-- Hardware reset (R340): every state element of the core at its reset value. The output stream, the
pixel source, the host's coming accesses, the draws and the parameters are outside the core. DEDUCED, unsafe: log
entry 15. -/
def State.hardReset (s : State) : State :=
  { State.reset with
    sink := s.sink, raster := s.raster, host := s.host, readData := s.readData
    tie := s.tie, reads := s.reads, uninit := s.uninit, params := s.params }

end Sys2Proof.Machine
end

