-- ==== Sys2Proof/Machine/Color.lean ====
section
/-!
DEFINITION. Colour conversion, chroma subsampling and the load of one MCU: CSC and MCULOAD
(41_mcu_pipeline.md R120 to R131).
-/

namespace Sys2Proof.Machine

/-- An exact decimal combination cr·R + cg·G + cb·B + c of integer levels. -/
def mix (cr cg cb c : Rat) (r g b : Nat) : NumVal := NumVal.ofRat (cr * r + cg * g + cb * b + c)

/-- Yc (R120). -/
def yc (r g b : Nat) : NumVal := mix (299 / 1000) (587 / 1000) (114 / 1000) 0 r g b

/-- Cbc (R120). -/
def cbc (r g b : Nat) : NumVal := mix (-16874 / 100000) (-33126 / 100000) (1 / 2) 128 r g b

/-- Crc (R120). -/
def crc (r g b : Nat) : NumVal := mix (1 / 2) (-41869 / 100000) (-8131 / 100000) 128 r g b

/-- The three levels of a pixel as `NUM` values. -/
def levels (r g b : Nat) : List NumVal := [NumVal.ofInt r, NumVal.ofInt g, NumVal.ofInt b]

/-- The elements that take Yc, Cbc and Crc (R120): exact for Real, else free values of the levels. -/
def ycElem (mode : Config.NumMode) (r g b : Nat) : NumElem :=
  numElem mode (yc r g b) (Config.inexactNum .yc (levels r g b))

def cbcElem (mode : Config.NumMode) (r g b : Nat) : NumElem :=
  numElem mode (cbc r g b) (Config.inexactNum .cbc (levels r g b))

def crcElem (mode : Config.NumMode) (r g b : Nat) : NumElem :=
  numElem mode (crc r g b) (Config.inexactNum .crc (levels r g b))

/-- A conversion applied to a pixel. -/
def ofPixel (conv : Nat → Nat → Nat → NumElem) (p : Rgb) : NumElem :=
  conv p.r.toNat p.g.toNat p.b.toNat

/-- The body of CSC (R121). -/
def cscBody (r g b : Nat) (s : State) : Flow :=
  .go { s with
    cscY := some (ycElem s.params.num r g b)
    cscCb := some (cbcElem s.params.num r g b)
    cscCr := some (crcElem s.params.num r g b) }

/-- CSC r, g, b (R121). -/
def execCsc (r g b : Nat) (s : State) : Result := command (cscBody r g b) s

/-- The clamped read of canvas coordinates (R130): a padded pixel replicates the last column or row. -/
def State.pix (s : State) (x y : Nat) : Rgb :=
  s.pixelRead (min x (s.imgW.toNat - 1)) (min y (s.imgH.toNat - 1))

/-- A block of 64 samples, element 8r + c from `f r c` (R14). -/
def blockOf {α : Type} (f : Nat → Nat → α) : List α :=
  (List.range 8).flatMap fun r => (List.range 8).map fun c => f r c

/-- Luma block q of MCU (mx, my) (R124): q mod 2 is the quadrant's column, q div 2 its row. -/
def lumaBlock (s : State) (mx my q : Nat) : List NumElem :=
  blockOf fun r c => ofPixel (ycElem s.params.num)
    (s.pix (16 * mx + 8 * (q % 2) + c) (16 * my + 8 * (q / 2) + r))

/-- The Cb block of MCU (mx, my) (R125): pixels of even row and even column. -/
def cbBlock (s : State) (mx my : Nat) : List NumElem :=
  blockOf fun i j => ofPixel (cbcElem s.params.num) (s.pix (16 * mx + 2 * j) (16 * my + 2 * i))

/-- The Cr block of MCU (mx, my) (R125): pixels of odd row and even column. -/
def crBlock (s : State) (mx my : Nat) : List NumElem :=
  blockOf fun i j => ofPixel (crcElem s.params.num) (s.pix (16 * mx + 2 * j) (16 * my + 2 * i + 1))

/-- Sample block b of MCU (mx, my): Y1 to Y4, Cb, Cr (R15). -/
def mcuBlock (s : State) (mx my b : Nat) : List NumElem :=
  if b ≤ 3 then lumaBlock s mx my b else if b = 4 then cbBlock s mx my else crBlock s mx my

/-- The sample buffers after the six blocks of MCU (mx, my) have been written (R131). -/
@[irreducible] def loadedSamples (s : State) (mx my : Nat) : Buf NumElem :=
  (List.range 6).foldl (fun buf b => Buf.setBlock b (mcuBlock s mx my b) buf) s.bufS

/-- The state after the body of MCULOAD (R131). -/
def State.mcuLoaded (s : State) (mx my : Nat) : State :=
  { s with
    bufS := loadedSamples s mx my
    mcuX := BitVec.ofNat 12 mx
    mcuY := BitVec.ofNat 12 my }

/-- The body of MCULOAD (R131). -/
def mculoadBody (mx my : Nat) (s : State) : Flow := .go (s.mcuLoaded mx my)

/-- MCULOAD mx, my (R131). -/
def execMcuload (mx my : Nat) (s : State) : Result :=
  command (fun s =>
    (checkDims s).andThen fun s =>
    (checkMcu mx my (encode (.mcuload mx my)) s).andThen (mculoadBody mx my)) s

end Sys2Proof.Machine
end

