-- ==== Sys2Proof/Machine/Dct.lean ====
section
/-!
DEFINITION. The forward DCT, quantisation and the inverse path: FDCT, QUANT and IDCT
(42_dct_quant.md R150 to R162).
-/

namespace Sys2Proof.Machine

/-- C(k)·x (R150): C(0) = 1/√8 = cos(4π/16)/2, C(k) = 1/2 for k ≥ 1. -/
def mulC (k : Nat) (x : NumVal) : NumVal :=
  if k = 0 then (x.mulCos 4).scale (1 / 2) else x.scale (1 / 2)

/-- Element k of a block. -/
def elem (xs : List NumVal) (k : Nat) : NumVal := xs.getD k NumVal.zero

/-- f(x, y) = S[8y + x] − 128 (R152). -/
def levelShift (xs : List NumVal) (x y : Nat) : NumVal := (elem xs (8 * y + x)).sub (NumVal.ofInt 128)

/-- The sums along the rows of a sample block: element 8y + u is Σ_x f(x, y)·cos((2x+1)uπ/16). -/
def rowSums (xs : List NumVal) : List NumVal :=
  blockOf fun y u => sum8 fun x => (levelShift xs x y).mulCos ((2 * x + 1) * u)

/-- F(u, v) from the row sums (R153): C(u)·C(v)·Σ_y (row sum of y and u)·cos((2y+1)vπ/16). The double
sum of R153 with the factor of y taken out of the sum over x. DEDUCED, safe: log entry 12. -/
def fdctElem (rows : List NumVal) (v u : Nat) : NumVal :=
  mulC u (mulC v (sum8 fun y => (elem rows (8 * y + u)).mulCos ((2 * y + 1) * v)))

/-- The forward DCT of a sample block, element 8v + u (R153). -/
def fdctBlock (xs : List NumVal) : List NumVal := blockOf (fdctElem (rowSums xs))

/-- The elements FDCT writes for the elements of a sample block (R153). -/
def fdctElems (mode : Config.NumMode) (xs : List NumElem) : List NumElem :=
  numElems mode (fdctBlock (xs.map NumElem.real)) fun k =>
    Config.inexactNum (.dct (k / 8) (k % 8)) (xs.map NumElem.num)

/-- The body of FDCT (R153). -/
def fdctBody (b : Nat) (s : State) : Flow :=
  readBlock (.num .bufS) s.bufS b s fun xs s => .go (s.setF b (fdctElems s.params.num xs))

/-- FDCT b (R153). -/
def execFdct (b : Nat) (s : State) : Result :=
  command (fun s => (checkBlock b s).andThen (fdctBody b)) s

/-- `quant(Fv, T) = round_hu(Fv / T)` (R155). -/
def quant (x : NumVal) (t : Nat) : Int := roundHu (x.scale (1 / (t : Rat)))

/-- Whether x is within `eps` of a rounding tie m + 1/2 (R157); the nearest tie is the one above
floor(x). -/
def nearTie (eps x : NumVal) : Bool :=
  let d := x.sub (NumVal.ofRat (x.floor + 1 / 2))
  !eps.lt d && !d.lt (eps.scale (-1))

/-- One quantised value, with the tie draws before and after: exact for Real (R155); for an inexact
`NUM`, near a tie either neighbour, by a draw (R157). DESIGN CHOICE, safe: log entry 8. -/
def quantDraw (mode : Config.NumMode) (x : NumVal) (t : Nat) (o : Oracle) : Int × Oracle :=
  match mode with
  | .real => (quant x t, o)
  | .inexact eps =>
    let q := x.scale (1 / (t : Rat))
    if nearTie eps q then
      let d := o.draw Config.tieUp
      (if d.1 then q.floor + 1 else q.floor, d.2)
    else (quant x t, o)

/-- The quantised values of a block from element k on, in order (R156). -/
def quantList (mode : Config.NumMode) (g k : Nat) (xs : List NumVal) (o : Oracle) : List Int × Oracle :=
  match xs with
  | [] => ([], o)
  | x :: rest =>
    let d := quantDraw mode x (qt g k) o
    let r := quantList mode g (k + 1) rest d.2
    (d.1 :: r.1, r.2)

/-- A value that fits int16 (R156). -/
def inInt16 (z : Int) : Bool := -32768 ≤ z && z ≤ 32767

/-- The body of QUANT (R156), on the values the Real instance gives (R157): RangeError with the lowest k
out of range, and nothing written; else all 64 values are written. -/
def quantBody (b : Nat) (s : State) : Flow :=
  readBlock (.num .bufF) s.bufF b s fun xs s =>
    let r := quantList s.params.num (group b) 0 (xs.map NumElem.real) s.tie
    let s := { s with tie := r.2 }
    match r.1.findIdx? fun z => !inInt16 z with
    | some k => raise .rangeError (BitVec.ofNat 32 k) s
    | none => .go (s.setQ b (r.1.map (BitVec.ofInt 16)))

/-- QUANT b (R156). -/
def execQuant (b : Nat) (s : State) : Result :=
  command (fun s => (checkBlock b s).andThen (quantBody b)) s

/-- D[k] = Q[k]·QT[g][k], an exact integer (R158). -/
def dequant (g : Nat) (qs : List Coef) (k : Nat) : NumVal :=
  NumVal.ofInt ((qs.getD k 0).toInt * (qt g k : Int))

/-- The sums along the rows of the coefficients: element 8v + x is
Σ_u C(u)·D[8v + u]·cos((2x+1)uπ/16). -/
def invRowSums (g : Nat) (qs : List Coef) : List NumVal :=
  blockOf fun v x => sum8 fun u => mulC u ((dequant g qs (8 * v + u)).mulCos ((2 * x + 1) * u))

/-- f(x, y) of R158 from the row sums. -/
def idctElem (rows : List NumVal) (y x : Nat) : NumVal :=
  sum8 fun v => mulC v ((elem rows (8 * v + x)).mulCos ((2 * y + 1) * v))

/-- out[8y + x] = clamp(f(x, y) + 128, 0, 255) (R158). -/
def idctBlock (g : Nat) (qs : List Coef) : List NumVal :=
  let rows := invRowSums g qs
  blockOf fun y x => ((idctElem rows y x).add (NumVal.ofInt 128)).clamp 0 255

/-- The elements IDCT writes (R158, R160): clamped to [0, 255] in every number type (R37). -/
def idctElems (mode : Config.NumMode) (g : Nat) (qs : List Coef) : List NumElem :=
  numElems mode (idctBlock g qs) fun k =>
    (Config.inexactNum (.idct g (k / 8) (k % 8))
      (qs.map fun q => NumVal.ofInt q.toInt)).clamp 0 255

/-- The body of IDCT (R160). -/
def idctBody (b : Nat) (s : State) : Flow :=
  readBlock (.coef .bufQ) s.bufQ b s fun qs s =>
    .go (s.setR b (idctElems s.params.num (group b) qs))

/-- IDCT b (R160). -/
def execIdct (b : Nat) (s : State) : Result :=
  command (fun s => (checkBlock b s).andThen (idctBody b)) s

end Sys2Proof.Machine
end

