-- ==== Sys2Proof/Machine/Packer.lean ====
section
/-!
DEFINITION. The bit packer with 0xFF byte stuffing: PUTBITS and FLUSH (45_bit_packer.md R240 to R251).
-/

namespace Sys2Proof.Machine

/-- `EmitByte(x)` (R241): send x to the sink, and 0x00 after 0xFF. -/
def emitByte (x : Byte) (s : State) : Flow :=
  (sinkWrite x s).andThen fun s => if x = 0xFF#8 then sinkWrite 0x00#8 s else .go s

/-- The packer after an emitted byte: BITACC is cleared where PAD_MODE is zero, and the fill index
is 7 (R242, R243). -/
def State.byteDone (s : State) : State :=
  { s with
    bitacc := match s.params.padMode with
      | .zero => 0
      | .stale => s.bitacc
    bitidx := 7 }

/-- x with bit i set to v, the other seven unchanged. -/
def setBit (x : Byte) (i : Nat) (v : Bool) : Byte :=
  (x &&& ~~~(1#8 <<< i)) ||| ((BitVec.ofBool v).setWidth 8 <<< i)

/-- `BITACC[BITIDX] <- bit` (R242). -/
def State.bitPlaced (s : State) (bit : Bool) : State :=
  { s with bitacc := setBit s.bitacc s.bitidx.toNat bit }

/-- `PutBit(bit)` (R242). -/
def putBit (bit : Bool) (s : State) : Flow :=
  let s := s.bitPlaced bit
  if s.bitidx = 0 then (emitByte s.bitacc s).andThen fun s => .go s.byteDone
  else .go { s with bitidx := s.bitidx - 1 }

/-- `PutBits(v, n)` (R240): bits n−1 downto 0 of v. -/
def putBits (v : Nat) : Nat → State → Flow
  | 0, s => .go s
  | n + 1, s => (putBit (v.testBit n) s).andThen (putBits v n)

/-- `FlushBits()` (R243). -/
def flushBits (s : State) : Flow :=
  if s.bitidx ≠ 7 ∨ s.params.emptyFlush = .emit then
    (emitByte s.bitacc s).andThen fun s => .go s.byteDone
  else .go s

/-- PUTBITS n, v (R250). -/
def execPutbits (n : Nat) (v : BitVec 16) (s : State) : Result :=
  command (fun s => (checkCount n (encode (.putbits n v)) s).andThen (putBits v.toNat n)) s

/-- FLUSH (R251). -/
def execFlush (s : State) : Result := command flushBits s

end Sys2Proof.Machine
end

