-- ==== Sys2Proof/Machine/Entropy.lean ====
section
/-!
DEFINITION. The zigzag scan, DC prediction, AC run-length, VLI and Huffman coding, and the per-block
pipeline: ZZ, UNZZ, DCENC, ACENC and BLKENC (44_entropy.md R200 to R225).
-/

namespace Sys2Proof.Machine

/-! ### Variable-length integers -/

/-- `size(n)` (R200): the bit length of |n|. -/
def vliSize (n : Int) : Nat := if n = 0 then 0 else n.natAbs.log2 + 1

/-- `vli(n, s)` (R201): n, or n + 2^s − 1 where n is negative. -/
def vli (n : Int) (s : Nat) : Nat := (if 0 < n then n else n + 2 ^ s - 1).toNat

/-- Decoding s bits p (R202): p where the top bit is 1, else p − 2^s + 1. -/
def vliDecode (p s : Nat) : Int := if p.testBit (s - 1) then p else (p : Int) - 2 ^ s + 1

/-! ### Zigzag scan -/

/-- The zigzag position of natural index n: the inverse of ZZT (R205, R206). DEDUCED, safe: log entry 18. -/
def zigzagPos (n : Nat) : Nat := zztTable.idxOf n

/-- Q[ZZT[k]] = Z[k] for every k (R205). -/
def unzigzag (zs : List Coef) : List Coef := (List.range 64).map fun n => zs.getD (zigzagPos n) 0

/-- The body of ZZ (R204): Z[k] <- Q[ZZT[k]], so Q is read in the order of ZZT. -/
def zzBody (b : Nat) (s : State) : Flow :=
  readElems (.coef .bufQ) s.bufQ b zztTable s fun zs s => .go (s.setZ b zs)

/-- ZZ b (R204). -/
def execZz (b : Nat) (s : State) : Result :=
  command (fun s => (checkBlock b s).andThen (zzBody b)) s

/-- The body of UNZZ (R205). -/
def unzzBody (b : Nat) (s : State) : Flow :=
  readBlock (.coef .bufZ) s.bufZ b s fun zs s => .go (s.setQ b (unzigzag zs))

/-- UNZZ b (R205). -/
def execUnzz (b : Nat) (s : State) : Result :=
  command (fun s => (checkBlock b s).andThen (unzzBody b)) s

/-! ### Symbols -/

/-- The ERRINFO of SymbolMissing (R300): t << 16 | run << 8 | s. -/
def symbolInfo (t run size : Nat) : Word := BitVec.ofNat 32 (t * 2 ^ 16 + run * 2 ^ 8 + size)

/-- `Emit(t, sym)` for the symbol (run << 4) | size (44_entropy.md): its code is appended. A symbol
that has no code raises SymbolMissing (R300). DEDUCED, safe: log entry 17. -/
def emitSymbol (t run size : Nat) (s : State) : Flow :=
  match s.htEntry t (run * 16 + size) with
  | some c => putBits c.code c.len s
  | none => raise .symbolMissing (symbolInfo t run size) s

/-- The symbol of a value and, where its size is not 0, its VLI bits. -/
def emitValue (t run : Nat) (n : Int) (s : State) : Flow :=
  (emitSymbol t run (vliSize n) s).andThen (putBits (vli n (vliSize n)) (vliSize n))

/-! ### DC coding -/

/-- The DC difference of a coefficient and a predictor, exact (R210). -/
def dcDiff (dc pred : Coef) : Int := dc.toInt - pred.toInt

/-- The body of DCENC (R210, R214): its check (3), the predictor, the size symbol, the VLI bits. -/
def dcencBody (b : Nat) (s : State) : Flow :=
  readElems (.coef .bufZ) s.bufZ b [0] s fun zs s =>
    let dc := zs.getD 0 0
    let diff := dcDiff dc (s.pred (slot b))
    let t := tdc (group b)
    if 11 < vliSize diff then raise .symbolMissing (symbolInfo t 0 (vliSize diff)) s
    else emitValue t 0 diff (s.setPred (slot b) dc)

/-- DCENC b (R214). -/
def execDcenc (b : Nat) (s : State) : Result :=
  command (fun s =>
    (checkBlock b s).andThen fun s =>
    (checkTables [tdc (group b)] s).andThen (dcencBody b)) s

/-! ### AC coding -/

/-- One thing the AC loop emits (R220). -/
inductive AcSym where
  /-- ZRL, the symbol 0xF0: 16 zeros; no VLI follows. -/
  | zrl
  /-- A nonzero value after `run` zeros: the symbol (run << 4) | size and the VLI bits. -/
  | value (run : Nat) (z : Int)
  /-- EOB, the symbol 0x00. -/
  | eob
deriving DecidableEq, Repr

/-- The last k ≥ k0 of a nonzero coefficient, the list standing for positions k0, k0 + 1, …; `acc` if
there is none (R220). -/
def lastNonzero (k : Nat) (acc : Nat) : List Int → Nat
  | [] => acc
  | z :: zs => lastNonzero (k + 1) (if z = 0 then acc else k) zs

/-- The loop of R220 from position k on, `run` zeros counted, with the EOB index `eob`. -/
def acLoop (eob k run : Nat) : List Int → List AcSym
  | [] => []
  | z :: zs =>
    let out := if z = 0 then (if run + 1 = 16 then [AcSym.zrl] else []) else [AcSym.value run z]
    let run' := if z = 0 then (if run + 1 = 16 then 0 else run + 1) else 0
    out ++ if eob ≤ k ∧ eob < 63 then [AcSym.eob] else acLoop eob (k + 1) run' zs

/-- The symbols of the AC coefficients at zigzag positions 1..63 (R220). -/
def acSymbols (zs : List Int) : List AcSym := acLoop (lastNonzero 1 0 zs) 1 0 zs

/-- The first value too large for the AC tables (size above 10), with its run (R221, check (3)). -/
def acTooLarge (syms : List AcSym) : Option (Nat × Int) :=
  syms.findSome? fun
    | .value run z => if 10 < vliSize z then some (run, z) else none
    | _ => none

/-- Emit one AC symbol with table t (R220). -/
def emitAc (t : Nat) (sym : AcSym) (s : State) : Flow :=
  match sym with
  | .zrl => emitSymbol t 15 0 s
  | .value run z => emitValue t run z s
  | .eob => emitSymbol t 0 0 s

/-- The body of ACENC (R220, R221): its check (3), then the symbols in order. -/
def acencBody (b : Nat) (s : State) : Flow :=
  readElems (.coef .bufZ) s.bufZ b (List.range' 1 63) s fun zs s =>
    let syms := acSymbols (zs.map BitVec.toInt)
    let t := tac (group b)
    match acTooLarge syms with
    | some (run, z) => raise .symbolMissing (symbolInfo t run (vliSize z)) s
    | none => forEach syms (emitAc t) s

/-- ACENC b (R221). -/
def execAcenc (b : Nat) (s : State) : Result :=
  command (fun s =>
    (checkBlock b s).andThen fun s =>
    (checkTables [tac (group b)] s).andThen (acencBody b)) s

/-! ### The per-block pipeline -/

/-- The body of BLKENC (R225): the five bodies in order, each making its own check when reached. -/
def blkencBody (b : Nat) (s : State) : Flow :=
  (fdctBody b s).andThen fun s =>
  (quantBody b s).andThen fun s =>
  (zzBody b s).andThen fun s =>
  (dcencBody b s).andThen (acencBody b)

/-- BLKENC b (R225). -/
def execBlkenc (b : Nat) (s : State) : Result :=
  command (fun s =>
    (checkBlock b s).andThen fun s =>
    (checkTables [tdc (group b), tac (group b)] s).andThen (blkencBody b)) s

end Sys2Proof.Machine
end

