-- ==== Sys2Proof/Machine/Pipeline.lean ====
section
/-!
DEFINITION. The MCU orchestrator: ENCMCU and ENCIMG (41_mcu_pipeline.md R132 to R135).
-/

namespace Sys2Proof.Machine

/-- The body of ENCMCU (R132): load the MCU, then code its six blocks Y1, Y2, Y3, Y4, Cb, Cr. R134 and
R300 say that no SymbolMissing occurs here; where a DCENC of a Z that the host wrote, or that is
unwritten, has left a large predictor, the pseudocode's own check (3) fails all the same, and the model
raises SymbolMissing as in BLKENC. DEDUCED, unsafe: log entry 20. -/
def encmcuBody (mx my : Nat) (s : State) : Flow :=
  (mculoadBody mx my s).andThen (forEach (List.range 6) blkencBody)

/-- ENCMCU mx, my (R132). -/
def execEncmcu (mx my : Nat) (s : State) : Result :=
  command (fun s =>
    (checkDims s).andThen fun s =>
    (checkMcu mx my (encode (.encmcu mx my)) s).andThen fun s =>
    (checkTables [0, 1, 2, 3] s).andThen (encmcuBody mx my)) s

/-- The MCUs (mx, my) of an nx × ny grid in row-major order (R123, R133). -/
def mcuGrid (nx ny : Nat) : List (Nat × Nat) :=
  (List.range ny).flatMap fun my => (List.range nx).map fun mx => (mx, my)

/-- The body of ENCIMG (R133): every MCU in row-major order, the flush, then DONE. -/
def encimgBody (s : State) : Flow :=
  (forEach (mcuGrid s.nx s.ny) (fun m => encmcuBody m.1 m.2) s).andThen fun s =>
  (flushBits s).andThen fun s => .go (s.setDone true)

/-- ENCIMG (R133). -/
def execEncimg (s : State) : Result :=
  command (fun s =>
    (checkDims s).andThen fun s =>
    (checkTables [0, 1, 2, 3] s).andThen encimgBody) s

end Sys2Proof.Machine
end

