-- ==== Sys2Proof/Machine/Dispatch.lean ====
section
/-!
DEFINITION. One arm per command (30_encoding.md R98): the meaning of each.
-/

namespace Sys2Proof.Machine

/-- The effect of a command that has been issued and decoded (R90 (1) and (4)). -/
def exec (i : Instr) (s : State) : Host.Outcome State Fault Refusal :=
  match i with
  | .nop => Sys2Proof.Machine.execNop s
  | .init => Sys2Proof.Machine.execInit s
  | .htbuild t => Sys2Proof.Machine.execHtbuild t s
  | .csc r g b => Sys2Proof.Machine.execCsc r g b s
  | .mcuload mx my => Sys2Proof.Machine.execMcuload mx my s
  | .fdct b => Sys2Proof.Machine.execFdct b s
  | .quant b => Sys2Proof.Machine.execQuant b s
  | .idct b => Sys2Proof.Machine.execIdct b s
  | .zz b => Sys2Proof.Machine.execZz b s
  | .dcenc b => Sys2Proof.Machine.execDcenc b s
  | .acenc b => Sys2Proof.Machine.execAcenc b s
  | .putbits n v => Sys2Proof.Machine.execPutbits n v s
  | .flush => Sys2Proof.Machine.execFlush s
  | .blkenc b => Sys2Proof.Machine.execBlkenc b s
  | .encmcu mx my => Sys2Proof.Machine.execEncmcu mx my s
  | .encimg => Sys2Proof.Machine.execEncimg s
  | .unzz b => Sys2Proof.Machine.execUnzz b s

end Sys2Proof.Machine
end

