-- ==== Sys2Proof/Machine/HostAccess.lean ====
section
/-!
DEFINITION. The host's side: the address map, host reads and writes, command issue, and the host's
own actions on the sink (20_memory.md R61 to R68; 30_encoding.md R90; 48_framing.md R270).
-/

namespace Sys2Proof.Machine

/-- What stands at a host word address (R61). An index of a stage buffer is 64 b + k. -/
inductive Region where
  | csr (n : Nat)
  | bufS (i : Nat)
  | bufF (i : Nat)
  | bufQ (i : Nat)
  | bufZ (i : Nat)
  | bufR (i : Nat)
  | qt (g k : Nat)
  | zzt (k : Nat)
  | htBits (t l : Nat)
  | htValue (t i : Nat)
  | ht (t sym : Nat)
  | unmapped
deriving DecidableEq, Repr

/-- The host address map (R61). Every address outside it is unmapped (R68). DEDUCED, safe:
log entry 9. -/
def region (a : Addr) : Region :=
  let n := a.toNat
  if n ≤ 0x0012 then .csr n
  else if 0x1000 ≤ n ∧ n ≤ 0x117F then .bufS (n - 0x1000)
  else if 0x1200 ≤ n ∧ n ≤ 0x137F then .bufF (n - 0x1200)
  else if 0x1400 ≤ n ∧ n ≤ 0x157F then .bufQ (n - 0x1400)
  else if 0x1600 ≤ n ∧ n ≤ 0x177F then .bufZ (n - 0x1600)
  else if 0x1800 ≤ n ∧ n ≤ 0x197F then .bufR (n - 0x1800)
  else if 0x2000 ≤ n ∧ n ≤ 0x207F then .qt ((n - 0x2000) / 64) ((n - 0x2000) % 64)
  else if 0x2080 ≤ n ∧ n ≤ 0x20BF then .zzt (n - 0x2080)
  else if 0x2100 ≤ n ∧ n ≤ 0x217F ∧ (n - 0x2100) % 32 ≤ 16 then
    .htBits ((n - 0x2100) / 32) ((n - 0x2100) % 32)
  else if 0x2200 ≤ n ∧ n ≤ 0x25FF then .htValue ((n - 0x2200) / 256) ((n - 0x2200) % 256)
  else if 0x2600 ≤ n ∧ n ≤ 0x29FF then .ht ((n - 0x2600) / 256) ((n - 0x2600) % 256)
  else .unmapped

/-- The constant of ID, "JPEG" (R24). -/
def idWord : Word := 0x4A504547

/-- The HT read word (R66): valid in bit 31, len in bits 20..16, code in bits 15..0; 0 for an absent
entry and for a table that is not built. -/
def State.htWord (s : State) (t sym : Nat) : Word :=
  match s.htEntry t sym with
  | some c => BitVec.ofNat 32 (2 ^ 31 + c.len % 32 * 2 ^ 16 + c.code % 2 ^ 16)
  | none => 0

/-- A number as a data word. -/
def dataWord (n : Nat) : BusValue := .word (BitVec.ofNat 32 n)

/-- An element that may be unwritten, at index i of its buffer, as a read value: an unwritten one reads as a
free value (R44). DESIGN CHOICE, safe: log entry 2. -/
def State.readElem {α : Type} (s : State) (kind : ElemKind α) (f : α → BusValue) (i : Nat)
    (e : Option α) : BusValue :=
  f (e.getD (kind.free s.reads i))

/-- A coefficient as a read value: sext_32 (R35, R36). -/
def coefWord (c : Coef) : BusValue := .word (c.signExtend 32)

/-- A `NUM` element as a read value (R67). -/
def State.numValue (s : State) (e : NumElem) : BusValue := .num (e.value s.params.num)

/-- The value of a CSR (R22 to R32, R38, R63). -/
def readCsr (s : State) (n : Nat) : BusValue :=
  match n with
  | 0x01 => .word s.status.word
  | 0x02 => .word s.errinfo
  | 0x03 => .word idWord
  | 0x04 => .word (s.imgW.setWidth 32)
  | 0x05 => .word (s.imgH.setWidth 32)
  | 0x06 => dataWord s.compW
  | 0x07 => dataWord s.compH
  | 0x08 => .word (s.mcuX.setWidth 32)
  | 0x09 => .word (s.mcuY.setWidth 32)
  | 0x0A => coefWord s.predY
  | 0x0B => coefWord s.predCb
  | 0x0C => coefWord s.predCr
  | 0x0D => .word (s.bitacc.setWidth 32)
  | 0x0E => .word (s.bitidx.setWidth 32)
  | 0x0F => .word (s.htvalid.setWidth 32)
  | 0x10 => s.readElem (.num fun _ _ => .cscY) s.numValue 0 s.cscY
  | 0x11 => s.readElem (.num fun _ _ => .cscCb) s.numValue 1 s.cscCb
  | 0x12 => s.readElem (.num fun _ _ => .cscCr) s.numValue 2 s.cscCr
  | _ => .word 0

/-- What `MemRead(a, 1)` returns (R62 to R68). -/
def readValue (a : Addr) (s : State) : Except Fault BusValue :=
  match region a with
  | .csr n => .ok (readCsr s n)
  | .bufS i => .ok (s.readElem (.num .bufS) s.numValue i (Buf.get i s.bufS))
  | .bufF i => .ok (s.readElem (.num .bufF) s.numValue i (Buf.get i s.bufF))
  | .bufQ i => .ok (s.readElem (.coef .bufQ) coefWord i (Buf.get i s.bufQ))
  | .bufZ i => .ok (s.readElem (.coef .bufZ) coefWord i (Buf.get i s.bufZ))
  | .bufR i => .ok (s.readElem (.num .bufR) s.numValue i (Buf.get i s.bufR))
  | .qt g k => .ok (dataWord (qt g k))
  | .zzt k => .ok (dataWord (zzt k))
  | .htBits t l => .ok (dataWord (htBits t l))
  | .htValue t i => .ok (dataWord (htValue t i))
  | .ht t sym => .ok (.word (s.htWord t sym))
  | .unmapped => .error (.stuck a)

/-- The unwritten element at a host address (R44); none where what stands there is written, or is never
unwritten. -/
def State.unwrittenAt (s : State) (a : Addr) : Option Location :=
  let at? := fun {α : Type} (loc : Location) (e : Option α) => if e.isNone then some loc else none
  match region a with
  | .csr 0x10 => at? .cscY s.cscY
  | .csr 0x11 => at? .cscCb s.cscCb
  | .csr 0x12 => at? .cscCr s.cscCr
  | .bufS i => at? (.bufS (i / 64) (i % 64)) (Buf.get i s.bufS)
  | .bufF i => at? (.bufF (i / 64) (i % 64)) (Buf.get i s.bufF)
  | .bufQ i => at? (.bufQ (i / 64) (i % 64)) (Buf.get i s.bufQ)
  | .bufZ i => at? (.bufZ (i / 64) (i % 64)) (Buf.get i s.bufZ)
  | .bufR i => at? (.bufR (i / 64) (i % 64)) (Buf.get i s.bufR)
  | _ => none

/-- What a host read of address a leaves beside its value: nothing, but where the element is unwritten
(R44, R62). -/
def State.hostReadAt (s : State) (a : Addr) : State :=
  match s.unwrittenAt a with
  | some loc => s.unwrittenRead loc
  | none => s

/-- A host read (R62): the value goes to the host, and nothing else of the machine changes; a read of an
unwritten element is recorded (log entry 2). -/
def hostRead (a : Addr) (s : State) : Result :=
  match readValue a s with
  | .ok v => .next { s.hostReadAt a with readData := some v }
  | .error f => .fault f

/-- The `NUM` value a host write carries to a NUM element (R67). DESIGN CHOICE, safe: log entry 7. -/
def busNum : BusValue → NumVal
  | .num x => x
  | .word w => Config.numOfWord w

/-- The data word a host write carries to any other element (R62). DESIGN CHOICE, safe: log entry 7. -/
def busWord : BusValue → Word
  | .word w => w
  | .num x => Config.wordOfNum x

/-- Command issue (R90, R99): a word the decoder rejects raises IllegalCommand(w) (R100); while
ERR = 1 either is refused, but for NOP and INIT (R308). -/
def issue (w : Word) (s : State) : Result :=
  match decode w with
  | .ok i => exec i s
  | .error _ => command (raise .illegalCommand w) s

/-- A write to a CSR (R22, R27, R63): CMD issues, IMG_W and IMG_H take the low 16 bits, and a write
to any other is ignored. -/
def writeCsr (n : Nat) (w : Word) (s : State) : Result :=
  match n with
  | 0x00 => issue w s
  | 0x04 => .next { s with imgW := w.setWidth 16 }
  | 0x05 => .next { s with imgH := w.setWidth 16 }
  | _ => .next s

/-- `MemWrite(a, 1, v)` (R62 to R68): a Q or Z element takes int16(v); a ROM and HT ignore it. An R element
takes v as R62 says, also a v outside the [0, 255] of R37, which no rule clamps. DESIGN CHOICE, unsafe: log
entry 21. -/
def hostWrite (a : Addr) (v : BusValue) (s : State) : Result :=
  match region a with
  | .csr n => writeCsr n (busWord v) s
  | .bufS i => .next { s with bufS := Buf.set i (.of (busNum v)) s.bufS }
  | .bufF i => .next { s with bufF := Buf.set i (.of (busNum v)) s.bufF }
  | .bufQ i => .next { s with bufQ := Buf.set i ((busWord v).setWidth 16) s.bufQ }
  | .bufZ i => .next { s with bufZ := Buf.set i ((busWord v).setWidth 16) s.bufZ }
  | .bufR i => .next { s with bufR := Buf.set i (.of (busNum v)) s.bufR }
  | .qt _ _ => .next s
  | .zzt _ => .next s
  | .htBits _ _ => .next s
  | .htValue _ _ => .next s
  | .ht _ _ => .next s
  | .unmapped => .fault (.stuck a)

/-- One action of the host, or reset (R19, R62, R270, R279, R317). A byte the host appends is never
stuffed (DEDUCED, unsafe: log entry 10). -/
def hostStep (op : HostOp) (s : State) : Result :=
  match op with
  | .read a => hostRead a s
  | .write a v => hostWrite a v s
  | .sink x => .next { s with sink := s.sink.append x }
  | .sinkFlush => .next { s with sink := { s.sink with flushed := true } }
  | .reset => .next s.hardReset

/-- The host's access that issues command word w: `WR 0x0000, w` (R90, R104). -/
def issueOp (w : Word) : HostOp := .write 0x0000 (.word w)

end Sys2Proof.Machine
end

