-- ==== Sys2Proof/Machine/Step.lean ====
section
/-!
DEFINITION. One step of the machine (00_scope.md R19, 20_memory.md R77): the host's next access takes
effect whole, a command it issues included. With no access pending the core waits
(70_reset_and_hazards.md R341). DESIGN CHOICE, unsafe: log entry 3.
-/

namespace Sys2Proof.Machine

/-- One step. -/
def step (s : State) : Host.Outcome State Fault Refusal :=
  match s.host with
  | [] => .next s
  | op :: rest => hostStep op { s with host := rest }

/-- s with the command word w issued by the host's next access, so that the next step runs it: it stands for
the program the host issues from outside (log entry 3). -/
def State.withFetchWord (s : State) (_nbits w : Nat) : State :=
  { s with host := issueOp (BitVec.ofNat 32 w) :: s.host }

end Sys2Proof.Machine
end

