-- ==== Sys2Proof/Machine/Framing.lean ====
section
/-!
DEFINITION. What the host sends: the statements and pseudo-instructions of the assembler syntax as
host accesses (30_encoding.md R104, R105), the JFIF framing around the scan (48_framing.md R270 to
R280), and the encode sequence of one image (70_reset_and_hazards.md R343). The core does none of
this by itself.
-/

namespace Sys2Proof.Machine

/-! ### Assembler statements (R104, R105) -/

/-- A statement of the assembler syntax. -/
inductive Stmt where
  /-- A command statement. -/
  | cmd (i : Instr)
  /-- `WR addr, value`. -/
  | wr (a : Addr) (v : BusValue)
  /-- `RD addr`. -/
  | rd (a : Addr)
  /-- `SINK byte`. -/
  | sink (x : Byte)
  /-- `SETDIM w, h`. -/
  | setDim (w h : Word)
  /-- `LDBLK b, v0, …, v63`. -/
  | ldBlk (b : Nat) (vs : List NumVal)
  /-- `LDZ b, z0, …, z63`. -/
  | ldZ (b : Nat) (zs : List Word)
  /-- `ENCBLK b`, a synonym of `BLKENC b`. -/
  | encBlk (b : Nat)
  /-- `CMD word`. -/
  | cmdWord (w : Word)
deriving DecidableEq, Repr

/-- Writes of the listed values at address a, a + 1, … in order. -/
def writesFrom (a : Nat) (vs : List BusValue) : List HostOp :=
  vs.zipIdx.map fun p => .write (BitVec.ofNat 16 (a + p.2)) p.1

/-- The host accesses a statement stands for (R104, R105). -/
def Stmt.assemble : Stmt → List HostOp
  | .cmd i => [issueOp (encode i)]
  | .wr a v => [.write a v]
  | .rd a => [.read a]
  | .sink x => [.sink x]
  | .setDim w h => [.write 0x0004 (.word w), .write 0x0005 (.word h)]
  | .ldBlk b vs => writesFrom (0x1000 + 64 * b) (vs.map .num)
  | .ldZ b zs => writesFrom (0x1600 + 64 * b) (zs.map .word)
  | .encBlk b => [issueOp (encode (.blkenc b))]
  | .cmdWord w => [issueOp w]

/-- Operands separated by a comma and a space (R104). -/
def commaSep (ns : List Nat) : String := String.intercalate ", " (ns.map toString)

/-- The operands of a command in the order the syntax writes them (R104). -/
def asmOperands : Instr → List Nat
  | .nop | .init | .flush | .encimg => []
  | .htbuild t => [t]
  | .csc r g b => [r, g, b]
  | .mcuload mx my | .encmcu mx my => [mx, my]
  | .fdct b | .quant b | .idct b | .zz b | .unzz b | .dcenc b | .acenc b | .blkenc b => [b]
  | .putbits n v => [n, v.toNat]

/-- A command statement as text, its operands in decimal (R104). -/
def asmText (i : Instr) : String :=
  match asmOperands i with
  | [] => i.mnemonic
  | ns => i.mnemonic ++ " " ++ commaSep ns

/-! ### Segments (R271 to R279) -/

/-- A byte of the low 8 bits of n. -/
def byteOf (n : Nat) : Byte := BitVec.ofNat 8 n

/-- A 16-bit field, big-endian (R76, R271). -/
def be16 (n : Nat) : List Byte := [byteOf (n / 256), byteOf n]

/-- A marker with its payload behind a length that counts itself (R271). -/
def segment (marker : Byte) (payload : List Byte) : List Byte :=
  [0xFF#8, marker] ++ be16 (payload.length + 2) ++ payload

/-- SOI (R273). -/
def soi : List Byte := [0xFF#8, 0xD8#8]

/-- EOI (R279). -/
def eoi : List Byte := [0xFF#8, 0xD9#8]

/-- APP0_TAIL, seven bytes: the parameter's five and the thumbnail size 00 00 (R274). -/
def app0TailBytes (t : Config.App0Tail) : List Byte :=
  [t.units, t.xDensityHigh, t.xDensityLow, t.yDensityHigh, t.yDensityLow, 0x00#8, 0x00#8]

/-- APP0, "JFIF" version 1.1 (R274). -/
def app0 (t : Config.App0Tail) : List Byte :=
  segment 0xE0#8 ([0x4A#8, 0x46#8, 0x49#8, 0x46#8, 0x00#8, 0x01#8, 0x01#8] ++ app0TailBytes t)

/-- COM (R275); a comment of more than 65533 bytes is not framed. -/
def com (c : List Byte) : Option (List Byte) :=
  if c.length ≤ 65533 then some (segment 0xFE#8 c) else none

/-- DQT of table g, in zigzag order (R276). -/
def dqt (g : Nat) : List Byte :=
  segment 0xDB#8 (byteOf g :: (List.range 64).map fun k => byteOf (qt g (zzt k)))

/-- SOF0 with the real image dimensions (R277). -/
def sof0 (h w : Nat) : List Byte :=
  segment 0xC0#8 ([0x08#8] ++ be16 h ++ be16 w ++
    [0x03#8, 0x01#8, 0x22#8, 0x00#8, 0x02#8, 0x11#8, 0x01#8, 0x03#8, 0x11#8, 0x01#8])

/-- The class/id byte of DHT t (R278). -/
def dhtId (t : Nat) : Byte := byteOf (t / 2 * 16 + t % 2)

/-- DHT of table t (R278): the class/id byte stands in the place of BITS[0]. -/
def dht (t : Nat) : List Byte :=
  segment 0xC4#8 (dhtId t :: (htBitsOf t).map byteOf ++ (htValuesOf t).map byteOf)

/-- SOS (R279). -/
def sos : List Byte :=
  segment 0xDA#8
    [0x03#8, 0x01#8, 0x00#8, 0x02#8, 0x11#8, 0x03#8, 0x11#8, 0x00#8, 0x3F#8, 0x00#8]

/-- The comment the host frames: the caller's, else COM_DEFAULT (R275). -/
def commentOf (c : Option (List Byte)) : List Byte := c.getD Config.comDefault

/-- The bytes from SOI to the end of SOS (R272). -/
def header (t : Config.App0Tail) (comment : List Byte) (h w : Nat) : Option (List Byte) :=
  (com comment).map fun c =>
    soi ++ app0 t ++ c ++ dqt 0 ++ dqt 1 ++ sof0 h w ++ dht 0 ++ dht 1 ++ dht 2 ++ dht 3 ++ sos

/-- The encode sequence of one image (R343): INIT, SETDIM, the header, ENCIMG, RD STATUS, EOI, the
sink's flush. -/
def encodeSequence (t : Config.App0Tail) (comment : List Byte) (w h : BitVec 16) :
    Option (List HostOp) :=
  (header t comment h.toNat w.toNat).map fun bytes =>
    (Stmt.cmd .init).assemble ++ (Stmt.setDim (w.setWidth 32) (h.setWidth 32)).assemble ++
    bytes.map .sink ++ (Stmt.cmd .encimg).assemble ++ (Stmt.rd 0x0001).assemble ++
    eoi.map .sink ++ [.sinkFlush]

end Sys2Proof.Machine
end

