-- ==== Sys2Proof/Safety.lean ====
section
/-!
DEFINITION. The terms claims are stated in: what a NUM value denotes, the invariant of the machine,
a sink that accepts, the bits a command appends, and runs of several commands.
-/

namespace Sys2Proof

/-- The real numbers outside the field of cos(π/16) that the host may bring (log entry 1): some real
numbers. A meaning for claims only: no step uses it. -/
noncomputable def otherReal : Nat → ℝ := Classical.choose Config.otherReals.exact

/-- The real number a NUM value denotes (R9, R12). A meaning for claims only: no step uses it. -/
noncomputable def NumVal.toReal (x : NumVal) : ℝ := x.toRealWith otherReal

/-- The element holds the real number r, in the Real instance and in `NUM`. -/
abbrev NumElem.Exact (e : NumElem) (r : ℝ) : Prop := e.real.toReal = r ∧ e.num.toReal = r

/-- The Real instance's value of the element is r (log entry 8), and with NUM = Real so is its value. -/
abbrev NumElem.ExactIn (mode : Config.NumMode) (e : NumElem) (r : ℝ) : Prop :=
  e.real.toReal = r ∧ (mode = .real → e.num.toReal = r)

/-- QT[g] as R151 prints it, row by row. -/
def printedQt (g : Nat) : List Nat :=
  if g = 0 then
    [16, 11, 10, 16, 24, 40, 51, 61] ++
    [12, 12, 14, 19, 26, 58, 60, 55] ++
    [14, 13, 16, 24, 40, 57, 69, 56] ++
    [14, 17, 22, 29, 51, 87, 80, 62] ++
    [18, 22, 37, 56, 68, 109, 103, 77] ++
    [24, 35, 55, 64, 81, 104, 113, 92] ++
    [49, 64, 78, 87, 103, 121, 120, 101] ++
    [72, 92, 95, 98, 112, 100, 103, 99]
  else
    [17, 18, 24, 47, 99, 99, 99, 99] ++
    [18, 21, 26, 66, 99, 99, 99, 99] ++
    [24, 26, 56, 99, 99, 99, 99, 99] ++
    [47, 66, 99, 99, 99, 99, 99, 99] ++
    [99, 99, 99, 99, 99, 99, 99, 99] ++
    [99, 99, 99, 99, 99, 99, 99, 99] ++
    [99, 99, 99, 99, 99, 99, 99, 99] ++
    [99, 99, 99, 99, 99, 99, 99, 99]

/-- ZZT as R203 prints it. -/
def printedZzt : List Nat :=
  [0, 1, 8, 16, 9, 2, 3, 10, 17, 24, 32, 25, 18, 11, 4, 5] ++
  [12, 19, 26, 33, 40, 48, 41, 34, 27, 20, 13, 6, 7, 14, 21, 28] ++
  [35, 42, 49, 56, 57, 50, 43, 36, 29, 22, 15, 23, 30, 37, 44, 51] ++
  [58, 59, 52, 45, 38, 31, 39, 46, 53, 60, 61, 54, 47, 55, 62, 63]

/-- HTSPEC[t].BITS[1..16] as R181 prints it. -/
def printedBits (t : Nat) : List Nat :=
  match t with
  | 0 => [0, 1, 5, 1, 1, 1, 1, 1, 1, 0, 0, 0, 0, 0, 0, 0]
  | 1 => [0, 3, 1, 1, 1, 1, 1, 1, 1, 1, 1, 0, 0, 0, 0, 0]
  | 2 => [0, 2, 1, 3, 3, 2, 4, 3, 5, 5, 4, 4, 0, 0, 1, 0x7D]
  | 3 => [0, 2, 1, 2, 4, 4, 3, 4, 7, 5, 4, 4, 0, 1, 2, 0x77]
  | _ => []

/-- HTSPEC[t].VALUES as R181 prints it. -/
def printedValues (t : Nat) : List Nat :=
  match t with
  | 0 =>
    [0x00, 0x01, 0x02, 0x03, 0x04, 0x05, 0x06, 0x07, 0x08, 0x09, 0x0A, 0x0B]
  | 1 =>
    [0x00, 0x01, 0x02, 0x03, 0x04, 0x05, 0x06, 0x07, 0x08, 0x09, 0x0A, 0x0B]
  | 2 =>
    [0x01, 0x02, 0x03, 0x00, 0x04, 0x11, 0x05, 0x12, 0x21, 0x31, 0x41, 0x06, 0x13, 0x51, 0x61, 0x07] ++
    [0x22, 0x71, 0x14, 0x32, 0x81, 0x91, 0xA1, 0x08, 0x23, 0x42, 0xB1, 0xC1, 0x15, 0x52, 0xD1, 0xF0] ++
    [0x24, 0x33, 0x62, 0x72, 0x82, 0x09, 0x0A, 0x16, 0x17, 0x18, 0x19, 0x1A, 0x25, 0x26, 0x27, 0x28] ++
    [0x29, 0x2A, 0x34, 0x35, 0x36, 0x37, 0x38, 0x39, 0x3A, 0x43, 0x44, 0x45, 0x46, 0x47, 0x48, 0x49] ++
    [0x4A, 0x53, 0x54, 0x55, 0x56, 0x57, 0x58, 0x59, 0x5A, 0x63, 0x64, 0x65, 0x66, 0x67, 0x68, 0x69] ++
    [0x6A, 0x73, 0x74, 0x75, 0x76, 0x77, 0x78, 0x79, 0x7A, 0x83, 0x84, 0x85, 0x86, 0x87, 0x88, 0x89] ++
    [0x8A, 0x92, 0x93, 0x94, 0x95, 0x96, 0x97, 0x98, 0x99, 0x9A, 0xA2, 0xA3, 0xA4, 0xA5, 0xA6, 0xA7] ++
    [0xA8, 0xA9, 0xAA, 0xB2, 0xB3, 0xB4, 0xB5, 0xB6, 0xB7, 0xB8, 0xB9, 0xBA, 0xC2, 0xC3, 0xC4, 0xC5] ++
    [0xC6, 0xC7, 0xC8, 0xC9, 0xCA, 0xD2, 0xD3, 0xD4, 0xD5, 0xD6, 0xD7, 0xD8, 0xD9, 0xDA, 0xE1, 0xE2] ++
    [0xE3, 0xE4, 0xE5, 0xE6, 0xE7, 0xE8, 0xE9, 0xEA, 0xF1, 0xF2, 0xF3, 0xF4, 0xF5, 0xF6, 0xF7, 0xF8] ++
    [0xF9, 0xFA]
  | 3 =>
    [0x00, 0x01, 0x02, 0x03, 0x11, 0x04, 0x05, 0x21, 0x31, 0x06, 0x12, 0x41, 0x51, 0x07, 0x61, 0x71] ++
    [0x13, 0x22, 0x32, 0x81, 0x08, 0x14, 0x42, 0x91, 0xA1, 0xB1, 0xC1, 0x09, 0x23, 0x33, 0x52, 0xF0] ++
    [0x15, 0x62, 0x72, 0xD1, 0x0A, 0x16, 0x24, 0x34, 0xE1, 0x25, 0xF1, 0x17, 0x18, 0x19, 0x1A, 0x26] ++
    [0x27, 0x28, 0x29, 0x2A, 0x35, 0x36, 0x37, 0x38, 0x39, 0x3A, 0x43, 0x44, 0x45, 0x46, 0x47, 0x48] ++
    [0x49, 0x4A, 0x53, 0x54, 0x55, 0x56, 0x57, 0x58, 0x59, 0x5A, 0x63, 0x64, 0x65, 0x66, 0x67, 0x68] ++
    [0x69, 0x6A, 0x73, 0x74, 0x75, 0x76, 0x77, 0x78, 0x79, 0x7A, 0x82, 0x83, 0x84, 0x85, 0x86, 0x87] ++
    [0x88, 0x89, 0x8A, 0x92, 0x93, 0x94, 0x95, 0x96, 0x97, 0x98, 0x99, 0x9A, 0xA2, 0xA3, 0xA4, 0xA5] ++
    [0xA6, 0xA7, 0xA8, 0xA9, 0xAA, 0xB2, 0xB3, 0xB4, 0xB5, 0xB6, 0xB7, 0xB8, 0xB9, 0xBA, 0xC2, 0xC3] ++
    [0xC4, 0xC5, 0xC6, 0xC7, 0xC8, 0xC9, 0xCA, 0xD2, 0xD3, 0xD4, 0xD5, 0xD6, 0xD7, 0xD8, 0xD9, 0xDA] ++
    [0xE2, 0xE3, 0xE4, 0xE5, 0xE6, 0xE7, 0xE8, 0xE9, 0xEA, 0xF2, 0xF3, 0xF4, 0xF5, 0xF6, 0xF7, 0xF8] ++
    [0xF9, 0xFA]
  | _ => []

/-- C(k) of R150 as a real number. -/
noncomputable def dctC (k : Nat) : ℝ := if k = 0 then 1 / Real.sqrt 8 else 1 / 2

/-- cos((2x+1)uπ/16), the basis of R153. -/
noncomputable def dctCos (x u : Nat) : ℝ := Real.cos ((2 * x + 1) * u * Real.pi / 16)

/-- F(u, v) of R153 for the sample block `s`, with its level shift (R152). -/
noncomputable def dctFormula (s : Nat → ℝ) (v u : Nat) : ℝ :=
  dctC u * dctC v *
    ∑ y ∈ Finset.range 8, ∑ x ∈ Finset.range 8, (s (8 * y + x) - 128) * dctCos x u * dctCos y v

/-- f(x, y) of R158 for the dequantised coefficients `d`. -/
noncomputable def idctFormula (d : Nat → ℝ) (y x : Nat) : ℝ :=
  ∑ v ∈ Finset.range 8, ∑ u ∈ Finset.range 8,
    dctC u * dctC v * d (8 * v + u) * dctCos x u * dctCos y v

/-- Yc of R120 over the real numbers. -/
noncomputable def ycFormula (r g b : ℝ) : ℝ := 0.299 * r + 0.587 * g + 0.114 * b

/-- Cbc of R120 over the real numbers. -/
noncomputable def cbcFormula (r g b : ℝ) : ℝ := -0.16874 * r - 0.33126 * g + 0.5 * b + 128

/-- Crc of R120 over the real numbers. -/
noncomputable def crcFormula (r g b : ℝ) : ℝ := 0.5 * r - 0.41869 * g - 0.08131 * b + 128

/-- A conversion formula applied to a pixel. -/
noncomputable def ofPixelFormula (conv : ℝ → ℝ → ℝ → ℝ) (p : Rgb) : ℝ :=
  conv p.r.toNat p.g.toNat p.b.toNat

/-- quant(x, T) of R155: round_hu(x / T) = floor(x / T + 1/2). -/
noncomputable def quantFormula (x : ℝ) (t : Nat) : Int := ⌊x / t + 1 / 2⌋

namespace Machine

/-- What `raise` with this ECODE and info leaves of a state with ERR = 0 (R305). -/
def State.erring (s : State) (ecode : BitVec 8) (info : Word) : State :=
  { s with status := ⟨true, false, ecode⟩, errinfo := info }

/-- Element k of block b of the buffer is `f k`, for all 64 of them. -/
abbrev BlockHolds {α : Type} (buf : Buf α) (b : Nat) (f : Nat → α) : Prop :=
  ∀ k < 64, Buf.get (elemIndex b k) buf = some (f k)

/-- Every element of the buffer outside block b is as before. -/
abbrev OtherBlocksKept {α : Type} (b : Nat) (before after : Buf α) : Prop :=
  ∀ j, j < elemIndex b 0 ∨ elemIndex b 64 ≤ j → Buf.get j after = Buf.get j before

/-- The values agree with the written elements of block b (R44). -/
abbrev FillsBlock {α : Type} (b : Nat) (buf : Buf α) (x : Nat → α) : Prop :=
  ∀ k < 64, ∀ y, Buf.get (elemIndex b k) buf = some y → x k = y

/-- The buffer with block b filled with the values. -/
abbrev filledBlock {α : Type} (b : Nat) (x : Nat → α) (buf : Buf α) : Buf α :=
  Buf.setBlock b ((List.range 64).map x) buf

/-- In s the command does what it does in the state `filled`, but that `restore` puts the unwritten
elements back, the draws for them are counted, and a read of one is recorded (R44; log entry 2). -/
abbrev RunsAsFilled (i : Instr) (s filled : State) (restore : State → State) : Prop :=
  ∃ (t : State) (r : Nat) (u : Option Location),
    exec i filled = .next t ∧ exec i s = .next { restore t with reads := r, uninit := u }

/-- Where block b is read in the given order from position lo on, position p has its first unwritten element,
element order p (R44). -/
abbrev FirstUnwritten {α : Type} (b : Nat) (order : Nat → Nat) (lo p : Nat) (buf : Buf α) : Prop :=
  lo ≤ p ∧ p < 64 ∧ Buf.get (elemIndex b (order p)) buf = none ∧
    ∀ j, lo ≤ j → j < p → Buf.get (elemIndex b (order j)) buf ≠ none

/-- From s the command answers a next state, in which UninitRead(loc) is recorded, unless an earlier one
was (R44, R311; log entry 2). -/
abbrev RecordsUninit (i : Instr) (s : State) (loc : Location) : Prop :=
  ∃ t, exec i s = .next t ∧ t.uninit = s.uninit.or (some loc)

/-- The canonical form of the five stage buffers (R33 to R37) and of the four built tables (R42). -/
def Memory.wf (s : State) : Bool :=
  bufWf 384 s.bufS && bufWf 384 s.bufF && bufWf 384 s.bufQ && bufWf 384 s.bufZ &&
    bufWf 384 s.bufR && bufWf 256 s.ht.dcLum && bufWf 256 s.ht.dcChr && bufWf 256 s.ht.acLum &&
    bufWf 256 s.ht.acChr

/-- Every table that HTVALID calls built holds what HTBUILD stores in it (R83, R182). -/
abbrev TablesBuilt (s : State) : Prop :=
  ∀ t < 4, s.tableValid t = true → s.ht.table t = builtTable t

/-- With PAD_MODE zero and no error, the bits of BITACC that have not been written in this byte,
BITACC[BITIDX:0], are 0 (R242, R245). -/
abbrev PadBitsZero (s : State) : Prop :=
  s.params.padMode = .zero → s.status.err = false → s.bitacc.toNat % 2 ^ (s.bitidx.toNat + 1) = 0

/-- The invariant of the machine: canonical memory, a legal STATUS (R25), tables as built, and clean
pad bits. -/
abbrev State.Inv (s : State) : Prop :=
  Memory.wf s = true ∧ s.status.legal = true ∧ TablesBuilt s ∧ PadBitsZero s

/-- The next n writes of the sink succeed. -/
def SinkAccepts : Nat → Sink → Prop
  | 0, _ => True
  | n + 1, k => k.accepts = true ∧ SinkAccepts n k.drawn

/-- The n low bits of v, the most significant first (R240). -/
def bitsOf (v n : Nat) : List Bool := ((List.range n).map v.testBit).reverse

/-- The bits written in the accumulator's current byte, the first appended first:
acc[7:idx+1] (R31, R243). -/
def pendingOf (acc : Byte) (idx : BitVec 3) : List Bool :=
  (List.range (7 - idx.toNat)).map fun j => acc.getLsbD (7 - j)

/-- The bits that wait in BITACC. -/
abbrev pendingBits (s : State) : List Bool := pendingOf s.bitacc s.bitidx

/-- The byte of eight bits, the first the most significant (R75). -/
def byteOfBits (bits : List Bool) : Byte :=
  BitVec.ofNat 8 (bits.foldl (fun n b => 2 * n + b.toNat) 0)

/-- The full bytes of a sequence of bits. -/
def fullBytes : List Bool → List Byte
  | a :: b :: c :: d :: e :: f :: g :: h :: rest => byteOfBits [a, b, c, d, e, f, g, h] :: fullBytes rest
  | _ => []

/-- The bits after the full bytes. -/
def restBits : List Bool → List Bool
  | _ :: _ :: _ :: _ :: _ :: _ :: _ :: _ :: rest => restBits rest
  | bits => bits

/-- Bytes with 0x00 after every 0xFF (R241). -/
def stuffed : List Byte → List Byte
  | [] => []
  | x :: xs => if x = 0xFF#8 then x :: 0x00#8 :: stuffed xs else x :: stuffed xs

/-- t is s with `bits` appended to the packer (R240 to R242): the pending bits and the new ones, in
order, give full bytes, which go to the stream with stuffing, and the rest stays pending. -/
abbrev Appends (s t : State) (bits : List Bool) : Prop :=
  t.sink.stream = s.sink.stream ++ stuffed (fullBytes (pendingBits s ++ bits)) ∧
    pendingBits t = restBits (pendingBits s ++ bits)

/-- BITACC as the last byte emitted on the way of `bits` left it (R242, R243): cleared or that byte, by
PAD_MODE; as it was where no byte was emitted. -/
def lastAcc (s : State) (bits : List Bool) : Byte :=
  match (fullBytes (pendingBits s ++ bits)).getLast?, s.params.padMode with
  | none, _ => s.bitacc
  | some _, .zero => 0
  | some x, .stale => x

/-- Appending `bits` to s has left the bits of BITACC that are not written, BITACC[BITIDX:0], as they were
or as the last emitted byte left them (R242, R243). -/
abbrev LowBitsKept (s t : State) (bits : List Bool) : Prop :=
  ∀ i ≤ t.bitidx.toNat, t.bitacc.getLsbD i = (lastAcc s bits).getLsbD i

/-- The sink after it has taken the listed bytes. -/
def Sink.wrote (k : Sink) (bytes : List Byte) : Sink := bytes.foldl (fun k x => k.drawn.append x) k

/-- What R72, R300 and R306 (c) say of the outcome r of a command that is to append `bits` to the packer of s
and that leaves u but for the packer: where the sink refuses a byte the bits fill, having taken those before
it, the command stops there, with the byte in BITACC, BITIDX = 0 and ERRINFO; where it takes a 0xFF and
refuses its 0x00, so too, but ERRINFO is 0 and the 0xFF is in the stream. -/
abbrev StopsAtSink (r : Result) (s u : State) (bits : List Bool) : Prop :=
  ∀ (before after : List Byte) (byte : Byte),
    fullBytes (pendingBits s ++ bits) = before ++ byte :: after →
    SinkAccepts (stuffed before).length s.sink →
    let k := s.sink.wrote (stuffed before)
    (k.accepts = false →
      r = .next { u.erring 0x02 (byte.setWidth 32) with
        bitacc := byte, bitidx := 0, sink := k.drawn }) ∧
    (k.accepts = true → byte = 0xFF → k.drawn.accepts = false →
      r = .next { u.erring 0x02 0 with
        bitacc := 0xFF, bitidx := 0, sink := (k.drawn.append 0xFF).drawn })

/-- t is s but for the packer and the sink. -/
abbrev SameButPacker (s t : State) : Prop :=
  t = { s with bitacc := t.bitacc, bitidx := t.bitidx, sink := t.sink }

/-- The bits of a symbol in table t as HTBUILD builds it; none for a symbol that has no code. -/
def symbolBits (t sym : Nat) : List Bool :=
  match Buf.get sym (builtTable t) with
  | some c => bitsOf c.code c.len
  | none => []

/-- The bits of a value: its size symbol, then its VLI field (R201, R210, R220). -/
def valueBits (t run : Nat) (n : Int) : List Bool :=
  symbolBits t (run * 16 + vliSize n) ++ bitsOf (vli n (vliSize n)) (vliSize n)

/-- The bits of one AC symbol (R220). -/
def acBits (t : Nat) : AcSym → List Bool
  | .zrl => symbolBits t 0xF0
  | .value run z => valueBits t run z
  | .eob => symbolBits t 0x00

/-- The AC coefficients a sequence of symbols stands for, 63 of them: ZRL is 16 zeros, a value comes
after its run of zeros, and EOB fills with zeros (R18, R220). -/
def acExpand : List AcSym → List Int
  | [] => []
  | .zrl :: rest => List.replicate 16 0 ++ acExpand rest
  | .value run z :: rest => List.replicate run 0 ++ z :: acExpand rest
  | .eob :: _ => []

/-- The symbols of AC coding for a block whose zigzag position k holds `z k` (R220). -/
def acSymbolsOf (z : Nat → Coef) : List AcSym :=
  acSymbols ((List.range' 1 63).map fun k => (z k).toInt)

/-- Commands one after the other, to the first fault or refusal. -/
def runCommands : List Instr → State → Result
  | [], s => .next s
  | i :: rest, s =>
    match exec i s with
    | .next t => runCommands rest t
    | .fault f => .fault f
    | .refused r => .refused r

/-- The commands BLKENC b stands for (R225). -/
def blockCommands (b : Nat) : List Instr := [.fdct b, .quant b, .zz b, .dcenc b, .acenc b]

/-- The commands ENCMCU mx, my stands for (R135). -/
def mcuCommands (mx my : Nat) : List Instr :=
  .mcuload mx my :: (List.range 6).flatMap blockCommands

/-- The commands ENCIMG stands for on an nx × ny grid (R135). -/
def imageCommands (nx ny : Nat) : List Instr :=
  (mcuGrid nx ny).map (fun m => .encmcu m.1 m.2) ++ [.flush]

/-- The coding state is that of a stream the pipeline itself has written (R134): every predictor is
small enough for the DC difference of any 8-bit block. -/
abbrev PredictorsSmall (s : State) : Prop :=
  ∀ sl, -1000 ≤ (s.pred sl).toInt ∧ (s.pred sl).toInt ≤ 1000

/-- What ENCMCU and ENCIMG need to run to the end (R132, R133): no error, a nonempty image, all four
tables built, exact numbers, and small predictors. -/
abbrev ReadyToEncode (s : State) : Prop :=
  s.status.err = false ∧ 1 ≤ s.imgW.toNat ∧ 1 ≤ s.imgH.toNat ∧ s.htvalid = 0xF#4 ∧
    TablesBuilt s ∧ s.params.num = .real ∧ PredictorsSmall s

/-- The host access `op` issues the command word w (R23, R90). -/
abbrev Issues (op : HostOp) (w : Word) : Prop := ∃ v, op = .write 0x0000 v ∧ busWord v = w

end Machine
end Sys2Proof
end

