-- ==== Sys2Proof/Certificates/Slice0/Obligations.lean ====
section
/-!
DEFINITION. The statements for the provers. Each docstring names the rule of spec/ it formalises.
Four conventions of the model run through them and are no rule of the spec: the form of a NUM value is
that of log entry 1, an element keeps the Real instance's value beside the one in NUM (log entry 8;
`ExactIn`), the host's coming accesses are the queue of log entry 3, and whether a sink write
succeeds is the oracle of log entry 4. `SinkAccepts n` says only that the next n writes succeed.
-/

open Sys2Proof Sys2Proof.Machine

/-! ### Encoding -/

/-- The word of every well-formed command decodes to that command (R91 to R99). -/
def Obligations.DecodeOfEncode : Prop :=
  ∀ i : Instr, i.WellFormed → decode (encode i) = .ok i

/-- A word that decodes is the word of the well-formed command it decodes to, so no two words mean
the same command (R91 to R99). -/
def Obligations.EncodeOfDecode : Prop :=
  ∀ (w : Word) (i : Instr), decode w = .ok i → i.WellFormed ∧ encode i = w

/-- R99: a word decodes exactly when a row of opcode_table.json selects it, to that row's command. -/
def Obligations.DecoderMatchesTable : Prop :=
  ∀ w : Word,
    ((∃ i, decode w = .ok i) ↔ ∃ row ∈ opcodeRows, w &&& row.mask = row.pattern) ∧
    ∀ i, decode w = .ok i →
      ∀ row ∈ opcodeRows, w &&& row.mask = row.pattern → row.mnemonic = i.mnemonic

/-- The encoding examples of R106, and its illegal examples. -/
def Obligations.SampleWordsDecode : Prop :=
  decode 0x01000000 = .ok .init ∧ decode 0x02000002 = .ok (.htbuild 2) ∧
  decode 0x03FF0000 = .ok (.csc 255 0 0) ∧ decode 0x04000001 = .ok (.mcuload 1 0) ∧
  decode 0x0E001000 = .ok (.encmcu 0 1) ∧ decode 0x05000004 = .ok (.fdct 4) ∧
  decode 0x0D000005 = .ok (.blkenc 5) ∧ decode 0x0B0800FF = .ok (.putbits 8 0xFF) ∧
  decode 0x0B10FFFF = .ok (.putbits 16 0xFFFF) ∧ decode 0x0C000000 = .ok .flush ∧
  decode 0x0F000000 = .ok .encimg ∧ decode 0x10000000 = .ok (.unzz 0) ∧
  (decode 0x00000001).toOption = none ∧ (decode 0x05000008).toOption = none ∧
  (decode 0x0B200000).toOption = none ∧ (decode 0x11000000).toOption = none

/-! ### Issue -/

/-- A step whose next access issues a word that decodes to a well-formed command runs that command
in the state with the access taken off the queue (R23, R62, R90). -/
def Obligations.StepRunsDecodedCommand : Prop :=
  ∀ (s : State) (op : HostOp) (rest : List HostOp) (w : Word) (i : Instr),
    s.host = op :: rest → Issues op w → decode w = .ok i → i.WellFormed →
      step s = exec i { s with host := rest }

/-- R100: an illegal word raises IllegalCommand with ERRINFO = w, clears DONE, and does nothing else. -/
def Obligations.IllegalWordRaises : Prop :=
  ∀ (s : State) (op : HostOp) (rest : List HostOp) (w : Word) (e : Reject),
    s.host = op :: rest → Issues op w → decode w = .error e → s.status.err = false →
      step s = .next { s with host := rest, status := ⟨true, false, 0x04⟩, errinfo := w }

/-- R308: while ERR = 1 every word but NOP's and INIT's is refused with no effect at all, legal or
not; and so is every command issued by itself. -/
def Obligations.RefusedWhileErr : Prop :=
  (∀ (s : State) (op : HostOp) (rest : List HostOp) (w : Word),
    s.status.err = true → s.host = op :: rest → Issues op w →
      w ≠ 0x00000000#32 → w ≠ 0x01000000#32 → step s = .next { s with host := rest }) ∧
  ∀ (s : State) (i : Instr), s.status.err = true → i ≠ .nop → i ≠ .init → exec i s = .next s

/-! ### Control commands and reset -/

/-- R260: NOP changes nothing, not even DONE, also while ERR = 1; and only the word 0x00000000 is NOP. -/
def Obligations.NopKeepsState : Prop :=
  (∀ s : State, exec .nop s = .next s) ∧ ∀ w : Word, decode w = .ok .nop ↔ w = 0x00000000#32

/-- R261: INIT builds the four tables and clears the predictors, the packer, the MCU position and the
error state, whatever state it is issued in; every other state element is kept. -/
def Obligations.InitEffect : Prop :=
  ∀ s : State,
    exec .init s = .next
      { s with
        ht := ⟨build (htBitsOf 0) (htValuesOf 0), build (htBitsOf 1) (htValuesOf 1),
          build (htBitsOf 2) (htValuesOf 2), build (htBitsOf 3) (htValuesOf 3)⟩
        htvalid := 0xF
        predY := 0, predCb := 0, predCr := 0
        bitacc := 0x00, bitidx := 7
        mcuX := 0, mcuY := 0
        status := ⟨false, false, 0⟩, errinfo := 0 }

/-- R182: HTBUILD t rebuilds HT[t] from its ROM specification and sets HTVALID[t]; no other table,
valid bit or state element changes, but for DONE. -/
def Obligations.HtbuildEffect : Prop :=
  ∀ (s : State) (t : Nat), s.status.err = false → t < 4 →
    ∃ u, exec (.htbuild t) s = .next u ∧
      u.ht.table t = build (htBitsOf t) (htValuesOf t) ∧ u.tableValid t = true ∧
      (∀ t' < 4, t' ≠ t → u.ht.table t' = s.ht.table t' ∧ u.tableValid t' = s.tableValid t') ∧
      u = { s.setDone false with ht := u.ht, htvalid := u.htvalid }

/-- R184: in each built table the codes are prefix-free, their lengths follow BITS, each code fits
its length, and none consists of 1-bits only. R180: the symbols of VALUES in order have the code 0 and then
each the code after the one before it, with zeros appended where the length grows. -/
def Obligations.TableCodes : Prop :=
  ∀ t < 4,
    (let code := fun i => (Buf.get ((htValuesOf t).getD i 0) (builtTable t)).getD ⟨0, 0⟩
    builtTable t = build (htBitsOf t) (htValuesOf t) ∧ (code 0).code = 0 ∧
      ∀ i, i + 1 < (htValuesOf t).length → (code i).len ≤ (code (i + 1)).len ∧
        (code (i + 1)).code = ((code i).code + 1) * 2 ^ ((code (i + 1)).len - (code i).len)) ∧
    (∀ p ∈ builtTable t, 1 ≤ p.2.len ∧ p.2.len ≤ 16 ∧ p.2.code < 2 ^ p.2.len - 1) ∧
    (∀ p ∈ builtTable t, ∀ q ∈ builtTable t, p.1 ≠ q.1 →
      ¬ (p.2.len ≤ q.2.len ∧ q.2.code / 2 ^ (q.2.len - p.2.len) = p.2.code)) ∧
    ∀ l < 16, ((builtTable t).filter fun p => p.2.len == l + 1).length = (htBitsOf t).getD l 0

/-- R340: hardware reset puts every state element of the core at its reset value, and keeps what is
outside the core: the stream, the pixel source, the host's coming accesses, the draws, the
parameters (the last three are the model's, log entries 2, 3, 4, 6 and 8); and, since UninitRead is never
cleared (R44), the record of it (log entry 2). -/
def Obligations.HardResetEffect : Prop :=
  ∀ (s : State) (rest : List HostOp), s.host = .reset :: rest →
    ∃ t, step s = .next t ∧
      t.status = ⟨false, false, 0⟩ ∧ t.errinfo = 0 ∧ t.imgW = 0 ∧ t.imgH = 0 ∧
      t.mcuX = 0 ∧ t.mcuY = 0 ∧ t.predY = 0 ∧ t.predCb = 0 ∧ t.predCr = 0 ∧
      t.bitacc = 0x00 ∧ t.bitidx = 7 ∧ t.htvalid = 0x0 ∧
      (∀ u < 4, ∀ sym, t.htEntry u sym = none) ∧
      t.cscY = none ∧ t.cscCb = none ∧ t.cscCr = none ∧
      (∀ j, Buf.get j t.bufS = none ∧ Buf.get j t.bufF = none ∧ Buf.get j t.bufQ = none ∧
        Buf.get j t.bufZ = none ∧ Buf.get j t.bufR = none) ∧
      t.sink = s.sink ∧ t.raster = s.raster ∧ t.host = rest ∧ t.readData = s.readData ∧
      t.tie = s.tie ∧ t.reads = s.reads ∧ t.uninit = s.uninit ∧ t.params = s.params

/-! ### Colour conversion and the load of an MCU -/

/-- R121: CSC leaves the three conversions of R120 in its result registers and changes nothing else but
DONE. With NUM = Real they are exact; in another number type their NUM values are free, and only what
the elements keep as the Real instance's value is exact (log entry 8). -/
def Obligations.CscConverts : Prop :=
  ∀ (s : State) (r g b : Nat), s.status.err = false →
    ∃ y cb cr : NumElem,
      exec (.csc r g b) s =
        .next { s.setDone false with cscY := some y, cscCb := some cb, cscCr := some cr } ∧
      y.ExactIn s.params.num (ycFormula r g b) ∧ cb.ExactIn s.params.num (cbcFormula r g b) ∧
      cr.ExactIn s.params.num (crcFormula r g b)

/-- R122: the ranges of the conversion of 8-bit levels, and a grey pixel's exact result. -/
def Obligations.ConversionRanges : Prop :=
  (∀ r g b : Nat, r ≤ 255 → g ≤ 255 → b ≤ 255 →
    (0 ≤ (yc r g b).toReal ∧ (yc r g b).toReal ≤ 255) ∧
    (0.5 ≤ (cbc r g b).toReal ∧ (cbc r g b).toReal ≤ 255.5) ∧
    (0.5 ≤ (crc r g b).toReal ∧ (crc r g b).toReal ≤ 255.5)) ∧
  ∀ v : Nat, (yc v v v).toReal = v ∧ (cbc v v v).toReal = 128 ∧ (crc v v v).toReal = 128

/-- R131 with R124, R125, R130 and R29: MCULOAD fills the six sample blocks from the clamped pixels
of its MCU, point-sampling the chroma, and records the MCU position; nothing else changes but DONE. With
NUM = Real the samples are exact; in another number type only what the elements keep as the Real
instance's value is (log entry 8). R70: the source's pixel at (x, y) is the raster's in row y and column x, or
the free one (log entry 5). -/
def Obligations.MculoadLoads : Prop :=
  (∀ (s : State) (x y : Nat),
    s.pixelRead x y = ((s.raster.getD y [])[x]?).getD (Config.pixel x y)) ∧
  ∀ (s : State) (mx my : Nat), s.status.err = false →
    1 ≤ s.imgW.toNat → 1 ≤ s.imgH.toNat → mx < s.nx → my < s.ny →
    let pix := fun x y => s.pixelRead (min x (s.imgW.toNat - 1)) (min y (s.imgH.toNat - 1))
    ∃ t, exec (.mcuload mx my) s = .next t ∧
      (∀ q < 4, ∀ r < 8, ∀ c < 8, ∃ v, Buf.get (elemIndex q (8 * r + c)) t.bufS = some v ∧
        v.ExactIn s.params.num (ofPixelFormula ycFormula
          (pix (16 * mx + 8 * (q % 2) + c) (16 * my + 8 * (q / 2) + r)))) ∧
      (∀ i < 8, ∀ j < 8, ∃ v, Buf.get (elemIndex 4 (8 * i + j)) t.bufS = some v ∧
        v.ExactIn s.params.num (ofPixelFormula cbcFormula (pix (16 * mx + 2 * j) (16 * my + 2 * i)))) ∧
      (∀ i < 8, ∀ j < 8, ∃ v, Buf.get (elemIndex 5 (8 * i + j)) t.bufS = some v ∧
        v.ExactIn s.params.num (ofPixelFormula crcFormula (pix (16 * mx + 2 * j) (16 * my + 2 * i + 1)))) ∧
      (∀ j, 384 ≤ j → Buf.get j t.bufS = Buf.get j s.bufS) ∧
      t = { s.setDone false with
        bufS := t.bufS, mcuX := BitVec.ofNat 12 mx, mcuY := BitVec.ofNat 12 my }

/-! ### Errors of the operand checks -/

/-- R131 to R133, R250, R300: with IMG_W = 0 or IMG_H = 0, MCULOAD, ENCMCU and ENCIMG raise SourceError
with IMG_H ‖ IMG_W and do nothing else; with both nonzero, an MCU index outside the canvas makes
MCULOAD and ENCMCU raise BadOperand with the command word, as a count above 16 makes PUTBITS, and
they do nothing else. R123: the canvas has ceil(IMG_W/16) by ceil(IMG_H/16) MCUs. -/
def Obligations.OperandErrors : Prop :=
  (∀ s : State, s.nx = (s.imgW.toNat + 15) / 16 ∧ s.ny = (s.imgH.toNat + 15) / 16) ∧
  ∀ s : State, s.status.err = false →
    (s.imgW = 0 ∨ s.imgH = 0 →
      let t := s.erring 0x01 (BitVec.ofNat 32 (s.imgH.toNat * 2 ^ 16 + s.imgW.toNat))
      exec .encimg s = .next t ∧
        ∀ mx my, exec (.mcuload mx my) s = .next t ∧ exec (.encmcu mx my) s = .next t) ∧
    (s.imgW ≠ 0 → s.imgH ≠ 0 → ∀ mx my, s.nx ≤ mx ∨ s.ny ≤ my →
      exec (.mcuload mx my) s = .next (s.erring 0x05 (encode (.mcuload mx my))) ∧
        exec (.encmcu mx my) s = .next (s.erring 0x05 (encode (.encmcu mx my)))) ∧
    ∀ (n : Nat) (v : BitVec 16), 16 < n → n < 32 →
      exec (.putbits n v) s = .next (s.erring 0x05 (encode (.putbits n v)))

/-- R93, R300: a block command with b = 6 or 7 raises InvalidBlockError with b, before any other
check, and does nothing else. -/
def Obligations.InvalidBlockRaised : Prop :=
  ∀ (s : State) (b : Nat), s.status.err = false → b = 6 ∨ b = 7 →
    ∀ i ∈ [Instr.fdct b, .quant b, .idct b, .zz b, .unzz b, .dcenc b, .acenc b, .blkenc b],
      exec i s = .next (s.erring 0x03 (BitVec.ofNat 32 b))

/-- R15, R16: the DC and AC table of each block. R32, R300: a coding command whose operands are legal, but one of whose Huffman tables is not
built, raises TableNotBuilt with the lowest such table, and does nothing else. -/
def Obligations.TableNotBuiltRaised : Prop :=
  ((List.range 6).map group = [0, 0, 0, 0, 1, 1] ∧ tdc 0 = 0 ∧ tdc 1 = 1 ∧ tac 0 = 2 ∧ tac 1 = 3) ∧
  ∀ (s : State) (t : Nat), s.status.err = false → t < 4 → s.tableValid t = false →
    let u := s.erring 0x06 (BitVec.ofNat 32 t)
    (∀ b ≤ 5, t = tdc (group b) → exec (.dcenc b) s = .next u) ∧
    (∀ b ≤ 5, t = tac (group b) → exec (.acenc b) s = .next u) ∧
    (∀ b ≤ 5, t = tdc (group b) ∨ (t = tac (group b) ∧ s.tableValid (tdc (group b)) = true) →
      exec (.blkenc b) s = .next u) ∧
    ((∀ t' < t, s.tableValid t' = true) → s.imgW ≠ 0 → s.imgH ≠ 0 →
      exec .encimg s = .next u ∧
        ∀ mx my, mx < s.nx → my < s.ny → exec (.encmcu mx my) s = .next u)

/-- R44: the hardware reads an unwritten element as an unspecified value. A command that reads a block does
what it would do if the block's unwritten elements held some values, and leaves them unwritten; a host read
of an unwritten element or CSC register answers a value. R44, R311: the model fault UninitRead names the
location; it sets no STATUS field. The model records it and goes on (log entry 2): a command that has to read
a block with an unwritten element records the first such it reads, ZZ in the order of ZZT (R204) and every
other in rising index (in FDCT, BLKENC and IDCT, which sum, the model's choice, log entry 2), BLKENC with its
two tables built included; and a host read records what it reads; in each case unless an earlier one is
recorded. -/
def Obligations.UnwrittenReads : Prop :=
  (∀ (s : State) (b : Nat), s.status.err = false → b ≤ 5 →
    (∃ x, FillsBlock b s.bufS x ∧ ∀ i ∈ [Instr.fdct b, .blkenc b],
      RunsAsFilled i s { s with bufS := filledBlock b x s.bufS } fun t => { t with bufS := s.bufS }) ∧
    (∃ x, FillsBlock b s.bufF x ∧
      RunsAsFilled (.quant b) s { s with bufF := filledBlock b x s.bufF } fun t =>
        { t with bufF := s.bufF }) ∧
    (∃ q, FillsBlock b s.bufQ q ∧ ∀ i ∈ [Instr.idct b, .zz b],
      RunsAsFilled i s { s with bufQ := filledBlock b q s.bufQ } fun t => { t with bufQ := s.bufQ }) ∧
    ∃ z, FillsBlock b s.bufZ z ∧ (∀ i ∈ [Instr.unzz b, .dcenc b],
      RunsAsFilled i s { s with bufZ := filledBlock b z s.bufZ } fun t => { t with bufZ := s.bufZ }) ∧
    ∃ z, FillsBlock b s.bufZ z ∧
      RunsAsFilled (.acenc b) s { s with bufZ := filledBlock b z s.bufZ } fun t =>
        { t with bufZ := s.bufZ }) ∧
  (∀ (s : State) (b k : Nat), s.status.err = false → b ≤ 5 →
    (FirstUnwritten b id 0 k s.bufS → RecordsUninit (.fdct b) s (.bufS b k) ∧
      (s.tableValid (tdc (group b)) = true → s.tableValid (tac (group b)) = true →
        RecordsUninit (.blkenc b) s (.bufS b k))) ∧
    (FirstUnwritten b id 0 k s.bufF → RecordsUninit (.quant b) s (.bufF b k)) ∧
    (FirstUnwritten b id 0 k s.bufQ → RecordsUninit (.idct b) s (.bufQ b k)) ∧
    (FirstUnwritten b zzt 0 k s.bufQ → RecordsUninit (.zz b) s (.bufQ b (zzt k))) ∧
    (FirstUnwritten b id 0 k s.bufZ → RecordsUninit (.unzz b) s (.bufZ b k)) ∧
    (s.tableValid (tdc (group b)) = true → FirstUnwritten b id 0 0 s.bufZ →
      RecordsUninit (.dcenc b) s (.bufZ b 0)) ∧
    (s.tableValid (tac (group b)) = true → FirstUnwritten b id 1 k s.bufZ →
      RecordsUninit (.acenc b) s (.bufZ b k))) ∧
  ∀ (s : State) (rest : List HostOp),
    let answers := fun (loc : Location) (v : BusValue) =>
      ∃ r, step s = .next { s with
        host := rest, readData := some v, reads := r, uninit := s.uninit.or (some loc) }
    (∀ b k : Nat, b ≤ 5 → k < 64 →
      let reads := fun base => s.host = .read (BitVec.ofNat 16 (base + 64 * b + k)) :: rest
      (reads 0x1000 → Buf.get (elemIndex b k) s.bufS = none → ∃ x, answers (.bufS b k) (.num x)) ∧
      (reads 0x1200 → Buf.get (elemIndex b k) s.bufF = none → ∃ x, answers (.bufF b k) (.num x)) ∧
      (reads 0x1400 → Buf.get (elemIndex b k) s.bufQ = none →
        ∃ c : Coef, answers (.bufQ b k) (.word (BitVec.ofInt 32 c.toInt))) ∧
      (reads 0x1600 → Buf.get (elemIndex b k) s.bufZ = none →
        ∃ c : Coef, answers (.bufZ b k) (.word (BitVec.ofInt 32 c.toInt))) ∧
      (reads 0x1800 → Buf.get (elemIndex b k) s.bufR = none → ∃ x, answers (.bufR b k) (.num x))) ∧
    (s.host = .read 0x0010 :: rest → s.cscY = none → ∃ x, answers .cscY (.num x)) ∧
    (s.host = .read 0x0011 :: rest → s.cscCb = none → ∃ x, answers .cscCb (.num x)) ∧
    (s.host = .read 0x0012 :: rest → s.cscCr = none → ∃ x, answers .cscCr (.num x))

/-! ### Forward DCT, quantisation, inverse path -/

/-- R153 with R150 and R152: FDCT b leaves in F[b] the DCT-II of the level-shifted block S[b], and
changes nothing else but DONE. With NUM = Real it is exact; in another number type only what the
elements keep as the Real instance's value is (log entry 8). -/
def Obligations.FdctExact : Prop :=
  ∀ (s : State) (b : Nat) (x : Nat → NumElem), s.status.err = false → b ≤ 5 →
    BlockHolds s.bufS b x →
    ∃ t, exec (.fdct b) s = .next t ∧
      (∀ v < 8, ∀ u < 8, ∃ y, Buf.get (elemIndex b (8 * v + u)) t.bufF = some y ∧
        y.ExactIn s.params.num (dctFormula (fun k => (x k).real.toReal) v u)) ∧
      OtherBlocksKept b s.bufF t.bufF ∧ t = { s.setDone false with bufF := t.bufF }

/-- R154, in exact arithmetic (NUM = Real): the DCT of a constant block is 8·(s − 128) at 0 and 0
elsewhere. -/
def Obligations.FdctConstantBlock : Prop :=
  ∀ (s : State) (b : Nat) (c : NumElem), s.status.err = false → b ≤ 5 → s.params.num = .real →
    BlockHolds s.bufS b (fun _ => c) →
    ∃ t, exec (.fdct b) s = .next t ∧
      ∀ k < 64, ∃ y, Buf.get (elemIndex b k) t.bufF = some y ∧
        y.Exact (if k = 0 then 8 * (c.real.toReal - 128) else 0)

/-- R155, R156, with NUM = Real: where every quantised value fits 16 bits, QUANT b writes round_hu of
the exact quotients to Q[b], and changes nothing else but DONE. -/
def Obligations.QuantRounds : Prop :=
  ∀ (s : State) (b : Nat) (x : Nat → NumElem), s.status.err = false → b ≤ 5 →
    s.params.num = .real → BlockHolds s.bufF b x →
    (∀ k < 64, -32768 ≤ quantFormula (x k).real.toReal (qt (group b) k) ∧
      quantFormula (x k).real.toReal (qt (group b) k) ≤ 32767) →
    ∃ t, exec (.quant b) s = .next t ∧
      (∀ k < 64, ∃ q, Buf.get (elemIndex b k) t.bufQ = some q ∧
        q.toInt = quantFormula (x k).real.toReal (qt (group b) k)) ∧
      OtherBlocksKept b s.bufQ t.bufQ ∧ t = { s.setDone false with bufQ := t.bufQ }

/-- R156 (2), with NUM = Real: where a quantised value does not fit 16 bits, QUANT b raises
RangeError with the lowest such index, and writes nothing. -/
def Obligations.QuantRangeError : Prop :=
  ∀ (s : State) (b : Nat) (x : Nat → NumElem) (k : Nat), s.status.err = false → b ≤ 5 →
    s.params.num = .real → BlockHolds s.bufF b x → k < 64 →
    quantFormula (x k).real.toReal (qt (group b) k) < -32768 ∨
      32767 < quantFormula (x k).real.toReal (qt (group b) k) →
    (∀ j < k, -32768 ≤ quantFormula (x j).real.toReal (qt (group b) j) ∧
      quantFormula (x j).real.toReal (qt (group b) j) ≤ 32767) →
    exec (.quant b) s = .next (s.erring 0x08 (BitVec.ofNat 32 k))

/-- R156, R157, with an inexact NUM: QUANT b quantises to values of which each, away from a rounding tie, is
round_hu of the exact quotient, that of the Real instance's value, which the element keeps; within EPS_NUM
of one it is one of the two neighbours. Where all fit 16 bits they are written, and nothing else changes but
DONE and the draws; where one does not, RangeError is raised with the lowest such index, and nothing is
written. Which neighbour is taken is a draw of the model's tie oracle, and no statement rests on it (log
entry 8). -/
def Obligations.QuantInexact : Prop :=
  ∀ (s : State) (b : Nat) (x : Nat → NumElem) (eps : NumVal), s.status.err = false → b ≤ 5 →
    s.params.num = .inexact eps → BlockHolds s.bufF b x →
    let ratio := fun k => (x k).real.toReal / qt (group b) k
    let fits := fun z : Int => -32768 ≤ z ∧ z ≤ 32767
    ∃ q : Nat → Int,
      (∀ k < 64, (q k = ⌊ratio k⌋ ∨ q k = ⌊ratio k⌋ + 1) ∧
        ((∀ m : Int, eps.toReal < |ratio k - (m + 1 / 2)|) →
          q k = quantFormula (x k).real.toReal (qt (group b) k))) ∧
      ((∀ k < 64, fits (q k)) → ∃ t, exec (.quant b) s = .next t ∧
        (∀ k < 64, ∃ c, Buf.get (elemIndex b k) t.bufQ = some c ∧ c.toInt = q k) ∧
        OtherBlocksKept b s.bufQ t.bufQ ∧
        t = { s.setDone false with bufQ := t.bufQ, tie := t.tie }) ∧
      ∀ k < 64, ¬ fits (q k) → (∀ j < k, fits (q j)) →
        ∃ o, exec (.quant b) s = .next { s.erring 0x08 (BitVec.ofNat 32 k) with tie := o }

/-- R158, R160, R37: IDCT b leaves in R[b] the dequantised, inverse-transformed block, shifted back and
clamped to [0, 255] with no rounding, and changes nothing else but DONE. With NUM = Real it is exact; in
another number type only what the elements keep as the Real instance's value is (log entry 8), and the
NUM value is in [0, 255] all the same. -/
def Obligations.IdctExact : Prop :=
  ∀ (s : State) (b : Nat) (q : Nat → Coef), s.status.err = false → b ≤ 5 →
    BlockHolds s.bufQ b q →
    ∃ t, exec (.idct b) s = .next t ∧
      (∀ y < 8, ∀ x < 8, ∃ v, Buf.get (elemIndex b (8 * y + x)) t.bufR = some v ∧
        v.ExactIn s.params.num (min (max
          (idctFormula (fun k => ((q k).toInt * (qt (group b) k : Int) : Int)) y x + 128) 0) 255) ∧
        0 ≤ v.num.toReal ∧ v.num.toReal ≤ 255) ∧
      OtherBlocksKept b s.bufR t.bufR ∧ t = { s.setDone false with bufR := t.bufR }

/-! ### Zigzag -/

/-- R204: ZZ b writes Z[b][k] = Q[b][ZZT[k]], and changes nothing else but DONE. -/
def Obligations.ZzScans : Prop :=
  ∀ (s : State) (b : Nat) (q : Nat → Coef), s.status.err = false → b ≤ 5 →
    BlockHolds s.bufQ b q →
    ∃ t, exec (.zz b) s = .next t ∧
      BlockHolds t.bufZ b (fun k => q (zzt k)) ∧
      OtherBlocksKept b s.bufZ t.bufZ ∧ t = { s.setDone false with bufZ := t.bufZ }

/-- R205: UNZZ b writes Q[b][ZZT[k]] = Z[b][k], and changes nothing else but DONE. -/
def Obligations.UnzzRestores : Prop :=
  ∀ (s : State) (b : Nat) (z : Nat → Coef), s.status.err = false → b ≤ 5 →
    BlockHolds s.bufZ b z →
    ∃ t, exec (.unzz b) s = .next t ∧
      (∀ k < 64, Buf.get (elemIndex b (zzt k)) t.bufQ = some (z k)) ∧
      OtherBlocksKept b s.bufQ t.bufQ ∧ t = { s.setDone false with bufQ := t.bufQ }

/-- R206: ZZT is a permutation of 0..63; ZZ b then UNZZ b leaves Q[b] unchanged, and UNZZ b then ZZ b
leaves Z[b] unchanged. -/
def Obligations.ZigzagRoundTrips : Prop :=
  (∀ k < 64, zzt k < 64) ∧ (∀ n < 64, ∃ k < 64, zzt k = n) ∧
  ∀ (s : State) (b : Nat) (f : Nat → Coef), s.status.err = false → b ≤ 5 →
    (BlockHolds s.bufQ b f →
      ∃ t, runCommands [.zz b, .unzz b] s = .next t ∧ BlockHolds t.bufQ b f) ∧
    (BlockHolds s.bufZ b f →
      ∃ t, runCommands [.unzz b, .zz b] s = .next t ∧ BlockHolds t.bufZ b f)

/-! ### Entropy coding -/

/-- R202: n and −n have one size, and decoding the VLI bits of n recovers n. R200: the size is the least s
with |n| < 2^s. -/
def Obligations.VliRoundTrip : Prop :=
  (∀ n : Int, n.natAbs < 2 ^ vliSize n ∧ ∀ s, n.natAbs < 2 ^ s → vliSize n ≤ s) ∧
  ∀ n : Int, n ≠ 0 → n.natAbs < 2048 →
    vliSize n = vliSize (-n) ∧ vli n (vliSize n) < 2 ^ vliSize n ∧
      vliDecode (vli n (vliSize n)) (vliSize n) = n

/-- R210, R214: with a sink that accepts, DCENC b appends the size symbol of the DC difference and its
VLI bits, sets the predictor of b's slot to the DC, and changes nothing else but DONE. R242, R243: the
bits of BITACC not yet written are as they were, or as the last emitted byte left them. -/
def Obligations.DcencAppends : Prop :=
  ∀ (s : State) (b : Nat) (dc : Coef), s.status.err = false → b ≤ 5 →
    s.tableValid (tdc (group b)) = true → TablesBuilt s →
    Buf.get (elemIndex b 0) s.bufZ = some dc →
    vliSize (dc.toInt - (s.pred (slot b)).toInt) ≤ 11 → SinkAccepts 10 s.sink →
    ∃ t, exec (.dcenc b) s = .next t ∧
      let bits := valueBits (tdc (group b)) 0 (dc.toInt - (s.pred (slot b)).toInt)
      Appends s t bits ∧ LowBitsKept s t bits ∧
        SameButPacker ((s.setDone false).setPred (slot b) dc) t

/-- R306 (b), (c): whatever the sink answers, a DCENC or ACENC that passes its checks answers a next
state in which no byte of the stream is lost, the predictor of a DCENC holds the DC, and only the packer
and, on a SinkError, STATUS and ERRINFO have changed besides. R72, R300: where the sink refuses a byte that
the bits of the command fill, or the 0x00 after it, the bytes before it are in the stream, BITACC holds the
byte, BITIDX is 0, and ERRINFO is the byte that could not be written. BLKENC, with its tables built, does what
its five commands do one after the other, an error included: a RangeError keeps what FDCT did, and a
SymbolMissing keeps F, Q and Z and, in the ACENC step, all that the DC step did. -/
def Obligations.CodingPartialEffects : Prop :=
  ∀ (s : State) (b : Nat), s.status.err = false → b ≤ 5 → TablesBuilt s →
    let ends := fun t : State => s.sink.stream <+: t.sink.stream ∧
      ((t.status = { s.status with done := false } ∧ t.errinfo = s.errinfo) ∨
        t.status = ⟨true, false, 0x02⟩)
    (∀ dc : Coef, s.tableValid (tdc (group b)) = true →
      Buf.get (elemIndex b 0) s.bufZ = some dc →
      vliSize (dc.toInt - (s.pred (slot b)).toInt) ≤ 11 →
      (∃ t, exec (.dcenc b) s = .next t ∧ ends t ∧
        t = { (s.setDone false).setPred (slot b) dc with
          bitacc := t.bitacc, bitidx := t.bitidx, sink := t.sink
          status := t.status, errinfo := t.errinfo }) ∧
      StopsAtSink (exec (.dcenc b) s) s (s.setPred (slot b) dc)
        (valueBits (tdc (group b)) 0 (dc.toInt - (s.pred (slot b)).toInt))) ∧
    (∀ z : Nat → Coef, s.tableValid (tac (group b)) = true →
      (∀ k, 1 ≤ k → k < 64 →
        Buf.get (elemIndex b k) s.bufZ = some (z k) ∧ vliSize (z k).toInt ≤ 10) →
      (∃ t, exec (.acenc b) s = .next t ∧ ends t ∧
        t = { s with
          bitacc := t.bitacc, bitidx := t.bitidx, sink := t.sink
          status := t.status, errinfo := t.errinfo }) ∧
      StopsAtSink (exec (.acenc b) s) s s ((acSymbolsOf z).flatMap (acBits (tac (group b))))) ∧
    (s.tableValid (tdc (group b)) = true → s.tableValid (tac (group b)) = true →
      exec (.blkenc b) s = runCommands (blockCommands b) s ∧
      ∀ t, exec (.blkenc b) s = .next t →
        (t.status = ⟨true, false, 0x08⟩ → ∃ u, exec (.fdct b) s = .next u ∧
          t = { u with status := t.status, errinfo := t.errinfo, tie := t.tie }) ∧
        (t.status = ⟨true, false, 0x07⟩ → ∃ u,
          runCommands [.fdct b, .quant b, .zz b] s = .next u ∧ u.status.err = false ∧
          t.bufF = u.bufF ∧ t.bufQ = u.bufQ ∧ t.bufZ = u.bufZ ∧
          (t = { u with status := t.status, errinfo := t.errinfo } ∨
            ∃ v, exec (.dcenc b) u = .next v ∧ v.status.err = false ∧
              t = { v with status := t.status, errinfo := t.errinfo })))

/-- R214 (3): a DC difference of a size above 11 raises SymbolMissing with t << 16 | s, and changes
nothing else. -/
def Obligations.DcSymbolMissing : Prop :=
  ∀ (s : State) (b : Nat) (dc : Coef), s.status.err = false → b ≤ 5 →
    s.tableValid (tdc (group b)) = true → Buf.get (elemIndex b 0) s.bufZ = some dc →
    11 < vliSize (dc.toInt - (s.pred (slot b)).toInt) →
    exec (.dcenc b) s = .next (s.erring 0x07 (BitVec.ofNat 32
      (tdc (group b) * 2 ^ 16 + vliSize (dc.toInt - (s.pred (slot b)).toInt))))

/-- R220, R221: with a sink that accepts, ACENC b appends the bits of the AC symbols of its block, and
changes nothing else but DONE; the predictors are not touched. R242, R243: the bits of BITACC not yet
written are as they were, or as the last emitted byte left them. -/
def Obligations.AcencAppends : Prop :=
  ∀ (s : State) (b : Nat) (z : Nat → Coef), s.status.err = false → b ≤ 5 →
    s.tableValid (tac (group b)) = true → TablesBuilt s →
    (∀ k, 1 ≤ k → k < 64 →
      Buf.get (elemIndex b k) s.bufZ = some (z k) ∧ vliSize (z k).toInt ≤ 10) →
    SinkAccepts 500 s.sink →
    ∃ t, exec (.acenc b) s = .next t ∧
      let bits := (acSymbolsOf z).flatMap (acBits (tac (group b)))
      Appends s t bits ∧ LowBitsKept s t bits ∧ SameButPacker (s.setDone false) t

/-- R221 (3): an AC coefficient of a size above 10 raises SymbolMissing with t << 16 | run << 8 | s of
the lowest such k, where run is that of the loop, and changes nothing else. -/
def Obligations.AcSymbolMissing : Prop :=
  ∀ (s : State) (b : Nat) (z : Nat → Coef) (p k : Nat), s.status.err = false → b ≤ 5 →
    s.tableValid (tac (group b)) = true →
    (∀ j, 1 ≤ j → j < 64 → Buf.get (elemIndex b j) s.bufZ = some (z j)) →
    1 ≤ k → k < 64 → 10 < vliSize (z k).toInt →
    (∀ j, 1 ≤ j → j < k → vliSize (z j).toInt ≤ 10) →
    p < k → (p = 0 ∨ z p ≠ 0) → (∀ j, p < j → j < k → z j = 0) →
    exec (.acenc b) s = .next (s.erring 0x07 (BitVec.ofNat 32
      (tac (group b) * 2 ^ 16 + (k - p - 1) % 16 * 2 ^ 8 + vliSize (z k).toInt)))

/-- The symbols of R220 lose nothing: expanding them gives the 63 AC coefficients back, the zeros
after the EOB index filled in. -/
def Obligations.AcSymbolsDecode : Prop :=
  ∀ zs : List Int, zs.length = 63 →
    acExpand (acSymbols zs) ++ List.replicate (63 - (acExpand (acSymbols zs)).length) 0 = zs

/-- R222: every ZRL is followed by a value's symbol; there is at most one EOB, it comes last, and it
comes exactly when position 63 is zero; a run is below 16. -/
def Obligations.AcSymbolLaws : Prop :=
  ∀ zs : List Int, zs.length = 63 →
    (∀ a c, acSymbols zs = a ++ .zrl :: c → ∃ run z, AcSym.value run z ∈ c) ∧
    (∀ a c, acSymbols zs = a ++ .eob :: c → c = []) ∧
    (.eob ∈ acSymbols zs ↔ zs.getLast? = some 0) ∧
    ∀ run z, AcSym.value run z ∈ acSymbols zs → run < 16 ∧ z ≠ 0

/-! ### The bit packer and the sink -/

/-- R240 to R243, R250: with a sink that accepts, PUTBITS n, v with n ≤ 16 appends the n low bits of
v, most significant first, and changes nothing else but DONE. The bits of BITACC not yet written are as
they were where no byte was emitted; else they are those of the last emitted byte with PAD_MODE stale, and
0 with PAD_MODE zero. -/
def Obligations.PutbitsAppends : Prop :=
  ∀ (s : State) (n : Nat) (v : BitVec 16), s.status.err = false → n ≤ 16 →
    SinkAccepts 4 s.sink →
    ∃ t, exec (.putbits n v) s = .next t ∧ Appends s t (bitsOf v.toNat n) ∧
      LowBitsKept s t (bitsOf v.toNat n) ∧ SameButPacker (s.setDone false) t

/-- R243, R251: with a sink that accepts, FLUSH emits BITACC where bits are pending or EMPTY_FLUSH is
emit, and empties the packer; else it emits nothing; it changes nothing else but DONE. -/
def Obligations.FlushEmits : Prop :=
  ∀ s : State, s.status.err = false → SinkAccepts 2 s.sink →
    (s.bitidx ≠ 7 ∨ s.params.emptyFlush = .emit →
      ∃ t, exec .flush s = .next t ∧ t.sink.stream = s.sink.stream ++ stuffed [s.bitacc] ∧
        t.bitacc = (if s.params.padMode = .zero then 0x00#8 else s.bitacc) ∧ t.bitidx = 7 ∧
        SameButPacker (s.setDone false) t) ∧
    (s.bitidx = 7 → s.params.emptyFlush = .skip → exec .flush s = .next (s.setDone false))

/-- R243, R245: in mode zero, and in a state that meets the invariant, the byte FLUSH emits is the
pending bits followed by 0-bits. -/
def Obligations.FlushPadsWithZeros : Prop :=
  ∀ s : State, s.status.err = false → s.Inv → s.params.padMode = .zero → s.bitidx ≠ 7 →
    SinkAccepts 2 s.sink →
    ∃ t, exec .flush s = .next t ∧
      t.sink.stream = s.sink.stream ++
        stuffed [byteOfBits (pendingBits s ++ List.replicate (s.bitidx.toNat + 1) false)]

/-- R72, R242, R243, R306 (c): a FLUSH whose byte the sink refuses leaves BITACC and BITIDX and raises
SinkError with the byte; where the sink takes a 0xFF and refuses its 0x00, the 0xFF stays and ERRINFO
is 0. A PUTBITS, the bytes it fills before a byte taken by the sink, stops where the sink refuses that
byte, with the byte in BITACC, BITIDX = 0 and ERRINFO, and the earlier bytes in the stream; where the byte is
0xFF and the sink takes it but refuses its 0x00, so too, but ERRINFO is 0 and the 0xFF is in the stream. -/
def Obligations.SinkErrors : Prop :=
  ∀ s : State, s.status.err = false →
    (s.bitidx ≠ 7 ∨ s.params.emptyFlush = .emit →
      (s.sink.accepts = false →
        exec .flush s =
          .next { s.erring 0x02 (s.bitacc.setWidth 32) with sink := s.sink.drawn }) ∧
      (s.sink.accepts = true → s.bitacc = 0xFF → s.sink.drawn.accepts = false →
        exec .flush s =
          .next { s.erring 0x02 0 with sink := (s.sink.drawn.append 0xFF).drawn })) ∧
    ∀ (n : Nat) (v : BitVec 16), n ≤ 16 →
      StopsAtSink (exec (.putbits n v) s) s s (bitsOf v.toNat n)

/-- R72, R306: no step takes a byte of the output stream back. -/
def Obligations.StreamOnlyGrows : Prop :=
  ∀ s t : State, step s = .next t → s.sink.stream <+: t.sink.stream

/-- R241, R244 (a), (c): in whatever a command appends to the stream, every 0xFF is followed by 0x00;
only a SinkError on the 0x00 itself leaves a last 0xFF bare (R306). -/
def Obligations.StuffingLaw : Prop :=
  ∀ (i : Instr) (s t : State), exec i s = .next t →
    ∃ bs, t.sink.stream = s.sink.stream ++ stuffed bs ∨
      (t.sink.stream = s.sink.stream ++ stuffed bs ++ [0xFF#8] ∧
        t.status = ⟨true, false, 0x02⟩ ∧ t.errinfo = 0)

/-! ### The pipeline -/

/-- R225, R134, with NUM = Real and a sink that accepts: from a sample block of the converter's range
and small predictors, BLKENC b completes without an error; F[b] is the exact DCT, Q[b] its rounded
quotients, Z[b] their zigzag scan, the predictor the DC, and the bits of the DC difference and of the
AC symbols are appended; nothing else changes but DONE. R242, R243: the bits of BITACC not yet written are
as they were, or as the last emitted byte left them. -/
def Obligations.BlkencCodesBlock : Prop :=
  ∀ (s : State) (b : Nat) (x : Nat → NumElem), s.status.err = false → b ≤ 5 →
    s.tableValid (tdc (group b)) = true → s.tableValid (tac (group b)) = true → TablesBuilt s →
    s.params.num = .real → PredictorsSmall s → BlockHolds s.bufS b x →
    (∀ k < 64, 0 ≤ (x k).real.toReal ∧ (x k).real.toReal ≤ 255.5) → SinkAccepts 500 s.sink →
    ∃ (t : State) (q : Nat → Coef), exec (.blkenc b) s = .next t ∧
      (∀ v < 8, ∀ u < 8, ∃ y, Buf.get (elemIndex b (8 * v + u)) t.bufF = some y ∧
        y.Exact (dctFormula (fun k => (x k).real.toReal) v u) ∧
        (q (8 * v + u)).toInt = quantFormula y.real.toReal (qt (group b) (8 * v + u))) ∧
      BlockHolds t.bufQ b q ∧ BlockHolds t.bufZ b (fun k => q (zzt k)) ∧
      (let bits := valueBits (tdc (group b)) 0 ((q 0).toInt - (s.pred (slot b)).toInt) ++
        (acSymbolsOf fun k => q (zzt k)).flatMap (acBits (tac (group b)))
      Appends s t bits ∧ LowBitsKept s t bits) ∧
      OtherBlocksKept b s.bufF t.bufF ∧ OtherBlocksKept b s.bufQ t.bufQ ∧
      OtherBlocksKept b s.bufZ t.bufZ ∧
      t = { (s.setDone false).setPred (slot b) (q 0) with
        bufF := t.bufF, bufQ := t.bufQ, bufZ := t.bufZ
        bitacc := t.bitacc, bitidx := t.bitidx, sink := t.sink }

/-- R135, R306: where the sequence MCULOAD, then FDCT, QUANT, ZZ, DCENC, ACENC of each of the six blocks,
raises no error, ENCMCU mx, my has the same effect on all state and on the stream; and where its checks
pass it has the sequence's effect also where that stops at an error. In a state with a large predictor,
which only a DCENC of a Z not made by the pipeline leaves, that error can be SymbolMissing: this is the model's reading (log
entry 20; R134 and R300 say that none occurs). -/
def Obligations.EncmcuIsSequence : Prop :=
  (∀ (s t : State) (mx my : Nat),
    runCommands (mcuCommands mx my) s = .next t → t.status.err = false →
      exec (.encmcu mx my) s = .next t) ∧
  ∀ (s : State) (mx my : Nat), s.status.err = false → s.imgW ≠ 0 → s.imgH ≠ 0 →
    mx < s.nx → my < s.ny → s.htvalid = 0xF#4 →
      exec (.encmcu mx my) s = runCommands (mcuCommands mx my) s

/-- R135, R306: on a nonempty image, where ENCMCU over the row-major grid and then FLUSH raises no error,
ENCIMG has the same effect on all state and on the stream, but that it sets DONE at its end; and where
its checks pass it has the sequence's effect, with DONE 0, also where that stops at an error. In a state
with a large predictor that error can be SymbolMissing: this is the model's reading (log entry 20). -/
def Obligations.EncimgIsSequence : Prop :=
  (∀ s t : State, s.imgW ≠ 0 → s.imgH ≠ 0 →
    runCommands (imageCommands s.nx s.ny) s = .next t → t.status.err = false →
      exec .encimg s = .next (t.setDone true)) ∧
  ∀ s t : State, s.status.err = false → s.imgW ≠ 0 → s.imgH ≠ 0 → s.htvalid = 0xF#4 →
    runCommands (imageCommands s.nx s.ny) s = .next t → t.status.err = true →
      exec .encimg s = .next t

/-- R132, R134, with NUM = Real and a sink that accepts: from a ready state ENCMCU completes without
an error for every MCU of the canvas; it records the MCU position, keeps the predictors small, and
changes nothing but the pipeline's buffers, the predictors, the packer and DONE. -/
def Obligations.EncmcuCompletes : Prop :=
  ∀ (s : State) (mx my : Nat), ReadyToEncode s → mx < s.nx → my < s.ny →
    SinkAccepts 2600 s.sink →
    ∃ t, exec (.encmcu mx my) s = .next t ∧ PredictorsSmall t ∧
      s.sink.stream <+: t.sink.stream ∧
      t = { s.setDone false with
        mcuX := BitVec.ofNat 12 mx, mcuY := BitVec.ofNat 12 my
        predY := t.predY, predCb := t.predCb, predCr := t.predCr
        bufS := t.bufS, bufF := t.bufF, bufQ := t.bufQ, bufZ := t.bufZ
        bitacc := t.bitacc, bitidx := t.bitidx, sink := t.sink }

/-- R133, R134, with NUM = Real and a sink that accepts: from a ready state ENCIMG completes without
an error, sets DONE, leaves no bit pending and the last MCU's position, keeps the predictors small,
and changes nothing but the pipeline's buffers, the predictors and the packer. -/
def Obligations.EncimgCompletes : Prop :=
  ∀ s : State, ReadyToEncode s → SinkAccepts (2600 * (s.nx * s.ny) + 2) s.sink →
    ∃ t, exec .encimg s = .next t ∧ PredictorsSmall t ∧
      s.sink.stream <+: t.sink.stream ∧
      t = { s.setDone true with
        mcuX := BitVec.ofNat 12 (s.nx - 1), mcuY := BitVec.ofNat 12 (s.ny - 1)
        predY := t.predY, predCb := t.predCb, predCr := t.predCr
        bufS := t.bufS, bufF := t.bufF, bufQ := t.bufQ, bufZ := t.bufZ
        bitacc := t.bitacc, bitidx := 7, sink := t.sink }

/-! ### Whole-machine rules -/

/-- R25, R305, R309: once ERR is set, no step but INIT's issue and hardware reset clears it or changes
ECODE or ERRINFO, so they describe the first error. -/
def Obligations.FirstErrorKept : Prop :=
  ∀ (s t : State), s.status.err = true → step s = .next t →
    (∀ rest, s.host ≠ .reset :: rest) →
    (∀ op rest, s.host = op :: rest → ¬ Issues op 0x01000000#32) →
    t.status = s.status ∧ t.errinfo = s.errinfo

/-- R25, R45: after a command DONE is 1 only where ENCIMG has completed, or where a NOP or a refusal
left it as it was. -/
def Obligations.DoneOnlyByEncimg : Prop :=
  ∀ (i : Instr) (s t : State), exec i s = .next t → t.status.done = true →
    (i = .encimg ∧ t.status.err = false) ∨
      (t.status.done = s.status.done ∧ (i = .nop ∨ s.status.err = true))

/-- R15: the predictor slot of each block. R30, R215: the predictors change only in DCENC, in the commands that run it, and in INIT; DCENC b
and BLKENC b change no slot but b's. -/
def Obligations.PredictorDiscipline : Prop :=
  (List.range 6).map slot = [.y, .y, .y, .y, .cb, .cr] ∧
  ∀ (i : Instr) (s t : State) (sl : Slot), exec i s = .next t → t.pred sl ≠ s.pred sl →
    i = .init ∨ i = .encimg ∨ (∃ mx my, i = .encmcu mx my) ∨
      ∃ b, (i = .dcenc b ∨ i = .blkenc b) ∧ sl = slot b

/-- R31, R83: BITACC and BITIDX change only in the commands that pack bits, in FLUSH and in INIT; the
built tables and HTVALID only in HTBUILD and INIT. -/
def Obligations.PackerAndTableWriters : Prop :=
  ∀ (i : Instr) (s t : State), exec i s = .next t →
    (t.bitacc ≠ s.bitacc ∨ t.bitidx ≠ s.bitidx →
      i = .init ∨ i = .flush ∨ i = .encimg ∨ (∃ mx my, i = .encmcu mx my) ∨
        (∃ n v, i = .putbits n v) ∨ ∃ b, i = .dcenc b ∨ i = .acenc b ∨ i = .blkenc b) ∧
    (t.ht ≠ s.ht ∨ t.htvalid ≠ s.htvalid → i = .init ∨ ∃ u, i = .htbuild u)

/-- R27, R29, R33 to R38, R70: which commands write each stage buffer, the CSC registers and the MCU
position; and that none changes the image size, the pixel source, or what belongs to the host and to
the configuration. -/
def Obligations.BufferWriters : Prop :=
  ∀ (i : Instr) (s t : State), exec i s = .next t →
    let pipeline := i = .encimg ∨ ∃ mx my, i = .encmcu mx my
    (t.bufS ≠ s.bufS → pipeline ∨ ∃ mx my, i = .mcuload mx my) ∧
    (t.bufF ≠ s.bufF → pipeline ∨ ∃ b, i = .fdct b ∨ i = .blkenc b) ∧
    (t.bufQ ≠ s.bufQ → pipeline ∨ ∃ b, i = .quant b ∨ i = .unzz b ∨ i = .blkenc b) ∧
    (t.bufZ ≠ s.bufZ → pipeline ∨ ∃ b, i = .zz b ∨ i = .blkenc b) ∧
    (t.bufR ≠ s.bufR → ∃ b, i = .idct b) ∧
    (t.cscY ≠ s.cscY ∨ t.cscCb ≠ s.cscCb ∨ t.cscCr ≠ s.cscCr → ∃ r g b, i = .csc r g b) ∧
    (t.mcuX ≠ s.mcuX ∨ t.mcuY ≠ s.mcuY →
      pipeline ∨ i = .init ∨ ∃ mx my, i = .mcuload mx my) ∧
    t.imgW = s.imgW ∧ t.imgH = s.imgH ∧ t.raster = s.raster ∧ t.host = s.host ∧
      t.readData = s.readData ∧ t.params = s.params

/-- R305, R308: the core reports an error in STATUS and goes on, so every command answers a next state, from
every state: none is refused by the model, and none faults. R44: once UninitRead is recorded no step clears
it or records another, reset and INIT included (log entry 2). -/
def Obligations.CommandsAnswerNext : Prop :=
  (∀ (i : Instr) (s : State), ∃ t, exec i s = .next t) ∧
  ∀ s t : State, step s = .next t → s.uninit ≠ none → t.uninit = s.uninit

/-- Every step keeps the invariant: canonical memory (R33 to R37, R42), a legal STATUS (R25), tables
as built (R83), clean pad bits (R242, R245). -/
def Obligations.StepKeepsInv : Prop :=
  ∀ s t : State, s.Inv → step s = .next t → t.Inv

/-- The state after reset meets the invariant. -/
def Obligations.ResetMeetsInv : Prop := State.reset.Inv

/-! ### The host's accesses -/

/-- R62, R78: a host read changes nothing, but where the element is unwritten, of which the model records the
read and counts its draw (R44; log entry 2); what it returns goes to the host; where it returns nothing the
step is that fault (R311). R73, R270: the host's SINK
byte is appended to the stream as it is, never stuffed, and changes no state of the core; R74: nor does
the host's flush of the sink, which the model only records (the queue and readData: log entry 3; that a
SINK byte is always taken: log entry 10; the flag: log entry 14). -/
def Obligations.HostReadAndSink : Prop :=
  (∀ (s : State) (a : Addr) (rest : List HostOp), s.host = .read a :: rest →
    (∀ v, readValue a s = .ok v →
      ∃ r u, step s = .next { s with host := rest, readData := some v, reads := r, uninit := u } ∧
        (a.toNat ≤ 0x0F ∨ 0x2000 ≤ a.toNat ∨ a = 0x0010 ∧ s.cscY ≠ none ∨ a = 0x0011 ∧ s.cscCb ≠ none ∨
          a = 0x0012 ∧ s.cscCr ≠ none → r = s.reads ∧ u = s.uninit)) ∧
    ∀ f, readValue a s = .error f → step s = .fault f) ∧
  (∀ (s : State) (x : Byte) (rest : List HostOp), s.host = .sink x :: rest →
    step s = .next { s with
      host := rest, sink := { s.sink with stream := s.sink.stream ++ [x], flushed := false } }) ∧
  ∀ (s : State) (rest : List HostOp), s.host = .sinkFlush :: rest →
    step s = .next { s with host := rest, sink := { s.sink with flushed := true } }

/-- What every read-only or plain read returns. R22 to R32, R38, R63, R67: the control registers' fields,
every other bit 0, and the NUM value of a CSC register; R44: of an unwritten one some value (log entry 2).
R61, R65: the ROMs QT, ZZT,
HTSPEC.BITS (0 at 0) and HTSPEC.VALUES (0 past the end), with the values that R151, R203 and R181 print, which
are the values the commands use too; the spec takes them from ITU-T T.81, not from its source (log entry 13,
PRESUMED). R66: the HT window's valid bit, length and
code, 0 where the symbol is absent or the table not built. -/
def Obligations.RegisterAndTableReads : Prop :=
  ∀ s : State,
    readValue 0x0000 s = .ok (dataWord 0) ∧
    readValue 0x0001 s = .ok (dataWord
      (s.status.ecode.toNat * 2 ^ 8 + s.status.done.toNat * 2 + s.status.err.toNat)) ∧
    readValue 0x0002 s = .ok (.word s.errinfo) ∧
    readValue 0x0003 s = .ok (dataWord 0x4A504547) ∧
    readValue 0x0004 s = .ok (dataWord s.imgW.toNat) ∧
    readValue 0x0005 s = .ok (dataWord s.imgH.toNat) ∧
    readValue 0x0006 s = .ok (dataWord (16 * ((s.imgW.toNat + 15) / 16))) ∧
    readValue 0x0007 s = .ok (dataWord (16 * ((s.imgH.toNat + 15) / 16))) ∧
    readValue 0x0008 s = .ok (dataWord s.mcuX.toNat) ∧
    readValue 0x0009 s = .ok (dataWord s.mcuY.toNat) ∧
    readValue 0x000A s = .ok (.word (BitVec.ofInt 32 s.predY.toInt)) ∧
    readValue 0x000B s = .ok (.word (BitVec.ofInt 32 s.predCb.toInt)) ∧
    readValue 0x000C s = .ok (.word (BitVec.ofInt 32 s.predCr.toInt)) ∧
    readValue 0x000D s = .ok (dataWord s.bitacc.toNat) ∧
    readValue 0x000E s = .ok (dataWord s.bitidx.toNat) ∧
    readValue 0x000F s = .ok (dataWord s.htvalid.toNat) ∧
    (∀ e, s.cscY = some e → readValue 0x0010 s = .ok (.num (e.value s.params.num))) ∧
    (s.cscY = none → ∃ x, readValue 0x0010 s = .ok (.num x)) ∧
    (∀ e, s.cscCb = some e → readValue 0x0011 s = .ok (.num (e.value s.params.num))) ∧
    (s.cscCb = none → ∃ x, readValue 0x0011 s = .ok (.num x)) ∧
    (∀ e, s.cscCr = some e → readValue 0x0012 s = .ok (.num (e.value s.params.num))) ∧
    (s.cscCr = none → ∃ x, readValue 0x0012 s = .ok (.num x)) ∧
    (∀ g < 2, ∀ k < 64, readValue (BitVec.ofNat 16 (0x2000 + 64 * g + k)) s = .ok (dataWord (qt g k))) ∧
    (∀ k < 64, readValue (BitVec.ofNat 16 (0x2080 + k)) s = .ok (dataWord (zzt k))) ∧
    (∀ g < 2, (List.range 64).map (qt g) = printedQt g) ∧ (List.range 64).map zzt = printedZzt ∧
    (∀ t < 4, htBitsOf t = printedBits t ∧ htValuesOf t = printedValues t) ∧
    (∀ t < 4,
      readValue (BitVec.ofNat 16 (0x2100 + 32 * t)) s = .ok (dataWord 0) ∧
      (∀ l < 16, readValue (BitVec.ofNat 16 (0x2100 + 32 * t + l + 1)) s =
        .ok (dataWord ((htBitsOf t).getD l 0))) ∧
      (∀ i < (htValuesOf t).length, readValue (BitVec.ofNat 16 (0x2200 + 256 * t + i)) s =
        .ok (dataWord ((htValuesOf t).getD i 0))) ∧
      (∀ i < 256, (htValuesOf t).length ≤ i →
        readValue (BitVec.ofNat 16 (0x2200 + 256 * t + i)) s = .ok (dataWord 0)) ∧
      ∀ sym < 256,
        let read := readValue (BitVec.ofNat 16 (0x2600 + 256 * t + sym)) s
        (s.tableValid t = false ∨ Buf.get sym (s.ht.table t) = none → read = .ok (dataWord 0)) ∧
        ∀ c, s.tableValid t = true → Buf.get sym (s.ht.table t) = some c →
          c.len ≤ 16 → c.code < 2 ^ c.len →
            read = .ok (dataWord (2 ^ 31 + c.len * 2 ^ 16 + c.code)))

/-- R62, R64, R77, R79: a step whose next access is a host write to an element of a stage buffer writes that
element and nothing else: a Q or Z element takes int16 of the word, an S, F or R element the NUM value, as
the Real instance's value too, which QUANT reads (R157, log entry 8); the next host read answers it. A step
whose next access is a host read of a written element, whoever wrote it, answers sext_32 of a Q or Z element
and the NUM value of an S, F or R element. That an R element takes also a value outside [0, 255] is the
model's choice (log entry 21), as is what an access of the other kind carries (log entry 7). -/
def Obligations.StageWriteThenRead : Prop :=
  (∀ x, busNum (.num x) = x) ∧ (∀ w, busWord (.word w) = w) ∧
  ∀ (s : State) (rest : List HostOp) (b k : Nat), b ≤ 5 → k < 64 →
    let i := elemIndex b k
    let addr := fun base : Nat => BitVec.ofNat 16 (base + 64 * b + k)
    let keeps := fun {α : Type} (before after : Buf α) => ∀ j, j ≠ i → Buf.get j after = Buf.get j before
    let answers := fun (base : Nat) (v : BusValue) => s.host = .read (addr base) :: rest →
      step s = .next { s with host := rest, readData := some v }
    let value := fun e : NumElem => if s.params.num = .real then e.real else e.num
    (∀ v : BusValue,
      let writes := fun base : Nat => s.host = .write (addr base) v :: rest
      let e : NumElem := ⟨busNum v, busNum v⟩
      let c : Coef := (busWord v).setWidth 16
      (writes 0x1000 → ∃ t, step s = .next t ∧ Buf.get i t.bufS = some e ∧
        readValue (addr 0x1000) t = .ok (.num (busNum v)) ∧ keeps s.bufS t.bufS ∧
        t = { s with host := rest, bufS := t.bufS }) ∧
      (writes 0x1200 → ∃ t, step s = .next t ∧ Buf.get i t.bufF = some e ∧
        readValue (addr 0x1200) t = .ok (.num (busNum v)) ∧ keeps s.bufF t.bufF ∧
        t = { s with host := rest, bufF := t.bufF }) ∧
      (writes 0x1400 → ∃ t, step s = .next t ∧ Buf.get i t.bufQ = some c ∧
        readValue (addr 0x1400) t = .ok (.word (c.signExtend 32)) ∧ keeps s.bufQ t.bufQ ∧
        t = { s with host := rest, bufQ := t.bufQ }) ∧
      (writes 0x1600 → ∃ t, step s = .next t ∧ Buf.get i t.bufZ = some c ∧
        readValue (addr 0x1600) t = .ok (.word (c.signExtend 32)) ∧ keeps s.bufZ t.bufZ ∧
        t = { s with host := rest, bufZ := t.bufZ }) ∧
      (writes 0x1800 → ∃ t, step s = .next t ∧ Buf.get i t.bufR = some e ∧
        readValue (addr 0x1800) t = .ok (.num (busNum v)) ∧ keeps s.bufR t.bufR ∧
        t = { s with host := rest, bufR := t.bufR })) ∧
    (∀ e, Buf.get i s.bufS = some e → answers 0x1000 (.num (value e))) ∧
    (∀ e, Buf.get i s.bufF = some e → answers 0x1200 (.num (value e))) ∧
    (∀ c, Buf.get i s.bufQ = some c → answers 0x1400 (.word (BitVec.ofInt 32 c.toInt))) ∧
    (∀ c, Buf.get i s.bufZ = some c → answers 0x1600 (.word (BitVec.ofInt 32 c.toInt))) ∧
    (∀ e, Buf.get i s.bufR = some e → answers 0x1800 (.num (value e)))

/-- R27, R62, R68, R77: a step whose next access is a host write to IMG_W or IMG_H stores its low 16 bits; a
write to any other register but CMD, to a ROM or to HT is ignored; with a write or a read of an unmapped
address next the step is the model fault Stuck (log entry 9). What a NUM value carries to a register is the model's
choice (log entry 7). -/
def Obligations.HostWriteElsewhere : Prop :=
  let unmapped := fun a : Addr =>
    0x13 ≤ a.toNat ∧ a.toNat ≤ 0xFFF ∨
      0x1000 ≤ a.toNat ∧ a.toNat ≤ 0x1FFF ∧
        (0x1A00 ≤ a.toNat ∨ 0x180 ≤ (a.toNat - 0x1000) % 0x200) ∨
      0x20C0 ≤ a.toNat ∧ a.toNat ≤ 0x20FF ∨
      0x2100 ≤ a.toNat ∧ a.toNat ≤ 0x21FF ∧ (0x2180 ≤ a.toNat ∨ 17 ≤ (a.toNat - 0x2100) % 32) ∨
      0x2A00 ≤ a.toNat
  (∀ (s : State) (rest : List HostOp) (a : Addr) (v : BusValue), s.host = .write a v :: rest →
    (a = 0x0004 → step s = .next { s with host := rest, imgW := (busWord v).setWidth 16 }) ∧
    (a = 0x0005 → step s = .next { s with host := rest, imgH := (busWord v).setWidth 16 }) ∧
    (1 ≤ a.toNat ∧ a.toNat ≤ 0x12 ∧ a.toNat ≠ 4 ∧ a.toNat ≠ 5 ∨
      0x2000 ≤ a.toNat ∧ a.toNat ≤ 0x20BF ∨
      0x2100 ≤ a.toNat ∧ a.toNat ≤ 0x217F ∧ (a.toNat - 0x2100) % 32 ≤ 16 ∨
      0x2200 ≤ a.toNat ∧ a.toNat ≤ 0x29FF →
        step s = .next { s with host := rest }) ∧
    (unmapped a → step s = .fault (.stuck a))) ∧
  ∀ (s : State) (rest : List HostOp) (a : Addr), s.host = .read a :: rest → unmapped a →
    step s = .fault (.stuck a)

/-- R272, R274, R280: the header of a comment of n ≤ 65533 bytes is 627 + n bytes, begins with the 13
fixed bytes of SOI and APP0, and ends with SOS; a longer comment is not framed. -/
def Obligations.HeaderBytes : Prop :=
  ∀ (tail : Config.App0Tail) (c : List Byte) (h w : Nat),
    (c.length ≤ 65533 → ∃ bytes, header tail c h w = some bytes ∧ bytes.length = 627 + c.length ∧
      [0xFF#8, 0xD8#8, 0xFF#8, 0xE0#8, 0x00#8, 0x10#8, 0x4A#8, 0x46#8, 0x49#8, 0x46#8, 0x00#8,
        0x01#8, 0x01#8] <+: bytes ∧
      [0xFF#8, 0xDA#8, 0x00#8, 0x0C#8, 0x03#8, 0x01#8, 0x00#8, 0x02#8, 0x11#8, 0x03#8, 0x11#8,
        0x00#8, 0x3F#8, 0x00#8] <:+ bytes) ∧
    (65533 < c.length → header tail c h w = none)
end

