-- ==== Sys2Proof/Laws/Buf.lean ====
section
/-!
SUPPORT. Laws of the buffers: read after write, canonical form, and reading a block.
-/

namespace Sys2Proof.Machine

variable {α : Type}

/-! ### One element -/

@[simp] theorem Buf.get_nil (i : Nat) : Buf.get i ([] : Buf α) = none := rfl

@[simp] theorem Buf.get_set_self (i : Nat) (x : α) (buf : Buf α) :
    Buf.get i (Buf.set i x buf) = some x := by
  induction buf with
  | nil => simp [Buf.set, Buf.get]
  | cons p rest ih =>
    obtain ⟨j, y⟩ := p
    simp only [Buf.set]
    split_ifs with h1 h2
    · simp [Buf.get]
    · simp [Buf.get]
    · rw [Buf.get, if_neg (Ne.symm h2), if_neg h1, ih]

theorem Buf.get_set_ne {i j : Nat} (h : i ≠ j) (x : α) (buf : Buf α) :
    Buf.get j (Buf.set i x buf) = Buf.get j buf := by
  induction buf with
  | nil => simp [Buf.set, Buf.get, h]
  | cons p rest ih =>
    obtain ⟨k, y⟩ := p
    simp only [Buf.set]
    split_ifs with h1 h2
    · simp only [Buf.get, if_neg h]
      split_ifs with h3 <;> first | rfl | (exfalso; omega)
    · subst h2
      simp only [Buf.get, if_neg h]
    · simp only [Buf.get, ih]

theorem Buf.get_set (i j : Nat) (x : α) (buf : Buf α) :
    Buf.get j (Buf.set i x buf) = if i = j then some x else Buf.get j buf := by
  split_ifs with h
  · rw [h, Buf.get_set_self]
  · exact Buf.get_set_ne h x buf

/-! ### A run of elements -/

theorem Buf.get_setFrom (i j : Nat) (xs : List α) (buf : Buf α) :
    Buf.get j (Buf.setFrom i xs buf) =
      if i ≤ j ∧ j < i + xs.length then xs[j - i]? else Buf.get j buf := by
  induction xs generalizing i buf with
  | nil =>
    rw [if_neg (by simp)]
    rfl
  | cons x xs ih =>
    rw [Buf.setFrom, ih, Buf.get_set]
    by_cases hij : i = j
    · subst hij
      simp
    · by_cases hin : i + 1 ≤ j ∧ j < i + 1 + xs.length
      · obtain ⟨k, rfl⟩ : ∃ k, j = i + 1 + k := ⟨j - (i + 1), by omega⟩
        rw [if_pos hin, if_pos (by simp only [List.length_cons]; omega)]
        rw [show i + 1 + k - (i + 1) = k by omega, show i + 1 + k - i = k + 1 by omega]
        simp
      · rw [if_neg hin, if_neg hij, if_neg (by simp only [List.length_cons]; omega)]

/-- A block of 64 written whole: its elements, and every other element as before. -/
theorem Buf.get_setBlock (b j : Nat) (xs : List α) (buf : Buf α) (hlen : xs.length = 64) :
    Buf.get j (Buf.setBlock b xs buf) =
      if 64 * b ≤ j ∧ j < 64 * b + 64 then xs[j - 64 * b]? else Buf.get j buf := by
  rw [Buf.setBlock, Buf.get_setFrom, hlen]
  simp [elemIndex]

theorem Buf.get_setBlock_elem (b k : Nat) (xs : List α) (buf : Buf α) (hlen : xs.length = 64)
    (hk : k < 64) : Buf.get (elemIndex b k) (Buf.setBlock b xs buf) = xs[k]? := by
  rw [Buf.get_setBlock b _ xs buf hlen, if_pos (by simp only [elemIndex]; omega), elemIndex]
  simp

theorem Buf.get_setBlock_other (b j : Nat) (xs : List α) (buf : Buf α) (hlen : xs.length = 64)
    (hj : j < elemIndex b 0 ∨ elemIndex b 64 ≤ j) :
    Buf.get j (Buf.setBlock b xs buf) = Buf.get j buf := by
  rw [Buf.get_setBlock b _ xs buf hlen, if_neg (by simp only [elemIndex] at hj; omega)]

/-! ### Canonical form -/

theorem Buf.wfFrom_mono {n lo lo' : Nat} {buf : Buf α} (h : lo' ≤ lo)
    (hw : Buf.wfFrom n lo buf = true) : Buf.wfFrom n lo' buf = true := by
  cases buf with
  | nil => rfl
  | cons p rest =>
    simp only [Buf.wfFrom, Bool.and_eq_true, decide_eq_true_eq] at *
    exact ⟨⟨by omega, hw.1.2⟩, hw.2⟩

theorem Buf.wfFrom_set {n lo i : Nat} (x : α) {buf : Buf α} (hlo : lo ≤ i) (hi : i < n)
    (hw : Buf.wfFrom n lo buf = true) : Buf.wfFrom n lo (Buf.set i x buf) = true := by
  induction buf generalizing lo with
  | nil => simp [Buf.set, Buf.wfFrom, hlo, hi]
  | cons p rest ih =>
    obtain ⟨j, y⟩ := p
    simp only [Buf.wfFrom, Bool.and_eq_true, decide_eq_true_eq] at hw
    simp only [Buf.set]
    split_ifs with h1 h2
    · simp only [Buf.wfFrom, Bool.and_eq_true, decide_eq_true_eq]
      exact ⟨⟨hlo, hi⟩, ⟨by omega, hw.1.2⟩, hw.2⟩
    · subst h2
      simp only [Buf.wfFrom, Bool.and_eq_true, decide_eq_true_eq]
      exact hw
    · simp only [Buf.wfFrom, Bool.and_eq_true, decide_eq_true_eq]
      exact ⟨hw.1, ih (by omega) hw.2⟩

theorem bufWf_set {n i : Nat} (x : α) {buf : Buf α} (hi : i < n) (hw : bufWf n buf = true) :
    bufWf n (Buf.set i x buf) = true :=
  Buf.wfFrom_set x (Nat.zero_le i) hi hw

theorem bufWf_setFrom {n i : Nat} (xs : List α) {buf : Buf α} (hi : i + xs.length ≤ n)
    (hw : bufWf n buf = true) : bufWf n (Buf.setFrom i xs buf) = true := by
  induction xs generalizing i buf with
  | nil => exact hw
  | cons x xs ih =>
    simp only [List.length_cons] at hi
    exact ih (by omega) (bufWf_set x (by omega) hw)

theorem bufWf_setBlock {b : Nat} (xs : List α) {buf : Buf α} (hb : b ≤ 5) (hlen : xs.length = 64)
    (hw : bufWf 384 buf = true) : bufWf 384 (Buf.setBlock b xs buf) = true := by
  rw [Buf.setBlock]
  exact bufWf_setFrom xs (by simp only [elemIndex]; omega) hw

/-- Nothing is found below the least index of a canonical buffer. -/
theorem Buf.get_of_lt {n lo j : Nat} {buf : Buf α} (h : j < lo) (hw : Buf.wfFrom n lo buf = true) :
    Buf.get j buf = none := by
  cases buf with
  | nil => rfl
  | cons p rest =>
    simp only [Buf.wfFrom, Bool.and_eq_true, decide_eq_true_eq] at hw
    rw [Buf.get, if_neg (by omega), if_pos (by omega)]

/-- Two canonical buffers with the same elements are the same list. -/
theorem Buf.ext_of_wfFrom {n lo : Nat} {a b : Buf α} (ha : Buf.wfFrom n lo a = true)
    (hb : Buf.wfFrom n lo b = true) (h : ∀ j, Buf.get j a = Buf.get j b) : a = b := by
  induction a generalizing lo b with
  | nil =>
    cases b with
    | nil => rfl
    | cons q rest => simpa [Buf.get] using h q.1
  | cons p as ih =>
    obtain ⟨i, x⟩ := p
    simp only [Buf.wfFrom, Bool.and_eq_true, decide_eq_true_eq] at ha
    cases b with
    | nil => simpa [Buf.get] using h i
    | cons q bs =>
      obtain ⟨j, y⟩ := q
      simp only [Buf.wfFrom, Bool.and_eq_true, decide_eq_true_eq] at hb
      have hij : i = j := by
        rcases Nat.lt_trichotomy i j with hlt | heq | hgt
        · have := h i
          simp only [Buf.get, if_pos, if_neg (show ¬ j = i by omega), if_pos hlt] at this
          simp at this
        · exact heq
        · have := h j
          simp only [Buf.get, if_neg (show ¬ i = j by omega), if_pos hgt] at this
          simp at this
      subst hij
      have hxy : x = y := by simpa [Buf.get] using h i
      subst hxy
      rw [ih ha.2 hb.2]
      intro k
      by_cases hk : k < i + 1
      · rw [Buf.get_of_lt hk ha.2, Buf.get_of_lt hk hb.2]
      · have := h k
        simpa only [Buf.get, if_neg (show ¬ i = k by omega), if_neg (show ¬ k < i by omega)]
          using this

/-! ### Reading a run -/

end Sys2Proof.Machine
end

