-- ==== Sys2Proof/Laws/State.lean ====
section
/-!
SUPPORT. What each update of the state leaves in each field: one lemma a field and an update, so that
no later proof unfolds a record update.
-/

namespace Sys2Proof.Machine

/-! ### State.setDone -/

@[simp] theorem State.setDone_status (s : State) (v : Bool) :
    (s.setDone v).status = { s.status with done := v } := rfl
@[simp] theorem State.setDone_errinfo (s : State) (v : Bool) :
    (s.setDone v).errinfo = s.errinfo := rfl
@[simp] theorem State.setDone_imgW (s : State) (v : Bool) :
    (s.setDone v).imgW = s.imgW := rfl
@[simp] theorem State.setDone_imgH (s : State) (v : Bool) :
    (s.setDone v).imgH = s.imgH := rfl
@[simp] theorem State.setDone_mcuX (s : State) (v : Bool) :
    (s.setDone v).mcuX = s.mcuX := rfl
@[simp] theorem State.setDone_mcuY (s : State) (v : Bool) :
    (s.setDone v).mcuY = s.mcuY := rfl
@[simp] theorem State.setDone_predY (s : State) (v : Bool) :
    (s.setDone v).predY = s.predY := rfl
@[simp] theorem State.setDone_predCb (s : State) (v : Bool) :
    (s.setDone v).predCb = s.predCb := rfl
@[simp] theorem State.setDone_predCr (s : State) (v : Bool) :
    (s.setDone v).predCr = s.predCr := rfl
@[simp] theorem State.setDone_bitacc (s : State) (v : Bool) :
    (s.setDone v).bitacc = s.bitacc := rfl
@[simp] theorem State.setDone_bitidx (s : State) (v : Bool) :
    (s.setDone v).bitidx = s.bitidx := rfl
@[simp] theorem State.setDone_htvalid (s : State) (v : Bool) :
    (s.setDone v).htvalid = s.htvalid := rfl
@[simp] theorem State.setDone_cscY (s : State) (v : Bool) :
    (s.setDone v).cscY = s.cscY := rfl
@[simp] theorem State.setDone_cscCb (s : State) (v : Bool) :
    (s.setDone v).cscCb = s.cscCb := rfl
@[simp] theorem State.setDone_cscCr (s : State) (v : Bool) :
    (s.setDone v).cscCr = s.cscCr := rfl
@[simp] theorem State.setDone_bufS (s : State) (v : Bool) :
    (s.setDone v).bufS = s.bufS := rfl
@[simp] theorem State.setDone_bufF (s : State) (v : Bool) :
    (s.setDone v).bufF = s.bufF := rfl
@[simp] theorem State.setDone_bufQ (s : State) (v : Bool) :
    (s.setDone v).bufQ = s.bufQ := rfl
@[simp] theorem State.setDone_bufZ (s : State) (v : Bool) :
    (s.setDone v).bufZ = s.bufZ := rfl
@[simp] theorem State.setDone_bufR (s : State) (v : Bool) :
    (s.setDone v).bufR = s.bufR := rfl
@[simp] theorem State.setDone_ht (s : State) (v : Bool) :
    (s.setDone v).ht = s.ht := rfl
@[simp] theorem State.setDone_sink (s : State) (v : Bool) :
    (s.setDone v).sink = s.sink := rfl
@[simp] theorem State.setDone_raster (s : State) (v : Bool) :
    (s.setDone v).raster = s.raster := rfl
@[simp] theorem State.setDone_host (s : State) (v : Bool) :
    (s.setDone v).host = s.host := rfl
@[simp] theorem State.setDone_readData (s : State) (v : Bool) :
    (s.setDone v).readData = s.readData := rfl
@[simp] theorem State.setDone_tie (s : State) (v : Bool) :
    (s.setDone v).tie = s.tie := rfl
@[simp] theorem State.setDone_reads (s : State) (v : Bool) :
    (s.setDone v).reads = s.reads := rfl
@[simp] theorem State.setDone_uninit (s : State) (v : Bool) :
    (s.setDone v).uninit = s.uninit := rfl
@[simp] theorem State.setDone_params (s : State) (v : Bool) :
    (s.setDone v).params = s.params := rfl

/-! ### State.raised -/

@[simp] theorem State.raised_status (s : State) (e : ErrorKind) (info : Word) :
    (s.raised e info).status = s.status.raised e := rfl
@[simp] theorem State.raised_errinfo (s : State) (e : ErrorKind) (info : Word) :
    (s.raised e info).errinfo = if s.status.err then s.errinfo else info := rfl
@[simp] theorem State.raised_imgW (s : State) (e : ErrorKind) (info : Word) :
    (s.raised e info).imgW = s.imgW := rfl
@[simp] theorem State.raised_imgH (s : State) (e : ErrorKind) (info : Word) :
    (s.raised e info).imgH = s.imgH := rfl
@[simp] theorem State.raised_mcuX (s : State) (e : ErrorKind) (info : Word) :
    (s.raised e info).mcuX = s.mcuX := rfl
@[simp] theorem State.raised_mcuY (s : State) (e : ErrorKind) (info : Word) :
    (s.raised e info).mcuY = s.mcuY := rfl
@[simp] theorem State.raised_predY (s : State) (e : ErrorKind) (info : Word) :
    (s.raised e info).predY = s.predY := rfl
@[simp] theorem State.raised_predCb (s : State) (e : ErrorKind) (info : Word) :
    (s.raised e info).predCb = s.predCb := rfl
@[simp] theorem State.raised_predCr (s : State) (e : ErrorKind) (info : Word) :
    (s.raised e info).predCr = s.predCr := rfl
@[simp] theorem State.raised_bitacc (s : State) (e : ErrorKind) (info : Word) :
    (s.raised e info).bitacc = s.bitacc := rfl
@[simp] theorem State.raised_bitidx (s : State) (e : ErrorKind) (info : Word) :
    (s.raised e info).bitidx = s.bitidx := rfl
@[simp] theorem State.raised_htvalid (s : State) (e : ErrorKind) (info : Word) :
    (s.raised e info).htvalid = s.htvalid := rfl
@[simp] theorem State.raised_cscY (s : State) (e : ErrorKind) (info : Word) :
    (s.raised e info).cscY = s.cscY := rfl
@[simp] theorem State.raised_cscCb (s : State) (e : ErrorKind) (info : Word) :
    (s.raised e info).cscCb = s.cscCb := rfl
@[simp] theorem State.raised_cscCr (s : State) (e : ErrorKind) (info : Word) :
    (s.raised e info).cscCr = s.cscCr := rfl
@[simp] theorem State.raised_bufS (s : State) (e : ErrorKind) (info : Word) :
    (s.raised e info).bufS = s.bufS := rfl
@[simp] theorem State.raised_bufF (s : State) (e : ErrorKind) (info : Word) :
    (s.raised e info).bufF = s.bufF := rfl
@[simp] theorem State.raised_bufQ (s : State) (e : ErrorKind) (info : Word) :
    (s.raised e info).bufQ = s.bufQ := rfl
@[simp] theorem State.raised_bufZ (s : State) (e : ErrorKind) (info : Word) :
    (s.raised e info).bufZ = s.bufZ := rfl
@[simp] theorem State.raised_bufR (s : State) (e : ErrorKind) (info : Word) :
    (s.raised e info).bufR = s.bufR := rfl
@[simp] theorem State.raised_ht (s : State) (e : ErrorKind) (info : Word) :
    (s.raised e info).ht = s.ht := rfl
@[simp] theorem State.raised_sink (s : State) (e : ErrorKind) (info : Word) :
    (s.raised e info).sink = s.sink := rfl
@[simp] theorem State.raised_raster (s : State) (e : ErrorKind) (info : Word) :
    (s.raised e info).raster = s.raster := rfl
@[simp] theorem State.raised_host (s : State) (e : ErrorKind) (info : Word) :
    (s.raised e info).host = s.host := rfl
@[simp] theorem State.raised_readData (s : State) (e : ErrorKind) (info : Word) :
    (s.raised e info).readData = s.readData := rfl
@[simp] theorem State.raised_tie (s : State) (e : ErrorKind) (info : Word) :
    (s.raised e info).tie = s.tie := rfl
@[simp] theorem State.raised_reads (s : State) (e : ErrorKind) (info : Word) :
    (s.raised e info).reads = s.reads := rfl
@[simp] theorem State.raised_uninit (s : State) (e : ErrorKind) (info : Word) :
    (s.raised e info).uninit = s.uninit := rfl
@[simp] theorem State.raised_params (s : State) (e : ErrorKind) (info : Word) :
    (s.raised e info).params = s.params := rfl

/-! ### State.unwrittenRead -/

@[simp] theorem State.unwrittenRead_status (s : State) (loc : Location) :
    (s.unwrittenRead loc).status = s.status := rfl
@[simp] theorem State.unwrittenRead_errinfo (s : State) (loc : Location) :
    (s.unwrittenRead loc).errinfo = s.errinfo := rfl
@[simp] theorem State.unwrittenRead_imgW (s : State) (loc : Location) :
    (s.unwrittenRead loc).imgW = s.imgW := rfl
@[simp] theorem State.unwrittenRead_imgH (s : State) (loc : Location) :
    (s.unwrittenRead loc).imgH = s.imgH := rfl
@[simp] theorem State.unwrittenRead_mcuX (s : State) (loc : Location) :
    (s.unwrittenRead loc).mcuX = s.mcuX := rfl
@[simp] theorem State.unwrittenRead_mcuY (s : State) (loc : Location) :
    (s.unwrittenRead loc).mcuY = s.mcuY := rfl
@[simp] theorem State.unwrittenRead_predY (s : State) (loc : Location) :
    (s.unwrittenRead loc).predY = s.predY := rfl
@[simp] theorem State.unwrittenRead_predCb (s : State) (loc : Location) :
    (s.unwrittenRead loc).predCb = s.predCb := rfl
@[simp] theorem State.unwrittenRead_predCr (s : State) (loc : Location) :
    (s.unwrittenRead loc).predCr = s.predCr := rfl
@[simp] theorem State.unwrittenRead_bitacc (s : State) (loc : Location) :
    (s.unwrittenRead loc).bitacc = s.bitacc := rfl
@[simp] theorem State.unwrittenRead_bitidx (s : State) (loc : Location) :
    (s.unwrittenRead loc).bitidx = s.bitidx := rfl
@[simp] theorem State.unwrittenRead_htvalid (s : State) (loc : Location) :
    (s.unwrittenRead loc).htvalid = s.htvalid := rfl
@[simp] theorem State.unwrittenRead_cscY (s : State) (loc : Location) :
    (s.unwrittenRead loc).cscY = s.cscY := rfl
@[simp] theorem State.unwrittenRead_cscCb (s : State) (loc : Location) :
    (s.unwrittenRead loc).cscCb = s.cscCb := rfl
@[simp] theorem State.unwrittenRead_cscCr (s : State) (loc : Location) :
    (s.unwrittenRead loc).cscCr = s.cscCr := rfl
@[simp] theorem State.unwrittenRead_bufS (s : State) (loc : Location) :
    (s.unwrittenRead loc).bufS = s.bufS := rfl
@[simp] theorem State.unwrittenRead_bufF (s : State) (loc : Location) :
    (s.unwrittenRead loc).bufF = s.bufF := rfl
@[simp] theorem State.unwrittenRead_bufQ (s : State) (loc : Location) :
    (s.unwrittenRead loc).bufQ = s.bufQ := rfl
@[simp] theorem State.unwrittenRead_bufZ (s : State) (loc : Location) :
    (s.unwrittenRead loc).bufZ = s.bufZ := rfl
@[simp] theorem State.unwrittenRead_bufR (s : State) (loc : Location) :
    (s.unwrittenRead loc).bufR = s.bufR := rfl
@[simp] theorem State.unwrittenRead_ht (s : State) (loc : Location) :
    (s.unwrittenRead loc).ht = s.ht := rfl
@[simp] theorem State.unwrittenRead_sink (s : State) (loc : Location) :
    (s.unwrittenRead loc).sink = s.sink := rfl
@[simp] theorem State.unwrittenRead_raster (s : State) (loc : Location) :
    (s.unwrittenRead loc).raster = s.raster := rfl
@[simp] theorem State.unwrittenRead_host (s : State) (loc : Location) :
    (s.unwrittenRead loc).host = s.host := rfl
@[simp] theorem State.unwrittenRead_readData (s : State) (loc : Location) :
    (s.unwrittenRead loc).readData = s.readData := rfl
@[simp] theorem State.unwrittenRead_tie (s : State) (loc : Location) :
    (s.unwrittenRead loc).tie = s.tie := rfl
@[simp] theorem State.unwrittenRead_reads (s : State) (loc : Location) :
    (s.unwrittenRead loc).reads = s.reads + 1 := rfl
@[simp] theorem State.unwrittenRead_uninit (s : State) (loc : Location) :
    (s.unwrittenRead loc).uninit = s.uninit.or (some loc) := rfl
@[simp] theorem State.unwrittenRead_params (s : State) (loc : Location) :
    (s.unwrittenRead loc).params = s.params := rfl

/-! ### State.recovered -/

@[simp] theorem State.recovered_status (s : State) :
    (s.recovered).status = .clear := rfl
@[simp] theorem State.recovered_errinfo (s : State) :
    (s.recovered).errinfo = 0 := rfl
@[simp] theorem State.recovered_imgW (s : State) :
    (s.recovered).imgW = s.imgW := rfl
@[simp] theorem State.recovered_imgH (s : State) :
    (s.recovered).imgH = s.imgH := rfl
@[simp] theorem State.recovered_mcuX (s : State) :
    (s.recovered).mcuX = s.mcuX := rfl
@[simp] theorem State.recovered_mcuY (s : State) :
    (s.recovered).mcuY = s.mcuY := rfl
@[simp] theorem State.recovered_predY (s : State) :
    (s.recovered).predY = s.predY := rfl
@[simp] theorem State.recovered_predCb (s : State) :
    (s.recovered).predCb = s.predCb := rfl
@[simp] theorem State.recovered_predCr (s : State) :
    (s.recovered).predCr = s.predCr := rfl
@[simp] theorem State.recovered_bitacc (s : State) :
    (s.recovered).bitacc = s.bitacc := rfl
@[simp] theorem State.recovered_bitidx (s : State) :
    (s.recovered).bitidx = s.bitidx := rfl
@[simp] theorem State.recovered_htvalid (s : State) :
    (s.recovered).htvalid = s.htvalid := rfl
@[simp] theorem State.recovered_cscY (s : State) :
    (s.recovered).cscY = s.cscY := rfl
@[simp] theorem State.recovered_cscCb (s : State) :
    (s.recovered).cscCb = s.cscCb := rfl
@[simp] theorem State.recovered_cscCr (s : State) :
    (s.recovered).cscCr = s.cscCr := rfl
@[simp] theorem State.recovered_bufS (s : State) :
    (s.recovered).bufS = s.bufS := rfl
@[simp] theorem State.recovered_bufF (s : State) :
    (s.recovered).bufF = s.bufF := rfl
@[simp] theorem State.recovered_bufQ (s : State) :
    (s.recovered).bufQ = s.bufQ := rfl
@[simp] theorem State.recovered_bufZ (s : State) :
    (s.recovered).bufZ = s.bufZ := rfl
@[simp] theorem State.recovered_bufR (s : State) :
    (s.recovered).bufR = s.bufR := rfl
@[simp] theorem State.recovered_ht (s : State) :
    (s.recovered).ht = s.ht := rfl
@[simp] theorem State.recovered_sink (s : State) :
    (s.recovered).sink = s.sink := rfl
@[simp] theorem State.recovered_raster (s : State) :
    (s.recovered).raster = s.raster := rfl
@[simp] theorem State.recovered_host (s : State) :
    (s.recovered).host = s.host := rfl
@[simp] theorem State.recovered_readData (s : State) :
    (s.recovered).readData = s.readData := rfl
@[simp] theorem State.recovered_tie (s : State) :
    (s.recovered).tie = s.tie := rfl
@[simp] theorem State.recovered_reads (s : State) :
    (s.recovered).reads = s.reads := rfl
@[simp] theorem State.recovered_uninit (s : State) :
    (s.recovered).uninit = s.uninit := rfl
@[simp] theorem State.recovered_params (s : State) :
    (s.recovered).params = s.params := rfl

/-! ### State.setS -/

@[simp] theorem State.setS_status (s : State) (b : Nat) (xs : List NumElem) :
    (s.setS b xs).status = s.status := rfl
@[simp] theorem State.setS_errinfo (s : State) (b : Nat) (xs : List NumElem) :
    (s.setS b xs).errinfo = s.errinfo := rfl
@[simp] theorem State.setS_imgW (s : State) (b : Nat) (xs : List NumElem) :
    (s.setS b xs).imgW = s.imgW := rfl
@[simp] theorem State.setS_imgH (s : State) (b : Nat) (xs : List NumElem) :
    (s.setS b xs).imgH = s.imgH := rfl
@[simp] theorem State.setS_mcuX (s : State) (b : Nat) (xs : List NumElem) :
    (s.setS b xs).mcuX = s.mcuX := rfl
@[simp] theorem State.setS_mcuY (s : State) (b : Nat) (xs : List NumElem) :
    (s.setS b xs).mcuY = s.mcuY := rfl
@[simp] theorem State.setS_predY (s : State) (b : Nat) (xs : List NumElem) :
    (s.setS b xs).predY = s.predY := rfl
@[simp] theorem State.setS_predCb (s : State) (b : Nat) (xs : List NumElem) :
    (s.setS b xs).predCb = s.predCb := rfl
@[simp] theorem State.setS_predCr (s : State) (b : Nat) (xs : List NumElem) :
    (s.setS b xs).predCr = s.predCr := rfl
@[simp] theorem State.setS_bitacc (s : State) (b : Nat) (xs : List NumElem) :
    (s.setS b xs).bitacc = s.bitacc := rfl
@[simp] theorem State.setS_bitidx (s : State) (b : Nat) (xs : List NumElem) :
    (s.setS b xs).bitidx = s.bitidx := rfl
@[simp] theorem State.setS_htvalid (s : State) (b : Nat) (xs : List NumElem) :
    (s.setS b xs).htvalid = s.htvalid := rfl
@[simp] theorem State.setS_cscY (s : State) (b : Nat) (xs : List NumElem) :
    (s.setS b xs).cscY = s.cscY := rfl
@[simp] theorem State.setS_cscCb (s : State) (b : Nat) (xs : List NumElem) :
    (s.setS b xs).cscCb = s.cscCb := rfl
@[simp] theorem State.setS_cscCr (s : State) (b : Nat) (xs : List NumElem) :
    (s.setS b xs).cscCr = s.cscCr := rfl
@[simp] theorem State.setS_bufS (s : State) (b : Nat) (xs : List NumElem) :
    (s.setS b xs).bufS = Buf.setBlock b xs s.bufS := rfl
@[simp] theorem State.setS_bufF (s : State) (b : Nat) (xs : List NumElem) :
    (s.setS b xs).bufF = s.bufF := rfl
@[simp] theorem State.setS_bufQ (s : State) (b : Nat) (xs : List NumElem) :
    (s.setS b xs).bufQ = s.bufQ := rfl
@[simp] theorem State.setS_bufZ (s : State) (b : Nat) (xs : List NumElem) :
    (s.setS b xs).bufZ = s.bufZ := rfl
@[simp] theorem State.setS_bufR (s : State) (b : Nat) (xs : List NumElem) :
    (s.setS b xs).bufR = s.bufR := rfl
@[simp] theorem State.setS_ht (s : State) (b : Nat) (xs : List NumElem) :
    (s.setS b xs).ht = s.ht := rfl
@[simp] theorem State.setS_sink (s : State) (b : Nat) (xs : List NumElem) :
    (s.setS b xs).sink = s.sink := rfl
@[simp] theorem State.setS_raster (s : State) (b : Nat) (xs : List NumElem) :
    (s.setS b xs).raster = s.raster := rfl
@[simp] theorem State.setS_host (s : State) (b : Nat) (xs : List NumElem) :
    (s.setS b xs).host = s.host := rfl
@[simp] theorem State.setS_readData (s : State) (b : Nat) (xs : List NumElem) :
    (s.setS b xs).readData = s.readData := rfl
@[simp] theorem State.setS_tie (s : State) (b : Nat) (xs : List NumElem) :
    (s.setS b xs).tie = s.tie := rfl
@[simp] theorem State.setS_reads (s : State) (b : Nat) (xs : List NumElem) :
    (s.setS b xs).reads = s.reads := rfl
@[simp] theorem State.setS_uninit (s : State) (b : Nat) (xs : List NumElem) :
    (s.setS b xs).uninit = s.uninit := rfl
@[simp] theorem State.setS_params (s : State) (b : Nat) (xs : List NumElem) :
    (s.setS b xs).params = s.params := rfl

/-! ### State.setF -/

@[simp] theorem State.setF_status (s : State) (b : Nat) (xs : List NumElem) :
    (s.setF b xs).status = s.status := rfl
@[simp] theorem State.setF_errinfo (s : State) (b : Nat) (xs : List NumElem) :
    (s.setF b xs).errinfo = s.errinfo := rfl
@[simp] theorem State.setF_imgW (s : State) (b : Nat) (xs : List NumElem) :
    (s.setF b xs).imgW = s.imgW := rfl
@[simp] theorem State.setF_imgH (s : State) (b : Nat) (xs : List NumElem) :
    (s.setF b xs).imgH = s.imgH := rfl
@[simp] theorem State.setF_mcuX (s : State) (b : Nat) (xs : List NumElem) :
    (s.setF b xs).mcuX = s.mcuX := rfl
@[simp] theorem State.setF_mcuY (s : State) (b : Nat) (xs : List NumElem) :
    (s.setF b xs).mcuY = s.mcuY := rfl
@[simp] theorem State.setF_predY (s : State) (b : Nat) (xs : List NumElem) :
    (s.setF b xs).predY = s.predY := rfl
@[simp] theorem State.setF_predCb (s : State) (b : Nat) (xs : List NumElem) :
    (s.setF b xs).predCb = s.predCb := rfl
@[simp] theorem State.setF_predCr (s : State) (b : Nat) (xs : List NumElem) :
    (s.setF b xs).predCr = s.predCr := rfl
@[simp] theorem State.setF_bitacc (s : State) (b : Nat) (xs : List NumElem) :
    (s.setF b xs).bitacc = s.bitacc := rfl
@[simp] theorem State.setF_bitidx (s : State) (b : Nat) (xs : List NumElem) :
    (s.setF b xs).bitidx = s.bitidx := rfl
@[simp] theorem State.setF_htvalid (s : State) (b : Nat) (xs : List NumElem) :
    (s.setF b xs).htvalid = s.htvalid := rfl
@[simp] theorem State.setF_cscY (s : State) (b : Nat) (xs : List NumElem) :
    (s.setF b xs).cscY = s.cscY := rfl
@[simp] theorem State.setF_cscCb (s : State) (b : Nat) (xs : List NumElem) :
    (s.setF b xs).cscCb = s.cscCb := rfl
@[simp] theorem State.setF_cscCr (s : State) (b : Nat) (xs : List NumElem) :
    (s.setF b xs).cscCr = s.cscCr := rfl
@[simp] theorem State.setF_bufS (s : State) (b : Nat) (xs : List NumElem) :
    (s.setF b xs).bufS = s.bufS := rfl
@[simp] theorem State.setF_bufF (s : State) (b : Nat) (xs : List NumElem) :
    (s.setF b xs).bufF = Buf.setBlock b xs s.bufF := rfl
@[simp] theorem State.setF_bufQ (s : State) (b : Nat) (xs : List NumElem) :
    (s.setF b xs).bufQ = s.bufQ := rfl
@[simp] theorem State.setF_bufZ (s : State) (b : Nat) (xs : List NumElem) :
    (s.setF b xs).bufZ = s.bufZ := rfl
@[simp] theorem State.setF_bufR (s : State) (b : Nat) (xs : List NumElem) :
    (s.setF b xs).bufR = s.bufR := rfl
@[simp] theorem State.setF_ht (s : State) (b : Nat) (xs : List NumElem) :
    (s.setF b xs).ht = s.ht := rfl
@[simp] theorem State.setF_sink (s : State) (b : Nat) (xs : List NumElem) :
    (s.setF b xs).sink = s.sink := rfl
@[simp] theorem State.setF_raster (s : State) (b : Nat) (xs : List NumElem) :
    (s.setF b xs).raster = s.raster := rfl
@[simp] theorem State.setF_host (s : State) (b : Nat) (xs : List NumElem) :
    (s.setF b xs).host = s.host := rfl
@[simp] theorem State.setF_readData (s : State) (b : Nat) (xs : List NumElem) :
    (s.setF b xs).readData = s.readData := rfl
@[simp] theorem State.setF_tie (s : State) (b : Nat) (xs : List NumElem) :
    (s.setF b xs).tie = s.tie := rfl
@[simp] theorem State.setF_reads (s : State) (b : Nat) (xs : List NumElem) :
    (s.setF b xs).reads = s.reads := rfl
@[simp] theorem State.setF_uninit (s : State) (b : Nat) (xs : List NumElem) :
    (s.setF b xs).uninit = s.uninit := rfl
@[simp] theorem State.setF_params (s : State) (b : Nat) (xs : List NumElem) :
    (s.setF b xs).params = s.params := rfl

/-! ### State.setQ -/

@[simp] theorem State.setQ_status (s : State) (b : Nat) (xs : List Coef) :
    (s.setQ b xs).status = s.status := rfl
@[simp] theorem State.setQ_errinfo (s : State) (b : Nat) (xs : List Coef) :
    (s.setQ b xs).errinfo = s.errinfo := rfl
@[simp] theorem State.setQ_imgW (s : State) (b : Nat) (xs : List Coef) :
    (s.setQ b xs).imgW = s.imgW := rfl
@[simp] theorem State.setQ_imgH (s : State) (b : Nat) (xs : List Coef) :
    (s.setQ b xs).imgH = s.imgH := rfl
@[simp] theorem State.setQ_mcuX (s : State) (b : Nat) (xs : List Coef) :
    (s.setQ b xs).mcuX = s.mcuX := rfl
@[simp] theorem State.setQ_mcuY (s : State) (b : Nat) (xs : List Coef) :
    (s.setQ b xs).mcuY = s.mcuY := rfl
@[simp] theorem State.setQ_predY (s : State) (b : Nat) (xs : List Coef) :
    (s.setQ b xs).predY = s.predY := rfl
@[simp] theorem State.setQ_predCb (s : State) (b : Nat) (xs : List Coef) :
    (s.setQ b xs).predCb = s.predCb := rfl
@[simp] theorem State.setQ_predCr (s : State) (b : Nat) (xs : List Coef) :
    (s.setQ b xs).predCr = s.predCr := rfl
@[simp] theorem State.setQ_bitacc (s : State) (b : Nat) (xs : List Coef) :
    (s.setQ b xs).bitacc = s.bitacc := rfl
@[simp] theorem State.setQ_bitidx (s : State) (b : Nat) (xs : List Coef) :
    (s.setQ b xs).bitidx = s.bitidx := rfl
@[simp] theorem State.setQ_htvalid (s : State) (b : Nat) (xs : List Coef) :
    (s.setQ b xs).htvalid = s.htvalid := rfl
@[simp] theorem State.setQ_cscY (s : State) (b : Nat) (xs : List Coef) :
    (s.setQ b xs).cscY = s.cscY := rfl
@[simp] theorem State.setQ_cscCb (s : State) (b : Nat) (xs : List Coef) :
    (s.setQ b xs).cscCb = s.cscCb := rfl
@[simp] theorem State.setQ_cscCr (s : State) (b : Nat) (xs : List Coef) :
    (s.setQ b xs).cscCr = s.cscCr := rfl
@[simp] theorem State.setQ_bufS (s : State) (b : Nat) (xs : List Coef) :
    (s.setQ b xs).bufS = s.bufS := rfl
@[simp] theorem State.setQ_bufF (s : State) (b : Nat) (xs : List Coef) :
    (s.setQ b xs).bufF = s.bufF := rfl
@[simp] theorem State.setQ_bufQ (s : State) (b : Nat) (xs : List Coef) :
    (s.setQ b xs).bufQ = Buf.setBlock b xs s.bufQ := rfl
@[simp] theorem State.setQ_bufZ (s : State) (b : Nat) (xs : List Coef) :
    (s.setQ b xs).bufZ = s.bufZ := rfl
@[simp] theorem State.setQ_bufR (s : State) (b : Nat) (xs : List Coef) :
    (s.setQ b xs).bufR = s.bufR := rfl
@[simp] theorem State.setQ_ht (s : State) (b : Nat) (xs : List Coef) :
    (s.setQ b xs).ht = s.ht := rfl
@[simp] theorem State.setQ_sink (s : State) (b : Nat) (xs : List Coef) :
    (s.setQ b xs).sink = s.sink := rfl
@[simp] theorem State.setQ_raster (s : State) (b : Nat) (xs : List Coef) :
    (s.setQ b xs).raster = s.raster := rfl
@[simp] theorem State.setQ_host (s : State) (b : Nat) (xs : List Coef) :
    (s.setQ b xs).host = s.host := rfl
@[simp] theorem State.setQ_readData (s : State) (b : Nat) (xs : List Coef) :
    (s.setQ b xs).readData = s.readData := rfl
@[simp] theorem State.setQ_tie (s : State) (b : Nat) (xs : List Coef) :
    (s.setQ b xs).tie = s.tie := rfl
@[simp] theorem State.setQ_reads (s : State) (b : Nat) (xs : List Coef) :
    (s.setQ b xs).reads = s.reads := rfl
@[simp] theorem State.setQ_uninit (s : State) (b : Nat) (xs : List Coef) :
    (s.setQ b xs).uninit = s.uninit := rfl
@[simp] theorem State.setQ_params (s : State) (b : Nat) (xs : List Coef) :
    (s.setQ b xs).params = s.params := rfl

/-! ### State.setZ -/

@[simp] theorem State.setZ_status (s : State) (b : Nat) (xs : List Coef) :
    (s.setZ b xs).status = s.status := rfl
@[simp] theorem State.setZ_errinfo (s : State) (b : Nat) (xs : List Coef) :
    (s.setZ b xs).errinfo = s.errinfo := rfl
@[simp] theorem State.setZ_imgW (s : State) (b : Nat) (xs : List Coef) :
    (s.setZ b xs).imgW = s.imgW := rfl
@[simp] theorem State.setZ_imgH (s : State) (b : Nat) (xs : List Coef) :
    (s.setZ b xs).imgH = s.imgH := rfl
@[simp] theorem State.setZ_mcuX (s : State) (b : Nat) (xs : List Coef) :
    (s.setZ b xs).mcuX = s.mcuX := rfl
@[simp] theorem State.setZ_mcuY (s : State) (b : Nat) (xs : List Coef) :
    (s.setZ b xs).mcuY = s.mcuY := rfl
@[simp] theorem State.setZ_predY (s : State) (b : Nat) (xs : List Coef) :
    (s.setZ b xs).predY = s.predY := rfl
@[simp] theorem State.setZ_predCb (s : State) (b : Nat) (xs : List Coef) :
    (s.setZ b xs).predCb = s.predCb := rfl
@[simp] theorem State.setZ_predCr (s : State) (b : Nat) (xs : List Coef) :
    (s.setZ b xs).predCr = s.predCr := rfl
@[simp] theorem State.setZ_bitacc (s : State) (b : Nat) (xs : List Coef) :
    (s.setZ b xs).bitacc = s.bitacc := rfl
@[simp] theorem State.setZ_bitidx (s : State) (b : Nat) (xs : List Coef) :
    (s.setZ b xs).bitidx = s.bitidx := rfl
@[simp] theorem State.setZ_htvalid (s : State) (b : Nat) (xs : List Coef) :
    (s.setZ b xs).htvalid = s.htvalid := rfl
@[simp] theorem State.setZ_cscY (s : State) (b : Nat) (xs : List Coef) :
    (s.setZ b xs).cscY = s.cscY := rfl
@[simp] theorem State.setZ_cscCb (s : State) (b : Nat) (xs : List Coef) :
    (s.setZ b xs).cscCb = s.cscCb := rfl
@[simp] theorem State.setZ_cscCr (s : State) (b : Nat) (xs : List Coef) :
    (s.setZ b xs).cscCr = s.cscCr := rfl
@[simp] theorem State.setZ_bufS (s : State) (b : Nat) (xs : List Coef) :
    (s.setZ b xs).bufS = s.bufS := rfl
@[simp] theorem State.setZ_bufF (s : State) (b : Nat) (xs : List Coef) :
    (s.setZ b xs).bufF = s.bufF := rfl
@[simp] theorem State.setZ_bufQ (s : State) (b : Nat) (xs : List Coef) :
    (s.setZ b xs).bufQ = s.bufQ := rfl
@[simp] theorem State.setZ_bufZ (s : State) (b : Nat) (xs : List Coef) :
    (s.setZ b xs).bufZ = Buf.setBlock b xs s.bufZ := rfl
@[simp] theorem State.setZ_bufR (s : State) (b : Nat) (xs : List Coef) :
    (s.setZ b xs).bufR = s.bufR := rfl
@[simp] theorem State.setZ_ht (s : State) (b : Nat) (xs : List Coef) :
    (s.setZ b xs).ht = s.ht := rfl
@[simp] theorem State.setZ_sink (s : State) (b : Nat) (xs : List Coef) :
    (s.setZ b xs).sink = s.sink := rfl
@[simp] theorem State.setZ_raster (s : State) (b : Nat) (xs : List Coef) :
    (s.setZ b xs).raster = s.raster := rfl
@[simp] theorem State.setZ_host (s : State) (b : Nat) (xs : List Coef) :
    (s.setZ b xs).host = s.host := rfl
@[simp] theorem State.setZ_readData (s : State) (b : Nat) (xs : List Coef) :
    (s.setZ b xs).readData = s.readData := rfl
@[simp] theorem State.setZ_tie (s : State) (b : Nat) (xs : List Coef) :
    (s.setZ b xs).tie = s.tie := rfl
@[simp] theorem State.setZ_reads (s : State) (b : Nat) (xs : List Coef) :
    (s.setZ b xs).reads = s.reads := rfl
@[simp] theorem State.setZ_uninit (s : State) (b : Nat) (xs : List Coef) :
    (s.setZ b xs).uninit = s.uninit := rfl
@[simp] theorem State.setZ_params (s : State) (b : Nat) (xs : List Coef) :
    (s.setZ b xs).params = s.params := rfl

/-! ### State.setR -/

@[simp] theorem State.setR_status (s : State) (b : Nat) (xs : List NumElem) :
    (s.setR b xs).status = s.status := rfl
@[simp] theorem State.setR_errinfo (s : State) (b : Nat) (xs : List NumElem) :
    (s.setR b xs).errinfo = s.errinfo := rfl
@[simp] theorem State.setR_imgW (s : State) (b : Nat) (xs : List NumElem) :
    (s.setR b xs).imgW = s.imgW := rfl
@[simp] theorem State.setR_imgH (s : State) (b : Nat) (xs : List NumElem) :
    (s.setR b xs).imgH = s.imgH := rfl
@[simp] theorem State.setR_mcuX (s : State) (b : Nat) (xs : List NumElem) :
    (s.setR b xs).mcuX = s.mcuX := rfl
@[simp] theorem State.setR_mcuY (s : State) (b : Nat) (xs : List NumElem) :
    (s.setR b xs).mcuY = s.mcuY := rfl
@[simp] theorem State.setR_predY (s : State) (b : Nat) (xs : List NumElem) :
    (s.setR b xs).predY = s.predY := rfl
@[simp] theorem State.setR_predCb (s : State) (b : Nat) (xs : List NumElem) :
    (s.setR b xs).predCb = s.predCb := rfl
@[simp] theorem State.setR_predCr (s : State) (b : Nat) (xs : List NumElem) :
    (s.setR b xs).predCr = s.predCr := rfl
@[simp] theorem State.setR_bitacc (s : State) (b : Nat) (xs : List NumElem) :
    (s.setR b xs).bitacc = s.bitacc := rfl
@[simp] theorem State.setR_bitidx (s : State) (b : Nat) (xs : List NumElem) :
    (s.setR b xs).bitidx = s.bitidx := rfl
@[simp] theorem State.setR_htvalid (s : State) (b : Nat) (xs : List NumElem) :
    (s.setR b xs).htvalid = s.htvalid := rfl
@[simp] theorem State.setR_cscY (s : State) (b : Nat) (xs : List NumElem) :
    (s.setR b xs).cscY = s.cscY := rfl
@[simp] theorem State.setR_cscCb (s : State) (b : Nat) (xs : List NumElem) :
    (s.setR b xs).cscCb = s.cscCb := rfl
@[simp] theorem State.setR_cscCr (s : State) (b : Nat) (xs : List NumElem) :
    (s.setR b xs).cscCr = s.cscCr := rfl
@[simp] theorem State.setR_bufS (s : State) (b : Nat) (xs : List NumElem) :
    (s.setR b xs).bufS = s.bufS := rfl
@[simp] theorem State.setR_bufF (s : State) (b : Nat) (xs : List NumElem) :
    (s.setR b xs).bufF = s.bufF := rfl
@[simp] theorem State.setR_bufQ (s : State) (b : Nat) (xs : List NumElem) :
    (s.setR b xs).bufQ = s.bufQ := rfl
@[simp] theorem State.setR_bufZ (s : State) (b : Nat) (xs : List NumElem) :
    (s.setR b xs).bufZ = s.bufZ := rfl
@[simp] theorem State.setR_bufR (s : State) (b : Nat) (xs : List NumElem) :
    (s.setR b xs).bufR = Buf.setBlock b xs s.bufR := rfl
@[simp] theorem State.setR_ht (s : State) (b : Nat) (xs : List NumElem) :
    (s.setR b xs).ht = s.ht := rfl
@[simp] theorem State.setR_sink (s : State) (b : Nat) (xs : List NumElem) :
    (s.setR b xs).sink = s.sink := rfl
@[simp] theorem State.setR_raster (s : State) (b : Nat) (xs : List NumElem) :
    (s.setR b xs).raster = s.raster := rfl
@[simp] theorem State.setR_host (s : State) (b : Nat) (xs : List NumElem) :
    (s.setR b xs).host = s.host := rfl
@[simp] theorem State.setR_readData (s : State) (b : Nat) (xs : List NumElem) :
    (s.setR b xs).readData = s.readData := rfl
@[simp] theorem State.setR_tie (s : State) (b : Nat) (xs : List NumElem) :
    (s.setR b xs).tie = s.tie := rfl
@[simp] theorem State.setR_reads (s : State) (b : Nat) (xs : List NumElem) :
    (s.setR b xs).reads = s.reads := rfl
@[simp] theorem State.setR_uninit (s : State) (b : Nat) (xs : List NumElem) :
    (s.setR b xs).uninit = s.uninit := rfl
@[simp] theorem State.setR_params (s : State) (b : Nat) (xs : List NumElem) :
    (s.setR b xs).params = s.params := rfl

/-! ### State.withTable -/

@[simp] theorem State.withTable_status (s : State) (t : Nat) :
    (s.withTable t).status = s.status := rfl
@[simp] theorem State.withTable_errinfo (s : State) (t : Nat) :
    (s.withTable t).errinfo = s.errinfo := rfl
@[simp] theorem State.withTable_imgW (s : State) (t : Nat) :
    (s.withTable t).imgW = s.imgW := rfl
@[simp] theorem State.withTable_imgH (s : State) (t : Nat) :
    (s.withTable t).imgH = s.imgH := rfl
@[simp] theorem State.withTable_mcuX (s : State) (t : Nat) :
    (s.withTable t).mcuX = s.mcuX := rfl
@[simp] theorem State.withTable_mcuY (s : State) (t : Nat) :
    (s.withTable t).mcuY = s.mcuY := rfl
@[simp] theorem State.withTable_predY (s : State) (t : Nat) :
    (s.withTable t).predY = s.predY := rfl
@[simp] theorem State.withTable_predCb (s : State) (t : Nat) :
    (s.withTable t).predCb = s.predCb := rfl
@[simp] theorem State.withTable_predCr (s : State) (t : Nat) :
    (s.withTable t).predCr = s.predCr := rfl
@[simp] theorem State.withTable_bitacc (s : State) (t : Nat) :
    (s.withTable t).bitacc = s.bitacc := rfl
@[simp] theorem State.withTable_bitidx (s : State) (t : Nat) :
    (s.withTable t).bitidx = s.bitidx := rfl
@[simp] theorem State.withTable_htvalid (s : State) (t : Nat) :
    (s.withTable t).htvalid = s.htvalid ||| (1#4 <<< t) := rfl
@[simp] theorem State.withTable_cscY (s : State) (t : Nat) :
    (s.withTable t).cscY = s.cscY := rfl
@[simp] theorem State.withTable_cscCb (s : State) (t : Nat) :
    (s.withTable t).cscCb = s.cscCb := rfl
@[simp] theorem State.withTable_cscCr (s : State) (t : Nat) :
    (s.withTable t).cscCr = s.cscCr := rfl
@[simp] theorem State.withTable_bufS (s : State) (t : Nat) :
    (s.withTable t).bufS = s.bufS := rfl
@[simp] theorem State.withTable_bufF (s : State) (t : Nat) :
    (s.withTable t).bufF = s.bufF := rfl
@[simp] theorem State.withTable_bufQ (s : State) (t : Nat) :
    (s.withTable t).bufQ = s.bufQ := rfl
@[simp] theorem State.withTable_bufZ (s : State) (t : Nat) :
    (s.withTable t).bufZ = s.bufZ := rfl
@[simp] theorem State.withTable_bufR (s : State) (t : Nat) :
    (s.withTable t).bufR = s.bufR := rfl
@[simp] theorem State.withTable_ht (s : State) (t : Nat) :
    (s.withTable t).ht = s.ht.setTable t (builtTable t) := rfl
@[simp] theorem State.withTable_sink (s : State) (t : Nat) :
    (s.withTable t).sink = s.sink := rfl
@[simp] theorem State.withTable_raster (s : State) (t : Nat) :
    (s.withTable t).raster = s.raster := rfl
@[simp] theorem State.withTable_host (s : State) (t : Nat) :
    (s.withTable t).host = s.host := rfl
@[simp] theorem State.withTable_readData (s : State) (t : Nat) :
    (s.withTable t).readData = s.readData := rfl
@[simp] theorem State.withTable_tie (s : State) (t : Nat) :
    (s.withTable t).tie = s.tie := rfl
@[simp] theorem State.withTable_reads (s : State) (t : Nat) :
    (s.withTable t).reads = s.reads := rfl
@[simp] theorem State.withTable_uninit (s : State) (t : Nat) :
    (s.withTable t).uninit = s.uninit := rfl
@[simp] theorem State.withTable_params (s : State) (t : Nat) :
    (s.withTable t).params = s.params := rfl

/-! ### State.byteDone -/

@[simp] theorem State.byteDone_status (s : State) :
    (s.byteDone).status = s.status := rfl
@[simp] theorem State.byteDone_errinfo (s : State) :
    (s.byteDone).errinfo = s.errinfo := rfl
@[simp] theorem State.byteDone_imgW (s : State) :
    (s.byteDone).imgW = s.imgW := rfl
@[simp] theorem State.byteDone_imgH (s : State) :
    (s.byteDone).imgH = s.imgH := rfl
@[simp] theorem State.byteDone_mcuX (s : State) :
    (s.byteDone).mcuX = s.mcuX := rfl
@[simp] theorem State.byteDone_mcuY (s : State) :
    (s.byteDone).mcuY = s.mcuY := rfl
@[simp] theorem State.byteDone_predY (s : State) :
    (s.byteDone).predY = s.predY := rfl
@[simp] theorem State.byteDone_predCb (s : State) :
    (s.byteDone).predCb = s.predCb := rfl
@[simp] theorem State.byteDone_predCr (s : State) :
    (s.byteDone).predCr = s.predCr := rfl
@[simp] theorem State.byteDone_bitidx (s : State) :
    (s.byteDone).bitidx = 7 := rfl
@[simp] theorem State.byteDone_htvalid (s : State) :
    (s.byteDone).htvalid = s.htvalid := rfl
@[simp] theorem State.byteDone_cscY (s : State) :
    (s.byteDone).cscY = s.cscY := rfl
@[simp] theorem State.byteDone_cscCb (s : State) :
    (s.byteDone).cscCb = s.cscCb := rfl
@[simp] theorem State.byteDone_cscCr (s : State) :
    (s.byteDone).cscCr = s.cscCr := rfl
@[simp] theorem State.byteDone_bufS (s : State) :
    (s.byteDone).bufS = s.bufS := rfl
@[simp] theorem State.byteDone_bufF (s : State) :
    (s.byteDone).bufF = s.bufF := rfl
@[simp] theorem State.byteDone_bufQ (s : State) :
    (s.byteDone).bufQ = s.bufQ := rfl
@[simp] theorem State.byteDone_bufZ (s : State) :
    (s.byteDone).bufZ = s.bufZ := rfl
@[simp] theorem State.byteDone_bufR (s : State) :
    (s.byteDone).bufR = s.bufR := rfl
@[simp] theorem State.byteDone_ht (s : State) :
    (s.byteDone).ht = s.ht := rfl
@[simp] theorem State.byteDone_sink (s : State) :
    (s.byteDone).sink = s.sink := rfl
@[simp] theorem State.byteDone_raster (s : State) :
    (s.byteDone).raster = s.raster := rfl
@[simp] theorem State.byteDone_host (s : State) :
    (s.byteDone).host = s.host := rfl
@[simp] theorem State.byteDone_readData (s : State) :
    (s.byteDone).readData = s.readData := rfl
@[simp] theorem State.byteDone_tie (s : State) :
    (s.byteDone).tie = s.tie := rfl
@[simp] theorem State.byteDone_reads (s : State) :
    (s.byteDone).reads = s.reads := rfl
@[simp] theorem State.byteDone_uninit (s : State) :
    (s.byteDone).uninit = s.uninit := rfl
@[simp] theorem State.byteDone_params (s : State) :
    (s.byteDone).params = s.params := rfl

/-! ### State.bitPlaced -/

@[simp] theorem State.bitPlaced_status (s : State) (v : Bool) :
    (s.bitPlaced v).status = s.status := rfl
@[simp] theorem State.bitPlaced_errinfo (s : State) (v : Bool) :
    (s.bitPlaced v).errinfo = s.errinfo := rfl
@[simp] theorem State.bitPlaced_imgW (s : State) (v : Bool) :
    (s.bitPlaced v).imgW = s.imgW := rfl
@[simp] theorem State.bitPlaced_imgH (s : State) (v : Bool) :
    (s.bitPlaced v).imgH = s.imgH := rfl
@[simp] theorem State.bitPlaced_mcuX (s : State) (v : Bool) :
    (s.bitPlaced v).mcuX = s.mcuX := rfl
@[simp] theorem State.bitPlaced_mcuY (s : State) (v : Bool) :
    (s.bitPlaced v).mcuY = s.mcuY := rfl
@[simp] theorem State.bitPlaced_predY (s : State) (v : Bool) :
    (s.bitPlaced v).predY = s.predY := rfl
@[simp] theorem State.bitPlaced_predCb (s : State) (v : Bool) :
    (s.bitPlaced v).predCb = s.predCb := rfl
@[simp] theorem State.bitPlaced_predCr (s : State) (v : Bool) :
    (s.bitPlaced v).predCr = s.predCr := rfl
@[simp] theorem State.bitPlaced_bitacc (s : State) (v : Bool) :
    (s.bitPlaced v).bitacc = setBit s.bitacc s.bitidx.toNat v := rfl
@[simp] theorem State.bitPlaced_bitidx (s : State) (v : Bool) :
    (s.bitPlaced v).bitidx = s.bitidx := rfl
@[simp] theorem State.bitPlaced_htvalid (s : State) (v : Bool) :
    (s.bitPlaced v).htvalid = s.htvalid := rfl
@[simp] theorem State.bitPlaced_cscY (s : State) (v : Bool) :
    (s.bitPlaced v).cscY = s.cscY := rfl
@[simp] theorem State.bitPlaced_cscCb (s : State) (v : Bool) :
    (s.bitPlaced v).cscCb = s.cscCb := rfl
@[simp] theorem State.bitPlaced_cscCr (s : State) (v : Bool) :
    (s.bitPlaced v).cscCr = s.cscCr := rfl
@[simp] theorem State.bitPlaced_bufS (s : State) (v : Bool) :
    (s.bitPlaced v).bufS = s.bufS := rfl
@[simp] theorem State.bitPlaced_bufF (s : State) (v : Bool) :
    (s.bitPlaced v).bufF = s.bufF := rfl
@[simp] theorem State.bitPlaced_bufQ (s : State) (v : Bool) :
    (s.bitPlaced v).bufQ = s.bufQ := rfl
@[simp] theorem State.bitPlaced_bufZ (s : State) (v : Bool) :
    (s.bitPlaced v).bufZ = s.bufZ := rfl
@[simp] theorem State.bitPlaced_bufR (s : State) (v : Bool) :
    (s.bitPlaced v).bufR = s.bufR := rfl
@[simp] theorem State.bitPlaced_ht (s : State) (v : Bool) :
    (s.bitPlaced v).ht = s.ht := rfl
@[simp] theorem State.bitPlaced_sink (s : State) (v : Bool) :
    (s.bitPlaced v).sink = s.sink := rfl
@[simp] theorem State.bitPlaced_raster (s : State) (v : Bool) :
    (s.bitPlaced v).raster = s.raster := rfl
@[simp] theorem State.bitPlaced_host (s : State) (v : Bool) :
    (s.bitPlaced v).host = s.host := rfl
@[simp] theorem State.bitPlaced_readData (s : State) (v : Bool) :
    (s.bitPlaced v).readData = s.readData := rfl
@[simp] theorem State.bitPlaced_tie (s : State) (v : Bool) :
    (s.bitPlaced v).tie = s.tie := rfl
@[simp] theorem State.bitPlaced_reads (s : State) (v : Bool) :
    (s.bitPlaced v).reads = s.reads := rfl
@[simp] theorem State.bitPlaced_uninit (s : State) (v : Bool) :
    (s.bitPlaced v).uninit = s.uninit := rfl
@[simp] theorem State.bitPlaced_params (s : State) (v : Bool) :
    (s.bitPlaced v).params = s.params := rfl

/-! ### State.streamCleared -/

@[simp] theorem State.streamCleared_status (s : State) :
    (s.streamCleared).status = s.status := rfl
@[simp] theorem State.streamCleared_errinfo (s : State) :
    (s.streamCleared).errinfo = s.errinfo := rfl
@[simp] theorem State.streamCleared_imgW (s : State) :
    (s.streamCleared).imgW = s.imgW := rfl
@[simp] theorem State.streamCleared_imgH (s : State) :
    (s.streamCleared).imgH = s.imgH := rfl
@[simp] theorem State.streamCleared_mcuX (s : State) :
    (s.streamCleared).mcuX = 0 := rfl
@[simp] theorem State.streamCleared_mcuY (s : State) :
    (s.streamCleared).mcuY = 0 := rfl
@[simp] theorem State.streamCleared_predY (s : State) :
    (s.streamCleared).predY = 0 := rfl
@[simp] theorem State.streamCleared_predCb (s : State) :
    (s.streamCleared).predCb = 0 := rfl
@[simp] theorem State.streamCleared_predCr (s : State) :
    (s.streamCleared).predCr = 0 := rfl
@[simp] theorem State.streamCleared_bitacc (s : State) :
    (s.streamCleared).bitacc = 0 := rfl
@[simp] theorem State.streamCleared_bitidx (s : State) :
    (s.streamCleared).bitidx = 7 := rfl
@[simp] theorem State.streamCleared_htvalid (s : State) :
    (s.streamCleared).htvalid = s.htvalid := rfl
@[simp] theorem State.streamCleared_cscY (s : State) :
    (s.streamCleared).cscY = s.cscY := rfl
@[simp] theorem State.streamCleared_cscCb (s : State) :
    (s.streamCleared).cscCb = s.cscCb := rfl
@[simp] theorem State.streamCleared_cscCr (s : State) :
    (s.streamCleared).cscCr = s.cscCr := rfl
@[simp] theorem State.streamCleared_bufS (s : State) :
    (s.streamCleared).bufS = s.bufS := rfl
@[simp] theorem State.streamCleared_bufF (s : State) :
    (s.streamCleared).bufF = s.bufF := rfl
@[simp] theorem State.streamCleared_bufQ (s : State) :
    (s.streamCleared).bufQ = s.bufQ := rfl
@[simp] theorem State.streamCleared_bufZ (s : State) :
    (s.streamCleared).bufZ = s.bufZ := rfl
@[simp] theorem State.streamCleared_bufR (s : State) :
    (s.streamCleared).bufR = s.bufR := rfl
@[simp] theorem State.streamCleared_ht (s : State) :
    (s.streamCleared).ht = s.ht := rfl
@[simp] theorem State.streamCleared_sink (s : State) :
    (s.streamCleared).sink = s.sink := rfl
@[simp] theorem State.streamCleared_raster (s : State) :
    (s.streamCleared).raster = s.raster := rfl
@[simp] theorem State.streamCleared_host (s : State) :
    (s.streamCleared).host = s.host := rfl
@[simp] theorem State.streamCleared_readData (s : State) :
    (s.streamCleared).readData = s.readData := rfl
@[simp] theorem State.streamCleared_tie (s : State) :
    (s.streamCleared).tie = s.tie := rfl
@[simp] theorem State.streamCleared_reads (s : State) :
    (s.streamCleared).reads = s.reads := rfl
@[simp] theorem State.streamCleared_uninit (s : State) :
    (s.streamCleared).uninit = s.uninit := rfl
@[simp] theorem State.streamCleared_params (s : State) :
    (s.streamCleared).params = s.params := rfl

/-! ### State.setPred -/

@[simp] theorem State.setPred_status (s : State) (sl : Slot) (v : Coef) :
    (s.setPred sl v).status = s.status := by cases sl <;> rfl
@[simp] theorem State.setPred_errinfo (s : State) (sl : Slot) (v : Coef) :
    (s.setPred sl v).errinfo = s.errinfo := by cases sl <;> rfl
@[simp] theorem State.setPred_imgW (s : State) (sl : Slot) (v : Coef) :
    (s.setPred sl v).imgW = s.imgW := by cases sl <;> rfl
@[simp] theorem State.setPred_imgH (s : State) (sl : Slot) (v : Coef) :
    (s.setPred sl v).imgH = s.imgH := by cases sl <;> rfl
@[simp] theorem State.setPred_mcuX (s : State) (sl : Slot) (v : Coef) :
    (s.setPred sl v).mcuX = s.mcuX := by cases sl <;> rfl
@[simp] theorem State.setPred_mcuY (s : State) (sl : Slot) (v : Coef) :
    (s.setPred sl v).mcuY = s.mcuY := by cases sl <;> rfl
@[simp] theorem State.setPred_bitacc (s : State) (sl : Slot) (v : Coef) :
    (s.setPred sl v).bitacc = s.bitacc := by cases sl <;> rfl
@[simp] theorem State.setPred_bitidx (s : State) (sl : Slot) (v : Coef) :
    (s.setPred sl v).bitidx = s.bitidx := by cases sl <;> rfl
@[simp] theorem State.setPred_htvalid (s : State) (sl : Slot) (v : Coef) :
    (s.setPred sl v).htvalid = s.htvalid := by cases sl <;> rfl
@[simp] theorem State.setPred_cscY (s : State) (sl : Slot) (v : Coef) :
    (s.setPred sl v).cscY = s.cscY := by cases sl <;> rfl
@[simp] theorem State.setPred_cscCb (s : State) (sl : Slot) (v : Coef) :
    (s.setPred sl v).cscCb = s.cscCb := by cases sl <;> rfl
@[simp] theorem State.setPred_cscCr (s : State) (sl : Slot) (v : Coef) :
    (s.setPred sl v).cscCr = s.cscCr := by cases sl <;> rfl
@[simp] theorem State.setPred_bufS (s : State) (sl : Slot) (v : Coef) :
    (s.setPred sl v).bufS = s.bufS := by cases sl <;> rfl
@[simp] theorem State.setPred_bufF (s : State) (sl : Slot) (v : Coef) :
    (s.setPred sl v).bufF = s.bufF := by cases sl <;> rfl
@[simp] theorem State.setPred_bufQ (s : State) (sl : Slot) (v : Coef) :
    (s.setPred sl v).bufQ = s.bufQ := by cases sl <;> rfl
@[simp] theorem State.setPred_bufZ (s : State) (sl : Slot) (v : Coef) :
    (s.setPred sl v).bufZ = s.bufZ := by cases sl <;> rfl
@[simp] theorem State.setPred_bufR (s : State) (sl : Slot) (v : Coef) :
    (s.setPred sl v).bufR = s.bufR := by cases sl <;> rfl
@[simp] theorem State.setPred_ht (s : State) (sl : Slot) (v : Coef) :
    (s.setPred sl v).ht = s.ht := by cases sl <;> rfl
@[simp] theorem State.setPred_sink (s : State) (sl : Slot) (v : Coef) :
    (s.setPred sl v).sink = s.sink := by cases sl <;> rfl
@[simp] theorem State.setPred_raster (s : State) (sl : Slot) (v : Coef) :
    (s.setPred sl v).raster = s.raster := by cases sl <;> rfl
@[simp] theorem State.setPred_host (s : State) (sl : Slot) (v : Coef) :
    (s.setPred sl v).host = s.host := by cases sl <;> rfl
@[simp] theorem State.setPred_readData (s : State) (sl : Slot) (v : Coef) :
    (s.setPred sl v).readData = s.readData := by cases sl <;> rfl
@[simp] theorem State.setPred_tie (s : State) (sl : Slot) (v : Coef) :
    (s.setPred sl v).tie = s.tie := by cases sl <;> rfl
@[simp] theorem State.setPred_reads (s : State) (sl : Slot) (v : Coef) :
    (s.setPred sl v).reads = s.reads := by cases sl <;> rfl
@[simp] theorem State.setPred_uninit (s : State) (sl : Slot) (v : Coef) :
    (s.setPred sl v).uninit = s.uninit := by cases sl <;> rfl
@[simp] theorem State.setPred_params (s : State) (sl : Slot) (v : Coef) :
    (s.setPred sl v).params = s.params := by cases sl <;> rfl
theorem State.pred_setPred (s : State) (sl sl' : Slot) (v : Coef) :
    (s.setPred sl v).pred sl' = if sl = sl' then v else s.pred sl' := by
  cases sl <;> cases sl' <;> rfl

@[simp] theorem State.pred_setDone (s : State) (v : Bool) (sl : Slot) :
    (s.setDone v).pred sl = s.pred sl := by cases sl <;> rfl

@[simp] theorem State.pred_raised (s : State) (e : ErrorKind) (info : Word) (sl : Slot) :
    (s.raised e info).pred sl = s.pred sl := by cases sl <;> rfl

/-! ### State.mcuLoaded -/

@[simp] theorem State.mcuLoaded_status (s : State) (mx my : Nat) :
    (s.mcuLoaded mx my).status = s.status := rfl
@[simp] theorem State.mcuLoaded_errinfo (s : State) (mx my : Nat) :
    (s.mcuLoaded mx my).errinfo = s.errinfo := rfl
@[simp] theorem State.mcuLoaded_imgW (s : State) (mx my : Nat) :
    (s.mcuLoaded mx my).imgW = s.imgW := rfl
@[simp] theorem State.mcuLoaded_imgH (s : State) (mx my : Nat) :
    (s.mcuLoaded mx my).imgH = s.imgH := rfl
@[simp] theorem State.mcuLoaded_predY (s : State) (mx my : Nat) :
    (s.mcuLoaded mx my).predY = s.predY := rfl
@[simp] theorem State.mcuLoaded_predCb (s : State) (mx my : Nat) :
    (s.mcuLoaded mx my).predCb = s.predCb := rfl
@[simp] theorem State.mcuLoaded_predCr (s : State) (mx my : Nat) :
    (s.mcuLoaded mx my).predCr = s.predCr := rfl
@[simp] theorem State.mcuLoaded_bitacc (s : State) (mx my : Nat) :
    (s.mcuLoaded mx my).bitacc = s.bitacc := rfl
@[simp] theorem State.mcuLoaded_bitidx (s : State) (mx my : Nat) :
    (s.mcuLoaded mx my).bitidx = s.bitidx := rfl
@[simp] theorem State.mcuLoaded_htvalid (s : State) (mx my : Nat) :
    (s.mcuLoaded mx my).htvalid = s.htvalid := rfl
@[simp] theorem State.mcuLoaded_cscY (s : State) (mx my : Nat) :
    (s.mcuLoaded mx my).cscY = s.cscY := rfl
@[simp] theorem State.mcuLoaded_cscCb (s : State) (mx my : Nat) :
    (s.mcuLoaded mx my).cscCb = s.cscCb := rfl
@[simp] theorem State.mcuLoaded_cscCr (s : State) (mx my : Nat) :
    (s.mcuLoaded mx my).cscCr = s.cscCr := rfl
@[simp] theorem State.mcuLoaded_bufF (s : State) (mx my : Nat) :
    (s.mcuLoaded mx my).bufF = s.bufF := rfl
@[simp] theorem State.mcuLoaded_bufQ (s : State) (mx my : Nat) :
    (s.mcuLoaded mx my).bufQ = s.bufQ := rfl
@[simp] theorem State.mcuLoaded_bufZ (s : State) (mx my : Nat) :
    (s.mcuLoaded mx my).bufZ = s.bufZ := rfl
@[simp] theorem State.mcuLoaded_bufR (s : State) (mx my : Nat) :
    (s.mcuLoaded mx my).bufR = s.bufR := rfl
@[simp] theorem State.mcuLoaded_ht (s : State) (mx my : Nat) :
    (s.mcuLoaded mx my).ht = s.ht := rfl
@[simp] theorem State.mcuLoaded_sink (s : State) (mx my : Nat) :
    (s.mcuLoaded mx my).sink = s.sink := rfl
@[simp] theorem State.mcuLoaded_raster (s : State) (mx my : Nat) :
    (s.mcuLoaded mx my).raster = s.raster := rfl
@[simp] theorem State.mcuLoaded_host (s : State) (mx my : Nat) :
    (s.mcuLoaded mx my).host = s.host := rfl
@[simp] theorem State.mcuLoaded_readData (s : State) (mx my : Nat) :
    (s.mcuLoaded mx my).readData = s.readData := rfl
@[simp] theorem State.mcuLoaded_tie (s : State) (mx my : Nat) :
    (s.mcuLoaded mx my).tie = s.tie := rfl
@[simp] theorem State.mcuLoaded_reads (s : State) (mx my : Nat) :
    (s.mcuLoaded mx my).reads = s.reads := rfl
@[simp] theorem State.mcuLoaded_uninit (s : State) (mx my : Nat) :
    (s.mcuLoaded mx my).uninit = s.uninit := rfl
@[simp] theorem State.mcuLoaded_params (s : State) (mx my : Nat) :
    (s.mcuLoaded mx my).params = s.params := rfl

@[simp] theorem State.mcuLoaded_bufS (s : State) (mx my : Nat) :
    (s.mcuLoaded mx my).bufS = loadedSamples s mx my := by
  unfold State.mcuLoaded
  dsimp only
@[simp] theorem State.mcuLoaded_mcuX (s : State) (mx my : Nat) :
    (s.mcuLoaded mx my).mcuX = BitVec.ofNat 12 mx := rfl
@[simp] theorem State.mcuLoaded_mcuY (s : State) (mx my : Nat) :
    (s.mcuLoaded mx my).mcuY = BitVec.ofNat 12 my := rfl

/-! ### HTables -/

@[simp] theorem HTables.setTable_dcLum (h : HTables) (tab : Buf HCode) :
    h.setTable 0 tab = { h with dcLum := tab } := rfl
@[simp] theorem HTables.setTable_dcChr (h : HTables) (tab : Buf HCode) :
    h.setTable 1 tab = { h with dcChr := tab } := rfl
@[simp] theorem HTables.setTable_acLum (h : HTables) (tab : Buf HCode) :
    h.setTable 2 tab = { h with acLum := tab } := rfl
@[simp] theorem HTables.setTable_acChr (h : HTables) (tab : Buf HCode) :
    h.setTable 3 tab = { h with acChr := tab } := rfl

theorem HTables.table_setTable (h : HTables) (t u : Nat) (ht : t < 4) (hu : u < 4)
    (tab : Buf HCode) : (h.setTable t tab).table u = if u = t then tab else h.table u := by
  interval_cases t <;> interval_cases u <;> rfl

/-! ### State.inited -/

/-- INIT as one update (R261). -/
theorem State.inited_eq (s : State) :
    s.inited =
      { s with
        status := .clear, errinfo := 0, predY := 0, predCb := 0, predCr := 0, bitacc := 0
        bitidx := 7, mcuX := 0, mcuY := 0, htvalid := 0xF#4
        ht := ⟨builtTable 0, builtTable 1, builtTable 2, builtTable 3⟩ } := by
  have h : ∀ v : BitVec 4,
      (((v ||| (1#4 <<< 0)) ||| (1#4 <<< 1)) ||| (1#4 <<< 2)) ||| (1#4 <<< 3) = 0xF#4 := by decide
  simp only [State.inited, State.recovered, State.streamCleared, State.withTable,
    HTables.setTable_dcLum, HTables.setTable_dcChr, HTables.setTable_acLum,
    HTables.setTable_acChr, h]

/-! ### State.hardReset -/

/-- Hardware reset as one update of the reset state (R340). -/
theorem State.hardReset_eq (s : State) :
    s.hardReset =
      { State.reset with
        sink := s.sink, raster := s.raster, host := s.host, readData := s.readData
        tie := s.tie, reads := s.reads, uninit := s.uninit, params := s.params } := rfl

end Sys2Proof.Machine
end

