-- ==== Sys2Proof/Laws/Ops.lean ====
section
/-!
SUPPORT. Laws of the course of a command (`Flow`, `forEach`, `command`), of the checks, of raising
an error, of the reads of a block and of the sink: what each can do, said once.
-/

namespace Sys2Proof.Machine

/-! ### Where a command's course ends -/

/-- `G` holds where the command goes on and `S` where it has stopped. -/
def Flow.Holds (G S : State → Prop) : Flow → Prop
  | .go s => G s
  | .stop s => S s

theorem Flow.Holds.mono {G G' S S' : State → Prop} {x : Flow} (h : x.Holds G S)
    (hg : ∀ s, G s → G' s) (hs : ∀ s, S s → S' s) : x.Holds G' S' := by
  cases x
  · exact hg _ h
  · exact hs _ h

theorem Flow.Holds.andThen {G G' S : State → Prop} {x : Flow} {f : State → Flow}
    (h : x.Holds G S) (hf : ∀ s, G s → (f s).Holds G' S) : (x.andThen f).Holds G' S := by
  cases x
  · exact hf _ h
  · exact h

/-- An invariant of every round is an invariant of the loop. -/
theorem forEach_holds {α : Type} {I S : State → Prop} {f : α → State → Flow} {xs : List α}
    (hf : ∀ x ∈ xs, ∀ s, I s → (f x s).Holds I S) {s : State} (hs : I s) :
    (forEach xs f s).Holds I S := by
  induction xs generalizing s with
  | nil => exact hs
  | cons x rest ih =>
    exact (hf x (by simp) s hs).andThen fun s' hs' => ih (fun y hy => hf y (by simp [hy])) hs'

@[simp] theorem Flow.andThen_go (s : State) (f : State → Flow) : (Flow.go s).andThen f = f s := rfl
@[simp] theorem Flow.andThen_stop (s : State) (f : State → Flow) :
    (Flow.stop s).andThen f = .stop s := rfl
@[simp] theorem Flow.state_go (s : State) : (Flow.go s).state = s := rfl
@[simp] theorem Flow.state_stop (s : State) : (Flow.stop s).state = s := rfl
@[simp] theorem Flow.result_go (s : State) : (Flow.go s).result = .next s := rfl
@[simp] theorem Flow.result_stop (s : State) : (Flow.stop s).result = .next s := rfl

/-- A property of where the command stands, however it has ended. -/
theorem Flow.Holds.state {P : State → Prop} {x : Flow} (h : x.Holds P P) : P x.state := by
  cases x <;> exact h

theorem Flow.andThen_assoc (x : Flow) (f g : State → Flow) :
    (x.andThen f).andThen g = x.andThen fun s => (f s).andThen g := by
  cases x <;> rfl

theorem forEach_append {α : Type} (xs ys : List α) (f : α → State → Flow) (s : State) :
    forEach (xs ++ ys) f s = (forEach xs f s).andThen (forEach ys f) := by
  induction xs generalizing s with
  | nil => rfl
  | cons x rest ih =>
    simp only [List.cons_append, forEach, Flow.andThen_assoc]
    exact congrArg _ (funext ih)

/-- A command that is not refused runs its body with DONE cleared. -/
theorem command_run {s : State} (h : s.status.err = false) (body : State → Flow) :
    command body s = (body (s.setDone false)).result := by
  simp [command, h]

/-- A refused command changes nothing (R308). -/
theorem command_refused {s : State} (h : s.status.err = true) (body : State → Flow) :
    command body s = .next s := by
  simp [command, h]

/-- What a command that answers a next state has done. -/
theorem command_next {body : State → Flow} {s t : State} (h : command body s = .next t) :
    (s.status.err = true ∧ t = s) ∨
      (s.status.err = false ∧
        (body (s.setDone false) = .go t ∨ body (s.setDone false) = .stop t)) := by
  cases herr : s.status.err with
  | true =>
    rw [command_refused herr, Host.Outcome.next.injEq] at h
    exact .inl ⟨rfl, h.symm⟩
  | false =>
    rw [command_run herr] at h
    refine .inr ⟨rfl, ?_⟩
    cases hb : body (s.setDone false) with
    | go u => exact .inl (by simpa [hb] using h)
    | stop u => exact .inr (by simpa [hb] using h)

/-- A command always answers a next state (R305). -/
theorem command_answers (body : State → Flow) (s : State) : ∃ t, command body s = .next t := by
  rw [command]
  split_ifs
  exacts [⟨_, rfl⟩, ⟨_, rfl⟩]

/-- A property of a next state, from what the body's course ends in. -/
theorem command_holds {P : State → Prop} {body : State → Flow} {s t : State}
    (h : command body s = .next t) (hrefused : s.status.err = true → P s)
    (hbody : s.status.err = false → (body (s.setDone false)).Holds P P) : P t := by
  rcases command_next h with ⟨herr, rfl⟩ | ⟨herr, hb | hb⟩
  · exact hrefused herr
  · simpa [hb, Flow.Holds] using hbody herr
  · simpa [hb, Flow.Holds] using hbody herr

/-! ### Raising an error, and the checks -/

theorem raise_holds {G S : State → Prop} {e : ErrorKind} {info : Word} {s : State}
    (h : S (s.raised e info)) : (raise e info s).Holds G S := h

@[simp] theorem State.raised_err (s : State) (e : ErrorKind) (info : Word) :
    (s.raised e info).status.err = true := by
  simp only [State.raised, Status.raised]
  split_ifs with h <;> simp [h]

@[simp] theorem State.raised_done (s : State) (e : ErrorKind) (info : Word) :
    (s.raised e info).status.done = false := by
  simp only [State.raised, Status.raised]
  split_ifs <;> rfl

/-- The first error is recorded (R305). -/
theorem State.raised_of_ok {s : State} (h : s.status.err = false) (e : ErrorKind) (info : Word) :
    s.raised e info = { s with status := ⟨true, false, e.code⟩, errinfo := info } := by
  simp [State.raised, Status.raised, h]

theorem ErrorKind.code_range (e : ErrorKind) : 1 ≤ e.code.toNat ∧ e.code.toNat ≤ 8 := by
  cases e <;> decide

theorem Status.legal_raised {st : Status} (h : st.legal = true) (e : ErrorKind) :
    (st.raised e).legal = true := by
  have := e.code_range
  cases herr : st.err <;> simp_all [Status.legal, Status.raised]

theorem checkBlock_pass {b : Nat} (h : b ≤ 5) (s : State) : checkBlock b s = .go s := if_pos h

theorem checkBlock_fail {b : Nat} (h : ¬ b ≤ 5) (s : State) :
    checkBlock b s = raise .invalidBlock (BitVec.ofNat 32 b) s := if_neg h

theorem checkDims_pass {s : State} (h : 1 ≤ s.imgW.toNat ∧ 1 ≤ s.imgH.toNat) :
    checkDims s = .go s := if_pos h

theorem checkMcu_pass {mx my : Nat} {s : State} (h : mx < s.nx ∧ my < s.ny) (w : Word) :
    checkMcu mx my w s = .go s := if_pos h

theorem checkCount_pass {n : Nat} (h : n ≤ 16) (w : Word) (s : State) :
    checkCount n w s = .go s := if_pos h

theorem checkTables_pass {ts : List Nat} {s : State} (h : ∀ t ∈ ts, s.tableValid t = true) :
    checkTables ts s = .go s := by
  have : ts.find? (fun t => !s.tableValid t) = none := by simpa [List.find?_eq_none] using h
  simp [checkTables, this]

/-- A check goes on in the state it got, or stops with one error. -/
theorem checkBlock_holds {G S : State → Prop} {b : Nat} {s : State} (hg : b ≤ 5 → G s)
    (hs : ¬ b ≤ 5 → S (s.raised .invalidBlock (BitVec.ofNat 32 b))) :
    (checkBlock b s).Holds G S := by
  by_cases h : b ≤ 5
  · rw [checkBlock_pass h]
    exact hg h
  · rw [checkBlock_fail h]
    exact hs h

theorem checkDims_holds {G S : State → Prop} {s : State}
    (hg : 1 ≤ s.imgW.toNat ∧ 1 ≤ s.imgH.toNat → G s)
    (hs : S (s.raised .sourceError (s.imgH ++ s.imgW))) : (checkDims s).Holds G S := by
  rw [checkDims]
  split_ifs with h
  · exact hg h
  · exact hs

theorem checkMcu_holds {G S : State → Prop} {mx my : Nat} {w : Word} {s : State}
    (hg : mx < s.nx ∧ my < s.ny → G s) (hs : S (s.raised .badOperand w)) :
    (checkMcu mx my w s).Holds G S := by
  rw [checkMcu]
  split_ifs with h
  · exact hg h
  · exact hs

theorem checkCount_holds {G S : State → Prop} {n : Nat} {w : Word} {s : State} (hg : n ≤ 16 → G s)
    (hs : S (s.raised .badOperand w)) : (checkCount n w s).Holds G S := by
  rw [checkCount]
  split_ifs with h
  · exact hg h
  · exact hs

theorem checkTables_holds {G S : State → Prop} {ts : List Nat} {s : State}
    (hg : (∀ t ∈ ts, s.tableValid t = true) → G s)
    (hs : ∀ t ∈ ts, S (s.raised .tableNotBuilt (BitVec.ofNat 32 t))) :
    (checkTables ts s).Holds G S := by
  rw [checkTables]
  split
  · rename_i h
    exact hg (by simpa [List.find?_eq_none] using h)
  · rename_i t h
    exact hs t (List.mem_of_find?_eq_some h)

/-! ### Reading elements -/

/-- The record u of UninitRead is that of s, if there is one in s: it is never cleared (R44). -/
def State.KeepsUninit (s : State) (u : Option Location) : Prop := s.uninit ≠ none → u = s.uninit

theorem State.KeepsUninit.refl (s : State) : s.KeepsUninit s.uninit := fun _ => rfl

theorem State.KeepsUninit.trans {s t : State} {u : Option Location} (h : s.KeepsUninit t.uninit)
    (h' : t.KeepsUninit u) : s.KeepsUninit u := fun hs => by
  rw [h' (by rwa [h hs]), h hs]

/-- Once UninitRead is recorded, no later read changes the record (R44). -/
theorem State.uninit_kept (s : State) (loc : Location) :
    s.KeepsUninit (s.unwrittenRead loc).uninit := fun h => by
  obtain ⟨l, hl⟩ := Option.ne_none_iff_exists'.mp h
  simp [State.unwrittenRead, hl]

@[simp] theorem Buf.readOr_length {α : Type} (free : Nat → α) (b : Nat) (ks : List Nat) (buf : Buf α) :
    (Buf.readOr free b ks buf).length = ks.length := by simp [Buf.readOr]

/-- Written elements are read as they are. -/
theorem Buf.readOr_eq {α : Type} {b : Nat} {ks : List Nat} {buf : Buf α} {f : Nat → α}
    (h : ∀ k ∈ ks, Buf.get (elemIndex b k) buf = some (f k)) (free : Nat → α) :
    Buf.readOr free b ks buf = ks.map f :=
  List.map_congr_left fun k hk => by rw [h k hk, Option.getD_some]

theorem Buf.firstUnwritten_none {α : Type} {b : Nat} {ks : List Nat} {buf : Buf α} {f : Nat → α}
    (h : ∀ k ∈ ks, Buf.get (elemIndex b k) buf = some (f k)) : Buf.firstUnwritten b ks buf = none := by
  simp +contextual [Buf.firstUnwritten, List.find?_eq_none, h]

/-- The first unwritten element stands at a position before which every element is written. -/
theorem Buf.firstUnwritten_some {α : Type} {b p : Nat} {ks : List Nat} {buf : Buf α} (hp : p < ks.length)
    (h : Buf.get (elemIndex b ks[p]) buf = none)
    (hw : ∀ j, (hj : j < p) → Buf.get (elemIndex b ks[j]) buf ≠ none) :
    Buf.firstUnwritten b ks buf = some ks[p] :=
  List.find?_eq_some_iff_getElem.mpr
    ⟨by simp [h], p, hp, rfl, fun j hj => by simpa [Option.isSome_iff_ne_none] using hw j hj⟩

/-- Elements that are written are read, and nothing is drawn or recorded. -/
theorem readElems_eq {α : Type} {buf : Buf α} {b : Nat} {ks : List Nat} {f : Nat → α}
    (h : ∀ k ∈ ks, Buf.get (elemIndex b k) buf = some (f k)) (kind : ElemKind α) (s : State)
    (cont : List α → State → Flow) : readElems kind buf b ks s cont = cont (ks.map f) s := by
  rw [readElems, Buf.readOr_eq h, Buf.firstUnwritten_none h]

theorem readBlock_eq {α : Type} {buf : Buf α} {b : Nat} {f : Nat → α}
    (h : ∀ j < 64, Buf.get (elemIndex b j) buf = some (f j)) (kind : ElemKind α) (s : State)
    (cont : List α → State → Flow) :
    readBlock kind buf b s cont = cont ((List.range 64).map f) s :=
  readElems_eq (fun j hj => h j (List.mem_range.mp hj)) kind s cont

/-- A read goes on with values of which the written ones are the buffer's, in the state it got but for the
draws and the record of UninitRead. -/
theorem readElems_value {α : Type} (s : State) (kind : ElemKind α) (buf : Buf α) (b : Nat)
    (ks : List Nat) :
    ∃ (f : Nat → α) (r : Nat) (u : Option Location),
      (∀ k x, Buf.get (elemIndex b k) buf = some x → f k = x) ∧ s.KeepsUninit u ∧
      ∀ cont : List α → State → Flow,
        readElems kind buf b ks s cont = cont (ks.map f) { s with reads := r, uninit := u } := by
  let f := fun k => (Buf.get (elemIndex b k) buf).getD (kind.free s.reads (elemIndex b k))
  have hf : ∀ k x, Buf.get (elemIndex b k) buf = some x → f k = x := fun k x hx => by simp [f, hx]
  cases h : Buf.firstUnwritten b ks buf with
  | none => exact ⟨f, _, _, hf, .refl s, fun cont => by rw [readElems, h]; rfl⟩
  | some k => exact ⟨f, _, _, hf, s.uninit_kept (kind.loc b k), fun cont => by rw [readElems, h]; rfl⟩

/-- Everything a read can do, for a property of the course it goes on with. -/
theorem readElems_holds {α : Type} {G S : State → Prop} {kind : ElemKind α} {buf : Buf α} {b : Nat}
    {ks : List Nat} {s : State} {cont : List α → State → Flow}
    (h : ∀ (xs : List α) (r : Nat) (u : Option Location), xs.length = ks.length →
      s.KeepsUninit u → (cont xs { s with reads := r, uninit := u }).Holds G S) :
    (readElems kind buf b ks s cont).Holds G S := by
  obtain ⟨f, r, u, -, hu, he⟩ := readElems_value s kind buf b ks
  rw [he]
  exact h _ _ _ (List.length_map f) hu

/-- A read whose first unwritten element stands at position p takes one draw and records it (R44). -/
theorem readElems_unwritten {α : Type} {b p : Nat} {ks : List Nat} {buf : Buf α} (hp : p < ks.length)
    (h : Buf.get (elemIndex b ks[p]) buf = none)
    (hw : ∀ j, (hj : j < p) → Buf.get (elemIndex b ks[j]) buf ≠ none) (kind : ElemKind α) (s : State)
    (cont : List α → State → Flow) :
    readElems kind buf b ks s cont =
      cont (Buf.readOr (kind.free s.reads) b ks buf) (s.unwrittenRead (kind.loc b ks[p])) := by
  rw [readElems, Buf.firstUnwritten_some hp h hw]

/-! ### The sink -/

/-- A sink write appends, or stops the command with SinkError (R72). -/
theorem sinkWrite_holds {G S : State → Prop} {x : Byte} {s : State}
    (hg : s.sink.accepts = true → G { s with sink := s.sink.drawn.append x })
    (hs : s.sink.accepts = false →
      S (State.raised { s with sink := s.sink.drawn } .sinkError (x.setWidth 32))) :
    (sinkWrite x s).Holds G S := by
  rw [sinkWrite]
  split_ifs with h
  · exact hg h
  · exact hs (by simpa using h)

theorem sinkWrite_go {x : Byte} {s : State} (h : s.sink.accepts = true) :
    sinkWrite x s = .go { s with sink := s.sink.drawn.append x } := if_pos h

@[simp] theorem Sink.drawn_stream (k : Sink) : k.drawn.stream = k.stream := rfl
@[simp] theorem Sink.append_stream (k : Sink) (x : Byte) :
    (k.append x).stream = k.stream ++ [x] := rfl
@[simp] theorem Sink.append_oracle (k : Sink) (x : Byte) : (k.append x).oracle = k.oracle := rfl

end Sys2Proof.Machine
end

