-- ==== Sys2Proof/Laws/Packer.lean ====
section
/-!
SUPPORT. Laws of the bit packer: bits and bytes, what PutBits and FlushBits can do at all, and what
they do with a sink that accepts.
-/

namespace Sys2Proof.Machine

/-! ### Bits and bytes -/

/-- Full bytes come off the front: the rest of the bits joins what follows. -/
theorem fullBytes_append (x y : List Bool) :
    fullBytes (x ++ y) = fullBytes x ++ fullBytes (restBits x ++ y) ∧
      restBits (x ++ y) = restBits (restBits x ++ y) := by
  induction x using fullBytes.induct with
  | case1 a b c d e f g h rest ih =>
    simp only [List.cons_append, fullBytes, restBits]
    exact ⟨by rw [ih.1], ih.2⟩
  | case2 bits hshort =>
    have h1 : fullBytes bits = [] := by
      rw [fullBytes.eq_2]
      exact hshort
    have h2 : restBits bits = bits := by
      rw [restBits.eq_2]
      exact hshort
    rw [h1, h2, List.nil_append]
    exact ⟨rfl, rfl⟩

theorem fullBytes_short {x : List Bool} (h : x.length < 8) :
    fullBytes x = [] ∧ restBits x = x := by
  match x, h with
  | [], _ => exact ⟨rfl, rfl⟩
  | [_], _ => exact ⟨rfl, rfl⟩
  | [_, _], _ => exact ⟨rfl, rfl⟩
  | [_, _, _], _ => exact ⟨rfl, rfl⟩
  | [_, _, _, _], _ => exact ⟨rfl, rfl⟩
  | [_, _, _, _, _], _ => exact ⟨rfl, rfl⟩
  | [_, _, _, _, _, _], _ => exact ⟨rfl, rfl⟩
  | [_, _, _, _, _, _, _], _ => exact ⟨rfl, rfl⟩

theorem fullBytes_eight {x : List Bool} (h : x.length = 8) :
    fullBytes x = [byteOfBits x] ∧ restBits x = [] := by
  match x, h with
  | [_, _, _, _, _, _, _, _], _ => exact ⟨rfl, rfl⟩

theorem stuffed_append (x y : List Byte) : stuffed (x ++ y) = stuffed x ++ stuffed y := by
  induction x with
  | nil => rfl
  | cons a x ih =>
    simp only [List.cons_append, stuffed]
    split_ifs <;> simp [ih]

@[simp] theorem pendingOf_length (acc : Byte) (idx : BitVec 3) :
    (pendingOf acc idx).length = 7 - idx.toNat := by
  simp [pendingOf]

@[simp] theorem pendingOf_empty (acc : Byte) : pendingOf acc 7#3 = [] := rfl

/-- A bit placed below the top ones joins the pending bits. -/
theorem pendingOf_setBit : ∀ (acc : Byte) (idx : BitVec 3) (v : Bool), idx ≠ 0#3 →
    pendingOf (setBit acc idx.toNat v) (idx - 1#3) = pendingOf acc idx ++ [v] := by
  decide +kernel

/-- The eighth bit makes the byte of all eight. -/
theorem setBit_zero : ∀ (acc : Byte) (v : Bool),
    setBit acc 0 v = byteOfBits (pendingOf acc 0#3 ++ [v]) := by
  decide +kernel

/-- A bit placed leaves the bits below its place. -/
theorem setBit_below : ∀ (acc : Byte) (idx : BitVec 3) (v : Bool), idx ≠ 0#3 →
    ∀ i ≤ (idx - 1#3).toNat, (setBit acc idx.toNat v).getLsbD i = acc.getLsbD i := by
  decide +kernel

/-! ### Appending composes -/

theorem Appends.trans {s t u : State} {a b : List Bool} (h : Appends s t a) (h' : Appends t u b) :
    Appends s u (a ++ b) := by
  obtain ⟨h1, h2⟩ := h
  obtain ⟨h3, h4⟩ := h'
  obtain ⟨f1, f2⟩ := fullBytes_append (pendingBits s ++ a) b
  rw [Appends, ← List.append_assoc, f1, f2, ← h2, h3, h1, stuffed_append, List.append_assoc]
  exact ⟨rfl, h4⟩

theorem Appends.nil (s : State) : Appends s s [] := by
  obtain ⟨h1, h2⟩ := fullBytes_short (x := pendingBits s)
    (by simp only [pendingBits, pendingOf_length]; omega)
  simp [Appends, h1, h2, stuffed]

/-- A state with the same packer and sink has nothing appended. -/
theorem Appends.of_same {s t : State} (hacc : t.bitacc = s.bitacc) (hidx : t.bitidx = s.bitidx)
    (hsink : t.sink = s.sink) : Appends s t [] := by
  have h := Appends.nil s
  rw [Appends, pendingBits, pendingBits] at *
  rw [hacc, hidx, hsink]
  exact h

theorem SameButPacker.trans {s t u : State} (h : SameButPacker s t) (h' : SameButPacker t u) :
    SameButPacker s u := by
  rw [SameButPacker] at *
  rw [h', h]

/-! ### The bits of BITACC that are not written -/

/-- Bits below the fill index are no pending bits, so nothing is appended by leaving them alone. -/
theorem LowBitsKept.nil (s : State) : LowBitsKept s s [] := fun i _ => by
  have h := (fullBytes_short (x := pendingBits s)
    (by simp only [pendingBits, pendingOf_length]; omega)).1
  simp [lastAcc, h]

theorem LowBitsKept.of_same {s t : State} (hacc : t.bitacc = s.bitacc) : LowBitsKept s t [] :=
  fun i _ => by
    have h := (fullBytes_short (x := pendingBits s)
      (by simp only [pendingBits, pendingOf_length]; omega)).1
    simp [lastAcc, h, hacc]

/-- No byte is emitted where the bits do not fill one, and the fill index has only gone down. -/
theorem Appends.bitidx_le {s t : State} {bits : List Bool} (h : Appends s t bits)
    (hnone : fullBytes (pendingBits s ++ bits) = []) : t.bitidx.toNat ≤ s.bitidx.toNat := by
  have hrest : restBits (pendingBits s ++ bits) = pendingBits s ++ bits := by
    match hx : pendingBits s ++ bits with
    | [] => rfl
    | [_] => rfl
    | [_, _] => rfl
    | [_, _, _] => rfl
    | [_, _, _, _] => rfl
    | [_, _, _, _, _] => rfl
    | [_, _, _, _, _, _] => rfl
    | [_, _, _, _, _, _, _] => rfl
    | _ :: _ :: _ :: _ :: _ :: _ :: _ :: _ :: _ => simp [hx, fullBytes] at hnone
  have hlen := congrArg List.length (h.2.trans hrest)
  have hs := s.bitidx.isLt
  have ht := t.bitidx.isLt
  simp only [pendingBits, pendingOf_length, List.length_append] at hlen
  omega

theorem LowBitsKept.trans {s t u : State} {a b : List Bool} (hp : t.params = s.params)
    (h : Appends s t a) (h' : Appends t u b) (l : LowBitsKept s t a) (l' : LowBitsKept t u b) :
    LowBitsKept s u (a ++ b) := fun i hi => by
  have hf := (fullBytes_append (pendingBits s ++ a) b).1
  rw [List.append_assoc, ← h.2] at hf
  rw [l' i hi]
  cases hb : (fullBytes (pendingBits t ++ b)).getLast? with
  | none =>
    have hnone := List.getLast?_eq_none_iff.mp hb
    have hle := h'.bitidx_le hnone
    rw [show lastAcc t b = t.bitacc by simp [lastAcc, hb], l i (by omega)]
    simp only [lastAcc, hf, hnone, List.append_nil]
  | some x =>
    have hlast : (fullBytes (pendingBits s ++ (a ++ b))).getLast? = some x := by
      rw [hf, List.getLast?_append, hb]
      rfl
    simp only [lastAcc, hlast, hb, hp]
    cases s.params.padMode <;> rfl

/-! ### A sink that accepts -/

theorem SinkAccepts.mono {m n : Nat} (h : m ≤ n) {k : Sink} (hk : SinkAccepts n k) :
    SinkAccepts m k := by
  induction n generalizing m k with
  | zero =>
    rw [Nat.le_zero.mp h]
    trivial
  | succ n ih =>
    cases m with
    | zero => trivial
    | succ m => exact ⟨hk.1, ih (by omega) hk.2⟩

/-- Whether a sink accepts depends on its draws alone. -/
theorem SinkAccepts.congr {n : Nat} {k k' : Sink} (h : k.oracle = k'.oracle)
    (hk : SinkAccepts n k) : SinkAccepts n k' := by
  induction n generalizing k k' with
  | zero => trivial
  | succ n ih =>
    refine ⟨?_, ih ?_ hk.2⟩
    · rw [Sink.accepts, ← h]
      exact hk.1
    · simp [Sink.drawn, h]

/-- Listed successes are a sink that accepts. -/
theorem sinkAccepts_replicate (n d : Nat) (stream : List Byte) (fl : Bool) (more : List Bool) :
    SinkAccepts n ⟨stream, fl, ⟨List.replicate n true ++ more, d⟩⟩ := by
  induction n with
  | zero => trivial
  | succ n ih => exact ⟨rfl, ih.congr rfl⟩

/-- A byte with its stuffing reaches a sink that accepts. -/
theorem emitByte_go {x : Byte} {s : State} {c : Nat} (h : SinkAccepts (c + 2) s.sink) :
    ∃ k, emitByte x s = .go { s with sink := k } ∧
      k.stream = s.sink.stream ++ stuffed [x] ∧ SinkAccepts c k := by
  have h2 : (s.sink.drawn.append x).accepts = true := h.2.1
  have h3 : SinkAccepts c s.sink.drawn.drawn := h.2.2
  rw [emitByte, sinkWrite_go h.1, Flow.andThen_go]
  by_cases hx : x = 0xFF#8
  · rw [if_pos hx, sinkWrite_go h2]
    refine ⟨_, rfl, ?_, SinkAccepts.congr (k := s.sink.drawn.drawn) rfl h3⟩
    simp [stuffed, hx]
  · rw [if_neg hx]
    refine ⟨_, rfl, ?_, SinkAccepts.congr (k := s.sink.drawn) rfl
      (h.mono (by omega) : SinkAccepts (c + 1) s.sink).2⟩
    simp [stuffed, hx]

/-- One bit appended to a sink that accepts. -/
theorem putBit_go {s : State} {c : Nat} (v : Bool)
    (h : SinkAccepts (c + 2 * ((7 - s.bitidx.toNat + 1) / 8)) s.sink) :
    ∃ t, putBit v s = .go t ∧ SameButPacker s t ∧ Appends s t [v] ∧ LowBitsKept s t [v] ∧
      7 - t.bitidx.toNat = (7 - s.bitidx.toNat + 1) % 8 ∧ SinkAccepts c t.sink := by
  have hlt : s.bitidx.toNat < 8 := s.bitidx.isLt
  simp only [putBit]
  by_cases hz : s.bitidx = 0#3
  · have hz' : (s.bitPlaced v).bitidx = 0 := hz
    have hacc : SinkAccepts (c + 2) (s.bitPlaced v).sink := by
      simpa [hz] using h
    obtain ⟨k, hk, hstream, hdraw⟩ := emitByte_go (x := (s.bitPlaced v).bitacc) hacc
    rw [if_pos hz', hk, Flow.andThen_go]
    obtain ⟨f1, f2⟩ := fullBytes_eight (x := pendingOf s.bitacc 0#3 ++ [v]) (by simp)
    have hb : (s.bitPlaced v).bitacc = byteOfBits (pendingOf s.bitacc 0#3 ++ [v]) := by
      simp only [State.bitPlaced, hz]
      exact setBit_zero _ _
    refine ⟨_, rfl, rfl, ?_, fun i _ => ?_, by simp [hz, State.byteDone], hdraw⟩
    · simp only [Appends, pendingBits, hz, f1, f2]
      refine ⟨?_, rfl⟩
      rw [← hb]
      exact hstream
    · simp only [lastAcc, pendingBits, hz, f1, List.getLast?_singleton, ← hb]
      simp only [State.byteDone]
      cases hm : s.params.padMode <;> simp [State.bitPlaced_params, hm]
  · have hz' : ¬ (s.bitPlaced v).bitidx = 0 := hz
    have hpos : s.bitidx.toNat ≠ 0 := fun h0 => hz (BitVec.eq_of_toNat_eq (by simpa using h0))
    have hsub : (s.bitidx - 1#3).toNat = s.bitidx.toNat - 1 := by
      rw [BitVec.toNat_sub]
      simp only [BitVec.toNat_ofNat]
      omega
    rw [if_neg hz']
    obtain ⟨f1, f2⟩ := fullBytes_short (x := pendingOf s.bitacc s.bitidx ++ [v])
      (by simp only [List.length_append, pendingOf_length, List.length_singleton]; omega)
    refine ⟨_, rfl, rfl, ?_, fun i hi => ?_, ?_, ?_⟩
    · simp only [Appends, pendingBits, f1, f2, stuffed, List.append_nil]
      exact ⟨rfl, pendingOf_setBit _ _ _ hz⟩
    · simp only [lastAcc, pendingBits, f1, List.getLast?_nil]
      exact setBit_below _ _ _ hz i hi
    · change 7 - (s.bitidx - 1#3).toNat = _
      rw [hsub]
      omega
    · exact h.mono (by omega)

/-- n bits appended to a sink that accepts (R240 to R242). -/
theorem putBits_go (v n : Nat) {s : State} {c : Nat}
    (h : SinkAccepts (c + 2 * ((7 - s.bitidx.toNat + n) / 8)) s.sink) :
    ∃ t, putBits v n s = .go t ∧ SameButPacker s t ∧ Appends s t (bitsOf v n) ∧
      LowBitsKept s t (bitsOf v n) ∧
      7 - t.bitidx.toNat = (7 - s.bitidx.toNat + n) % 8 ∧ SinkAccepts c t.sink := by
  induction n generalizing s with
  | zero =>
    refine ⟨s, rfl, rfl, Appends.nil s, LowBitsKept.nil s, by omega, h.mono (by omega)⟩
  | succ n ih =>
    obtain ⟨u, hu, hsame, happ, hlow, hidx, hacc⟩ :=
      putBit_go (s := s) (c := c + 2 * (((7 - s.bitidx.toNat + 1) % 8 + n) / 8)) (v.testBit n)
        (h.mono (by omega))
    rw [← hidx] at hacc
    obtain ⟨t, ht, hsame', happ', hlow', hidx', hacc'⟩ := ih hacc
    have hbits : bitsOf v (n + 1) = [v.testBit n] ++ bitsOf v n := by
      simp [bitsOf, List.range_succ]
    rw [hbits]
    exact ⟨t, by rw [putBits, hu, Flow.andThen_go, ht], hsame.trans hsame', happ.trans happ',
      LowBitsKept.trans (by rw [hsame]) happ happ' hlow hlow', by omega, hacc'⟩

/-! ### Bits in a row, and a sink that refuses -/

/-- PutBits is PutBit for each of its bits in order (R240). -/
theorem putBits_eq_forEach (v n : Nat) (s : State) : putBits v n s = forEach (bitsOf v n) putBit s := by
  induction n generalizing s with
  | zero => rfl
  | succ n ih =>
    rw [putBits, show bitsOf v (n + 1) = v.testBit n :: bitsOf v n by simp [bitsOf, List.range_succ],
      forEach]
    exact congrArg _ (funext ih)

/-- The code of a symbol of a built table goes to the packer bit by bit. -/
theorem emitSymbol_eq_forEach {t run size : Nat} {s : State} {c : HCode} (hv : s.tableValid t = true)
    (hb : s.ht.table t = builtTable t) (hc : Buf.get (run * 16 + size) (builtTable t) = some c) :
    emitSymbol t run size s = forEach (symbolBits t (run * 16 + size)) putBit s := by
  rw [emitSymbol, State.htEntry, if_pos hv, hb, symbolBits, hc]
  exact putBits_eq_forEach _ _ s

/-- So does a value whose symbol has a code. -/
theorem emitValue_eq_forEach {t run : Nat} {n : Int} {s : State} {c : HCode}
    (hv : s.tableValid t = true) (hb : s.ht.table t = builtTable t)
    (hc : Buf.get (run * 16 + vliSize n) (builtTable t) = some c) :
    emitValue t run n s = forEach (valueBits t run n) putBit s := by
  rw [emitValue, emitSymbol_eq_forEach hv hb hc, valueBits, forEach_append]
  exact congrArg _ (funext (putBits_eq_forEach _ _))

theorem Sink.wrote_append (k : Sink) (a b : List Byte) : k.wrote (a ++ b) = (k.wrote a).wrote b :=
  List.foldl_append

theorem Sink.wrote_oracle (k k' : Sink) (h : k.oracle = k'.oracle) (a : List Byte) :
    (k.wrote a).oracle = (k'.wrote a).oracle := by
  induction a generalizing k k' with
  | nil => exact h
  | cons x a ih => exact ih _ _ (by simp [Sink.drawn, h])

/-- A sink that accepts n + m writes accepts m after n bytes. -/
theorem SinkAccepts.wrote {m : Nat} {k : Sink} (a : List Byte) (h : SinkAccepts (a.length + m) k) :
    SinkAccepts m (k.wrote a) := by
  induction a generalizing k with
  | nil => simpa [Sink.wrote] using h
  | cons x a ih =>
    rw [List.length_cons, show a.length + 1 + m = a.length + m + 1 by omega] at h
    exact ih (k := k.drawn.append x) (SinkAccepts.congr (k := k.drawn) rfl h.2)

/-- EmitByte to a sink that takes the byte and its stuffing. -/
theorem emitByte_wrote {x : Byte} {s : State} (h : SinkAccepts (stuffed [x]).length s.sink) :
    emitByte x s = .go { s with sink := s.sink.wrote (stuffed [x]) } := by
  rw [emitByte]
  by_cases hx : x = 0xFF#8
  · simp only [stuffed, hx, if_true] at h ⊢
    rw [sinkWrite_go h.1, Flow.andThen_go, sinkWrite_go h.2.1]
    rfl
  · simp only [stuffed, hx, if_false] at h ⊢
    rw [sinkWrite_go h.1]
    rfl

/-- The first byte that the sink does not take whole ends the course of the bits that fill it (R72, R242,
R306 (c)). -/
theorem forEach_putBit_refused {bits : List Bool} {before after : List Byte} {byte : Byte} {s : State}
    (hf : fullBytes (pendingBits s ++ bits) = before ++ byte :: after)
    (ha : SinkAccepts (stuffed before).length s.sink) :
    let k := s.sink.wrote (stuffed before)
    (k.accepts = false → forEach bits putBit s =
      raise .sinkError (byte.setWidth 32) { s with bitacc := byte, bitidx := 0, sink := k.drawn }) ∧
    (k.accepts = true → byte = 0xFF#8 → k.drawn.accepts = false → forEach bits putBit s =
      raise .sinkError 0 { s with
        bitacc := byte, bitidx := 0, sink := (k.drawn.append byte).drawn }) := by
  induction bits generalizing s before with
  | nil =>
    have h := (fullBytes_short (x := pendingBits s)
      (by simp only [pendingBits, pendingOf_length]; omega)).1
    rw [List.append_nil, h] at hf
    simp at hf
  | cons b bits ih =>
    by_cases hz : s.bitidx = 0#3
    · have hb : (s.bitPlaced b).bitacc = byteOfBits (pendingOf s.bitacc 0#3 ++ [b]) := by
        simp only [State.bitPlaced, hz]
        exact setBit_zero _ _
      obtain ⟨f1, f2⟩ := fullBytes_eight (x := pendingOf s.bitacc 0#3 ++ [b]) (by simp)
      have hsplit := (fullBytes_append (pendingOf s.bitacc 0#3 ++ [b]) bits).1
      rw [List.append_assoc, List.singleton_append] at hsplit
      simp only [pendingBits, hz] at hf
      rw [hsplit, f1, f2, ← hb, List.nil_append, List.singleton_append] at hf
      have hput : putBit b s =
          (emitByte (s.bitPlaced b).bitacc (s.bitPlaced b)).andThen fun s => .go s.byteDone := by
        simp only [putBit]
        exact if_pos hz
      rw [forEach, hput]
      cases before with
      | nil =>
        simp only [List.nil_append, List.cons.injEq] at hf
        obtain ⟨rfl, -⟩ := hf
        have hstate : ∀ k, ({ s with bitacc := (s.bitPlaced b).bitacc, bitidx := 0, sink := k } : State) =
            { s.bitPlaced b with sink := k } := fun k => by
          rw [show (0 : BitVec 3) = s.bitidx from hz.symm]
          rfl
        refine ⟨fun h => ?_, fun h hff h2 => ?_⟩
        · have h' : ¬ (s.bitPlaced b).sink.accepts = true := by
            rw [Bool.not_eq_true]
            exact h
          rw [hstate, emitByte, sinkWrite, if_neg h']
          rfl
        · have h1 : (s.bitPlaced b).sink.accepts = true := h
          have h2' : ¬ ((s.bitPlaced b).sink.drawn.append (s.bitPlaced b).bitacc).accepts = true := by
            rw [Bool.not_eq_true]
            exact h2
          rw [hstate, emitByte, sinkWrite_go h1, Flow.andThen_go, if_pos hff, sinkWrite, if_neg h2']
          rfl
      | cons x before =>
        simp only [List.cons_append, List.cons.injEq] at hf
        obtain ⟨hx, hf⟩ := hf
        have hst : stuffed (x :: before) = stuffed [x] ++ stuffed before := by
          rw [← stuffed_append, List.singleton_append]
        rw [hst, List.length_append] at ha
        rw [hx, emitByte_wrote (s := s.bitPlaced b) (ha.mono (Nat.le_add_right _ _)), Flow.andThen_go,
          Flow.andThen_go]
        have := ih (s := State.byteDone { s.bitPlaced b with sink := s.sink.wrote (stuffed [x]) })
          (before := before) hf (ha.wrote (stuffed [x]))
        rw [hst, Sink.wrote_append]
        exact this
    · have hput : putBit b s =
          .go { s.bitPlaced b with bitidx := (s.bitPlaced b).bitidx - 1 } := by
        simp only [putBit]
        exact if_neg hz
      rw [forEach, hput, Flow.andThen_go]
      refine ih (s := { s.bitPlaced b with bitidx := (s.bitPlaced b).bitidx - 1 }) ?_ ha
      rw [← hf]
      refine congrArg fullBytes ?_
      have := pendingOf_setBit s.bitacc s.bitidx b hz
      change pendingOf (setBit s.bitacc s.bitidx.toNat b) (s.bitidx - 1#3) ++ bits = _
      rw [this, List.append_assoc, List.singleton_append]

/-! ### Whatever the sink answers -/

/-- With PAD_MODE zero, the bits of BITACC from BITIDX down are 0 (R242, R245). -/
def PadClean (s : State) : Prop :=
  s.params.padMode = .zero → s.bitacc.toNat % 2 ^ (s.bitidx.toNat + 1) = 0

theorem setBit_padClean : ∀ (acc : Byte) (idx : BitVec 3) (v : Bool), idx ≠ 0#3 →
    acc.toNat % 2 ^ (idx.toNat + 1) = 0 →
      (setBit acc idx.toNat v).toNat % 2 ^ ((idx - 1#3).toNat + 1) = 0 := by
  decide +kernel

/-- What packing can do to a state: only BITACC, BITIDX and the sink change, the stream grows by
bytes each 0xFF of which is stuffed (R241, R244), and clean pad bits stay clean. -/
def Packed (s t : State) : Prop :=
  SameButPacker s t ∧ (∃ bs, t.sink.stream = s.sink.stream ++ stuffed bs) ∧
    (PadClean s → PadClean t)

/-- What packing leaves when a sink write fails: the packed bytes stay, the last of them perhaps a
0xFF without its 0x00, and SinkError is raised (R300, R306). -/
def PackFailed (s t : State) : Prop :=
  ∃ u info, SameButPacker s u ∧ t = u.raised .sinkError info ∧
    ∃ bs, u.sink.stream = s.sink.stream ++ stuffed bs ∨
      (u.sink.stream = s.sink.stream ++ stuffed bs ++ [0xFF#8] ∧ info = 0)

theorem Packed.refl (s : State) : Packed s s := ⟨rfl, ⟨[], by simp [stuffed]⟩, id⟩

theorem Packed.trans {s t u : State} (h : Packed s t) (h' : Packed t u) : Packed s u := by
  obtain ⟨h1, ⟨bs, h2⟩, h5⟩ := h
  obtain ⟨h3, ⟨cs, h4⟩, h6⟩ := h'
  exact ⟨h1.trans h3, ⟨bs ++ cs, by rw [h4, h2, stuffed_append, List.append_assoc]⟩, h6 ∘ h5⟩

theorem PackFailed.of_packed {s t u : State} (h : Packed s t) (h' : PackFailed t u) :
    PackFailed s u := by
  obtain ⟨h1, ⟨bs, h2⟩, -⟩ := h
  obtain ⟨w, info, h3, h4, cs, h5⟩ := h'
  refine ⟨w, info, h1.trans h3, h4, bs ++ cs, ?_⟩
  simpa [h2, stuffed_append] using h5

theorem PackFailed.mono {s s' t : State} (h1 : SameButPacker s s')
    (h2 : s'.sink.stream = s.sink.stream) (h : PackFailed s' t) : PackFailed s t := by
  obtain ⟨u, info, h3, h4, bs, h5⟩ := h
  exact ⟨u, info, h1.trans h3, h4, bs, by rwa [h2] at h5⟩

/-- EmitByte appends the byte with its stuffing, or fails. -/
theorem emitByte_holds (x : Byte) (s : State) :
    (emitByte x s).Holds
      (fun t => ∃ k, t = { s with sink := k } ∧ k.stream = s.sink.stream ++ stuffed [x])
      (PackFailed s) := by
  rw [emitByte]
  refine Flow.Holds.andThen (G := fun t => t = { s with sink := s.sink.drawn.append x })
    (sinkWrite_holds (fun _ => rfl) fun _ =>
      ⟨{ s with sink := s.sink.drawn }, _, rfl, rfl, [], .inl (by simp [stuffed])⟩) ?_
  rintro t rfl
  split_ifs with hx
  · refine sinkWrite_holds (fun _ => ⟨_, rfl, by simp [stuffed, hx]⟩) fun _ => ?_
    exact ⟨_, _, by rfl, rfl, [], .inr ⟨by simp [stuffed, hx], by simp⟩⟩
  · exact ⟨_, rfl, by simp [stuffed, hx]⟩

theorem State.byteDone_padClean (s : State) : PadClean s.byteDone := fun h => by
  have h' : s.params.padMode = .zero := h
  simp [State.byteDone, h']

theorem putBit_holds (v : Bool) (s : State) : (putBit v s).Holds (Packed s) (PackFailed s) := by
  simp only [putBit]
  split_ifs with hz
  · refine Flow.Holds.andThen ((emitByte_holds _ _).mono (fun t h => h)
      (fun t h => PackFailed.mono rfl rfl h)) ?_
    rintro t ⟨k, rfl, hk⟩
    exact ⟨rfl, ⟨_, hk⟩, fun _ => State.byteDone_padClean _⟩
  · refine ⟨rfl, ⟨[], by simp [stuffed, State.bitPlaced]⟩, fun hc hp => ?_⟩
    exact setBit_padClean _ _ v hz (hc hp)

/-- Everything PutBits can do. -/
theorem putBits_holds (v n : Nat) (s : State) : (putBits v n s).Holds (Packed s) (PackFailed s) := by
  induction n generalizing s with
  | zero => exact Packed.refl s
  | succ n ih =>
    exact (putBit_holds _ s).andThen fun t h =>
      (ih t).mono (fun u h' => h.trans h') (fun u h' => PackFailed.of_packed h h')

/-- Everything FlushBits can do. -/
theorem flushBits_holds (s : State) : (flushBits s).Holds (Packed s) (PackFailed s) := by
  rw [flushBits]
  split_ifs
  · refine (emitByte_holds _ s).andThen ?_
    rintro t ⟨k, rfl, hk⟩
    exact ⟨rfl, ⟨_, hk⟩, fun _ => State.byteDone_padClean _⟩
  · exact Packed.refl s

end Sys2Proof.Machine
end

