-- ==== Sys2Proof/Laws/Bodies.lean ====
section
/-!
SUPPORT. Everything the body of a command can do: what it may change, that it keeps the canonical
form of memory and clean pad bits, and that the stream only grows.
-/

namespace Sys2Proof.Machine

/-! ### Memory keeps its canonical form -/

@[simp] theorem blockOf_length {α : Type} (f : Nat → Nat → α) : (blockOf f).length = 64 := by
  simp [blockOf]

@[simp] theorem zztTable_length : zztTable.length = 64 := rfl

@[simp] theorem unzigzag_length (zs : List Coef) : (unzigzag zs).length = 64 := by
  simp [unzigzag]

@[simp] theorem quantList_length (mode : Config.NumMode) (g k : Nat) (xs : List NumVal)
    (o : Oracle) : (quantList mode g k xs o).1.length = xs.length := by
  induction xs generalizing k o with
  | nil => rfl
  | cons x xs ih => simp [quantList, ih]

@[simp] theorem numElems_length (mode : Config.NumMode) (reals : List NumVal) (free : Nat → NumVal) :
    (numElems mode reals free).length = reals.length := by simp [numElems]

/-- Element k of the elements that take a block's results. -/
@[simp] theorem numElems_getElem? (mode : Config.NumMode) (reals : List NumVal) (free : Nat → NumVal)
    (k : Nat) :
    (numElems mode reals free)[k]? = (reals[k]?).map fun x => numElem mode x (free k) := by
  simp [numElems, List.getElem?_zipIdx, Option.map_map, Function.comp_def]

@[simp] theorem numElem_real (mode : Config.NumMode) (real free : NumVal) :
    (numElem mode real free).real = real := by cases mode <;> rfl

/-- A host write of a `NUM` value is read back as it is (R64, R67). -/
@[simp] theorem NumElem.value_of (mode : Config.NumMode) (x : NumVal) :
    (NumElem.of x).value mode = x := by cases mode <;> rfl

/-- With NUM = Real an element takes the exact result, in both of its values. -/
@[simp] theorem numElem_ofReal (real free : NumVal) : numElem .real real free = .of real := rfl

/-- With NUM = Real the elements are those of the exact results. -/
theorem numElems_ofReal (reals : List NumVal) (free : Nat → NumVal) :
    numElems .real reals free = reals.map NumElem.of := by
  apply List.ext_getElem? fun k => ?_
  simp

theorem memory_wf_iff (s : State) : Memory.wf s = true ↔
    bufWf 384 s.bufS = true ∧ bufWf 384 s.bufF = true ∧ bufWf 384 s.bufQ = true ∧
      bufWf 384 s.bufZ = true ∧ bufWf 384 s.bufR = true ∧ bufWf 256 s.ht.dcLum = true ∧
      bufWf 256 s.ht.dcChr = true ∧ bufWf 256 s.ht.acLum = true ∧ bufWf 256 s.ht.acChr = true := by
  simp only [Memory.wf, Bool.and_eq_true, and_assoc]

theorem memory_wf_setS {s : State} {b : Nat} {xs : List NumElem} (hb : b ≤ 5) (hx : xs.length = 64)
    (h : Memory.wf s = true) : Memory.wf (s.setS b xs) = true := by
  rw [memory_wf_iff] at *
  exact ⟨bufWf_setBlock xs hb hx h.1, h.2⟩

theorem memory_wf_setF {s : State} {b : Nat} {xs : List NumElem} (hb : b ≤ 5) (hx : xs.length = 64)
    (h : Memory.wf s = true) : Memory.wf (s.setF b xs) = true := by
  rw [memory_wf_iff] at *
  exact ⟨h.1, bufWf_setBlock xs hb hx h.2.1, h.2.2⟩

theorem memory_wf_setQ {s : State} {b : Nat} {xs : List Coef} (hb : b ≤ 5) (hx : xs.length = 64)
    (h : Memory.wf s = true) : Memory.wf (s.setQ b xs) = true := by
  rw [memory_wf_iff] at *
  exact ⟨h.1, h.2.1, bufWf_setBlock xs hb hx h.2.2.1, h.2.2.2⟩

theorem memory_wf_setZ {s : State} {b : Nat} {xs : List Coef} (hb : b ≤ 5) (hx : xs.length = 64)
    (h : Memory.wf s = true) : Memory.wf (s.setZ b xs) = true := by
  rw [memory_wf_iff] at *
  exact ⟨h.1, h.2.1, h.2.2.1, bufWf_setBlock xs hb hx h.2.2.2.1, h.2.2.2.2⟩

theorem memory_wf_setR {s : State} {b : Nat} {xs : List NumElem} (hb : b ≤ 5) (hx : xs.length = 64)
    (h : Memory.wf s = true) : Memory.wf (s.setR b xs) = true := by
  rw [memory_wf_iff] at *
  exact ⟨h.1, h.2.1, h.2.2.1, h.2.2.2.1, bufWf_setBlock xs hb hx h.2.2.2.2.1, h.2.2.2.2.2⟩

/-- The tables HTBUILD builds are canonical. -/
theorem builtTable_wf (t : Nat) : bufWf 256 (builtTable t) = true := by
  match t with
  | 0 => decide +kernel
  | 1 => decide +kernel
  | 2 => decide +kernel
  | 3 => decide +kernel
  | n + 4 =>
    unfold builtTable
    rfl

theorem memory_wf_withTable {s : State} (t : Nat) (h : Memory.wf s = true) :
    Memory.wf (s.withTable t) = true := by
  have hb := builtTable_wf t
  rw [memory_wf_iff] at *
  match t with
  | 0 => exact ⟨h.1, h.2.1, h.2.2.1, h.2.2.2.1, h.2.2.2.2.1, hb, h.2.2.2.2.2.2⟩
  | 1 => exact ⟨h.1, h.2.1, h.2.2.1, h.2.2.2.1, h.2.2.2.2.1, h.2.2.2.2.2.1, hb, h.2.2.2.2.2.2.2⟩
  | 2 =>
    exact ⟨h.1, h.2.1, h.2.2.1, h.2.2.2.1, h.2.2.2.2.1, h.2.2.2.2.2.1, h.2.2.2.2.2.2.1, hb,
      h.2.2.2.2.2.2.2.2⟩
  | n + 3 =>
    exact ⟨h.1, h.2.1, h.2.2.1, h.2.2.2.1, h.2.2.2.2.1, h.2.2.2.2.2.1, h.2.2.2.2.2.2.1,
      h.2.2.2.2.2.2.2.1, hb⟩

theorem mcuBlock_length (s : State) (mx my b : Nat) : (mcuBlock s mx my b).length = 64 := by
  simp only [mcuBlock, lumaBlock, cbBlock, crBlock]
  split_ifs <;> exact blockOf_length _

theorem loadedSamples_eq (s : State) (mx my : Nat) :
    loadedSamples s mx my =
      (List.range 6).foldl (fun buf b => Buf.setBlock b (mcuBlock s mx my b) buf) s.bufS := by
  delta loadedSamples
  exact Eq.refl _

/-- Six sample blocks written keep the form of the sample buffers. -/
theorem loadedSamples_wf {s : State} (mx my : Nat) (h : bufWf 384 s.bufS = true) :
    bufWf 384 (loadedSamples s mx my) = true := by
  have hfold : ∀ bs : List Nat, (∀ b ∈ bs, b ≤ 5) → ∀ buf : Buf NumElem, bufWf 384 buf = true →
      bufWf 384 (bs.foldl (fun buf b => Buf.setBlock b (mcuBlock s mx my b) buf) buf) = true := by
    intro bs
    induction bs with
    | nil => exact fun _ buf hw => hw
    | cons b bs ih =>
      intro hb buf hw
      rw [List.foldl_cons]
      exact ih (fun c hc => hb c (by simp [hc])) _
        (bufWf_setBlock _ (hb b (by simp)) (mcuBlock_length s mx my b) hw)
  rw [loadedSamples_eq]
  refine hfold (List.range 6) (fun b hb => ?_) _ h
  have := List.mem_range.mp hb
  omega

theorem memory_wf_mcuLoaded {s : State} (mx my : Nat) (h : Memory.wf s = true) :
    Memory.wf (s.mcuLoaded mx my) = true := by
  rw [memory_wf_iff] at h ⊢
  exact ⟨loadedSamples_wf mx my h.1, h.2⟩

/-- Reset lists nothing. -/
theorem reset_memory_wf : Memory.wf State.reset = true := by decide

/-! ### The bodies of one step -/

theorem fdctBody_holds (b : Nat) (s : State) :
    (fdctBody b s).Holds
      (fun t => ∃ xs r u, xs.length = 64 ∧ s.KeepsUninit u ∧
        t = State.setF { s with reads := r, uninit := u } b xs) (fun _ => False) := by
  rw [fdctBody, readBlock]
  exact readElems_holds fun _ _ _ _ hu => ⟨_, _, _, by simp [fdctElems, fdctBlock], hu, rfl⟩

theorem quantBody_holds (b : Nat) (s : State) :
    (quantBody b s).Holds
      (fun t => ∃ xs o r u, xs.length = 64 ∧ s.KeepsUninit u ∧
        t = State.setQ { s with tie := o, reads := r, uninit := u } b xs)
      (fun t => ∃ o r u info, s.KeepsUninit u ∧
        t = State.raised { s with tie := o, reads := r, uninit := u } .rangeError info) := by
  rw [quantBody, readBlock]
  refine readElems_holds fun xs r u hx hu => ?_
  dsimp only
  split
  · exact ⟨_, _, _, _, hu, rfl⟩
  · exact ⟨_, _, _, _, by simp [hx], hu, rfl⟩

theorem idctBody_holds (b : Nat) (s : State) :
    (idctBody b s).Holds
      (fun t => ∃ xs r u, xs.length = 64 ∧ s.KeepsUninit u ∧
        t = State.setR { s with reads := r, uninit := u } b xs) (fun _ => False) := by
  rw [idctBody, readBlock]
  exact readElems_holds fun _ _ _ _ hu => ⟨_, _, _, by simp [idctElems, idctBlock], hu, rfl⟩

theorem zzBody_holds (b : Nat) (s : State) :
    (zzBody b s).Holds
      (fun t => ∃ xs r u, xs.length = 64 ∧ s.KeepsUninit u ∧
        t = State.setZ { s with reads := r, uninit := u } b xs) (fun _ => False) := by
  rw [zzBody]
  exact readElems_holds fun _ _ _ hx hu => ⟨_, _, _, hx, hu, rfl⟩

theorem unzzBody_holds (b : Nat) (s : State) :
    (unzzBody b s).Holds
      (fun t => ∃ xs r u, xs.length = 64 ∧ s.KeepsUninit u ∧
        t = State.setQ { s with reads := r, uninit := u } b xs) (fun _ => False) := by
  rw [unzzBody, readBlock]
  exact readElems_holds fun _ _ _ _ hu => ⟨_, _, _, by simp, hu, rfl⟩

/-! ### Coding -/

/-- How coding stops: a sink write failed, or a symbol is missing after some packing. -/
def CodeFailed (s t : State) : Prop :=
  PackFailed s t ∨ ∃ u info, Packed s u ∧ t = u.raised .symbolMissing info

theorem CodeFailed.of_packed {s t u : State} (h : Packed s t) (h' : CodeFailed t u) :
    CodeFailed s u := by
  rcases h' with h' | ⟨w, info, h1, h2⟩
  · exact .inl (PackFailed.of_packed h h')
  · exact .inr ⟨w, info, h.trans h1, h2⟩

theorem emitSymbol_holds (t run size : Nat) (s : State) :
    (emitSymbol t run size s).Holds (Packed s) (CodeFailed s) := by
  rw [emitSymbol]
  split
  · exact (putBits_holds _ _ s).mono (fun _ h => h) (fun _ h => .inl h)
  · exact .inr ⟨s, _, Packed.refl s, rfl⟩

theorem emitValue_holds (t run : Nat) (n : Int) (s : State) :
    (emitValue t run n s).Holds (Packed s) (CodeFailed s) :=
  (emitSymbol_holds t run _ s).andThen fun u hu =>
    (putBits_holds _ _ u).mono (fun _ h => hu.trans h) (fun _ h => CodeFailed.of_packed hu (.inl h))

theorem emitAc_holds (t : Nat) (sym : AcSym) (s : State) :
    (emitAc t sym s).Holds (Packed s) (CodeFailed s) := by
  cases sym
  · exact emitSymbol_holds t 15 0 s
  · exact emitValue_holds t _ _ s
  · exact emitSymbol_holds t 0 0 s

/-- Everything the DC step can do: the predictor takes the DC before anything is packed (R306), or,
with nothing changed, the size symbol is missing. -/
theorem dcencBody_holds (b : Nat) (s : State) :
    (dcencBody b s).Holds
      (fun t => ∃ dc r u, s.KeepsUninit u ∧
        Packed (State.setPred { s with reads := r, uninit := u } (slot b) dc) t)
      (fun t => ∃ r u, s.KeepsUninit u ∧
        ((∃ dc, CodeFailed (State.setPred { s with reads := r, uninit := u } (slot b) dc) t) ∨
          ∃ info, t = State.raised { s with reads := r, uninit := u } .symbolMissing info)) := by
  rw [dcencBody]
  refine readElems_holds fun xs r u _ hu => ?_
  dsimp only
  split_ifs
  · exact ⟨_, _, hu, .inr ⟨_, rfl⟩⟩
  · exact (emitValue_holds _ _ _ _).mono (fun _ h => ⟨_, _, _, hu, h⟩)
      (fun _ h => ⟨_, _, hu, .inl ⟨_, h⟩⟩)

/-- Everything the AC step can do. -/
theorem acencBody_holds (b : Nat) (s : State) :
    (acencBody b s).Holds
      (fun t => ∃ r u, s.KeepsUninit u ∧ Packed { s with reads := r, uninit := u } t)
      (fun t => ∃ r u, s.KeepsUninit u ∧ CodeFailed { s with reads := r, uninit := u } t) := by
  rw [acencBody]
  refine readElems_holds fun xs r u _ hu => ?_
  dsimp only
  split
  · exact ⟨r, u, hu, .inr ⟨_, _, Packed.refl _, rfl⟩⟩
  · refine (forEach_holds (I := Packed { s with reads := r, uninit := u })
      (S := CodeFailed { s with reads := r, uninit := u })
      (fun sym _ v hv => ?_) (Packed.refl _)).mono (fun _ h => ⟨r, u, hu, h⟩) (fun _ h => ⟨r, u, hu, h⟩)
    exact (emitAc_holds _ _ v).mono (fun _ h => hv.trans h) (fun _ h => CodeFailed.of_packed hv h)

/-! ### The composite bodies -/

/-- What the pipeline can do to a state: only the MCU position, the predictors, the packer, the stage
buffers S, F, Q and Z, the sink, the draws and the record of an unwritten read change; the stream grows by
stuffed bytes; the pad bits stay clean; memory keeps its form; and a record that there is stays. -/
def Worked (s t : State) : Prop :=
  t = { s with
    mcuX := t.mcuX, mcuY := t.mcuY
    predY := t.predY, predCb := t.predCb, predCr := t.predCr
    bitacc := t.bitacc, bitidx := t.bitidx
    bufS := t.bufS, bufF := t.bufF, bufQ := t.bufQ, bufZ := t.bufZ
    sink := t.sink, tie := t.tie, reads := t.reads, uninit := t.uninit } ∧
  (∃ bs, t.sink.stream = s.sink.stream ++ stuffed bs) ∧
  (PadClean s → PadClean t) ∧ (Memory.wf s = true → Memory.wf t = true) ∧ s.KeepsUninit t.uninit

/-- How the pipeline stops: an error in a state it has worked up to, of which a failed sink write may
have kept the 0x00 after the last 0xFF (R306). -/
def WorkFailed (s t : State) : Prop :=
  ∃ u e info, t = u.raised e info ∧
    u = { s with
      mcuX := t.mcuX, mcuY := t.mcuY
      predY := t.predY, predCb := t.predCb, predCr := t.predCr
      bitacc := t.bitacc, bitidx := t.bitidx
      bufS := t.bufS, bufF := t.bufF, bufQ := t.bufQ, bufZ := t.bufZ
      sink := t.sink, tie := t.tie, reads := t.reads, uninit := t.uninit } ∧
    (∃ bs, t.sink.stream = s.sink.stream ++ stuffed bs ∨
      (t.sink.stream = s.sink.stream ++ stuffed bs ++ [0xFF#8] ∧ e = .sinkError ∧ info = 0)) ∧
    (Memory.wf s = true → Memory.wf u = true) ∧ s.KeepsUninit t.uninit

theorem Worked.refl (s : State) : Worked s s := ⟨rfl, ⟨[], by simp [stuffed]⟩, id, id, .refl s⟩

theorem Worked.trans {s t u : State} (h : Worked s t) (h' : Worked t u) : Worked s u := by
  obtain ⟨h1, ⟨bs, h2⟩, h3, h4, h5⟩ := h
  obtain ⟨k1, ⟨cs, k2⟩, k3, k4, k5⟩ := h'
  refine ⟨?_, ⟨bs ++ cs, by rw [k2, h2, stuffed_append, List.append_assoc]⟩, k3 ∘ h3, k4 ∘ h4,
    h5.trans k5⟩
  rw [k1, h1]

theorem WorkFailed.of_worked {s t u : State} (h : Worked s t) (h' : WorkFailed t u) :
    WorkFailed s u := by
  obtain ⟨h1, ⟨bs, h2⟩, -, h4, h5⟩ := h
  obtain ⟨w, e, info, k1, k2, ⟨cs, k3⟩, k4, k5⟩ := h'
  refine ⟨w, e, info, k1, ?_, ⟨bs ++ cs, ?_⟩, k4 ∘ h4, h5.trans k5⟩
  · rw [k2, h1]
  · simpa [h2, stuffed_append] using k3

theorem Packed.worked {s t : State} (h : Packed s t) : Worked s t := by
  obtain ⟨h1, h2, h3⟩ := h
  refine ⟨?_, h2, h3, fun hw => ?_, fun _ => ?_⟩
  · rw [h1]
  · rw [h1]
    exact hw
  · rw [h1]

theorem PackFailed.workFailed {s t : State} (h : PackFailed s t) : WorkFailed s t := by
  obtain ⟨u, info, h1, rfl, bs, h2⟩ := h
  refine ⟨u, _, info, rfl, ?_, ⟨bs, ?_⟩, fun hw => ?_, fun _ => ?_⟩
  · rw [h1]
    rfl
  · exact h2.imp id fun h => ⟨h.1, rfl, h.2⟩
  · rw [h1]
    exact hw
  · rw [h1]
    rfl

theorem WorkFailed.raised {s u : State} (h : Worked s u) (e : ErrorKind) (info : Word) :
    WorkFailed s (u.raised e info) := by
  obtain ⟨h1, ⟨bs, h2⟩, -, h4, h5⟩ := h
  exact ⟨u, e, info, rfl, h1, ⟨bs, .inl h2⟩, h4, h5⟩

theorem CodeFailed.workFailed {s t : State} (h : CodeFailed s t) : WorkFailed s t := by
  rcases h with h | ⟨u, info, h, rfl⟩
  · exact h.workFailed
  · exact WorkFailed.raised h.worked _ _

theorem Worked.setPred (s : State) (sl : Slot) (v : Coef) : Worked s (s.setPred sl v) := by
  cases sl <;> exact ⟨rfl, ⟨[], by simp [stuffed, State.setPred]⟩, id, id, .refl s⟩

/-- A read leaves a draw taken, and a record. -/
theorem Worked.setReads {s : State} {u : Option Location} (r : Nat) (h : s.KeepsUninit u) :
    Worked s { s with reads := r, uninit := u } := ⟨rfl, ⟨[], by simp [stuffed]⟩, id, id, h⟩

theorem Worked.setTie (s : State) (o : Oracle) : Worked s { s with tie := o } :=
  ⟨rfl, ⟨[], by simp [stuffed]⟩, id, id, .refl s⟩

theorem Worked.setF (s : State) {b : Nat} {xs : List NumElem} (hb : b ≤ 5) (hx : xs.length = 64) :
    Worked s (s.setF b xs) := ⟨rfl, ⟨[], by simp [stuffed]⟩, id, memory_wf_setF hb hx, .refl s⟩

theorem Worked.setQ (s : State) {b : Nat} {xs : List Coef} (hb : b ≤ 5) (hx : xs.length = 64) :
    Worked s (s.setQ b xs) := ⟨rfl, ⟨[], by simp [stuffed]⟩, id, memory_wf_setQ hb hx, .refl s⟩

theorem Worked.setZ (s : State) {b : Nat} {xs : List Coef} (hb : b ≤ 5) (hx : xs.length = 64) :
    Worked s (s.setZ b xs) := ⟨rfl, ⟨[], by simp [stuffed]⟩, id, memory_wf_setZ hb hx, .refl s⟩

/-- Everything BLKENC's body can do. -/
theorem blkencBody_holds {b : Nat} (hb : b ≤ 5) (s : State) :
    (blkencBody b s).Holds (Worked s) (WorkFailed s) := by
  have then_ : ∀ {x : State → Flow} {u : State}, Worked s u →
      (x u).Holds (Worked u) (WorkFailed u) → (x u).Holds (Worked s) (WorkFailed s) :=
    fun hu h => h.mono (fun _ k => hu.trans k) (fun _ k => WorkFailed.of_worked hu k)
  refine Flow.Holds.andThen (G := Worked s) ((fdctBody_holds b s).mono ?_ (fun _ h => h.elim))
    fun u hu => Flow.Holds.andThen (G := Worked s) (then_ (x := quantBody b) hu
      ((quantBody_holds b u).mono ?_ ?_)) fun u hu => Flow.Holds.andThen (G := Worked s)
      (then_ (x := zzBody b) hu ((zzBody_holds b u).mono ?_ (fun _ h => h.elim))) fun u hu =>
      Flow.Holds.andThen (G := Worked s) (then_ (x := dcencBody b) hu
        ((dcencBody_holds b u).mono ?_ ?_)) fun u hu =>
        then_ (x := acencBody b) hu ((acencBody_holds b u).mono ?_ ?_)
  · rintro _ ⟨xs, r, v, hx, hv, rfl⟩
    exact (Worked.setReads r hv).trans (Worked.setF _ hb hx)
  · rintro _ ⟨xs, o, r, v, hx, hv, rfl⟩
    exact ((Worked.setReads r hv).trans (Worked.setTie _ o)).trans (Worked.setQ _ hb hx)
  · rintro _ ⟨o, r, v, info, hv, rfl⟩
    exact WorkFailed.raised ((Worked.setReads r hv).trans (Worked.setTie _ o)) _ _
  · rintro _ ⟨xs, r, v, hx, hv, rfl⟩
    exact (Worked.setReads r hv).trans (Worked.setZ _ hb hx)
  · rintro _ ⟨dc, r, v, hv, h⟩
    exact ((Worked.setReads r hv).trans (Worked.setPred _ _ dc)).trans h.worked
  · rintro _ ⟨r, v, hv, ⟨dc, h⟩ | ⟨info, rfl⟩⟩
    · exact WorkFailed.of_worked ((Worked.setReads r hv).trans (Worked.setPred _ _ dc)) h.workFailed
    · exact WorkFailed.raised (Worked.setReads r hv) _ _
  · rintro _ ⟨r, v, hv, h⟩
    exact (Worked.setReads r hv).trans h.worked
  · rintro _ ⟨r, v, hv, h⟩
    exact WorkFailed.of_worked (Worked.setReads r hv) h.workFailed

theorem mcuLoaded_worked (s : State) (mx my : Nat) : Worked s (s.mcuLoaded mx my) :=
  ⟨rfl, ⟨[], by simp [stuffed, State.mcuLoaded]⟩, id, memory_wf_mcuLoaded mx my, .refl s⟩

/-- Everything ENCMCU's body can do. -/
theorem encmcuBody_holds (mx my : Nat) (s : State) :
    (encmcuBody mx my s).Holds (Worked s) (WorkFailed s) := by
  rw [encmcuBody, mculoadBody, Flow.andThen_go]
  refine forEach_holds (fun b hb u hu => ?_) (mcuLoaded_worked s mx my)
  exact (blkencBody_holds (by simp only [List.mem_range] at hb; omega) u).mono
    (fun _ h => hu.trans h) (fun _ h => WorkFailed.of_worked hu h)

/-- Everything ENCIMG's body can do: at its end DONE is set. -/
theorem encimgBody_holds (s : State) :
    (encimgBody s).Holds (fun t => ∃ u, Worked s u ∧ t = u.setDone true) (WorkFailed s) := by
  refine (forEach_holds (I := Worked s) (fun m _ u hu => ?_) (Worked.refl s)).andThen fun u hu => ?_
  · exact (encmcuBody_holds _ _ u).mono (fun _ h => hu.trans h)
      (fun _ h => WorkFailed.of_worked hu h)
  · exact ((flushBits_holds u).mono (fun _ h => hu.trans h.worked)
      (fun _ h => WorkFailed.of_worked hu h.workFailed)).andThen fun v hv => ⟨v, hv, rfl⟩

end Sys2Proof.Machine
end

