-- ==== Sys2Proof/Laws/HostAccess.lean ====
section
/-!
SUPPORT. Laws of the host's accesses: the address map and the canonical form of memory.
-/

namespace Sys2Proof.Machine

/-- An element of a stage buffer that the address map names is one of its 384 (R61). -/
theorem region_buf_lt (a : Addr) {i : Nat}
    (h : region a = .bufS i ∨ region a = .bufF i ∨ region a = .bufQ i ∨ region a = .bufZ i ∨
      region a = .bufR i) : i < 384 := by
  rw [region] at h
  split at h
  · simp at h
  iterate 5
    split at h
    · simp at h
      omega
  iterate 5
    split at h
    · simp at h
  simp at h

/-- The element a stage-buffer address names (R61). -/
theorem region_stage {base b k : Nat} (hb : b ≤ 5) (hk : k < 64)
    (hbase : base ≤ 0x1800) : (BitVec.ofNat 16 (base + 64 * b + k)).toNat = base + elemIndex b k := by
  simp only [BitVec.toNat_ofNat, elemIndex]
  omega

theorem region_S {b k : Nat} (hb : b ≤ 5) (hk : k < 64) :
    region (BitVec.ofNat 16 (0x1000 + 64 * b + k)) = .bufS (elemIndex b k) := by
  rw [region, region_stage hb hk (by omega), elemIndex]
  rw [if_neg (by omega), if_pos (by omega)]
  exact congrArg Region.bufS (by omega)

theorem region_F {b k : Nat} (hb : b ≤ 5) (hk : k < 64) :
    region (BitVec.ofNat 16 (0x1200 + 64 * b + k)) = .bufF (elemIndex b k) := by
  rw [region, region_stage hb hk (by omega), elemIndex]
  rw [if_neg (by omega), if_neg (by omega), if_pos (by omega)]
  exact congrArg Region.bufF (by omega)

theorem region_Q {b k : Nat} (hb : b ≤ 5) (hk : k < 64) :
    region (BitVec.ofNat 16 (0x1400 + 64 * b + k)) = .bufQ (elemIndex b k) := by
  rw [region, region_stage hb hk (by omega), elemIndex]
  rw [if_neg (by omega), if_neg (by omega), if_neg (by omega), if_pos (by omega)]
  exact congrArg Region.bufQ (by omega)

theorem region_Z {b k : Nat} (hb : b ≤ 5) (hk : k < 64) :
    region (BitVec.ofNat 16 (0x1600 + 64 * b + k)) = .bufZ (elemIndex b k) := by
  rw [region, region_stage hb hk (by omega), elemIndex]
  rw [if_neg (by omega), if_neg (by omega), if_neg (by omega), if_neg (by omega), if_pos (by omega)]
  exact congrArg Region.bufZ (by omega)

theorem region_R {b k : Nat} (hb : b ≤ 5) (hk : k < 64) :
    region (BitVec.ofNat 16 (0x1800 + 64 * b + k)) = .bufR (elemIndex b k) := by
  rw [region, region_stage hb hk (by omega), elemIndex]
  rw [if_neg (by omega), if_neg (by omega), if_neg (by omega), if_neg (by omega), if_neg (by omega), if_pos (by omega)]
  exact congrArg Region.bufR (by omega)

/-- A written element reads as what it holds. -/
@[simp] theorem State.readElem_some {α : Type} (s : State) (kind : ElemKind α) (f : α → BusValue)
    (i : Nat) (x : α) : s.readElem kind f i (some x) = f x := rfl

/-- An element, written or not, reads as some value of its kind (R44). -/
theorem State.readElem_value {α : Type} (s : State) (kind : ElemKind α) (f : α → BusValue) (i : Nat)
    (e : Option α) : ∃ x, s.readElem kind f i e = f x := ⟨_, rfl⟩

/-- What a host read leaves of the rest of the state: all of it, but the draws and the record (R44, R62). -/
theorem State.hostReadAt_eq (s : State) (a : Addr) :
    s.hostReadAt a = { s with
      reads := (s.hostReadAt a).reads, uninit := s.uninit.or (s.unwrittenAt a) } := by
  rw [State.hostReadAt]
  cases s.unwrittenAt a <;> simp [State.unwrittenRead]

/-- A read of what is written leaves everything (R62). -/
theorem State.hostReadAt_written {s : State} {a : Addr} (h : s.unwrittenAt a = none) :
    s.hostReadAt a = s := by rw [State.hostReadAt, h]

/-- A read of an unwritten element takes a draw and records it (R44). -/
theorem State.hostReadAt_unwritten {s : State} {a : Addr} {loc : Location}
    (h : s.unwrittenAt a = some loc) : s.hostReadAt a = s.unwrittenRead loc := by
  rw [State.hostReadAt, h]

/-- A host write that issues no command keeps the form of memory. -/
theorem hostWrite_memory_wf {a : Addr} {v : BusValue} {s t : State} (ha : region a ≠ .csr 0)
    (hw : Memory.wf s = true) (h : hostWrite a v s = .next t) : Memory.wf t = true := by
  have hlt := fun i => region_buf_lt a (i := i)
  rw [memory_wf_iff] at hw
  simp only [hostWrite] at h
  split at h <;> rename_i heq
  · simp only [writeCsr] at h
    split at h
    · exact absurd heq ha
    all_goals
      rw [Host.Outcome.next.injEq] at h
      subst h
      exact (memory_wf_iff _).mpr hw
  case h_12 => simp at h
  all_goals
    rw [Host.Outcome.next.injEq] at h
    subst h
    rw [memory_wf_iff]
  · exact ⟨bufWf_set _ (hlt _ (by simp [heq])) hw.1, hw.2⟩
  · exact ⟨hw.1, bufWf_set _ (hlt _ (by simp [heq])) hw.2.1, hw.2.2⟩
  · exact ⟨hw.1, hw.2.1, bufWf_set _ (hlt _ (by simp [heq])) hw.2.2.1, hw.2.2.2⟩
  · exact ⟨hw.1, hw.2.1, hw.2.2.1, bufWf_set _ (hlt _ (by simp [heq])) hw.2.2.2.1, hw.2.2.2.2⟩
  · exact ⟨hw.1, hw.2.1, hw.2.2.1, hw.2.2.2.1, bufWf_set _ (hlt _ (by simp [heq])) hw.2.2.2.2.1,
      hw.2.2.2.2.2⟩
  all_goals exact hw

theorem inited_memory_wf {s : State} (h : Memory.wf s = true) : Memory.wf s.inited = true :=
  (memory_wf_withTable 3 (memory_wf_withTable 2 (memory_wf_withTable 1
    (memory_wf_withTable 0 h))) : Memory.wf ((((s.withTable 0).withTable 1).withTable 2).withTable 3) = true)

theorem hardReset_memory_wf (s : State) : Memory.wf s.hardReset = true := rfl

/-- A step takes the host's next access. -/
theorem step_cons {s : State} {op : HostOp} {rest : List HostOp} (h : s.host = op :: rest) :
    step s = hostStep op { s with host := rest } := by
  rw [step, h]

/-- With no access pending, the core waits (R341). -/
theorem step_nil {s : State} (h : s.host = []) : step s = .next s := by
  rw [step, h]

/-- An access that issues a word issues it. -/
theorem hostStep_issues {op : HostOp} {w : Word} (h : Issues op w) (s : State) :
    hostStep op s = issue w s := by
  obtain ⟨v, rfl, rfl⟩ := h
  rfl

end Sys2Proof.Machine
end

