-- ==== Sys2Proof/Laws/NumReal.lean ====
section
/-!
SUPPORT. NUM values are exact: each operation of Machine/NumVal.lean computes on the real numbers
that the values denote (00_scope.md R12, R13), and `floor`, comparison and `round_hu` are right. That it
is so in the field of cos(π/16) is Machine/CosReal.lean's.
-/

namespace Sys2Proof

open Real

/-! ### Multiples of the numbers outside the field -/

/-- The real number a list of multiples of ρ₀, ρ₁, … denotes. -/
noncomputable def othersReal (xs : List (Nat × CosNum)) : ℝ :=
  (xs.map fun p => p.2.toReal * otherReal p.1).sum

@[simp] theorem othersReal_nil : othersReal [] = 0 := rfl

@[simp] theorem othersReal_cons (p : Nat × CosNum) (xs : List (Nat × CosNum)) :
    othersReal (p :: xs) = p.2.toReal * otherReal p.1 + othersReal xs := by simp [othersReal]

theorem NumVal.toReal_eq (x : NumVal) : x.toReal = x.inField.toReal + othersReal x.others := rfl

@[simp] theorem othersReal_consOther (i : Nat) (c : CosNum) (xs : List (Nat × CosNum)) :
    othersReal (consOther i c xs) = c.toReal * otherReal i + othersReal xs := by
  rw [consOther]
  split_ifs with h
  · simp [h]
  · simp

@[simp] theorem othersReal_addOther (i : Nat) (c : CosNum) (xs : List (Nat × CosNum)) :
    othersReal (addOther i c xs) = c.toReal * otherReal i + othersReal xs := by
  induction xs with
  | nil => simp [addOther]
  | cons p rest ih =>
    obtain ⟨j, d⟩ := p
    rw [addOther]
    split_ifs with h1 h2
    · simp
    · subst h2
      simp
      ring
    · simp [ih]
      ring

/-- Adding multiples changed by a map that multiplies by r. -/
theorem othersReal_addOthers {f : CosNum → CosNum} {r : ℝ} (hf : ∀ c, (f c).toReal = r * c.toReal)
    (xs acc : List (Nat × CosNum)) :
    othersReal (addOthers f xs acc) = r * othersReal xs + othersReal acc := by
  induction xs with
  | nil => simp [addOthers]
  | cons p rest ih =>
    simp [addOthers, ih, hf]
    ring

/-! ### Sums and products -/

@[simp] theorem NumVal.toReal_ofField (x : CosNum) : (NumVal.ofField x).toReal = x.toReal := by
  simp [NumVal.toReal_eq, NumVal.ofField]

@[simp] theorem NumVal.toReal_ofRat (q : Rat) : (NumVal.ofRat q).toReal = q := by
  simp [NumVal.ofRat]

@[simp] theorem NumVal.toReal_ofInt (z : Int) : (NumVal.ofInt z).toReal = z := by
  simp [NumVal.ofInt]

@[simp] theorem NumVal.toReal_zero : NumVal.zero.toReal = 0 := by simp [NumVal.zero]

@[simp] theorem NumVal.toReal_add (x y : NumVal) : (x.add y).toReal = x.toReal + y.toReal := by
  simp only [NumVal.toReal_eq, NumVal.add, CosNum.toReal_add,
    othersReal_addOthers (f := id) (r := 1) (by simp)]
  ring

@[simp] theorem NumVal.toReal_scale (q : Rat) (x : NumVal) :
    (x.scale q).toReal = q * x.toReal := by
  simp only [NumVal.toReal_eq, NumVal.scale, CosNum.toReal_scale,
    othersReal_addOthers (CosNum.toReal_scale q), othersReal_nil]
  ring

@[simp] theorem NumVal.toReal_sub (x y : NumVal) : (x.sub y).toReal = x.toReal - y.toReal := by
  simp [NumVal.sub]
  ring

/-- The product with cos(kπ/16) is exact. -/
@[simp] theorem NumVal.toReal_mulCos (k : Nat) (x : NumVal) :
    (x.mulCos k).toReal = x.toReal * cos (k * π / 16) := by
  simp only [NumVal.toReal_eq, NumVal.mulCos, CosNum.toReal_mulCos, othersReal_nil,
    othersReal_addOthers (f := CosNum.mulCos k) (r := cos (k * π / 16))
      (fun c => by rw [CosNum.toReal_mulCos, mul_comm])]
  ring

@[simp] theorem toReal_sum8 (g : Nat → NumVal) :
    (sum8 g).toReal = ∑ i ∈ Finset.range 8, (g i).toReal := by
  simp [sum8, Finset.sum_range_succ]

/-! ### Comparison, floor -/

/-- `floor` is the floor of the real number (R12). -/
theorem NumVal.floor_eq (x : NumVal) : x.floor = ⌊x.toReal⌋ := by
  rw [NumVal.floor]
  split
  · rename_i h
    rw [CosNum.floor_eq, NumVal.toReal_eq, h]
    simp
  · exact Classical.choose_spec Config.otherReals.exact x

theorem NumVal.isNeg_iff (x : NumVal) : x.isNeg = true ↔ x.toReal < 0 := by
  rw [NumVal.isNeg]
  split
  · rename_i h
    have hr : x.toReal = x.inField.toReal := by rw [NumVal.toReal_eq, h]; simp
    rw [hr, decide_eq_true_eq]
    exact x.inField.isSign_sign.neg_iff
  · rw [decide_eq_true_eq, NumVal.floor_eq, Int.floor_lt]
    simp

/-- `lt` is the order of the reals. -/
theorem NumVal.lt_iff (x y : NumVal) : x.lt y = true ↔ x.toReal < y.toReal := by
  rw [NumVal.lt, NumVal.isNeg_iff, toReal_sub, sub_neg]

/-- `round_hu(x) = floor(x + 1/2)` (R13). -/
theorem roundHu_eq (x : NumVal) : roundHu x = ⌊x.toReal + 1 / 2⌋ := by
  rw [roundHu, NumVal.floor_eq]
  simp

/-- `clamp` on integer bounds lo ≤ hi is min(max(x, lo), hi) (R12). -/
theorem NumVal.toReal_clamp (x : NumVal) (lo hi : Int) (h : lo ≤ hi) :
    (x.clamp lo hi).toReal = min (max x.toReal lo) hi := by
  have hr : (lo : ℝ) ≤ hi := by exact_mod_cast h
  rw [NumVal.clamp]
  split_ifs with h1 h2
  · rw [NumVal.lt_iff, toReal_ofInt] at h1
    rw [toReal_ofInt, max_eq_right h1.le, min_eq_left hr]
  · rw [NumVal.lt_iff, toReal_ofInt] at h2
    rw [toReal_ofInt, max_eq_left (hr.trans h2.le), min_eq_right h2.le]
  · rw [NumVal.lt_iff, toReal_ofInt, not_lt] at h1 h2
    rw [max_eq_left h1, min_eq_left h2]

end Sys2Proof
end

