-- ==== Sys2Proof/Laws/PerInstr.lean ====
section
/-!
SUPPORT. Statements made once per command, about its form: OpcodeField says that the top byte of the
command word is the command's opcode (30_encoding.md R91, R98).
-/

namespace Sys2Proof.Laws.OpcodeField

/-- The top byte of a well-formed command's word is its opcode, and the operands lie below it. -/
def Statement (i : Instr) : Prop :=
  i.WellFormed → field (encode i) 31 24 = i.opcode ∧ field (encode i) 23 0 = i.operands

/-- A word laid out as an opcode above a 24-bit operand field reads back as both. -/
theorem of_layout {i : Instr} (hop : i.opcode < 256) (hargs : i.operands < 2 ^ 24) :
    field (encode i) 31 24 = i.opcode ∧ field (encode i) 23 0 = i.operands := by
  simp only [field, encode, BitVec.toNat_ofNat]
  omega

theorem nop : Statement .nop := fun _ => of_layout (by decide) (by decide)
theorem init : Statement .init := fun _ => of_layout (by decide) (by decide)
theorem flush : Statement .flush := fun _ => of_layout (by decide) (by decide)
theorem encimg : Statement .encimg := fun _ => of_layout (by decide) (by decide)

theorem htbuild (t : Nat) : Statement (.htbuild t) := fun h =>
  of_layout (by simp [Instr.opcode]) (by simp only [Instr.operands]; omega)

theorem csc (r g b : Nat) : Statement (.csc r g b) := fun h =>
  of_layout (by simp [Instr.opcode]) (by obtain ⟨h1, h2, h3⟩ := h; simp only [Instr.operands]; omega)

theorem mcuload (mx my : Nat) : Statement (.mcuload mx my) := fun h =>
  of_layout (by simp [Instr.opcode]) (by obtain ⟨h1, h2⟩ := h; simp only [Instr.operands]; omega)

theorem encmcu (mx my : Nat) : Statement (.encmcu mx my) := fun h =>
  of_layout (by simp [Instr.opcode]) (by obtain ⟨h1, h2⟩ := h; simp only [Instr.operands]; omega)

theorem fdct (b : Nat) : Statement (.fdct b) := fun h =>
  of_layout (by simp [Instr.opcode]) (by simp only [Instr.operands]; omega)

theorem quant (b : Nat) : Statement (.quant b) := fun h =>
  of_layout (by simp [Instr.opcode]) (by simp only [Instr.operands]; omega)

theorem idct (b : Nat) : Statement (.idct b) := fun h =>
  of_layout (by simp [Instr.opcode]) (by simp only [Instr.operands]; omega)

theorem zz (b : Nat) : Statement (.zz b) := fun h =>
  of_layout (by simp [Instr.opcode]) (by simp only [Instr.operands]; omega)

theorem unzz (b : Nat) : Statement (.unzz b) := fun h =>
  of_layout (by simp [Instr.opcode]) (by simp only [Instr.operands]; omega)

theorem dcenc (b : Nat) : Statement (.dcenc b) := fun h =>
  of_layout (by simp [Instr.opcode]) (by simp only [Instr.operands]; omega)

theorem acenc (b : Nat) : Statement (.acenc b) := fun h =>
  of_layout (by simp [Instr.opcode]) (by simp only [Instr.operands]; omega)

theorem blkenc (b : Nat) : Statement (.blkenc b) := fun h =>
  of_layout (by simp [Instr.opcode]) (by simp only [Instr.operands]; omega)

theorem putbits (n : Nat) (v : BitVec 16) : Statement (.putbits n v) := fun h =>
  of_layout (by simp [Instr.opcode])
    (by have := v.isLt; have : n < 32 := h; simp only [Instr.operands]; omega)

end Sys2Proof.Laws.OpcodeField
end

