-- ==== Sys2Proof/Laws/Unread.lean ====
section
/-!
SUPPORT. What coding does not read: an update of the state that leaves alone what the packer, the coder
and the errors read and write commutes with them. So a command that has read its source block behaves
the same whatever else the source buffer, the count of draws or the record of an
unwritten read holds.
-/

namespace Sys2Proof.Machine

/-- The course with its states updated by g. -/
def Flow.map (g : State → State) : Flow → Flow
  | .go s => .go (g s)
  | .stop s => .stop (g s)

@[simp] theorem Flow.map_go (g : State → State) (s : State) : (Flow.go s).map g = .go (g s) := rfl
@[simp] theorem Flow.map_stop (g : State → State) (s : State) : (Flow.stop s).map g = .stop (g s) := rfl

/-- Parts that commute with g compose. -/
theorem Flow.map_andThen {g : State → State} {x y : Flow} {f f' : State → Flow} (hx : y = x.map g)
    (hf : ∀ s, f' (g s) = (f s).map g) : y.andThen f' = (x.andThen f).map g := by
  subst hx
  cases x
  · exact hf _
  · rfl

/-- The outcome of the updated course is the outcome updated. -/
@[simp] theorem Flow.result_map (g : State → State) (x : Flow) :
    (x.map g).result = .next (g x.state) := by cases x <;> rfl

/-- An update of what coding does not read: the buffers S and Z, the count of draws, and the record of
an unwritten read. -/
def State.touch (fS : Buf NumElem → Buf NumElem) (fZ : Buf Coef → Buf Coef) (r : Nat) (o : Option Location)
    (s : State) : State :=
  { s with bufS := fS s.bufS, bufZ := fZ s.bufZ, reads := r, uninit := o }

variable (fS : Buf NumElem → Buf NumElem) (fZ : Buf Coef → Buf Coef) (r : Nat)
  (o : Option Location)

theorem raise_touch (e : ErrorKind) (info : Word) (s : State) :
    raise e info (s.touch fS fZ r o) = (raise e info s).map (State.touch fS fZ r o) := rfl

theorem sinkWrite_touch (x : Byte) (s : State) :
    sinkWrite x (s.touch fS fZ r o) = (sinkWrite x s).map (State.touch fS fZ r o) := by
  rw [sinkWrite, sinkWrite, show (s.touch fS fZ r o).sink = s.sink from rfl]
  split_ifs <;> rfl

theorem emitByte_touch (x : Byte) (s : State) :
    emitByte x (s.touch fS fZ r o) = (emitByte x s).map (State.touch fS fZ r o) := by
  rw [emitByte, emitByte]
  refine Flow.map_andThen (sinkWrite_touch fS fZ r o x s) fun t => ?_
  split_ifs
  · exact sinkWrite_touch fS fZ r o _ t
  · rfl

theorem putBit_touch (v : Bool) (s : State) :
    putBit v (s.touch fS fZ r o) = (putBit v s).map (State.touch fS fZ r o) := by
  simp only [putBit]
  rw [show (s.touch fS fZ r o).bitPlaced v = (s.bitPlaced v).touch fS fZ r o from rfl,
    show ((s.bitPlaced v).touch fS fZ r o).bitidx = (s.bitPlaced v).bitidx from rfl,
    show ((s.bitPlaced v).touch fS fZ r o).bitacc = (s.bitPlaced v).bitacc from rfl]
  split_ifs
  · exact Flow.map_andThen (emitByte_touch fS fZ r o _ _) fun t => rfl
  · rfl

theorem putBits_touch (v n : Nat) (s : State) :
    putBits v n (s.touch fS fZ r o) = (putBits v n s).map (State.touch fS fZ r o) := by
  induction n generalizing s with
  | zero => rfl
  | succ n ih => exact Flow.map_andThen (putBit_touch fS fZ r o _ s) ih

theorem emitSymbol_touch (t run size : Nat) (s : State) :
    emitSymbol t run size (s.touch fS fZ r o) =
      (emitSymbol t run size s).map (State.touch fS fZ r o) := by
  rw [emitSymbol, emitSymbol, show (s.touch fS fZ r o).htEntry t (run * 16 + size) =
    s.htEntry t (run * 16 + size) from rfl]
  split
  · exact putBits_touch fS fZ r o _ _ s
  · rfl

theorem emitValue_touch (t run : Nat) (n : Int) (s : State) :
    emitValue t run n (s.touch fS fZ r o) = (emitValue t run n s).map (State.touch fS fZ r o) :=
  Flow.map_andThen (emitSymbol_touch fS fZ r o t run _ s) (putBits_touch fS fZ r o _ _)

theorem emitAc_touch (t : Nat) (sym : AcSym) (s : State) :
    emitAc t sym (s.touch fS fZ r o) = (emitAc t sym s).map (State.touch fS fZ r o) := by
  cases sym
  · exact emitSymbol_touch fS fZ r o t 15 0 s
  · exact emitValue_touch fS fZ r o t _ _ s
  · exact emitSymbol_touch fS fZ r o t 0 0 s

theorem forEach_touch {α : Type} {f : α → State → Flow}
    (hf : ∀ x s, f x (s.touch fS fZ r o) = (f x s).map (State.touch fS fZ r o)) (xs : List α) (s : State) :
    forEach xs f (s.touch fS fZ r o) = (forEach xs f s).map (State.touch fS fZ r o) := by
  induction xs generalizing s with
  | nil => rfl
  | cons x rest ih => exact Flow.map_andThen (hf x s) ih

/-- The checks read nothing that the update touches. -/
theorem checkTables_touch (ts : List Nat) (s : State) :
    checkTables ts (s.touch fS fZ r o) = (checkTables ts s).map (State.touch fS fZ r o) := by
  rw [checkTables, checkTables, show (s.touch fS fZ r o).tableValid = s.tableValid from rfl]
  split <;> rfl

end Sys2Proof.Machine
end

