-- ==== Sys2Proof/Tests/Slice0.lean ====
section
/-!
SUPPORT. Small tests, each about one step, with expected results from spec/95_test_vectors.md and the
rules' own examples; and a witness for the hypotheses of every statement that has some.
-/

namespace Sys2Proof.Tests

open Sys2Proof Sys2Proof.Machine

-- One theorem at a time: a file of many evaluations would else start a thread for each.
set_option Elab.async false

/-! ### Helpers -/

/-- The outcome is a next state with this property. -/
def nextIs (r : Result) (p : State → Bool) : Bool :=
  match r with
  | .next t => p t
  | .fault _ => false
  | .refused _ => false

/-- The outcome is this fault. -/
def faultIs (r : Result) (f : Fault) : Bool :=
  match r with
  | .fault g => f == g
  | .next _ => false
  | .refused _ => false

theorem exists_of_nextIs {r : Result} {p : State → Bool} (h : nextIs r p = true) :
    ∃ t, r = .next t ∧ p t = true := by
  cases r with
  | next t => exact ⟨t, rfl, h⟩
  | fault _ => simp [nextIs] at h
  | refused _ => simp [nextIs] at h

/-- A block of 64 elements by index. -/
def block {α : Type} (f : Nat → α) : List α := (List.range 64).map f

theorem block_get {α : Type} (f : Nat → α) {k : Nat} (hk : k < 64) : (block f)[k]? = some (f k) := by
  simp [block, hk]

theorem block_length {α : Type} (f : Nat → α) : (block f).length = 64 := by simp [block]

/-- The state after reset and INIT, with n sink writes that succeed and then failures listed. -/
def ready (n : Nat) : State :=
  { State.reset.inited with sink := ⟨[], false, ⟨List.replicate n true ++ [], 0⟩⟩ }

/-- An empty packer, with a sink that gives the listed answers. -/
def answering (answers : List Bool) : State := { ready 0 with sink := ⟨[], false, ⟨answers, 0⟩⟩ }

/-- One buffer with block 0 filled. -/
def fill {α : Type} (f : Nat → α) : Buf α := Buf.setBlock 0 (block f) []

theorem fill_holds {α : Type} (f : Nat → α) : BlockHolds (fill f) 0 f := fun k hk => by
  rw [fill, Buf.get_setBlock_elem 0 k _ _ (block_length f) hk, block_get f hk]

/-- 0 but at the listed places. -/
def sparse {α : Type} (zero : α) (xs : List (Nat × α)) (k : Nat) : α :=
  ((xs.find? fun p => p.1 == k).map (·.2)).getD zero

def coefs (xs : List (Nat × Int)) : Nat → Coef := fun k => BitVec.ofInt 16 (sparse 0 xs k)

/-- The element that holds an integer or a rational. -/
def int (z : Int) : NumElem := .of (.ofInt z)

def rat (q : Rat) : NumElem := .of (.ofRat q)

def nums (xs : List (Nat × Rat)) : Nat → NumElem := fun k => rat (sparse 0 xs k)

/-- What element k of block 0 of a coefficient buffer holds, as an integer. -/
def intAt (buf : Buf Coef) (k : Nat) : Option Int := (Buf.get k buf).map BitVec.toInt

/-! ### Well-formedness: each check refuses an ill-formed term -/

theorem test_wf_block : (Instr.fdct 7).wellFormed = true ∧ (Instr.fdct 8).wellFormed = false := by
  decide
theorem test_wf_table : (Instr.htbuild 3).wellFormed = true ∧ (Instr.htbuild 4).wellFormed = false := by
  decide
theorem test_wf_colour : (Instr.csc 255 255 255).wellFormed = true ∧
    (Instr.csc 256 0 0).wellFormed = false ∧ (Instr.csc 0 256 0).wellFormed = false ∧
    (Instr.csc 0 0 256).wellFormed = false := by decide
theorem test_wf_mcu : (Instr.mcuload 4095 4095).wellFormed = true ∧
    (Instr.mcuload 4096 0).wellFormed = false ∧ (Instr.encmcu 0 4096).wellFormed = false := by decide
theorem test_wf_count : (Instr.putbits 31 0).wellFormed = true ∧
    (Instr.putbits 32 0).wellFormed = false := by decide
theorem test_wf_others : (Instr.quant 8).wellFormed = false ∧ (Instr.idct 8).wellFormed = false ∧
    (Instr.zz 8).wellFormed = false ∧ (Instr.unzz 8).wellFormed = false ∧
    (Instr.dcenc 8).wellFormed = false ∧ (Instr.acenc 8).wellFormed = false ∧
    (Instr.blkenc 8).wellFormed = false := by decide

/-! ### Decoding: every constructor, from words written out bit by bit from R91 to R98 -/

theorem test_decode_nop : decode 0b00000000_000000000000000000000000#32 = .ok .nop := by decide
theorem test_decode_init : decode 0b00000001_000000000000000000000000#32 = .ok .init := by decide
theorem test_decode_htbuild : decode 0b00000010_0000000000000000000000_11#32 = .ok (.htbuild 3) := by
  decide
theorem test_decode_csc : decode 0b00000011_10000001_00000010_11111111#32 = .ok (.csc 129 2 255) := by
  decide
theorem test_decode_mcuload :
    decode 0b00000100_100000000001_000000000110#32 = .ok (.mcuload 6 2049) := by decide
theorem test_decode_fdct : decode 0b00000101_000000000000000000000_101#32 = .ok (.fdct 5) := by decide
theorem test_decode_quant : decode 0b00000110_000000000000000000000_100#32 = .ok (.quant 4) := by
  decide
theorem test_decode_idct : decode 0b00000111_000000000000000000000_011#32 = .ok (.idct 3) := by decide
theorem test_decode_zz : decode 0b00001000_000000000000000000000_010#32 = .ok (.zz 2) := by decide
theorem test_decode_dcenc : decode 0b00001001_000000000000000000000_001#32 = .ok (.dcenc 1) := by
  decide
theorem test_decode_acenc : decode 0b00001010_000000000000000000000_110#32 = .ok (.acenc 6) := by
  decide
theorem test_decode_putbits :
    decode 0b00001011_000_10001_1000000000000001#32 = .ok (.putbits 17 0x8001) := by decide
theorem test_decode_flush : decode 0b00001100_000000000000000000000000#32 = .ok .flush := by decide
theorem test_decode_blkenc : decode 0b00001101_000000000000000000000_111#32 = .ok (.blkenc 7) := by
  decide
theorem test_decode_encmcu :
    decode 0b00001110_000000000011_111111111111#32 = .ok (.encmcu 4095 3) := by decide
theorem test_decode_encimg : decode 0b00001111_000000000000000000000000#32 = .ok .encimg := by decide
theorem test_decode_unzz : decode 0b00010000_000000000000000000000_101#32 = .ok (.unzz 5) := by decide

/-- R100: must-be-zero fields and reserved opcodes. -/
theorem test_decode_illegal :
    decode 0x00800000 = .error (.mustBeZero 0x00) ∧ decode 0x02000004 = .error (.mustBeZero 0x02) ∧
    decode 0x10800000 = .error (.mustBeZero 0x10) ∧ decode 0x0B200000 = .error (.mustBeZero 0x0B) ∧
    decode 0x11000000 = .error (.reservedOpcode 0x11) ∧
    decode 0xFFFFFFFF = .error (.reservedOpcode 0xFF) := by decide

theorem test_decodeTableWord :
    decodeTableWord 32 0x05000004 = some (.fdct 4) ∧ decodeTableWord 32 0x11000000 = none := by decide

/-- R104: the column index comes first in the text, and lies in the low bits of the word. -/
theorem test_asmText : asmText (.mcuload 1 0) = "MCULOAD 1, 0" ∧ asmText .flush = "FLUSH" ∧
    encode (.mcuload 1 0) = 0x04000001 := by decide +kernel

/-! ### One step of each command -/

/-- The step after withFetchWord runs the word. -/
theorem test_fetch : nextIs (step (State.reset.withFetchWord 32 0x03FF0000)) (fun t =>
    t.host == [] && t.cscY == some (rat (76245 / 1000))) = true := by decide +kernel

/-- With no access pending the core waits (R341). -/
theorem test_idle : nextIs (step State.reset) (· == State.reset) = true := by decide +kernel

/-- V-CTL: NOP keeps DONE. -/
theorem test_nop : nextIs (exec .nop (State.reset.setDone true)) (fun t => t.status.done) = true := by
  decide +kernel

/-- R261's example: after an error INIT gives STATUS = 0 and HTVALID = 0xF. -/
theorem test_init : nextIs (exec .init (State.reset.erring 4 0x11000000)) (fun t =>
    t.status == ⟨false, false, 0⟩ && t.errinfo == 0 && t.htvalid == 0xF) = true := by decide +kernel

/-- R66's example and V-HT-4. -/
theorem test_htbuild : nextIs (exec (.htbuild 2) State.reset) (fun t =>
    t.htWord 2 0x00 == 0x8004000A && t.htWord 2 0xF0 == 0x800B07F9 && t.htWord 2 0xFA == 0x8010FFFE &&
      t.htWord 0 0x00 == 0) = true := by decide +kernel

/-- R183: the DC-chrominance codes. -/
theorem test_htbuild_dc : nextIs (exec (.htbuild 1) State.reset) (fun t =>
    t.htWord 1 0x0B == 0x800B07FE && t.htWord 1 0x02 == 0x80020002 && t.htWord 1 0x0C == 0) = true := by
  decide +kernel

/-- V-CSC-1, the row (10, 200, 30). -/
theorem test_csc : nextIs (exec (.csc 10 200 30) State.reset) (fun t =>
    t.cscY == some (rat (12381 / 100)) &&
    t.cscCb == some (rat (750606 / 10000)) &&
    t.cscCr == some (rat (468227 / 10000))) = true := by decide +kernel

/-- V-CSC-1: the chroma of pure blue is 255.5. -/
theorem test_csc_high : nextIs (exec (.csc 0 0 255) State.reset) (fun t =>
    t.cscCb == some (rat (511 / 2))) = true := by decide +kernel

/-- A raster of 17 columns, in which the red level is the column and the green level the row. -/
def ramp : List (List Rgb) :=
  (List.range 17).map fun y => (List.range 17).map fun x => ⟨BitVec.ofNat 8 x, BitVec.ofNat 8 y, 0⟩

def ramp17 : State := { State.reset with imgW := 17, imgH := 17, raster := ramp }

/-- R131's example: in a 17×17 image MCULOAD 1, 0 fills S[0] with the pixels of column 16; row 5. -/
theorem test_mcuload : (mcuBlock ramp17 1 0 0)[8 * 5 + 3]? = some (ycElem .real 16 5 0) ∧
    (mcuBlock ramp17 1 0 1)[8 * 5]? = some (ycElem .real 16 5 0) ∧
    (mcuBlock ramp17 1 1 3)[63]? = some (ycElem .real 16 16 0) := by decide +kernel

/-- R125: Cb from even rows, Cr from odd rows, both from even columns; R124: S[2] is bottom-left. -/
theorem test_mcuload_chroma : (mcuBlock ramp17 0 0 4)[8 * 2 + 3]? = some (cbcElem .real 6 4 0) ∧
    (mcuBlock ramp17 0 0 5)[8 * 2 + 3]? = some (crcElem .real 6 5 0) ∧
    (mcuBlock ramp17 0 0 2)[8 * 1 + 7]? = some (ycElem .real 7 9 0) := by decide +kernel

/-- V-DCT-1: a block of 129. -/
theorem test_fdct : nextIs (exec (.fdct 0) { State.reset with bufS := fill fun _ => int 129 })
    (fun t => Buf.get 0 t.bufF == some (int 8) && Buf.get 1 t.bufF == some (int 0) &&
      Buf.get 63 t.bufF == some (int 0)) = true := by decide +kernel

/-- The sample block ramp_c of V-DCT-2. -/
def rampC : Nat → NumElem := fun k => int (128 + 8 * ((k % 8 : Nat) : Int))

/-- V-DCT-2, ramp_c: F[0][0] = 224, F[0][1] = −145.7731295, F[0][8] = 0. -/
theorem test_fdct_ramp : nextIs (exec (.fdct 0) { State.reset with bufS := fill rampC }) (fun t =>
    Buf.get 0 t.bufF == some (int 224) && Buf.get 8 t.bufF == some (int 0) &&
    (Buf.get 1 t.bufF).map (fun x => roundHu (x.real.scale 10000000)) == some (-1457731295)) =
      true := by decide +kernel

/-- R154 on a real number outside the field that the host has written: F[0][0] = 8ρ₀ − 1024, and
F[0][1] is 0 exactly. -/
theorem test_fdct_other : let rows := rowSums (block fun _ => ⟨.zero, [(0, .ofRat 1)]⟩)
    fdctElem rows 0 0 = ⟨.ofRat (-1024), [(0, .ofRat 8)]⟩ ∧ fdctElem rows 0 1 = .zero := by
  decide +kernel

/-- V-Q-1: exact ties round up. -/
theorem test_quant : nextIs (exec (.quant 0)
    { State.reset with bufF := fill (nums [(0, 1016), (1, -11/2)]) }) (fun t =>
      intAt t.bufQ 0 == some 64 && intAt t.bufQ 1 == some 0 && intAt t.bufQ 63 == some 0) = true := by
  decide +kernel

/-- V-Q-3: the quotient 32767.5 rounds out of range. -/
theorem test_quant_range : nextIs (exec (.quant 0)
    { State.reset with bufF := fill (nums [(0, 524280)]) }) (fun t =>
      t.status == ⟨true, false, 8⟩ && t.errinfo == 0 && t.bufQ == []) = true := by decide +kernel

/-- R160's example: Q[0][0] = 1 gives 130 everywhere. -/
theorem test_idct : nextIs (exec (.idct 0)
    { State.reset with bufQ := fill (coefs [(0, 1)]) }) (fun t =>
      Buf.get 0 t.bufR == some (int 130) && Buf.get 37 t.bufR == some (int 130)) =
        true := by decide +kernel

/-- V-IDCT-3: clamped at both ends. -/
theorem test_idct_clamp : nextIs (exec (.idct 0)
    { State.reset with bufQ := fill (coefs [(0, 100)]) }) (fun t =>
      Buf.get 9 t.bufR == some (int 255)) = true ∧
    nextIs (exec (.idct 0) { State.reset with bufQ := fill (coefs [(0, -70)]) }) (fun t =>
      Buf.get 9 t.bufR == some (int 0)) = true := by decide +kernel

/-- V-ZZ-3. -/
theorem test_zz : nextIs (exec (.zz 0)
    { State.reset with bufQ := fill (coefs [(0, 14), (1, -13), (3, -1), (56, 1)]) }) (fun t =>
      intAt t.bufZ 0 == some 14 && intAt t.bufZ 1 == some (-13) && intAt t.bufZ 6 == some (-1) &&
      intAt t.bufZ 35 == some 1) = true := by decide +kernel

/-- V-ZZ-2: row 3 of the matrix of zigzag positions. -/
theorem test_unzz : nextIs (exec (.unzz 0)
    { State.reset with bufZ := fill (fun k => BitVec.ofNat 16 k) }) (fun t =>
      (List.range 8).map (fun u => intAt t.bufQ (24 + u)) ==
        [9, 11, 18, 24, 31, 40, 44, 53].map some) = true := by decide +kernel

/-- R214's example: DC 5 from predictor 0 appends '100' and '101'. -/
theorem test_dcenc : nextIs (exec (.dcenc 0)
    { ready 10 with bufZ := fill (coefs [(0, 5)]) }) (fun t =>
      pendingBits t == [true, false, false, true, false, true] && t.predY == 5 && t.predCb == 0) =
        true := by decide +kernel

/-- R214: size 11 for a difference of 2047, and no symbol for 2048. -/
theorem test_dcenc_missing : nextIs (exec (.dcenc 4)
    { ready 10 with bufZ := Buf.set (elemIndex 4 0) 2048 [] }) (fun t =>
      t.status == ⟨true, false, 7⟩ && t.errinfo == 0x0001000C && t.predCb == 0) = true := by
  decide +kernel

/-- R221's example: '00' '1' '1010'. -/
theorem test_acenc : nextIs (exec (.acenc 0)
    { ready 10 with bufZ := fill (coefs [(1, 1)]) }) (fun t =>
      pendingBits t == [false, false, true, true, false, true, false] && t.sink.stream == []) =
        true := by decide +kernel

/-- R220: 16 zeros are one ZRL, and position 63 leaves no EOB. -/
theorem test_acenc_zrl :
    acSymbolsOf (coefs [(18, -1), (63, 3)]) =
      [.zrl, .value 1 (-1), .zrl, .zrl, .value 12 3] ∧
    acSymbolsOf (coefs [(16, 2)]) = [.value 15 2, .eob] ∧
    acSymbolsOf (coefs []) = [.eob] := by decide +kernel

/-- R250's corner case: sixteen 1-bits on an empty accumulator emit FF 00 FF 00. -/
theorem test_putbits : nextIs (exec (.putbits 16 0xFFFF) (ready 4)) (fun t =>
    t.sink.stream == [0xFF, 0x00, 0xFF, 0x00] && t.bitidx == 7) = true := by decide +kernel

/-- R250: bits of v above n − 1 are ignored. -/
theorem test_putbits_low : nextIs (exec (.putbits 1 0xFFFE) (ready 0)) (fun t =>
    pendingBits t == [false] && t.bitidx == 6) = true := by decide +kernel

/-- V-BP-2 in mode stale: the emitted byte stays in BITACC, and the next bits change only their own
places. -/
theorem test_putbits_stale :
    let s : State := { ready 2 with params := { Config.defaultParams with padMode := .stale } }
    nextIs (exec (.putbits 8 0xAB) s) (fun t => t.bitacc == 0xAB && t.bitidx == 7) = true ∧
    nextIs (exec (.putbits 2 1) { s with bitacc := 0xAB }) (fun t => t.bitacc == 0x6B && t.bitidx == 5) =
      true := by decide +kernel

/-- R251's example: after PUTBITS 3, 5, FLUSH emits A0. -/
theorem test_flush : nextIs (exec .flush { ready 2 with bitacc := 0b10100000, bitidx := 4 }) (fun t =>
    t.sink.stream == [0xA0] && t.bitidx == 7 && t.bitacc == 0) = true := by decide +kernel

/-- R306 (c): the 0x00 after a 0xFF is refused; the 0xFF stays. -/
theorem test_flush_sinkError : nextIs (exec .flush { State.reset with
    bitacc := 0xFF, bitidx := 0, sink := ⟨[0x12], true, ⟨[true, false], 0⟩⟩ }) (fun t =>
      t.sink.stream == [0x12, 0xFF] && t.status == ⟨true, false, 2⟩ && t.errinfo == 0 &&
      t.bitacc == 0xFF && t.bitidx == 0) = true := by decide +kernel

/-! ### A grey MCU, block by block (V-PIPE-1)

A block of 128s transforms, quantises and scans to zeros, and its DC equals the predictor, so that a
luma block appends '00' '1010' and a chroma block '00' '00'. -/

/-- The state of a stream that has coded grey so far, with n sink writes left that succeed. -/
structure Grey (n : Nat) (s : State) : Prop where
  err : s.status.err = false
  done : s.status.done = false
  valid : s.htvalid = 0xF#4
  built : TablesBuilt s
  num : s.params.num = .real
  pred : ∀ sl, s.pred sl = 0
  samples : ∀ b ≤ 5, BlockHolds s.bufS b fun _ => int 128
  sink : SinkAccepts n s.sink

theorem setDone_self {s : State} (h : s.status.done = false) : s.setDone false = s := by
  rw [State.setDone, ← h]

theorem fdct_grey : fdctElems .real (block fun _ => int 128) = block fun _ => int 0 := by
  decide +kernel

theorem quant_grey (g : Nat) (hg : g < 2) (o : Oracle) :
    quantList .real g 0 ((block fun _ => int 0).map NumElem.real) o = (block fun _ => 0, o) := by
  rw [block, List.map_map, show (NumElem.real ∘ fun _ : Nat => int 0) = fun _ => NumVal.zero from rfl,
    ← block]
  have h : ∀ (xs : List NumVal) (k : Nat) (o : Oracle),
      (∀ j < xs.length, (xs[j]?).map (fun x => quant x (qt g (k + j))) = some 0) →
        quantList .real g k xs o = (xs.map fun _ => 0, o) := by
    intro xs
    induction xs with
    | nil => exact fun _ _ _ => rfl
    | cons x xs ih =>
      intro k o hx
      have h0 := hx 0 (by simp)
      simp only [List.getElem?_cons_zero, Option.map_some, Option.some.injEq, Nat.add_zero] at h0
      rw [quantList, ih (k + 1) _ fun j hj => by
        have := hx (j + 1) (by simpa using hj)
        rw [show k + (j + 1) = k + 1 + j by omega] at this
        simpa using this]
      simp [quantDraw, h0]
  have hz : ∀ g < 2, ∀ k < 64, quant NumVal.zero (qt g k) = 0 := by decide +kernel
  rw [h _ 0 o fun j hj => by
    rw [block_length] at hj
    rw [block_get _ hj, Nat.zero_add, Option.map_some, hz g hg j hj]]
  rw [block, List.map_map]
  rfl

theorem zigzag_grey : (zztTable.map fun _ => (0 : Coef)) = block fun _ => 0 := by decide +kernel

theorem acSymbols_grey : acSymbols (((List.range' 1 63).map fun _ => (0 : Coef)).map BitVec.toInt) =
    [.eob] := by decide +kernel

theorem zztTable_lt : ∀ k ∈ zztTable, k < 64 := by decide

/-- The code of symbol 0 in each of the four tables (R183). -/
theorem symbol_zero : Buf.get 0 (builtTable 0) = some ⟨0, 2⟩ ∧ Buf.get 0 (builtTable 1) = some ⟨0, 2⟩ ∧
    Buf.get 0 (builtTable 2) = some ⟨10, 4⟩ ∧ Buf.get 0 (builtTable 3) = some ⟨0, 2⟩ := by
  decide +kernel

theorem Grey.tableValid {n : Nat} {s : State} (h : Grey n s) : ∀ t < 4, s.tableValid t = true := by
  have : ∀ t < 4, (0xF#4).getLsbD t = true := by decide
  simpa [State.tableValid, h.valid] using this

theorem Grey.entry {n : Nat} {s : State} (h : Grey n s) {t : Nat} (ht : t < 4) :
    s.htEntry t 0 = Buf.get 0 (builtTable t) := by
  have hv := h.tableValid t ht
  rw [State.htEntry, hv, if_pos rfl, h.built t ht hv]

/-- A step that only packs keeps the state grey. -/
theorem Grey.packed {m n : Nat} {s t : State} (h : Grey n s) (hst : SameButPacker s t)
    (hk : SinkAccepts m t.sink) : Grey m t := by
  rw [hst]
  exact ⟨h.err, h.done, h.valid, h.built, h.num, fun sl => by
    have := h.pred sl
    cases sl <;> exact this, h.samples, by rw [hst] at hk; exact hk⟩

/-- What a grey block appends. -/
def greyBits (b : Nat) : List Bool :=
  if b ≤ 3 then [false, false, true, false, true, false] else [false, false, false, false]

theorem filled {α : Type} (b : Nat) (c : α) (buf : Buf α) (k : Nat) (hk : k < 64) :
    Buf.get (elemIndex b k) (Buf.setBlock b (block fun _ => c) buf) = some c := by
  rw [Buf.get_setBlock_elem b k _ _ (block_length _) hk, block_get _ hk]

theorem group_lt (b : Nat) : group b < 2 := by
  simp only [group]
  split_ifs <;> omega

theorem Grey.fdct {n b : Nat} {s : State} (h : Grey n s) (hb : b ≤ 5) :
    ∃ t, fdctBody b s = .go t ∧ Grey n t ∧ BlockHolds t.bufF b (fun _ => int 0) ∧
      Appends s t [] ∧ t.imgW = s.imgW ∧ t.imgH = s.imgH := by
  refine ⟨s.setF b (block fun _ => int 0), ?_, ?_, ?_, ?_, State.setF_imgW _ _ _, State.setF_imgH _ _ _⟩
  rotate_left 2
  · rw [State.setF_bufF]
    exact filled b _ _
  · exact Appends.of_same (State.setF_bitacc _ _ _) (State.setF_bitidx _ _ _) (State.setF_sink _ _ _)
  · rw [fdctBody, readBlock_eq (h.samples b hb), h.num]
    exact congrArg (fun xs => Flow.go (s.setF b xs)) fdct_grey
  · exact ⟨h.err, h.done, h.valid, h.built, h.num, h.pred, h.samples, h.sink⟩

theorem Grey.quant {n b : Nat} {s : State} (h : Grey n s)
    (hF : BlockHolds s.bufF b fun _ => int 0) :
    ∃ t, quantBody b s = .go t ∧ Grey n t ∧ BlockHolds t.bufQ b (fun _ => 0) ∧
      Appends s t [] ∧ t.imgW = s.imgW ∧ t.imgH = s.imgH := by
  refine ⟨s.setQ b (block fun _ => 0), ?_, ?_, ?_, ?_, State.setQ_imgW _ _ _, State.setQ_imgH _ _ _⟩
  rotate_left 2
  · rw [State.setQ_bufQ]
    exact filled b _ _
  · exact Appends.of_same (State.setQ_bitacc _ _ _) (State.setQ_bitidx _ _ _) (State.setQ_sink _ _ _)
  · have hr : (List.findIdx? (fun z => !inInt16 z) (block fun _ => (0 : Int))) = none := by
      decide +kernel
    have hz : (block fun _ => (0 : Int)).map (BitVec.ofInt 16) = block fun _ => (0 : Coef) := by
      decide +kernel
    rw [quantBody, readBlock_eq hF]
    have hq := quant_grey (group b) (group_lt b) s.tie
    rw [block] at hq
    simp only [h.num, hq]
    rw [hr]
    simp only [hz]
  · exact ⟨h.err, h.done, h.valid, h.built, h.num, h.pred, h.samples, h.sink⟩

theorem Grey.zz {n b : Nat} {s : State} (h : Grey n s) (hQ : BlockHolds s.bufQ b fun _ => 0) :
    ∃ t, zzBody b s = .go t ∧ Grey n t ∧ BlockHolds t.bufZ b (fun _ => 0) ∧
      Appends s t [] ∧ t.imgW = s.imgW ∧ t.imgH = s.imgH := by
  refine ⟨s.setZ b (block fun _ => 0), ?_, ?_, ?_, ?_, State.setZ_imgW _ _ _, State.setZ_imgH _ _ _⟩
  rotate_left 2
  · rw [State.setZ_bufZ]
    exact filled b _ _
  · exact Appends.of_same (State.setZ_bitacc _ _ _) (State.setZ_bitidx _ _ _) (State.setZ_sink _ _ _)
  · rw [zzBody, readElems_eq fun k hk => hQ k (zztTable_lt k hk)]
    exact congrArg (fun xs => Flow.go (s.setZ b xs)) zigzag_grey
  · exact ⟨h.err, h.done, h.valid, h.built, h.num, h.pred, h.samples, h.sink⟩

theorem Grey.setPred {n : Nat} {s : State} (h : Grey n s) (sl : Slot) : s.setPred sl 0 = s := by
  have hp := h.pred sl
  cases sl <;> (simp only [State.pred] at hp; rw [State.setPred, ← hp])

theorem Grey.dcenc {n b : Nat} {s : State} (h : Grey (n + 2) s)
    (hZ : BlockHolds s.bufZ b fun _ => 0) :
    ∃ t, dcencBody b s = .go t ∧ Grey n t ∧ BlockHolds t.bufZ b (fun _ => 0) ∧
      Appends s t [false, false] ∧ t.imgW = s.imgW ∧ t.imgH = s.imgH := by
  have hidx := s.bitidx.isLt
  have hg := group_lt b
  obtain ⟨t, p, same, app, -, -, acc⟩ := putBits_go 0 2 (s := s) (c := n) (h.sink.mono (by omega))
  refine ⟨t, ?_, h.packed same acc, ?_, app, by rw [same], by rw [same]⟩
  · have hsym : s.htEntry (tdc (group b)) (0 * 16 + vliSize 0) = some ⟨0, 2⟩ := by
      have := h.entry (t := tdc (group b)) (by simp only [tdc]; omega)
      rw [show 0 * 16 + vliSize 0 = 0 from rfl, this]
      rcases (show group b = 0 ∨ group b = 1 by omega) with hg' | hg' <;> rw [hg']
      · exact symbol_zero.1
      · exact symbol_zero.2.1
    rw [dcencBody, readElems_eq (f := fun _ => (0 : Coef)) (fun k hk => hZ k (by rw [List.mem_singleton.mp hk]; decide))]
    have h0 : ([0].map fun _ : Nat => (0 : Coef)).getD 0 0 = 0 := rfl
    have hdiff : dcDiff 0 (s.pred (slot b)) = 0 := by
      rw [h.pred]
      rfl
    dsimp only
    rw [h0, hdiff, if_neg (by decide), h.setPred, emitValue, emitSymbol, hsym]
    dsimp only
    rw [p]
    rfl
  · rw [same]
    exact hZ

theorem Grey.acenc {n b : Nat} {s : State} (h : Grey (n + 2) s)
    (hZ : BlockHolds s.bufZ b fun _ => 0) :
    ∃ t, acencBody b s = .go t ∧ Grey n t ∧
      Appends s t (if b ≤ 3 then [true, false, true, false] else [false, false]) ∧
      t.imgW = s.imgW ∧ t.imgH = s.imgH := by
  have hidx := s.bitidx.isLt
  have hz : ∀ k ∈ List.range' 1 63, Buf.get (elemIndex b k) s.bufZ = some (0 : Coef) := fun k hk =>
    hZ k (by rw [List.mem_range'_1] at hk; omega)
  have key : ∀ c len t, Buf.get 0 (builtTable (tac (group b))) = some ⟨c, len⟩ →
      putBits c len s = .go t → acencBody b s = .go t := by
    intro c len t hc hp
    have hsym : s.htEntry (tac (group b)) (0 * 16 + 0) = some ⟨c, len⟩ := by
      rw [show 0 * 16 + 0 = 0 from rfl, h.entry (by have := group_lt b; simp only [tac]; omega), hc]
    rw [acencBody, readElems_eq hz]
    dsimp only
    rw [acSymbols_grey, show acTooLarge [AcSym.eob] = none from rfl]
    dsimp only
    rw [forEach, emitAc, emitSymbol, hsym]
    dsimp only
    rw [hp]
    rfl
  by_cases hlum : b ≤ 3
  · obtain ⟨t, p, same, app, -, -, acc⟩ := putBits_go 10 4 (s := s) (c := n) (h.sink.mono (by omega))
    refine ⟨t, key 10 4 t ?_ p, h.packed same acc, ?_, by rw [same], by rw [same]⟩
    · rw [show group b = 0 from if_pos hlum]
      exact symbol_zero.2.2.1
    · rw [if_pos hlum]
      exact app
  · obtain ⟨t, p, same, app, -, -, acc⟩ := putBits_go 0 2 (s := s) (c := n) (h.sink.mono (by omega))
    refine ⟨t, key 0 2 t ?_ p, h.packed same acc, ?_, by rw [same], by rw [same]⟩
    · rw [show group b = 1 from if_neg hlum]
      exact symbol_zero.2.2.2
    · rw [if_neg hlum]
      exact app

/-- A grey block through BLKENC's body, and through the five commands. -/
theorem Grey.blkenc {n b : Nat} {s : State} (h : Grey (n + 4) s) (hb : b ≤ 5) :
    ∃ t, blkencBody b s = .go t ∧ runCommands (blockCommands b) s = .next t ∧ Grey n t ∧
      Appends s t (greyBits b) ∧ t.imgW = s.imgW ∧ t.imgH = s.imgH := by
  obtain ⟨s1, e1, g1, h1, a1, w1, i1⟩ := h.fdct hb
  obtain ⟨s2, e2, g2, h2, a2, w2, i2⟩ := g1.quant h1
  obtain ⟨s3, e3, g3, h3, a3, w3, i3⟩ := g2.zz h2
  obtain ⟨s4, e4, g4, h4, a4, w4, i4⟩ := g3.dcenc (n := n + 2) h3
  obtain ⟨s5, e5, g5, a5, w5, i5⟩ := g4.acenc h4
  have hg := group_lt b
  refine ⟨s5, ?_, ?_, g5, ?_, ?_, ?_⟩
  · simp only [blkencBody, e1, e2, e3, e4, e5, Flow.andThen_go]
  · have x1 : exec (.fdct b) s = .next s1 := by
      change execFdct b s = _
      rw [execFdct, command_run h.err, setDone_self h.done, checkBlock_pass hb, Flow.andThen_go, e1,
        Flow.result_go]
    have x2 : exec (.quant b) s1 = .next s2 := by
      change execQuant b s1 = _
      rw [execQuant, command_run g1.err, setDone_self g1.done, checkBlock_pass hb, Flow.andThen_go,
        e2, Flow.result_go]
    have x3 : exec (.zz b) s2 = .next s3 := by
      change execZz b s2 = _
      rw [execZz, command_run g2.err, setDone_self g2.done, checkBlock_pass hb, Flow.andThen_go,
        e3, Flow.result_go]
    have x4 : exec (.dcenc b) s3 = .next s4 := by
      change execDcenc b s3 = _
      rw [execDcenc, command_run g3.err, setDone_self g3.done, checkBlock_pass hb, Flow.andThen_go,
        checkTables_pass (by simpa using g3.tableValid _ (by simp only [tdc]; omega)),
        Flow.andThen_go, e4, Flow.result_go]
    have x5 : exec (.acenc b) s4 = .next s5 := by
      change execAcenc b s4 = _
      rw [execAcenc, command_run g4.err, setDone_self g4.done, checkBlock_pass hb, Flow.andThen_go,
        checkTables_pass (by simpa using g4.tableValid _ (by simp only [tac]; omega)),
        Flow.andThen_go, e5, Flow.result_go]
    simp only [blockCommands, runCommands, x1, x2, x3, x4, x5]
  · have := ((((a1.trans a2).trans a3).trans a4).trans a5)
    simp only [greyBits]
    split_ifs with hl <;> simpa [hl] using this
  · rw [w5, w4, w3, w2, w1]
  · rw [i5, i4, i3, i2, i1]

theorem runCommands_append (is js : List Instr) (s t : State) (h : runCommands is s = .next t) :
    runCommands (is ++ js) s = runCommands js t := by
  induction is generalizing s with
  | nil =>
    rw [runCommands, Host.Outcome.next.injEq] at h
    rw [List.nil_append, h]
  | cons i is ih =>
    rw [runCommands] at h
    rw [List.cons_append, runCommands]
    split at h
    · rename_i u hu
      exact ih u h
    · simp at h
    · simp at h

/-- Six grey blocks. -/
theorem Grey.blocks {n : Nat} (bs : List Nat) (hbs : ∀ b ∈ bs, b ≤ 5) {s : State}
    (h : Grey (n + 4 * bs.length) s) :
    ∃ t, forEach bs blkencBody s = .go t ∧ runCommands (bs.flatMap blockCommands) s = .next t ∧
      Grey n t ∧ Appends s t (bs.flatMap greyBits) ∧ t.imgW = s.imgW ∧ t.imgH = s.imgH := by
  induction bs generalizing s with
  | nil => exact ⟨s, rfl, rfl, h, Appends.nil s, rfl, rfl⟩
  | cons b bs ih =>
    rw [List.length_cons, show n + 4 * (bs.length + 1) = n + 4 * bs.length + 4 by omega] at h
    obtain ⟨u, e1, r1, g1, a1, w1, i1⟩ := h.blkenc (hbs b (by simp))
    obtain ⟨t, e2, r2, g2, a2, w2, i2⟩ := ih (fun c hc => hbs c (by simp [hc])) g1
    refine ⟨t, ?_, ?_, g2, a1.trans a2, by rw [w2, w1], by rw [i2, i1]⟩
    · rw [forEach, e1, Flow.andThen_go, e2]
    · rw [List.flatMap_cons, runCommands_append _ _ _ _ r1, r2]

/-- A 1×1 image of a grey pixel, after INIT. -/
def grey (n : Nat) : State :=
  { ready n with imgW := 1, imgH := 1, raster := [[⟨128, 128, 128⟩]] }

theorem grey_pix (n x y : Nat) : (grey n).pix x y = ⟨128, 128, 128⟩ := by
  have h : ∀ z, min z ((1#16).toNat - 1) = 0 := fun z => by
    rw [show (1#16).toNat - 1 = 0 from rfl, Nat.min_zero]
  change (grey n).pixelRead (min x ((1#16).toNat - 1)) (min y ((1#16).toNat - 1)) = _
  rw [h, h]
  rfl

theorem blockOf_const {α : Type} (c : α) : (blockOf fun _ _ => c) = block fun _ => c := rfl

theorem grey_block (n b : Nat) : mcuBlock (grey n) 0 0 b = block fun _ => int 128 := by
  have hy : ycElem (grey n).params.num 128 128 128 = int 128 := by
    change ycElem .real 128 128 128 = _
    decide +kernel
  have hb : cbcElem (grey n).params.num 128 128 128 = int 128 := by
    change cbcElem .real 128 128 128 = _
    decide +kernel
  have hr : crcElem (grey n).params.num 128 128 128 = int 128 := by
    change crcElem .real 128 128 128 = _
    decide +kernel
  have e : BitVec.toNat (128 : Byte) = 128 := rfl
  simp only [mcuBlock, lumaBlock, cbBlock, crBlock, grey_pix, ofPixel, e, hy, hb, hr, blockOf_const,
    ite_self]

theorem grey_valid (n : Nat) : (grey n).htvalid = 0xF#4 := by
  change ((((0#4 ||| (1#4 <<< 0)) ||| (1#4 <<< 1)) ||| (1#4 <<< 2)) ||| (1#4 <<< 3)) = 0xF#4
  decide

theorem tables_lt4 {P : Nat → Prop} (h0 : P 0) (h1 : P 1) (h2 : P 2) (h3 : P 3) : ∀ t < 4, P t := by
  intro t ht
  match t, ht with
  | 0, _ => exact h0
  | 1, _ => exact h1
  | 2, _ => exact h2
  | 3, _ => exact h3

theorem ready_built (n : Nat) : TablesBuilt (ready n) :=
  tables_lt4 (fun _ => rfl) (fun _ => rfl) (fun _ => rfl) (fun _ => rfl)

theorem ready_sink (n : Nat) : SinkAccepts n (ready n).sink := sinkAccepts_replicate n 0 [] false []

/-- After the MCU is loaded, the state is grey. -/
theorem grey_loaded (n : Nat) : Grey n ((grey n).mcuLoaded 0 0) := by
  refine ⟨rfl, rfl, grey_valid n, ready_built n, rfl, fun sl => by cases sl <;> rfl, ?_, ready_sink n⟩
  intro b hb k hk
  have hfold : ∀ (bs : List Nat) (buf : Buf NumElem),
      (b ∈ bs ∨ Buf.get (elemIndex b k) buf = some (int 128)) →
      Buf.get (elemIndex b k)
        (bs.foldl (fun buf c => Buf.setBlock c (mcuBlock (grey n) 0 0 c) buf) buf) =
        some (int 128) := by
    intro bs
    induction bs with
    | nil => exact fun buf h => by simpa using h
    | cons c bs ih =>
      intro buf h
      rw [List.foldl_cons]
      refine ih _ ?_
      by_cases hc : c = b
      · subst hc
        exact .inr (by rw [grey_block]; exact filled c _ _ k hk)
      · rcases h with h | h
        · simp only [List.mem_cons, Ne.symm hc, false_or] at h
          exact .inl h
        · refine .inr ?_
          rw [Buf.get_setBlock_other c _ _ _ (mcuBlock_length _ _ _ _) ?_]
          · exact h
          · simp only [elemIndex]
            omega
  change Buf.get (elemIndex b k) (loadedSamples (grey n) 0 0) = _
  rw [loadedSamples_eq]
  exact hfold _ _ (.inl (List.mem_range.mpr (by omega)))

theorem grey_dims (n : Nat) : 1 ≤ (grey n).imgW.toNat ∧ 1 ≤ (grey n).imgH.toNat := by
  change 1 ≤ (1#16).toNat ∧ 1 ≤ (1#16).toNat
  decide

theorem grey_canvas (n : Nat) : (grey n).nx = 1 ∧ (grey n).ny = 1 := by
  change completion (1#16).toNat / 16 = 1 ∧ completion (1#16).toNat / 16 = 1
  decide

theorem grey_mcu_index (n : Nat) : 0 < (grey n).nx ∧ 0 < (grey n).ny := by
  rw [(grey_canvas n).1, (grey_canvas n).2]
  decide

/-- V-PIPE-1: the grey MCU through ENCMCU's body and through the commands of R135. -/
theorem grey_mcu (n : Nat) : ∃ t, encmcuBody 0 0 (grey (n + 24)) = .go t ∧
    runCommands (mcuCommands 0 0) (grey (n + 24)) = .next t ∧ Grey n t ∧
    t.sink.stream = [0x28, 0xA2, 0x8A, 0x00] ∧ pendingBits t = [] ∧ t.imgW = 1 ∧ t.imgH = 1 := by
  obtain ⟨t, e, r, g, a, w, i⟩ := (grey_loaded (n + 24)).blocks (n := n) (List.range 6) (by decide)
  refine ⟨t, ?_, ?_, g, ?_, ?_, w, i⟩
  · rw [encmcuBody, mculoadBody, Flow.andThen_go, e]
  · have x : exec (.mcuload 0 0) (grey (n + 24)) = .next ((grey (n + 24)).mcuLoaded 0 0) := by
      change execMcuload 0 0 (grey (n + 24)) = _
      rw [execMcuload, command_run rfl, setDone_self rfl, checkDims_pass (grey_dims _),
        Flow.andThen_go, checkMcu_pass (grey_mcu_index _), Flow.andThen_go, mculoadBody,
        Flow.result_go]
    rw [mcuCommands, runCommands, x]
    exact r
  · rw [a.1]
    change [] ++ stuffed (fullBytes (pendingOf 0 7 ++ (List.range 6).flatMap greyBits)) = _
    decide +kernel
  · rw [a.2]
    change restBits (pendingOf 0 7 ++ (List.range 6).flatMap greyBits) = _
    decide +kernel

/-- V-PIPE-1: `ENCMCU 0, 0` of a grey image appends 28 A2 8A 00. -/
theorem test_encmcu (n : Nat) : ∃ t, exec (.encmcu 0 0) (grey (n + 24)) = .next t ∧ Grey n t ∧
    t.sink.stream = [0x28, 0xA2, 0x8A, 0x00] ∧ pendingBits t = [] ∧ t.imgW = 1 ∧ t.imgH = 1 := by
  obtain ⟨t, e, -, g⟩ := grey_mcu n
  refine ⟨t, ?_, g⟩
  change execEncmcu 0 0 (grey (n + 24)) = _
  rw [execEncmcu, command_run rfl, setDone_self rfl, checkDims_pass (grey_dims _),
    Flow.andThen_go, checkMcu_pass (grey_mcu_index _), Flow.andThen_go, checkTables_pass,
    Flow.andThen_go, e, Flow.result_go]
  exact fun t ht => (grey_loaded (n + 24)).tableValid t (by
    simp only [List.mem_cons, List.not_mem_nil, or_false] at ht
    omega)

/-- R300, R307: no image size comes before the missing tables. -/
theorem test_encmcu_source : nextIs (exec (.encmcu 0 0) { State.reset with imgW := 3 }) (fun t =>
    t.status == ⟨true, false, 1⟩ && t.errinfo == 3) = true := by decide +kernel

/-- R300: ENCIMG before INIT names the lowest missing table. -/
theorem test_encimg_tables : nextIs (exec .encimg
    { State.reset with imgW := 1, imgH := 1, htvalid := 0b1011 }) (fun t =>
      t.status == ⟨true, false, 6⟩ && t.errinfo == 2) = true := by decide +kernel

/-- V-NUM-1: with an inexact NUM both neighbours of a tie are possible. -/
theorem test_quant_tie :
    (quantDraw (.inexact (.ofRat (1 / 1000))) (NumVal.ofInt 8) 16 ⟨[false], 0⟩).1 = 0 ∧
    (quantDraw (.inexact (.ofRat (1 / 1000))) (NumVal.ofInt 8) 16 ⟨[true], 0⟩).1 = 1 ∧
    (quantDraw (.inexact (.ofRat (1 / 1000))) (NumVal.ofInt 9) 16 ⟨[false], 0⟩).1 = 1 := by decide +kernel

/-- R28's examples. -/
theorem test_completion : completion 17 = 32 ∧ completion 32 = 32 ∧ completion 1 = 16 ∧
    completion 65535 = 65536 ∧ completion 0 = 0 := by decide

/-- V-FRAME: DQT of the luminance table begins so (R276), and the default APP0. -/
theorem test_framing : (dqt 0).take 12 =
      [0xFF, 0xDB, 0x00, 0x43, 0x00, 0x10, 0x0B, 0x0C, 0x0E, 0x0C, 0x0A, 0x10] ∧
    (dht 3).take 6 = [0xFF, 0xC4, 0x00, 0xB5, 0x11, 0x00] ∧ (dht 2).length = 183 ∧
    sof0 32 32 = [0xFF, 0xC0, 0x00, 0x11, 0x08, 0x00, 0x20, 0x00, 0x20, 0x03, 0x01, 0x22, 0x00,
      0x02, 0x11, 0x01, 0x03, 0x11, 0x01] := by decide +kernel

/-! ### Witnesses: the hypotheses of every statement that has some can be met

Each theorem carries the name of its statement; a statement with several clauses has one for each, at
a boundary value. -/

theorem witness_DecodeOfEncode : (Instr.putbits 31 0xFFFF).WellFormed ∧ (Instr.fdct 7).WellFormed ∧
    (Instr.csc 255 255 255).WellFormed ∧ (Instr.encmcu 4095 4095).WellFormed ∧
    (Instr.htbuild 3).WellFormed := by decide

theorem witness_EncodeOfDecode : decode 0x0BFFFFFF = .error (.mustBeZero 0x0B) ∧
    decode 0x0B1FFFFF = .ok (.putbits 31 0xFFFF) := by decide

theorem witness_DecoderMatchesTable :
    decode 0x0400F00F = .ok (.mcuload 15 15) ∧
      (⟨"MCULOAD", 0x04000000, 0xFF000000⟩ : OpcodeRow) ∈ opcodeRows ∧
      0x0400F00F#32 &&& 0xFF000000#32 = 0x04000000#32 := by decide

/-- The state in which the host's next access issues w. -/
def issuing (w : Word) (s : State) : State := { s with host := [issueOp w] }

theorem issues_issueOp (w : Word) : Issues (issueOp w) w := ⟨_, rfl, rfl⟩

theorem witness_StepRunsDecodedCommand : (issuing 0x05000007 State.reset).host = [issueOp 0x05000007] ∧
    Issues (issueOp 0x05000007) 0x05000007 ∧ decode 0x05000007 = .ok (.fdct 7) ∧
    (Instr.fdct 7).WellFormed := ⟨rfl, issues_issueOp _, by decide, by decide⟩

theorem witness_IllegalWordRaises : (issuing 0x11000000 State.reset).host = [issueOp 0x11000000] ∧
    Issues (issueOp 0x11000000) 0x11000000 ∧
    decode 0x11000000 = .error (.reservedOpcode 0x11) ∧
    (issuing 0x11000000 State.reset).status.err = false :=
  ⟨rfl, issues_issueOp _, by decide, rfl⟩

/-- A state with an error recorded. -/
def failed : State := State.reset.erring 0x04 0x11000000

theorem witness_RefusedWhileErr : (issuing 0x00000001 failed).status.err = true ∧
    (issuing 0x00000001 failed).host = [issueOp 0x00000001] ∧
    Issues (issueOp 0x00000001) 0x00000001 ∧ (0x00000001#32 ≠ 0x00000000#32) ∧
    (0x00000001#32 ≠ 0x01000000#32) ∧ Instr.encimg ≠ .nop ∧ Instr.encimg ≠ .init :=
  ⟨rfl, rfl, issues_issueOp _, by decide, by decide, by decide, by decide⟩

theorem witness_HtbuildEffect : State.reset.status.err = false ∧ 0 < 4 ∧ 3 < 4 ∧ 0 ≠ 3 := by decide

theorem witness_TableCodes : (⟨0, 2⟩ : HCode) ∈ (builtTable 0).map (·.2) ∧
    (⟨1, 2⟩ : HCode) ∈ (builtTable 3).map (·.2) := by decide +kernel

theorem witness_HardResetEffect : ({ State.reset with host := [.reset] } : State).host = [.reset] := rfl

theorem witness_CscConverts : State.reset.status.err = false := rfl

theorem witness_ConversionRanges : 255 ≤ 255 ∧ 0 ≤ 255 := by decide

/-- The last MCU of a 17×17 image: both coordinates past the edge. -/
theorem witness_MculoadLoads : ramp17.status.err = false ∧ 1 ≤ ramp17.imgW.toNat ∧
    1 ≤ ramp17.imgH.toNat ∧ 1 < ramp17.nx ∧ 1 < ramp17.ny := by decide +kernel

theorem witness_OperandErrors_source : State.reset.status.err = false ∧ State.reset.imgW = 0 ∧
    ({ State.reset with imgW := 5 } : State).imgH = 0 := by decide +kernel

theorem witness_OperandErrors_mcu : ramp17.status.err = false ∧ ramp17.imgW ≠ 0 ∧ ramp17.imgH ≠ 0 ∧
    ramp17.nx ≤ 2 ∧ ramp17.ny ≤ 2 := by decide +kernel

theorem witness_OperandErrors_count : 16 < 17 ∧ 31 < 32 := by decide

theorem witness_InvalidBlockRaised : State.reset.status.err = false ∧ (6 = 6 ∨ 6 = 7) ∧
    (7 = 6 ∨ 7 = 7) ∧ Instr.blkenc 7 ∈ [Instr.fdct 7, .quant 7, .idct 7, .zz 7, .unzz 7, .dcenc 7,
      .acenc 7, .blkenc 7] := by decide

/-- A 1×1 image with the given tables built. -/
def withTables (valid : BitVec 4) : State :=
  { State.reset with imgW := 1, imgH := 1, htvalid := valid }

theorem witness_TableNotBuiltRaised_dc : (withTables 0b0000).tableValid 0 = false ∧
    0 = tdc (group 3) ∧ (withTables 0b0001).tableValid 1 = false ∧ 1 = tdc (group 4) := by
  decide +kernel

theorem witness_TableNotBuiltRaised_ac : (withTables 0b1011).tableValid 2 = false ∧
    2 = tac (group 3) ∧ (withTables 0b1011).tableValid (tdc (group 3)) = true ∧
    (withTables 0b0111).tableValid 3 = false ∧ 3 = tac (group 5) := by decide +kernel

theorem witness_TableNotBuiltRaised_mcu : (withTables 0b0111).tableValid 3 = false ∧
    (∀ t < 3, (withTables 0b0111).tableValid t = true) ∧ (withTables 0b0111).imgW ≠ 0 ∧
    (withTables 0b0111).imgH ≠ 0 ∧ 0 < (withTables 0b0111).nx ∧ 0 < (withTables 0b0111).ny ∧
    (withTables 0b0111).status.err = false := by decide +kernel

/-- Block b with its elements below k written. -/
def filledTo {α : Type} (b k : Nat) (x : α) : Buf α := (List.range k).map fun j => (elemIndex b j, x)

/-- Block 0 of Q with the elements 2 and 8 alone unwritten; ZZT puts 8 at position 2 and 2 at position 5. -/
def twoMissing : Buf Coef := (fill (coefs [])).filter fun p => p.1 != 2 && p.1 != 8

/-- What is to be evaluated for an element to be the first unwritten one. -/
theorem firstUnwritten_of {α : Type} {b lo p : Nat} {order : Nat → Nat} {buf : Buf α}
    (h : lo ≤ p ∧ p < 64 ∧ (Buf.get (elemIndex b (order p)) buf).isNone = true ∧
      ∀ j < p, (Buf.get (elemIndex b (order j)) buf).isSome = true) : FirstUnwritten b order lo p buf :=
  ⟨h.1, h.2.1, by simpa using h.2.2.1, fun j _ hj hn => by simpa [hn] using h.2.2.2 j hj⟩

theorem witness_UnwrittenReads : State.reset.status.err = false ∧ 5 ≤ 5 ∧
    FirstUnwritten 5 id 0 0 State.reset.bufS ∧ FirstUnwritten 5 id 0 0 State.reset.bufF ∧
    FirstUnwritten 5 id 0 0 State.reset.bufQ ∧ FirstUnwritten 5 id 0 0 State.reset.bufZ ∧
    FirstUnwritten 5 id 0 63 (filledTo 5 63 (int 0)) ∧ FirstUnwritten 5 id 1 63 (filledTo 5 63 (0 : Coef)) ∧
    FirstUnwritten 0 zzt 0 2 twoMissing :=
  ⟨rfl, le_refl _, ⟨le_refl _, by decide, rfl, by omega⟩, ⟨le_refl _, by decide, rfl, by omega⟩,
    ⟨le_refl _, by decide, rfl, by omega⟩, ⟨le_refl _, by decide, rfl, by omega⟩,
    firstUnwritten_of (by decide +kernel), firstUnwritten_of (by decide +kernel), firstUnwritten_of (by decide +kernel)⟩

theorem witness_UnwrittenReads_coding : let s := withTables 0xF
    s.status.err = false ∧ s.tableValid (tdc (group 0)) = true ∧ s.tableValid (tac (group 5)) = true ∧
    s.tableValid (tdc (group 5)) = true ∧ FirstUnwritten 0 id 0 0 s.bufZ ∧ FirstUnwritten 5 id 1 1 s.bufZ ∧
    FirstUnwritten 5 id 0 0 s.bufS :=
  ⟨rfl, rfl, rfl, rfl, ⟨le_refl _, by decide, rfl, by omega⟩, ⟨le_refl _, by decide, rfl, by omega⟩,
    ⟨le_refl _, by decide, rfl, by omega⟩⟩

/-- The state after reset in which the host reads address a next. -/
def reading (a : Addr) : State := { State.reset with host := [.read a] }

/-- The last element of each window. -/
theorem witness_UnwrittenReads_host :
    (reading 0x117F).host = [.read (BitVec.ofNat 16 (0x1000 + 64 * 5 + 63))] ∧
    (reading 0x137F).host = [.read (BitVec.ofNat 16 (0x1200 + 64 * 5 + 63))] ∧
    (reading 0x157F).host = [.read (BitVec.ofNat 16 (0x1400 + 64 * 5 + 63))] ∧
    (reading 0x177F).host = [.read (BitVec.ofNat 16 (0x1600 + 64 * 5 + 63))] ∧
    (reading 0x197F).host = [.read (BitVec.ofNat 16 (0x1800 + 64 * 5 + 63))] ∧
    Buf.get (elemIndex 5 63) State.reset.bufS = none ∧ Buf.get (elemIndex 5 63) State.reset.bufF = none ∧
    Buf.get (elemIndex 5 63) State.reset.bufQ = none ∧ Buf.get (elemIndex 5 63) State.reset.bufZ = none ∧
    Buf.get (elemIndex 5 63) State.reset.bufR = none := by decide +kernel

theorem witness_UnwrittenReads_csc :
    (reading 0x0010).host = [.read 0x0010] ∧ (reading 0x0011).host = [.read 0x0011] ∧
    (reading 0x0012).host = [.read 0x0012] ∧ (reading 0x0010).cscY = none ∧
    (reading 0x0011).cscCb = none ∧ (reading 0x0012).cscCr = none := by decide +kernel

/-- V-HOST: `RD 0x1000` after reset is UninitRead of S[0][0], which is recorded, and the host gets a NUM
value; STATUS is not set (R44). -/
theorem test_unwritten :
    nextIs (step (reading 0x1000)) (fun t =>
      t.uninit == some (.bufS 0 0) && t.status == State.reset.status && t.host == [] &&
      (match t.readData with | some (.num _) => true | _ => false)) = true ∧
    nextIs (exec (.zz 5) { State.reset with bufQ := filledTo 5 63 0 }) (fun t =>
      t.uninit == some (.bufQ 5 63) && intAt t.bufZ (elemIndex 5 62) == some 0 &&
      (Buf.get (elemIndex 5 63) t.bufZ).isSome && t.bufQ == filledTo 5 63 0) = true := by
  decide +kernel

/-- R204: ZZ reads Q in the order of ZZT, IDCT in natural order; the elements Q[0][2] and Q[0][8] are
unwritten. -/
theorem test_unwritten_order :
    nextIs (exec (.zz 0) { State.reset with bufQ := twoMissing }) (fun t =>
      t.uninit == some (.bufQ 0 8) && intAt t.bufZ 3 == some 0) = true ∧
    nextIs (exec (.idct 0) { State.reset with bufQ := twoMissing }) (fun t =>
      t.uninit == some (.bufQ 0 2)) = true := by decide +kernel

/-- The first UninitRead is the one recorded, and reset does not clear it (R44). -/
theorem test_unwritten_kept : nextIs (exec (.fdct 0) { State.reset with uninit := some .cscY }) (fun t =>
      t.uninit == some .cscY && (Buf.get 63 t.bufF).isSome) = true ∧
    nextIs (step { State.reset with uninit := some .cscY, host := [.reset] }) (fun t =>
      t.uninit == some .cscY) = true := by decide +kernel

theorem witness_CommandsAnswerNext : let s := { reading 0x0010 with uninit := some (.bufQ 1 2) }
    s.uninit ≠ none ∧ ∃ t, step s = .next t := ⟨by decide, _, rfl⟩

/-- A state with block 0 of every stage buffer filled. -/
def filledState (x : Nat → NumElem) (q : Nat → Coef) : State :=
  { ready 500 with bufS := fill x, bufF := fill x, bufQ := fill q, bufZ := fill q }

theorem witness_FdctExact : (filledState rampC (coefs [])).status.err = false ∧
    BlockHolds (filledState rampC (coefs [])).bufS 0 rampC := ⟨rfl, fill_holds _⟩

theorem witness_FdctConstantBlock :
    (filledState (fun _ => int 129) (coefs [])).status.err = false ∧
    (filledState (fun _ => int 129) (coefs [])).params.num = .real ∧
    BlockHolds (filledState (fun _ => int 129) (coefs [])).bufS 0 (fun _ => int 129) :=
  ⟨rfl, rfl, fill_holds _⟩

/-- F[0] with one element z at position 0 and zeros elsewhere; QT[LUM][0] = 16. -/
def one (z : Int) (k : Nat) : NumElem := if k = 0 then int z else int 0

theorem quantFormula_one (z : Int) (k : Nat) :
    quantFormula (one z k).real.toReal (qt (group 0) k) =
      if k = 0 then ⌊(z : ℝ) / 16 + 1 / 2⌋ else 0 := by
  by_cases hk : k = 0
  · subst hk
    have : qt (group 0) 0 = 16 := by decide
    simp [quantFormula, one, int, NumElem.of, this]
  · simp [quantFormula, one, int, NumElem.of, hk]
    norm_num

/-- 524264 / 16 = 32766.5, the largest quotient that rounds to 32767 here (V-Q-3). -/
theorem witness_QuantRounds : (filledState (one 524264) (coefs [])).status.err = false ∧
    (filledState (one 524264) (coefs [])).params.num = .real ∧
    BlockHolds (filledState (one 524264) (coefs [])).bufF 0 (one 524264) ∧
    ∀ k < 64, -32768 ≤ quantFormula (one 524264 k).real.toReal (qt (group 0) k) ∧
      quantFormula (one 524264 k).real.toReal (qt (group 0) k) ≤ 32767 := by
  refine ⟨rfl, rfl, fill_holds _, fun k _ => ?_⟩
  rw [quantFormula_one]
  split_ifs
  · norm_num
  · decide

/-- 524280 / 16 = 32767.5 rounds to 32768 (V-Q-3). -/
theorem witness_QuantRangeError_high : BlockHolds (filledState (one 524280) (coefs [])).bufF 0 (one 524280) ∧
    32767 < quantFormula (one 524280 0).real.toReal (qt (group 0) 0) := by
  refine ⟨fill_holds _, ?_⟩
  rw [quantFormula_one, if_pos rfl]
  norm_num

/-- −524304 / 16 = −32769 (V-Q-3). -/
theorem witness_QuantRangeError_low : BlockHolds (filledState (one (-524304)) (coefs [])).bufF 0 (one (-524304)) ∧
    quantFormula (one (-524304) 0).real.toReal (qt (group 0) 0) < -32768 := by
  refine ⟨fill_holds _, ?_⟩
  rw [quantFormula_one, if_pos rfl]
  norm_num

/-- An inexact machine with tolerance 1/1000 and the block of 129s' DCT: 8/16 is a tie, 0 is none. -/
theorem witness_QuantInexact :
    let s : State := { filledState (one 8) (coefs []) with
      params := { Config.defaultParams with num := .inexact (.ofRat (1 / 1000)) } }
    s.status.err = false ∧ s.params.num = .inexact (.ofRat (1 / 1000)) ∧ BlockHolds s.bufF 0 (one 8) ∧
    (∀ k < 64, -32768 ≤ ⌊(one 8 k).real.toReal / qt (group 0) k⌋ ∧
      ⌊(one 8 k).real.toReal / qt (group 0) k⌋ + 1 ≤ 32767) ∧
    ∀ m : Int, (NumVal.ofRat (1 / 1000)).toReal < |(one 8 1).real.toReal / qt (group 0) 1 - (m + 1 / 2)| := by
  refine ⟨rfl, rfl, fill_holds _, fun k _ => ?_, fun m => ?_⟩
  · by_cases hk : k = 0
    · subst hk
      have : qt (group 0) 0 = 16 := by decide
      simp [one, int, NumElem.of, this]
      norm_num
    · simp [one, int, NumElem.of, hk]
  · have h : |((m : ℝ) + 1 / 2)| ≥ 1 / 2 := by
      rcases le_or_gt 0 m with hm | hm
      · have : (0 : ℝ) ≤ m := by exact_mod_cast hm
        rw [abs_of_nonneg (by linarith)]
        linarith
      · have : (m : ℝ) ≤ -1 := by exact_mod_cast (by omega : m ≤ -1)
        rw [abs_of_nonpos (by linarith)]
        linarith
    have h0 : (one 8 1).real.toReal / (qt (group 0) 1 : ℝ) - ((m : ℝ) + 1 / 2) = -((m : ℝ) + 1 / 2) := by
      simp [one, int, NumElem.of]
    rw [h0, abs_neg]
    rw [NumVal.toReal_ofRat]
    push_cast
    linarith

/-- 600000 / 16 = 37500: neither neighbour fits 16 bits. -/
theorem witness_QuantInexact_range :
    let s : State := { filledState (one 600000) (coefs []) with
      params := { Config.defaultParams with num := .inexact (.ofRat (1 / 1000)) } }
    s.status.err = false ∧ s.params.num = .inexact (.ofRat (1 / 1000)) ∧
    BlockHolds s.bufF 0 (one 600000) ∧
    32767 < ⌊(one 600000 0).real.toReal / qt (group 0) 0⌋ := by
  refine ⟨rfl, rfl, fill_holds _, ?_⟩
  have : qt (group 0) 0 = 16 := by decide
  simp [one, int, NumElem.of, this]
  norm_num

theorem witness_IdctExact : BlockHolds (filledState rampC (coefs [(0, -32768), (63, 32767)])).bufQ 0
    (coefs [(0, -32768), (63, 32767)]) := fill_holds _

theorem witness_ZzScans : BlockHolds (filledState rampC (coefs [(63, 5)])).bufQ 0 (coefs [(63, 5)]) :=
  fill_holds _

theorem witness_UnzzRestores : BlockHolds (filledState rampC (coefs [(63, 5)])).bufZ 0
    (coefs [(63, 5)]) := fill_holds _

theorem witness_ZigzagRoundTrips : BlockHolds (filledState rampC (coefs [(7, 1)])).bufQ 0 (coefs [(7, 1)]) ∧
    BlockHolds (filledState rampC (coefs [(7, 1)])).bufZ 0 (coefs [(7, 1)]) :=
  ⟨fill_holds _, fill_holds _⟩

theorem witness_VliRoundTrip : (2047 : Int) ≠ 0 ∧ (2047 : Int).natAbs < 2048 ∧
    (-2047 : Int).natAbs < 2048 ∧ vli (-1024) 11 = 0b01111111111 ∧ vli (-3) 2 = 0b00 := by decide

/-- INIT's state with one DC coefficient in Z[0] or Z[4]. -/
def withDc (b : Nat) (dc : Coef) : State :=
  { ready 10 with bufZ := Buf.set (elemIndex b 0) dc [] }

theorem ready_valid (n : Nat) : (ready n).htvalid = 0xF#4 := grey_valid n

theorem ready_tableValid (n : Nat) : ∀ t < 4, (ready n).tableValid t = true := by
  have : ∀ t < 4, (0xF#4).getLsbD t = true := by decide
  simpa [State.tableValid, ready_valid] using this

theorem withDc_tableValid (b : Nat) (dc : Coef) : ∀ t < 4, (withDc b dc).tableValid t = true :=
  ready_tableValid 10

theorem withDc_built (b : Nat) (dc : Coef) : TablesBuilt (withDc b dc) := ready_built 10

/-- The largest difference that has a symbol. -/
theorem witness_DcencAppends : (withDc 0 2047).status.err = false ∧
    (withDc 0 2047).tableValid (tdc (group 0)) = true ∧ TablesBuilt (withDc 0 2047) ∧
    Buf.get (elemIndex 0 0) (withDc 0 2047).bufZ = some 2047 ∧
    vliSize ((2047 : Coef).toInt - ((withDc 0 2047).pred (slot 0)).toInt) ≤ 11 ∧
    SinkAccepts 10 (withDc 0 2047).sink :=
  ⟨rfl, withDc_tableValid 0 2047 0 (by decide), withDc_built 0 2047, rfl, by decide +kernel, ready_sink 10⟩

/-- The same with a sink that fails at once. -/
theorem witness_CodingPartialEffects_dc :
    let s : State := { withDc 5 (-2047) with sink := ⟨[], false, ⟨[false], 0⟩⟩ }
    s.status.err = false ∧ s.tableValid (tdc (group 5)) = true ∧ TablesBuilt s ∧
      Buf.get (elemIndex 5 0) s.bufZ = some (-2047) ∧
      vliSize ((-2047 : Coef).toInt - (s.pred (slot 5)).toInt) ≤ 11 :=
  ⟨rfl, withDc_tableValid 5 (-2047) 1 (by decide), withDc_built 5 (-2047), rfl, by decide +kernel⟩

/-- DC 2047 from predictor 0 is '111111110' and eleven 1-bits, R183: the bytes FF 7F and four 1-bits. The
sink refuses the first byte, its 0x00, or the second byte. -/
theorem witness_CodingPartialEffects_sink :
    let s : State := withDc 0 2047
    fullBytes (pendingBits s ++ valueBits 0 0 2047) = [0xFF, 0x7F] ∧
    SinkAccepts (stuffed []).length (answering [false]).sink ∧
    ((answering [false]).sink.wrote (stuffed [])).accepts = false ∧
    ((answering [true, false]).sink.wrote (stuffed [])).accepts = true ∧
    ((answering [true, false]).sink.wrote (stuffed [])).drawn.accepts = false ∧
    SinkAccepts (stuffed [0xFF]).length (answering [true, true, false]).sink ∧
    ((answering [true, true, false]).sink.wrote (stuffed [0xFF])).accepts = false ∧
    fullBytes (pendingBits s ++ (acSymbolsOf (coefs [(1, 1023)])).flatMap (acBits 2)) = [0xFF, 0x83, 0xFF] := by
  refine ⟨by decide +kernel, trivial, by decide +kernel, by decide +kernel, by decide +kernel,
    ⟨by decide +kernel, by decide +kernel, trivial⟩, by decide +kernel, by decide +kernel⟩

/-- R306 (c): the predictor and the bytes before the refused one stay. -/
theorem test_dcenc_sinkError : nextIs (exec (.dcenc 0)
    { withDc 0 2047 with sink := (answering [true, true, false]).sink }) (fun t =>
      t.status == ⟨true, false, 2⟩ && t.errinfo == 0x7F && t.sink.stream == [0xFF, 0x00] &&
      t.bitacc == 0x7F && t.bitidx == 0 && t.predY == 2047) = true := by decide +kernel

theorem witness_DcSymbolMissing : (withDc 4 2048).status.err = false ∧
    (withDc 4 2048).tableValid (tdc (group 4)) = true ∧
    Buf.get (elemIndex 4 0) (withDc 4 2048).bufZ = some 2048 ∧
    11 < vliSize ((2048 : Coef).toInt - ((withDc 4 2048).pred (slot 4)).toInt) :=
  ⟨rfl, withDc_tableValid 4 2048 1 (by decide), rfl, by decide +kernel⟩

/-- INIT's state with Z[0] filled. -/
def withAc (z : Nat → Coef) : State := { ready 500 with bufZ := fill z }

/-- INIT's state with a sink that fails at once: what ACENC needs but a willing sink. -/
theorem witness_CodingPartialEffects_ac :
    let s : State := { withAc (coefs [(1, 1023), (63, -1023)]) with sink := ⟨[], false, ⟨[false], 0⟩⟩ }
    s.status.err = false ∧ TablesBuilt s ∧ s.tableValid (tac (group 0)) = true ∧
      ∀ k, 1 ≤ k → k < 64 → Buf.get (elemIndex 0 k) s.bufZ =
        some (coefs [(1, 1023), (63, -1023)] k) ∧
        vliSize (coefs [(1, 1023), (63, -1023)] k).toInt ≤ 10 := by
  have hsize : ∀ k < 64, vliSize (coefs [(1, 1023), (63, -1023)] k).toInt ≤ 10 := by decide +kernel
  exact ⟨rfl, ready_built 500, ready_tableValid 500 2 (by decide),
    fun k _ hk => ⟨fill_holds _ k hk, hsize k hk⟩⟩

/-- BLKENC's RangeError: a host-written sample of 2000000 in every place. -/
theorem witness_CodingPartialEffects_range : nextIs (exec (.blkenc 0)
    { ready 500 with bufS := fill fun _ => int 2000000 }) (fun t =>
      t.status == ⟨true, false, 8⟩ && t.errinfo == 0 && t.bufQ == [] &&
      Buf.get 0 t.bufF == some (int (8 * (2000000 - 128)))) = true := by decide +kernel

/-- BLKENC's SymbolMissing in the DC step: a predictor left at 4000. -/
theorem witness_CodingPartialEffects_missing : nextIs (exec (.blkenc 0)
    { ready 500 with bufS := fill fun _ => int 128, predY := 4000 }) (fun t =>
      t.status == ⟨true, false, 7⟩ && t.errinfo == 12 && intAt t.bufZ 0 == some 0 && t.predY == 4000) =
        true := by decide +kernel

/-- The largest AC sizes that have a symbol. -/
theorem witness_AcencAppends : (withAc (coefs [(1, 1023), (63, -1023)])).status.err = false ∧
    (withAc (coefs [(1, 1023), (63, -1023)])).tableValid (tac (group 0)) = true ∧
    TablesBuilt (withAc (coefs [(1, 1023), (63, -1023)])) ∧
    (∀ k, 1 ≤ k → k < 64 →
      Buf.get (elemIndex 0 k) (withAc (coefs [(1, 1023), (63, -1023)])).bufZ =
        some (coefs [(1, 1023), (63, -1023)] k) ∧
      vliSize (coefs [(1, 1023), (63, -1023)] k).toInt ≤ 10) ∧
    SinkAccepts 500 (withAc (coefs [(1, 1023), (63, -1023)])).sink := by
  have hsize : ∀ k < 64, vliSize (coefs [(1, 1023), (63, -1023)] k).toInt ≤ 10 := by decide +kernel
  exact ⟨rfl, ready_tableValid 500 2 (by decide), ready_built 500,
    fun k _ hk => ⟨fill_holds _ k hk, hsize k hk⟩, ready_sink 500⟩

/-- A coefficient too large at position 63, after one at position 1. -/
theorem witness_AcSymbolMissing : let z := coefs [(1, 7), (63, -1024)]
    (withAc z).status.err = false ∧ (withAc z).tableValid (tac (group 0)) = true ∧
    (∀ j, 1 ≤ j → j < 64 → Buf.get (elemIndex 0 j) (withAc z).bufZ = some (z j)) ∧
    10 < vliSize (z 63).toInt ∧ (∀ j < 63, vliSize (z j).toInt ≤ 10) ∧ z 1 ≠ 0 ∧
    ∀ j < 63, 1 < j → z j = 0 :=
  ⟨rfl, ready_tableValid 500 2 (by decide), fun j _ hj => fill_holds _ j hj, by decide +kernel,
    by decide +kernel, by decide +kernel, by decide +kernel⟩

/-- The lowest position, with no coefficient before it. -/
theorem witness_AcSymbolMissing_first : let z := coefs [(1, 1024)]
    (∀ j, 1 ≤ j → j < 64 → Buf.get (elemIndex 0 j) (withAc z).bufZ = some (z j)) ∧
    10 < vliSize (z 1).toInt :=
  ⟨fun j _ hj => fill_holds _ j hj, by decide +kernel⟩

theorem witness_AcSymbols : (List.replicate 62 (0 : Int) ++ [5]).length = 63 ∧
    AcSym.zrl ∈ acSymbols (List.replicate 62 0 ++ [5]) ∧
    AcSym.eob ∈ acSymbols (List.replicate 63 0) := by decide +kernel

theorem witness_PutbitsAppends : (ready 4).status.err = false ∧ 16 ≤ 16 ∧ SinkAccepts 4 (ready 4).sink :=
  ⟨rfl, le_refl _, ready_sink 4⟩

/-- Three pending bits, 101. -/
def threeBits : State := { ready 2 with bitacc := 0b10100000, bitidx := 4 }

theorem witness_FlushEmits : threeBits.status.err = false ∧ SinkAccepts 2 threeBits.sink ∧
    threeBits.bitidx ≠ 7 := ⟨rfl, ready_sink 2, by decide +kernel⟩

/-- An empty packer in the two modes of EMPTY_FLUSH. -/
theorem witness_FlushEmits_empty : (ready 2).bitidx = 7 ∧ (ready 2).params.emptyFlush = .skip ∧
    ({ ready 2 with params := { Config.defaultParams with emptyFlush := .emit } } :
      State).params.emptyFlush = .emit := ⟨rfl, rfl, rfl⟩

theorem threeBits_inv : threeBits.Inv := by
  refine ⟨?_, rfl, ready_built 2, fun _ _ => by decide +kernel⟩
  have h : Memory.wf State.reset.inited = true := inited_memory_wf reset_memory_wf
  rw [memory_wf_iff] at h ⊢
  exact h

theorem witness_FlushPadsWithZeros : threeBits.status.err = false ∧ threeBits.Inv ∧
    threeBits.params.padMode = .zero ∧ threeBits.bitidx ≠ 7 ∧ SinkAccepts 2 threeBits.sink :=
  ⟨rfl, threeBits_inv, rfl, by decide +kernel, ready_sink 2⟩

/-- A sink that refuses at once, and one that refuses its second byte. -/
theorem witness_SinkErrors :
    let s : State := { threeBits with sink := ⟨[], false, ⟨[false], 0⟩⟩ }
    let u : State := { threeBits with
      bitacc := 0xFF, sink := ⟨[], false, ⟨[true, false], 0⟩⟩ }
    s.status.err = false ∧ s.bitidx ≠ 7 ∧ s.sink.accepts = false ∧
      u.sink.accepts = true ∧ u.bitacc = 0xFF ∧ u.sink.drawn.accepts = false := by decide +kernel

/-- `PUTBITS 16, 0x12FF`: the first byte refused; the second; the second taken and its 0x00 refused. -/
theorem witness_SinkErrors_putbits :
    (answering []).status.err = false ∧
    fullBytes (pendingBits (answering []) ++ bitsOf 0x12FF 16) = [] ++ 0x12 :: [0xFF] ∧
    fullBytes (pendingBits (answering []) ++ bitsOf 0x12FF 16) = [0x12] ++ 0xFF :: [] ∧
    SinkAccepts (stuffed []).length (answering [false]).sink ∧
    ((answering [false]).sink.wrote (stuffed [])).accepts = false ∧
    SinkAccepts (stuffed [0x12]).length (answering [true, false]).sink ∧
    ((answering [true, false]).sink.wrote (stuffed [0x12])).accepts = false ∧
    SinkAccepts (stuffed [0x12]).length (answering [true, true, false]).sink ∧
    ((answering [true, true, false]).sink.wrote (stuffed [0x12])).accepts = true ∧
    ((answering [true, true, false]).sink.wrote (stuffed [0x12])).drawn.accepts = false :=
  ⟨rfl, by decide +kernel, by decide +kernel, trivial, by decide +kernel, ⟨by decide +kernel, trivial⟩,
    by decide +kernel, ⟨by decide +kernel, trivial⟩, by decide +kernel, by decide +kernel⟩

/-- V-ERR: `PUTBITS 8, 0xFF` whose 0x00 the sink refuses; and a second byte refused. -/
theorem test_putbits_sinkError :
    nextIs (exec (.putbits 8 0xFF) (answering [true, false])) (fun t =>
      t.sink.stream == [0xFF] && t.status == ⟨true, false, 2⟩ && t.errinfo == 0 && t.bitacc == 0xFF &&
      t.bitidx == 0) = true ∧
    nextIs (exec (.putbits 16 0x1234) (answering [true, false])) (fun t =>
      t.sink.stream == [0x12] && t.status == ⟨true, false, 2⟩ && t.errinfo == 0x34 && t.bitacc == 0x34 &&
      t.bitidx == 0) = true := by decide +kernel

theorem witness_StreamOnlyGrows : ∃ t, step (issuing 0x0C000000 threeBits) = .next t := by
  obtain ⟨t, ht, -⟩ := exists_of_nextIs (r := step (issuing 0x0C000000 threeBits))
    (p := fun t => t.sink.stream == [0xA0]) (by decide +kernel)
  exact ⟨t, ht⟩

theorem witness_StuffingLaw : ∃ t, exec (.putbits 16 0xFFFF) (ready 4) = .next t ∧
    t.sink.stream = [0xFF, 0x00, 0xFF, 0x00] := by
  obtain ⟨t, ht, hp⟩ := exists_of_nextIs test_putbits
  simp only [Bool.and_eq_true, beq_iff_eq] at hp
  exact ⟨t, ht, hp.1⟩

theorem predictorsSmall_ready (n : Nat) : PredictorsSmall (ready n) := fun sl => by
  have h : (ready n).pred sl = 0 := by cases sl <;> rfl
  rw [h]
  decide

theorem witness_BlkencCodesBlock :
    let s := filledState (fun _ => int 255) (coefs [])
    s.status.err = false ∧ s.tableValid (tdc (group 0)) = true ∧
      s.tableValid (tac (group 0)) = true ∧ TablesBuilt s ∧ s.params.num = .real ∧
      PredictorsSmall s ∧ BlockHolds s.bufS 0 (fun _ => int 255) ∧
      (∀ k < 64, 0 ≤ ((fun _ => int 255) k : NumElem).real.toReal ∧
        ((fun _ => int 255) k : NumElem).real.toReal ≤ 255.5) ∧ SinkAccepts 500 s.sink := by
  refine ⟨rfl, ready_tableValid 500 0 (by decide), ready_tableValid 500 2 (by decide),
    ready_built 500, rfl, predictorsSmall_ready 500, fill_holds _, fun k _ => ?_, ready_sink 500⟩
  simp only [int, NumElem.of, NumVal.toReal_ofInt]
  norm_num

theorem witness_EncmcuIsSequence : ∃ t, runCommands (mcuCommands 0 0) (grey 24) = .next t ∧
    t.status.err = false := by
  obtain ⟨t, -, h, g, -⟩ := grey_mcu 0
  exact ⟨t, h, g.err⟩

/-- The checks of ENCMCU and ENCIMG pass. -/
theorem witness_EncmcuIsSequence_checks : (grey 0).status.err = false ∧ (grey 0).imgW ≠ 0 ∧
    (grey 0).imgH ≠ 0 ∧ 0 < (grey 0).nx ∧ 0 < (grey 0).ny ∧ (grey 0).htvalid = 0xF#4 :=
  ⟨rfl, (by decide : (1#16) ≠ 0), (by decide : (1#16) ≠ 0), (grey_mcu_index 0).1,
    (grey_mcu_index 0).2, grey_valid 0⟩

theorem witness_EncimgIsSequence : (grey 26).imgW ≠ 0 ∧ (grey 26).imgH ≠ 0 ∧
    ∃ t, runCommands (imageCommands (grey 26).nx (grey 26).ny) (grey 26) = .next t ∧
      t.status.err = false := by
  obtain ⟨u, hu, g, -⟩ := test_encmcu 2
  have hidle : ∃ t, flushBits u = .go t ∧ t.status = u.status := by
    rw [flushBits]
    split_ifs
    · obtain ⟨k, hk, -⟩ := emitByte_go (x := u.bitacc) (c := 0) g.sink
      exact ⟨State.byteDone { u with sink := k }, by rw [hk, Flow.andThen_go], rfl⟩
    · exact ⟨u, rfl, rfl⟩
  obtain ⟨t, ht, hst⟩ := hidle
  refine ⟨(by decide : (1#16) ≠ 0), (by decide : (1#16) ≠ 0), t, ?_, by rw [hst]; exact g.err⟩
  rw [(grey_canvas 26).1, (grey_canvas 26).2,
    show imageCommands 1 1 = [.encmcu 0 0, .flush] from rfl]
  have hf : exec .flush u = .next t := by
    change execFlush u = _
    rw [execFlush, command_run g.err, setDone_self g.done, ht, Flow.result_go]
  rw [runCommands, show (26 : Nat) = 2 + 24 from rfl, hu]
  dsimp only
  rw [runCommands, hf]
  dsimp only
  rw [runCommands]

/-- A sink that refuses the first byte, which the first bit fills, ends the sequence in an error. -/
theorem witness_EncimgIsSequence_error :
    let s : State := { grey 0 with bitidx := 0, sink := ⟨[], false, ⟨[false], 0⟩⟩ }
    s.status.err = false ∧ s.imgW ≠ 0 ∧ s.imgH ≠ 0 ∧ s.htvalid = 0xF#4 ∧
      nextIs (runCommands (imageCommands s.nx s.ny) s) (fun t =>
        t.status == ⟨true, false, 2⟩ && t.errinfo == 0x00) = true := by decide +kernel

theorem grey_ready (n : Nat) : ReadyToEncode (grey n) :=
  ⟨rfl, (grey_dims n).1, (grey_dims n).2, grey_valid n, ready_built n, rfl, predictorsSmall_ready n⟩

theorem grey_sink (n : Nat) : SinkAccepts n (grey n).sink := ready_sink n

theorem witness_EncmcuCompletes : ReadyToEncode (grey 2600) ∧ 0 < (grey 2600).nx ∧
    0 < (grey 2600).ny ∧ SinkAccepts 2600 (grey 2600).sink :=
  ⟨grey_ready _, (grey_mcu_index _).1, (grey_mcu_index _).2, grey_sink 2600⟩

theorem witness_EncimgCompletes : ReadyToEncode (grey 2602) ∧
    SinkAccepts (2600 * ((grey 2602).nx * (grey 2602).ny) + 2) (grey 2602).sink := by
  refine ⟨grey_ready _, ?_⟩
  rw [(grey_canvas 2602).1, (grey_canvas 2602).2, show 2600 * (1 * 1) + 2 = 2602 from rfl]
  exact grey_sink 2602

theorem witness_FirstErrorKept : (issuing 0x0F000000 failed).status.err = true ∧
    (∃ t, step (issuing 0x0F000000 failed) = .next t) ∧
    (∀ rest, (issuing 0x0F000000 failed).host ≠ .reset :: rest) ∧
    ∀ op rest, (issuing 0x0F000000 failed).host = op :: rest → ¬ Issues op 0x01000000#32 := by
  refine ⟨rfl, ⟨_, rfl⟩, fun rest h => ?_, fun op rest h hi => ?_⟩
  · simp [issuing, issueOp] at h
  · obtain ⟨v, rfl, hv⟩ := hi
    simp only [issuing, issueOp, List.cons.injEq, HostOp.write.injEq, true_and] at h
    rw [← h.1] at hv
    exact absurd hv (by decide)

/-- DONE after ENCIMG, after a NOP, and in a refused command. -/
theorem witness_DoneOnlyByEncimg : (∃ t, exec .nop (State.reset.setDone true) = .next t ∧
      t.status.done = true) ∧
    ∃ t, exec .flush { failed with status := ⟨true, true, 4⟩ } = .next t ∧ t.status.done = true :=
  ⟨⟨_, rfl, rfl⟩, ⟨_, rfl, rfl⟩⟩

theorem witness_PredictorDiscipline : ∃ t, exec .init { State.reset with predY := 5 } = .next t ∧
    t.pred .y ≠ ({ State.reset with predY := 5 } : State).pred .y := ⟨_, rfl, by decide +kernel⟩

theorem witness_PackerAndTableWriters : ∃ t, exec .init threeBits = .next t ∧
    t.bitacc ≠ threeBits.bitacc := ⟨_, rfl, by decide +kernel⟩

theorem witness_PackerAndTableWriters_tables : ∃ t, exec (.htbuild 3) State.reset = .next t ∧
    t.htvalid ≠ State.reset.htvalid := ⟨_, rfl, by decide +kernel⟩

theorem witness_BufferWriters_S : ∃ t, exec (.mcuload 0 0) (grey 0) = .next t ∧
    t.bufS ≠ (grey 0).bufS := by
  have x : exec (.mcuload 0 0) (grey 0) = .next ((grey 0).mcuLoaded 0 0) := by
    change execMcuload 0 0 (grey 0) = _
    rw [execMcuload, command_run rfl, setDone_self rfl, checkDims_pass (grey_dims _),
      Flow.andThen_go, checkMcu_pass (grey_mcu_index _), Flow.andThen_go, mculoadBody,
      Flow.result_go]
  refine ⟨_, x, fun h => ?_⟩
  have h1 := (grey_loaded 0).samples 0 (by decide) 0 (by decide)
  rw [h] at h1
  exact absurd h1 (by decide +kernel)

theorem witness_BufferWriters_FQZR :
    nextIs (exec (.fdct 0) { State.reset with bufS := fill rampC }) (fun t => t.bufF != []) = true ∧
    nextIs (exec (.quant 0) { State.reset with bufF := fill (one 8) }) (fun t => t.bufQ != []) = true ∧
    nextIs (exec (.zz 0) { State.reset with bufQ := fill (coefs []) }) (fun t => t.bufZ != []) = true ∧
    nextIs (exec (.idct 0) { State.reset with bufQ := fill (coefs []) }) (fun t => t.bufR != []) = true := by
  decide +kernel

theorem witness_BufferWriters_registers :
    nextIs (exec (.csc 1 2 3) State.reset) (fun t => t.cscY != State.reset.cscY) = true ∧
    nextIs (exec .init { State.reset with mcuX := 3 }) (fun t => t.mcuX != 3) = true := by
  decide +kernel

theorem witness_StepKeepsInv : threeBits.Inv ∧ ∃ t, step (issuing 0x0C000000 threeBits) = .next t :=
  ⟨threeBits_inv, witness_StreamOnlyGrows⟩

theorem witness_HostReadAndSink : (reading 0x0003).host = [.read 0x0003] ∧
    readValue 0x0003 (reading 0x0003) = .ok (.word 0x4A504547) ∧
    (reading 0x0013).host = [.read 0x0013] ∧ readValue 0x0013 (reading 0x0013) = .error (.stuck 0x0013) ∧
    ({ State.reset with host := [.sink 0xFF] } : State).host = [.sink 0xFF] ∧
    ({ State.reset with host := [.sinkFlush] } : State).host = [.sinkFlush] :=
  ⟨rfl, rfl, rfl, rfl, rfl, rfl⟩

/-- R66's example by a host read; a code, a table that is not built, the end of VALUES. -/
theorem witness_RegisterAndTableReads :
    let s : State := { State.reset.withTable 2 with cscY := some (int 7) }
    s.cscY = some (int 7) ∧ s.cscCb = none ∧ s.tableValid 2 = true ∧ s.tableValid 0 = false ∧
      Buf.get 0x00 (s.ht.table 2) = some ⟨10, 4⟩ ∧ Buf.get 0xFF (s.ht.table 2) = none ∧
      (htValuesOf 0).length = 12 ∧ (htValuesOf 3).length = 162 := by decide +kernel

/-- The state in which the host's next access writes v to address a. -/
def writing (a : Addr) (v : BusValue) (s : State) : State := { s with host := [.write a v] }

/-- The last element of each window as the next write, and the first of each as the next read. -/
theorem witness_StageWriteThenRead : 5 ≤ 5 ∧ 63 < 64 ∧ 0 ≤ 5 ∧ 0 < 64 ∧
    ([0x1000, 0x1200, 0x1400, 0x1600, 0x1800].all fun base =>
      (writing (BitVec.ofNat 16 (base + 383)) (.word 7) State.reset).host ==
        [.write (BitVec.ofNat 16 (base + 64 * 5 + 63)) (.word 7)] &&
      (reading (BitVec.ofNat 16 base)).host == [.read (BitVec.ofNat 16 (base + 64 * 0 + 0))]) = true ∧
    Buf.get (elemIndex 0 0) ({ reading 0x1400 with bufQ := fill (coefs [(0, -5)]) } : State).bufQ =
      some (-5) ∧
    Buf.get (elemIndex 0 0) ({ reading 0x1000 with bufS := fill rampC } : State).bufS = some (rampC 0) := by
  refine ⟨by decide, by decide, by decide, by decide, by decide +kernel, ?_, ?_⟩
  · exact fill_holds _ 0 (by decide)
  · exact fill_holds _ 0 (by decide)

/-- V-HOST: `WR 0x1400, 0x0001FFFF` leaves −1 in Q[0][0], and a read of −1 answers 0xFFFFFFFF. -/
theorem test_host_write_Q : nextIs (step (writing 0x1400 (.word 0x0001FFFF) State.reset)) (fun t =>
      intAt t.bufQ 0 == some (-1) && t.host == []) = true ∧
    nextIs (step { reading 0x1400 with bufQ := Buf.set 0 (-1) [] }) (fun t =>
      t.readData == some (.word 0xFFFFFFFF)) = true := by decide +kernel

/-- R157: what a host writes to F is what QUANT reads, with an inexact NUM too; V-HOST: IMG_W takes the low
16 bits. -/
theorem test_host_write_F :
    nextIs (step (writing 0x1200 (.num (.ofInt 9))
      { State.reset with params := { Config.defaultParams with num := .inexact .zero } })) (fun t =>
        Buf.get 0 t.bufF == some ⟨.ofInt 9, .ofInt 9⟩) = true ∧
    nextIs (step (writing 0x0004 (.word 0x12345678) State.reset)) (fun t => t.imgW == 0x5678) = true := by
  decide +kernel

/-- Addresses at the boundaries of the ignored and of the unmapped ranges (R61, V-HOST). -/
theorem witness_HostWriteElsewhere :
    [0x0001, 0x0012, 0x2000, 0x20BF, 0x2100, 0x2170, 0x2200, 0x29FF].all (fun n =>
      nextIs (step (writing (BitVec.ofNat 16 n) (.word 7) State.reset)) (· == State.reset)) = true ∧
    [0x0013, 0x0FFF, 0x1180, 0x11FF, 0x1380, 0x1980, 0x1FFF, 0x20C0, 0x20FF, 0x2111, 0x217F, 0x2180,
        0x21FF, 0x2A00, 0xFFFF].all (fun n =>
      faultIs (step (reading (BitVec.ofNat 16 n))) (.stuck (BitVec.ofNat 16 n)) &&
      faultIs (step (writing (BitVec.ofNat 16 n) (.word 7) State.reset)) (.stuck (BitVec.ofNat 16 n))) =
        true := by
  decide +kernel

theorem witness_HeaderBytes : ([] : List Byte).length ≤ 65533 ∧
    (List.replicate 65533 (0#8)).length ≤ 65533 ∧ 65533 < (List.replicate 65534 (0#8)).length := by
  simp only [List.length_nil, List.length_replicate]
  decide

end Sys2Proof.Tests
end

section
/-!
The AC symbols of a block expand back to its coefficients (R18, R220): the loop's equations, one a case,
and the induction along the coefficients.
-/

namespace Sys2Proof.Machine

/-! ### The loop of R220, case by case -/

/-- The 16th zero of a run, before the last nonzero coefficient. -/
theorem acLoop_sixteenth_zero {eob k : Nat} (h : k < eob) (zs : List Int) :
    acLoop eob k 15 (0 :: zs) = .zrl :: acLoop eob (k + 1) 0 zs := by
  simp [acLoop, show ¬ eob ≤ k by omega]

/-- Any other zero before the last nonzero coefficient. -/
theorem acLoop_zero {eob k run : Nat} (h : k < eob) (hrun : run ≠ 15) (zs : List Int) :
    acLoop eob k run (0 :: zs) = acLoop eob (k + 1) (run + 1) zs := by
  simp [acLoop, show ¬ eob ≤ k by omega, hrun]

/-- A nonzero coefficient before the last one. -/
theorem acLoop_value {eob k : Nat} (h : k < eob) (run : Nat) {z : Int} (hz : z ≠ 0) (zs : List Int) :
    acLoop eob k run (z :: zs) = .value run z :: acLoop eob (k + 1) 0 zs := by
  simp [acLoop, show ¬ eob ≤ k by omega, hz]

/-- The last nonzero coefficient, with zeros after it. -/
theorem acLoop_last {k : Nat} (h : k < 63) (run : Nat) {z : Int} (hz : z ≠ 0) (zs : List Int) :
    acLoop k k run (z :: zs) = [.value run z, .eob] := by
  simp [acLoop, h, hz]

/-- A nonzero coefficient at position 63. -/
theorem acLoop_end (run : Nat) {z : Int} (hz : z ≠ 0) :
    acLoop 63 63 run [z] = [.value run z] := by
  simp [acLoop, hz]

/-- The first position after the last nonzero coefficient. -/
theorem acLoop_zeros {eob k : Nat} (h : eob ≤ k) (heob : eob < 63) (run : Nat) (hrun : run ≠ 15)
    (zs : List Int) : acLoop eob k run (0 :: zs) = [.eob] := by
  simp [acLoop, h, heob, hrun]

/-- Either every coefficient is zero, and the index is the one from before, or the index is one of theirs. -/
theorem lastNonzero_cases (k acc : Nat) (zs : List Int) :
    (lastNonzero k acc zs = acc ∧ zs = List.replicate zs.length 0) ∨ k ≤ lastNonzero k acc zs := by
  induction zs generalizing k acc with
  | nil => exact .inl ⟨rfl, rfl⟩
  | cons z zs ih =>
    rcases ih (k + 1) (if z = 0 then acc else k) with ⟨hlast, hzs⟩ | hlast
    · by_cases hz : z = 0
      · subst hz
        exact .inl ⟨by simpa [lastNonzero] using hlast, by simpa [List.replicate_succ] using hzs⟩
      · rw [if_neg hz] at hlast
        exact .inr (by rw [lastNonzero, if_neg hz, hlast])
    · exact .inr (by rw [lastNonzero]; omega)

/-! ### Expanding the symbols -/

/-- From a position up to the last nonzero coefficient on, the loop's symbols stand for the zeros counted
so far and the coefficients that are left, but for zeros at the end. -/
theorem acExpand_acLoop {k run acc : Nat} {zs : List Int} (hlen : k + zs.length = 64)
    (hlast : k ≤ lastNonzero k acc zs) (hacc : acc < k) :
    ∃ n, acExpand (acLoop (lastNonzero k acc zs) k run zs) ++ List.replicate n 0 =
      List.replicate run 0 ++ zs := by
  induction zs generalizing k run acc with
  | nil => exact absurd hlast (by rw [lastNonzero]; omega)
  | cons z zs ih =>
    rw [List.length_cons] at hlen
    by_cases hz : z = 0
    · subst hz
      have hrec : lastNonzero k acc (0 :: zs) = lastNonzero (k + 1) acc zs := by simp [lastNonzero]
      rw [hrec] at hlast ⊢
      have hbefore : k + 1 ≤ lastNonzero (k + 1) acc zs := by
        rcases lastNonzero_cases (k + 1) acc zs with ⟨h, -⟩ | h
        · omega
        · exact h
      by_cases h15 : run = 15
      · subst h15
        obtain ⟨n, hn⟩ := ih (k := k + 1) (run := 0) (by omega) hbefore (by omega)
        exact ⟨n, by simpa [acLoop_sixteenth_zero hbefore, acExpand, List.replicate_succ] using hn⟩
      · obtain ⟨n, hn⟩ := ih (k := k + 1) (run := run + 1) (by omega) hbefore (by omega)
        exact ⟨n, by simpa [acLoop_zero hbefore h15, List.replicate_succ'] using hn⟩
    · have hrec : lastNonzero k acc (z :: zs) = lastNonzero (k + 1) k zs := by simp [lastNonzero, hz]
      rw [hrec]
      rcases lastNonzero_cases (k + 1) k zs with ⟨h, hzs⟩ | hbefore
      · rw [h]
        by_cases hk : k < 63
        · exact ⟨zs.length, by simp [acLoop_last hk run hz, acExpand, ← hzs]⟩
        · obtain rfl : k = 63 := by omega
          obtain rfl : zs = [] := List.length_eq_zero_iff.mp (by omega)
          exact ⟨0, by simp [acLoop_end run hz, acExpand]⟩
      · obtain ⟨n, hn⟩ := ih (k := k + 1) (run := 0) (by omega) hbefore (by omega)
        exact ⟨n, by simpa [acLoop_value hbefore run hz, acExpand] using hn⟩

/-- The symbols of 63 coefficients stand for them, but for zeros at the end. -/
theorem acExpand_acSymbols {zs : List Int} (hlen : zs.length = 63) :
    ∃ n, acExpand (acSymbols zs) ++ List.replicate n 0 = zs := by
  rw [acSymbols]
  rcases lastNonzero_cases 1 0 zs with ⟨h, hzs⟩ | h
  · rw [h, hzs, hlen]
    exact ⟨63, by rw [List.replicate_succ, acLoop_zeros (by omega) (by omega) 0 (by omega)]; rfl⟩
  · simpa using acExpand_acLoop (run := 0) (by omega) h (by omega)

/-- Settles O35: the symbols expand to the coefficients but for zeros at the end, and the length 63 says
how many are missing. -/
theorem acSymbolsDecode : Obligations.AcSymbolsDecode := by
  intro zs hlen
  obtain ⟨n, hn⟩ := acExpand_acSymbols hlen
  have hcount : 63 - (acExpand (acSymbols zs)).length = n := by
    have := congrArg List.length hn
    simp only [List.length_append, List.length_replicate, hlen] at this
    omega
  rw [hcount, hn]

end Sys2Proof.Machine
end

section
/-!
Who may change a predictor (R30, R215): a part of a command's course keeps a slot's predictor, and parts
that keep it compose.
-/

namespace Sys2Proof.Machine

/-- A part of a command's course keeps PRED[sl], however it ends (R30). -/
def KeepsPred (sl : Slot) (f : State → Flow) : Prop :=
  ∀ s, (f s).Holds (fun t => t.pred sl = s.pred sl) (fun t => t.pred sl = s.pred sl)

section

variable {sl : Slot}

theorem KeepsPred.andThen {f g : State → Flow} (hf : KeepsPred sl f) (hg : KeepsPred sl g) :
    KeepsPred sl fun s => (f s).andThen g :=
  fun s => (hf s).andThen fun t ht => ht ▸ hg t

/-- A command whose body keeps a predictor keeps it, refused or not. -/
theorem KeepsPred.of_command {body : State → Flow} (hb : KeepsPred sl body) {s t : State}
    (h : command body s = .next t) : t.pred sl = s.pred sl :=
  command_holds (P := fun t => t.pred sl = s.pred sl) h (fun _ => rfl) fun _ => by
    simpa using hb (s.setDone false)

/-! ### The checks -/

theorem checkBlock_keepsPred (b : Nat) : KeepsPred sl (checkBlock b) :=
  fun s => checkBlock_holds (fun _ => rfl) fun _ => s.pred_raised _ _ sl

theorem checkDims_keepsPred : KeepsPred sl checkDims :=
  fun s => checkDims_holds (fun _ => rfl) (s.pred_raised _ _ sl)

theorem checkMcu_keepsPred (mx my : Nat) (w : Word) : KeepsPred sl (checkMcu mx my w) :=
  fun s => checkMcu_holds (fun _ => rfl) (s.pred_raised _ _ sl)

theorem checkCount_keepsPred (n : Nat) (w : Word) : KeepsPred sl (checkCount n w) :=
  fun s => checkCount_holds (fun _ => rfl) (s.pred_raised _ _ sl)

theorem checkTables_keepsPred (ts : List Nat) : KeepsPred sl (checkTables ts) :=
  fun s => checkTables_holds (fun _ => rfl) fun _ _ => s.pred_raised _ _ sl

/-! ### Packing and coding -/

theorem SameButPacker.pred {s t : State} (h : SameButPacker s t) : t.pred sl = s.pred sl := by
  rw [h]
  cases sl <;> rfl

theorem PackFailed.pred {s t : State} (h : PackFailed s t) : t.pred sl = s.pred sl := by
  obtain ⟨u, info, hu, rfl, -⟩ := h
  rw [State.pred_raised, hu.pred]

theorem CodeFailed.pred {s t : State} (h : CodeFailed s t) : t.pred sl = s.pred sl := by
  rcases h with h | ⟨u, info, hu, rfl⟩
  · exact h.pred
  · rw [State.pred_raised, hu.1.pred]

theorem putBits_keepsPred (v n : Nat) : KeepsPred sl (putBits v n) :=
  fun s => (putBits_holds v n s).mono (fun _ h => h.1.pred) (fun _ h => h.pred)

theorem flushBits_keepsPred : KeepsPred sl flushBits :=
  fun s => (flushBits_holds s).mono (fun _ h => h.1.pred) (fun _ h => h.pred)

/-! ### The bodies -/

/-- Predictors are those of a state whose three predictor registers are the same. -/
theorem State.pred_congr {s t : State} (hy : t.predY = s.predY) (hcb : t.predCb = s.predCb)
    (hcr : t.predCr = s.predCr) : t.pred sl = s.pred sl := by
  cases sl <;> assumption

theorem htbuildBody_keepsPred (t : Nat) : KeepsPred sl (htbuildBody t) :=
  fun _ => State.pred_congr rfl rfl rfl

theorem cscBody_keepsPred (r g b : Nat) : KeepsPred sl (cscBody r g b) :=
  fun _ => State.pred_congr rfl rfl rfl

theorem mculoadBody_keepsPred (mx my : Nat) : KeepsPred sl (mculoadBody mx my) :=
  fun _ => State.pred_congr rfl rfl rfl

theorem fdctBody_keepsPred (b : Nat) : KeepsPred sl (fdctBody b) := fun s =>
  (fdctBody_holds b s).mono
    (by rintro _ ⟨xs, r, u, -, -, rfl⟩; exact State.pred_congr rfl rfl rfl) (fun _ h => h.elim)

theorem quantBody_keepsPred (b : Nat) : KeepsPred sl (quantBody b) := fun s =>
  (quantBody_holds b s).mono
    (by rintro _ ⟨xs, o, r, u, -, -, rfl⟩; exact State.pred_congr rfl rfl rfl)
    (by rintro _ ⟨o, r, u, info, -, rfl⟩; exact State.pred_congr rfl rfl rfl)

theorem idctBody_keepsPred (b : Nat) : KeepsPred sl (idctBody b) := fun s =>
  (idctBody_holds b s).mono
    (by rintro _ ⟨xs, r, u, -, -, rfl⟩; exact State.pred_congr rfl rfl rfl) (fun _ h => h.elim)

theorem zzBody_keepsPred (b : Nat) : KeepsPred sl (zzBody b) := fun s =>
  (zzBody_holds b s).mono
    (by rintro _ ⟨xs, r, u, -, -, rfl⟩; exact State.pred_congr rfl rfl rfl) (fun _ h => h.elim)

theorem unzzBody_keepsPred (b : Nat) : KeepsPred sl (unzzBody b) := fun s =>
  (unzzBody_holds b s).mono
    (by rintro _ ⟨xs, r, u, -, -, rfl⟩; exact State.pred_congr rfl rfl rfl) (fun _ h => h.elim)

/-- A slot's predictor is kept by a read and by the write of another slot. -/
theorem State.pred_setPred_other (s : State) {sl' : Slot} (h : sl' ≠ sl) (v : Coef) (r : Nat)
    (u : Option Location) :
    (State.setPred { s with reads := r, uninit := u } sl' v).pred sl = s.pred sl := by
  rw [State.pred_setPred, if_neg h]
  exact State.pred_congr rfl rfl rfl

/-- DCENC b touches no slot but b's (R215). -/
theorem dcencBody_keepsPred {b : Nat} (h : slot b ≠ sl) : KeepsPred sl (dcencBody b) := fun s =>
  (dcencBody_holds b s).mono
    (by rintro t ⟨dc, r, u, -, ht⟩; rw [ht.1.pred, s.pred_setPred_other h])
    (by
      rintro t ⟨r, u, -, ⟨dc, ht⟩ | ⟨info, rfl⟩⟩
      · rw [ht.pred, s.pred_setPred_other h]
      · exact State.pred_congr rfl rfl rfl)

theorem acencBody_keepsPred (b : Nat) : KeepsPred sl (acencBody b) := fun s =>
  (acencBody_holds b s).mono
    (by rintro t ⟨r, u, -, ht⟩; exact ht.1.pred.trans (State.pred_congr rfl rfl rfl))
    (by rintro t ⟨r, u, -, ht⟩; exact ht.pred.trans (State.pred_congr rfl rfl rfl))

theorem blkencBody_keepsPred {b : Nat} (h : slot b ≠ sl) : KeepsPred sl (blkencBody b) :=
  (fdctBody_keepsPred b).andThen <| (quantBody_keepsPred b).andThen <|
    (zzBody_keepsPred b).andThen <| (dcencBody_keepsPred h).andThen (acencBody_keepsPred b)

/-! ### The commands -/

/-- The form of a command on a block: the check of b, then the rest. -/
theorem KeepsPred.onBlock {b : Nat} {body : State → Flow} (h : KeepsPred sl body) {s t : State}
    (hnext : command (fun s => (checkBlock b s).andThen body) s = .next t) :
    t.pred sl = s.pred sl :=
  ((checkBlock_keepsPred b).andThen h).of_command hnext

/-- Every command but INIT and those that run DCENC keeps every predictor; DCENC b and BLKENC b keep those
of the slots that are not b's (R30, R215). -/
theorem exec_keepsPred {i : Instr} {s t : State} (h : exec i s = .next t)
    (hinit : i ≠ .init) (himg : i ≠ .encimg) (hmcu : ∀ mx my, i ≠ .encmcu mx my)
    (hblock : ∀ b, i = .dcenc b ∨ i = .blkenc b → slot b ≠ sl) : t.pred sl = s.pred sl := by
  cases i with
  | nop => rw [(Host.Outcome.next.inj h : s = t)]
  | init => exact absurd rfl hinit
  | htbuild u => exact (htbuildBody_keepsPred u).of_command h
  | csc r g b => exact (cscBody_keepsPred r g b).of_command h
  | mcuload mx my =>
    exact (checkDims_keepsPred.andThen
      ((checkMcu_keepsPred mx my _).andThen (mculoadBody_keepsPred mx my))).of_command h
  | fdct b => exact (fdctBody_keepsPred b).onBlock h
  | quant b => exact (quantBody_keepsPred b).onBlock h
  | idct b => exact (idctBody_keepsPred b).onBlock h
  | zz b => exact (zzBody_keepsPred b).onBlock h
  | unzz b => exact (unzzBody_keepsPred b).onBlock h
  | dcenc b =>
    exact ((checkTables_keepsPred _).andThen (dcencBody_keepsPred (hblock b (.inl rfl)))).onBlock h
  | acenc b => exact ((checkTables_keepsPred _).andThen (acencBody_keepsPred b)).onBlock h
  | putbits n v => exact ((checkCount_keepsPred n _).andThen (putBits_keepsPred v.toNat n)).of_command h
  | flush => exact flushBits_keepsPred.of_command h
  | blkenc b =>
    exact ((checkTables_keepsPred _).andThen (blkencBody_keepsPred (hblock b (.inr rfl)))).onBlock h
  | encmcu mx my => exact absurd rfl (hmcu mx my)
  | encimg => exact absurd rfl himg

end

/-- Settles O50: a command that is none of those named keeps the predictor. -/
theorem predictorDiscipline : Obligations.PredictorDiscipline := by
  refine ⟨by decide, fun i s t sl h hne => ?_⟩
  by_contra hnone
  push Not at hnone
  obtain ⟨hinit, himg, hmcu, hblock⟩ := hnone
  exact hne (exec_keepsPred h hinit himg hmcu fun b hb => (hblock b hb).symm)

end Sys2Proof.Machine
end

section
/-!
A coding command with a table that is not built (R32, R300): the check of the tables names the lowest one,
and raising its error is all the command does.
-/

namespace Sys2Proof.Machine

/-- A command whose course comes to nothing but `raise` leaves what R305 says. -/
theorem command_raises {body : State → Flow} {s : State} {e : ErrorKind} {info : Word}
    (herr : s.status.err = false) (h : body (s.setDone false) = raise e info (s.setDone false)) :
    command body s = .next (s.erring e.code info) := by
  rw [command_run herr, h, raise, Flow.result_stop, State.raised_of_ok (s := s.setDone false) herr]
  rfl

@[simp] theorem raise_andThen (e : ErrorKind) (info : Word) (s : State) (f : State → Flow) :
    (raise e info s).andThen f = raise e info s := rfl

/-- The first listed table that is not built is the one the check raises. -/
theorem checkTables_fail {ts : List Nat} {t : Nat} {s : State}
    (h : ts.find? (fun t => !s.tableValid t) = some t) :
    checkTables ts s = raise .tableNotBuilt (BitVec.ofNat 32 t) s := by
  simp [checkTables, h]

/-- Of the four tables, one with every lower one built is the first that is not. -/
theorem find?_four_tables {t : Nat} {s : State} (ht : t < 4) (h : s.tableValid t = false)
    (hlow : ∀ t' < t, s.tableValid t' = true) :
    [0, 1, 2, 3].find? (fun t => !s.tableValid t) = some t :=
  List.find?_range_eq_some (n := 4).mpr
    ⟨by simp [h], List.mem_range.mpr ht, fun j hj => by simp [hlow j hj]⟩

/-- Image dimensions that are not 0 pass the check of R131. -/
theorem checkDims_pass_of_ne {s : State} (hw : s.imgW ≠ 0) (hh : s.imgH ≠ 0) : checkDims s = .go s :=
  checkDims_pass ⟨by bv_omega, by bv_omega⟩

/-- The form of a coding command on a block: with b legal, the check of its tables decides (R307). -/
theorem blockCommand_tableNotBuilt {s : State} {b t : Nat} {ts : List Nat} {body : State → Flow}
    (herr : s.status.err = false) (hb : b ≤ 5)
    (hfirst : ts.find? (fun t => !s.tableValid t) = some t) :
    command (fun s => (checkBlock b s).andThen fun s => (checkTables ts s).andThen body) s =
      .next (s.erring 0x06 (BitVec.ofNat 32 t)) := by
  refine command_raises (e := .tableNotBuilt) herr ?_
  rw [checkBlock_pass hb, Flow.andThen_go, checkTables_fail (s := s.setDone false) hfirst,
    raise_andThen]

/-- Settles O18: the checks before that of the tables pass, and that one raises the error. -/
theorem tableNotBuiltRaised : Obligations.TableNotBuiltRaised := by
  refine ⟨by decide, fun s t herr ht hbuilt => ⟨fun b hb htab => ?_, fun b hb htab => ?_,
    fun b hb htab => ?_, fun hlow hw hh => ?_⟩⟩
  · exact blockCommand_tableNotBuilt herr hb (by simp [← htab, hbuilt])
  · exact blockCommand_tableNotBuilt herr hb (by simp [← htab, hbuilt])
  · refine blockCommand_tableNotBuilt herr hb ?_
    rcases htab with hdc | ⟨hac, hdc⟩
    · simp [← hdc, hbuilt]
    · simp [← hac, hdc, hbuilt]
  · have hdims := checkDims_pass_of_ne (s := s.setDone false) hw hh
    have htables := checkTables_fail (s := s.setDone false)
      (find?_four_tables ht hbuilt hlow)
    refine ⟨?_, fun mx my hx hy => ?_⟩
    · rw [exec, execEncimg]
      refine command_raises (e := .tableNotBuilt) herr ?_
      rw [hdims, Flow.andThen_go, htables, raise_andThen]
    · rw [exec, execEncmcu]
      refine command_raises (e := .tableNotBuilt) herr ?_
      rw [hdims, Flow.andThen_go, checkMcu_pass (s := s.setDone false) ⟨hx, hy⟩, Flow.andThen_go,
        htables, raise_andThen]

end Sys2Proof.Machine
end

section
/-!
QUANT with NUM = Real (R155, R156): the values it computes are round_hu of the exact quotients, and it
takes no draw.
-/

namespace Sys2Proof.Machine

/-- `quant` is R155's formula over the real numbers. -/
theorem quant_eq_quantFormula (x : NumVal) (t : Nat) : quant x t = quantFormula x.toReal t := by
  rw [quant, roundHu_eq, quantFormula, NumVal.toReal_scale]
  push_cast
  rw [one_div_mul_eq_div]

/-- With NUM = Real every element is quantised by itself, and no draw is taken. -/
theorem quantList_real (g k n : Nat) (f : Nat → NumVal) (o : Oracle) :
    quantList .real g k ((List.range' k n).map f) o =
      ((List.range' k n).map fun j => quantFormula (f j).toReal (qt g j), o) := by
  induction n generalizing k with
  | zero => rfl
  | succ n ih =>
    rw [List.range'_succ, List.map_cons, quantList, quantDraw, ih, quant_eq_quantFormula]
    rfl

/-- The values QUANT computes for a block with NUM = Real (R155). -/
noncomputable def quantised (b : Nat) (x : Nat → NumElem) (k : Nat) : Int :=
  quantFormula (x k).real.toReal (qt (group b) k)

theorem inInt16_iff (z : Int) : inInt16 z = true ↔ -32768 ≤ z ∧ z ≤ 32767 := by
  simp [inInt16]

/-- A value that fits 16 bits is read back as it is. -/
theorem toInt_ofInt_of_inInt16 {z : Int} (h : -32768 ≤ z ∧ z ≤ 32767) :
    (BitVec.ofInt 16 z).toInt = z :=
  BitVec.toInt_ofInt_eq_self (by decide) (by norm_num; omega) (by norm_num; omega)

/-- The body of QUANT on a written block with NUM = Real, where every value fits 16 bits (R156). -/
theorem quantBody_real_of_fits {s : State} {b : Nat} {x : Nat → NumElem} (hnum : s.params.num = .real)
    (hx : BlockHolds s.bufF b x)
    (hfit : ∀ k < 64, -32768 ≤ quantised b x k ∧ quantised b x k ≤ 32767) :
    quantBody b s =
      .go (s.setQ b (((List.range 64).map (quantised b x)).map (BitVec.ofInt 16))) := by
  have hlist : quantList .real (group b) 0 (((List.range 64).map x).map NumElem.real) s.tie =
      ((List.range 64).map (quantised b x), s.tie) := by
    rw [List.map_map, List.range_eq_range', quantList_real]
    rfl
  have hnone : ((List.range 64).map (quantised b x)).findIdx? (fun z => !inInt16 z) = none := by
    simpa [List.findIdx?_eq_none_iff, inInt16_iff] using hfit
  rw [quantBody, readBlock_eq hx, hnum, hlist]
  simp only [hnone]

/-- Settles O22: every value fits, so all are written, and QUANT changes nothing else. -/
theorem quantRounds : Obligations.QuantRounds := by
  intro s b x herr hb hnum hx hfit
  have hexec : exec (.quant b) s = .next ((s.setDone false).setQ b
      (((List.range 64).map (quantised b x)).map (BitVec.ofInt 16))) := by
    rw [exec, execQuant, command_run herr, checkBlock_pass hb, Flow.andThen_go,
      quantBody_real_of_fits (s := s.setDone false) hnum hx hfit, Flow.result_go]
  refine ⟨_, hexec, fun k hk => ⟨BitVec.ofInt 16 (quantised b x k), ?_, ?_⟩, fun j hj => ?_, rfl⟩
  · rw [State.setQ, Buf.get_setBlock_elem b k _ _ (by simp) hk]
    simp [hk]
  · exact toInt_ofInt_of_inInt16 (hfit k hk)
  · exact Buf.get_setBlock_other b j _ _ (by simp) hj

end Sys2Proof.Machine
end

section
/-!
What a command can do, said once (R90, R305, R308). Its course is a chain of updates, each of one kind, and a
command names the kinds it uses.
-/

namespace Sys2Proof.Machine

/-! ### The updates a course is made of -/

/-- The kinds of update that a command's course is made of. -/
inductive UpdateKind where
  | status
  | done
  | draws
  | csc
  | load
  | bufF
  | bufQ
  | bufZ
  | bufR
  | pred
  | packer
  | table (t : Nat)
deriving DecidableEq

/-- One update of a kind, from a state to a state. -/
inductive Update : UpdateKind → State → State → Prop
  | raised (s : State) (e : ErrorKind) (info : Word) : Update .status s (s.raised e info)
  | done (s : State) (v : Bool) : Update .done s (s.setDone v)
  | read {s : State} {u : Option Location} (r : Nat) (h : s.KeepsUninit u) :
      Update .draws s { s with reads := r, uninit := u }
  | tie (s : State) (o : Oracle) : Update .draws s { s with tie := o }
  | csc (s : State) (y cb cr : NumElem) :
      Update .csc s { s with cscY := some y, cscCb := some cb, cscCr := some cr }
  | load (s : State) (mx my : Nat) : Update .load s (s.mcuLoaded mx my)
  | setF (s : State) {b : Nat} {xs : List NumElem} (hb : b ≤ 5) (hx : xs.length = 64) :
      Update .bufF s (s.setF b xs)
  | setQ (s : State) {b : Nat} {xs : List Coef} (hb : b ≤ 5) (hx : xs.length = 64) :
      Update .bufQ s (s.setQ b xs)
  | setZ (s : State) {b : Nat} {xs : List Coef} (hb : b ≤ 5) (hx : xs.length = 64) :
      Update .bufZ s (s.setZ b xs)
  | setR (s : State) {b : Nat} {xs : List NumElem} (hb : b ≤ 5) (hx : xs.length = 64) :
      Update .bufR s (s.setR b xs)
  | pred (s : State) (sl : Slot) (v : Coef) : Update .pred s (s.setPred sl v)
  | packed {s t : State} (h : Packed s t) : Update .packer s t
  | packFailed {s t : State} (h : PackFailed s t) : Update .packer s t
  | table (s : State) (t : Nat) : Update (.table t) s (s.withTable t)

/-- t comes from s by updates of the kinds K. -/
def Reach (K : List UpdateKind) : State → State → Prop :=
  Relation.ReflTransGen fun s t => ∃ k ∈ K, Update k s t

theorem Update.reach {K : List UpdateKind} {k : UpdateKind} {s t : State} (h : Update k s t)
    (hk : k ∈ K) : Reach K s t := .single ⟨k, hk, h⟩

theorem Reach.refl (K : List UpdateKind) (s : State) : Reach K s s := Relation.ReflTransGen.refl

theorem Reach.trans {K : List UpdateKind} {s t u : State} (h : Reach K s t) (h' : Reach K t u) :
    Reach K s u := Relation.ReflTransGen.trans h h'

theorem Reach.mono {K L : List UpdateKind} (hKL : K ⊆ L) {s t : State} (h : Reach K s t) :
    Reach L s t :=
  Relation.ReflTransGen.mono (fun _ _ ⟨k, hk, hu⟩ => ⟨k, hKL hk, hu⟩) _ _ h

/-- What every update of the kinds keeps, their chains keep. -/
theorem Reach.preserves {K : List UpdateKind} {P : State → Prop}
    (hP : ∀ k ∈ K, ∀ u v, Update k u v → P u → P v) {s t : State} (h : Reach K s t) (hs : P s) :
    P t := by
  induction h with
  | refl => exact hs
  | tail _ hstep ih =>
    obtain ⟨k, hk, hu⟩ := hstep
    exact hP k hk _ _ hu ih

/-- A part of a command's course is made of updates of the kinds K, however it ends. -/
def Runs (K : List UpdateKind) (f : State → Flow) : Prop :=
  ∀ s, (f s).Holds (Reach K s) (Reach K s)

theorem Runs.mono {K L : List UpdateKind} {f : State → Flow} (h : Runs K f) (hKL : K ⊆ L) :
    Runs L f := fun s => (h s).mono (fun _ => Reach.mono hKL) (fun _ => Reach.mono hKL)

/-- A course in two parts uses the kinds of both. -/
theorem Runs.andThen {K L : List UpdateKind} {f g : State → Flow} (hf : Runs K f) (hg : Runs L g) :
    Runs (K ++ L) fun s => (f s).andThen g := fun s =>
  (hf.mono (List.subset_append_left K L) s).andThen fun u hu =>
    (hg.mono (List.subset_append_right K L) u).mono (fun _ => hu.trans) (fun _ => hu.trans)

theorem Runs.forEach {α : Type} {K : List UpdateKind} {xs : List α} {f : α → State → Flow}
    (hf : ∀ x ∈ xs, Runs K (f x)) : Runs K (forEach xs f) := fun s =>
  forEach_holds (fun x hx u hu => (hf x hx u).mono (fun _ => hu.trans) (fun _ => hu.trans))
    (Reach.refl K s)

/-! ### The checks and the bodies -/

theorem checkDims_runs : Runs [.status] checkDims := fun s =>
  checkDims_holds (fun _ => .refl _ s) ((Update.raised s _ _).reach (by simp))

theorem checkMcu_runs (mx my : Nat) (w : Word) : Runs [.status] (checkMcu mx my w) := fun s =>
  checkMcu_holds (fun _ => .refl _ s) ((Update.raised s _ _).reach (by simp))

theorem checkCount_runs (n : Nat) (w : Word) : Runs [.status] (checkCount n w) := fun s =>
  checkCount_holds (fun _ => .refl _ s) ((Update.raised s _ _).reach (by simp))

theorem checkTables_runs (ts : List Nat) : Runs [.status] (checkTables ts) := fun s =>
  checkTables_holds (fun _ => .refl _ s) fun _ _ => (Update.raised s _ _).reach (by simp)

/-- A part that runs where b is legal runs behind the check of b. -/
theorem Runs.onBlock {K : List UpdateKind} {b : Nat} {f : State → Flow} (hf : b ≤ 5 → Runs K f) :
    Runs (.status :: K) fun s => (checkBlock b s).andThen f := fun s =>
  (checkBlock_holds (G := fun t => b ≤ 5 ∧ t = s) (fun hb => ⟨hb, rfl⟩)
    fun _ => (Update.raised s _ _).reach (by simp)).andThen fun t ⟨hb, ht⟩ =>
      ht ▸ (hf hb).mono (List.subset_cons_self _ _) t

theorem htbuildBody_runs (t : Nat) : Runs [.table t] (htbuildBody t) := fun s =>
  (Update.table s t).reach (by simp)

theorem cscBody_runs (r g b : Nat) : Runs [.csc] (cscBody r g b) := fun s =>
  (Update.csc s _ _ _).reach (by simp)

theorem mculoadBody_runs (mx my : Nat) : Runs [.load] (mculoadBody mx my) := fun s =>
  (Update.load s mx my).reach (by simp)

theorem fdctBody_runs {b : Nat} (hb : b ≤ 5) : Runs [.draws, .bufF] (fdctBody b) := fun s =>
  (fdctBody_holds b s).mono
    (fun _ ⟨_, r, _, hx, hu, ht⟩ => ht ▸
      ((Update.read r hu).reach (by simp)).trans ((Update.setF _ hb hx).reach (by simp)))
    (fun _ h => h.elim)

theorem quantBody_runs {b : Nat} (hb : b ≤ 5) : Runs [.status, .draws, .bufQ] (quantBody b) := fun s =>
  (quantBody_holds b s).mono
    (fun _ ⟨_, o, r, _, hx, hu, ht⟩ => ht ▸
      (((Update.read r hu).reach (by simp)).trans ((Update.tie _ o).reach (by simp))).trans
        ((Update.setQ _ hb hx).reach (by simp)))
    (fun _ ⟨o, r, _, _, hu, ht⟩ => ht ▸
      (((Update.read r hu).reach (by simp)).trans ((Update.tie _ o).reach (by simp))).trans
        ((Update.raised _ _ _).reach (by simp)))

theorem idctBody_runs {b : Nat} (hb : b ≤ 5) : Runs [.draws, .bufR] (idctBody b) := fun s =>
  (idctBody_holds b s).mono
    (fun _ ⟨_, r, _, hx, hu, ht⟩ => ht ▸
      ((Update.read r hu).reach (by simp)).trans ((Update.setR _ hb hx).reach (by simp)))
    (fun _ h => h.elim)

theorem zzBody_runs {b : Nat} (hb : b ≤ 5) : Runs [.draws, .bufZ] (zzBody b) := fun s =>
  (zzBody_holds b s).mono
    (fun _ ⟨_, r, _, hx, hu, ht⟩ => ht ▸
      ((Update.read r hu).reach (by simp)).trans ((Update.setZ _ hb hx).reach (by simp)))
    (fun _ h => h.elim)

theorem unzzBody_runs {b : Nat} (hb : b ≤ 5) : Runs [.draws, .bufQ] (unzzBody b) := fun s =>
  (unzzBody_holds b s).mono
    (fun _ ⟨_, r, _, hx, hu, ht⟩ => ht ▸
      ((Update.read r hu).reach (by simp)).trans ((Update.setQ _ hb hx).reach (by simp)))
    (fun _ h => h.elim)

theorem putBits_runs (v n : Nat) : Runs [.packer] (putBits v n) := fun s =>
  (putBits_holds v n s).mono (fun _ h => (Update.packed h).reach (by simp))
    (fun _ h => (Update.packFailed h).reach (by simp))

theorem flushBits_runs : Runs [.packer] flushBits := fun s =>
  (flushBits_holds s).mono (fun _ h => (Update.packed h).reach (by simp))
    (fun _ h => (Update.packFailed h).reach (by simp))

/-- Coding that stops has packed, and raised an error. -/
theorem CodeFailed.reach {K : List UpdateKind} (hK : [.status, .packer] ⊆ K) {s t : State}
    (h : CodeFailed s t) : Reach K s t := by
  rcases h with h | ⟨u, info, hu, rfl⟩
  · exact (Update.packFailed h).reach (hK (by simp))
  · exact ((Update.packed hu).reach (hK (by simp))).trans ((Update.raised u _ _).reach (hK (by simp)))

theorem dcencBody_runs (b : Nat) : Runs [.status, .draws, .pred, .packer] (dcencBody b) := fun s =>
  (dcencBody_holds b s).mono
    (fun _ ⟨v, r, _, hu, h⟩ =>
      (((Update.read r hu).reach (by simp)).trans ((Update.pred _ _ v).reach (by simp))).trans
        ((Update.packed h).reach (by simp)))
    (by
      rintro _ ⟨r, _, hu, ⟨v, h⟩ | ⟨_, rfl⟩⟩
      · exact (((Update.read r hu).reach (by simp)).trans ((Update.pred _ _ v).reach (by simp))).trans
          (h.reach (by simp))
      · exact ((Update.read r hu).reach (by simp)).trans ((Update.raised _ _ _).reach (by simp)))

theorem acencBody_runs (b : Nat) : Runs [.status, .draws, .packer] (acencBody b) := fun s =>
  (acencBody_holds b s).mono
    (fun _ ⟨r, _, hu, h⟩ =>
      ((Update.read r hu).reach (by simp)).trans ((Update.packed h).reach (by simp)))
    (fun _ ⟨r, _, hu, h⟩ => ((Update.read r hu).reach (by simp)).trans (h.reach (by simp)))

/-- The kinds of update that BLKENC uses. -/
@[simp] def blockUpdates : List UpdateKind := [.status, .draws, .bufF, .bufQ, .bufZ, .pred, .packer]

theorem blkencBody_runs {b : Nat} (hb : b ≤ 5) : Runs blockUpdates (blkencBody b) :=
  ((fdctBody_runs hb).andThen <| (quantBody_runs hb).andThen <| (zzBody_runs hb).andThen <|
    (dcencBody_runs b).andThen (acencBody_runs b)).mono (by decide)

theorem encmcuBody_runs (mx my : Nat) : Runs (.load :: blockUpdates) (encmcuBody mx my) :=
  (mculoadBody_runs mx my).andThen <| Runs.forEach fun b hb =>
    blkencBody_runs (by have := List.mem_range.mp hb; omega)

theorem setDone_runs (v : Bool) : Runs [.done] fun s => .go (s.setDone v) := fun s =>
  (Update.done s v).reach (by simp)

theorem encimgBody_runs : Runs (.done :: .load :: blockUpdates) encimgBody := fun s =>
  ((Runs.forEach fun m _ => encmcuBody_runs m.1 m.2).andThen
    (flushBits_runs.andThen (setDone_runs true))).mono (by decide) s

/-! ### The commands -/

/-- The kinds of update that a command uses, besides DONE <- 0. -/
@[simp] def updatesOf : Instr → List UpdateKind
  | .nop | .init => []
  | .htbuild t => [.table t]
  | .csc _ _ _ => [.csc]
  | .mcuload _ _ => [.status, .load]
  | .fdct _ => [.status, .draws, .bufF]
  | .quant _ | .unzz _ => [.status, .draws, .bufQ]
  | .idct _ => [.status, .draws, .bufR]
  | .zz _ => [.status, .draws, .bufZ]
  | .dcenc _ => [.status, .draws, .pred, .packer]
  | .acenc _ => [.status, .draws, .packer]
  | .putbits _ _ => [.status, .packer]
  | .flush => [.packer]
  | .blkenc _ => blockUpdates
  | .encmcu _ _ => .load :: blockUpdates
  | .encimg => .done :: .load :: blockUpdates

/-- Every command but NOP and INIT is refused, or runs from the state with DONE cleared. -/
theorem Runs.of_command {K : List UpdateKind} {body : State → Flow} (hb : Runs K body) {s t : State}
    (h : command body s = .next t) :
    (s.status.err = true ∧ t = s) ∨ (s.status.err = false ∧ Reach K (s.setDone false) t) := by
  rcases command_next h with hrefused | ⟨herr, hgo | hstop⟩
  · exact .inl hrefused
  · exact .inr ⟨herr, by simpa [hgo, Flow.Holds] using hb (s.setDone false)⟩
  · exact .inr ⟨herr, by simpa [hstop, Flow.Holds] using hb (s.setDone false)⟩

/-- Every command but NOP and INIT is a body in the frame of R90 and R308. -/
theorem exec_eq_command (i : Instr) :
    i = .nop ∨ i = .init ∨ ∃ body, Runs (updatesOf i) body ∧ ∀ s, exec i s = command body s := by
  cases i with
  | nop => exact .inl rfl
  | init => exact .inr (.inl rfl)
  | htbuild u => exact .inr (.inr ⟨_, htbuildBody_runs u, fun _ => rfl⟩)
  | csc r g b => exact .inr (.inr ⟨_, cscBody_runs r g b, fun _ => rfl⟩)
  | mcuload mx my =>
    exact .inr (.inr ⟨_, (checkDims_runs.andThen <| (checkMcu_runs mx my _).andThen <|
      mculoadBody_runs mx my).mono (by simp), fun _ => rfl⟩)
  | fdct b => exact .inr (.inr ⟨_, .onBlock fdctBody_runs, fun _ => rfl⟩)
  | quant b => exact .inr (.inr ⟨_, (Runs.onBlock quantBody_runs).mono (by simp), fun _ => rfl⟩)
  | idct b => exact .inr (.inr ⟨_, .onBlock idctBody_runs, fun _ => rfl⟩)
  | zz b => exact .inr (.inr ⟨_, .onBlock zzBody_runs, fun _ => rfl⟩)
  | unzz b => exact .inr (.inr ⟨_, .onBlock unzzBody_runs, fun _ => rfl⟩)
  | dcenc b =>
    exact .inr (.inr ⟨_, (Runs.onBlock fun _ => (checkTables_runs _).andThen
      (dcencBody_runs b)).mono (by simp), fun _ => rfl⟩)
  | acenc b =>
    exact .inr (.inr ⟨_, (Runs.onBlock fun _ => (checkTables_runs _).andThen
      (acencBody_runs b)).mono (by simp), fun _ => rfl⟩)
  | putbits n v =>
    exact .inr (.inr ⟨_, (checkCount_runs n _).andThen (putBits_runs v.toNat n), fun _ => rfl⟩)
  | flush => exact .inr (.inr ⟨_, flushBits_runs, fun _ => rfl⟩)
  | blkenc b =>
    exact .inr (.inr ⟨_, (Runs.onBlock fun hb => (checkTables_runs _).andThen
      (blkencBody_runs hb)).mono (by simp), fun _ => rfl⟩)
  | encmcu mx my =>
    exact .inr (.inr ⟨_, (checkDims_runs.andThen <| (checkMcu_runs mx my _).andThen <|
      (checkTables_runs _).andThen (encmcuBody_runs mx my)).mono (by simp), fun _ => rfl⟩)
  | encimg =>
    exact .inr (.inr ⟨_, (checkDims_runs.andThen <| (checkTables_runs _).andThen
      encimgBody_runs).mono (by simp), fun _ => rfl⟩)

/-- A command always answers a next state (R305). -/
theorem exec_answers (i : Instr) (s : State) : ∃ t, exec i s = .next t := by
  rcases exec_eq_command i with rfl | rfl | ⟨body, -, he⟩
  · exact ⟨s, rfl⟩
  · exact ⟨s.inited, rfl⟩
  · rw [he]
    exact command_answers body s

/-- What a command does: NOP and a refused command nothing (R260, R308), INIT its reset of the core (R261),
any other the updates of its kinds. -/
theorem exec_cases {i : Instr} {s t : State} (h : exec i s = .next t) :
    ((i = .nop ∨ s.status.err = true) ∧ t = s) ∨ (i = .init ∧ t = s.inited) ∨
      (s.status.err = false ∧ Reach (updatesOf i) (s.setDone false) t) := by
  rcases exec_eq_command i with rfl | rfl | ⟨body, hb, he⟩
  · exact .inl ⟨.inl rfl, (Host.Outcome.next.inj h).symm⟩
  · exact .inr (.inl ⟨rfl, (Host.Outcome.next.inj h).symm⟩)
  · exact (hb.of_command (he s ▸ h)).imp (fun ⟨herr, ht⟩ => ⟨.inr herr, ht⟩) .inr

/-- A command that ERR = 1 refuses changes nothing; only INIT is not refused (R308). -/
theorem exec_refused {i : Instr} {s : State} (herr : s.status.err = true) (hi : i ≠ .init) :
    exec i s = .next s := by
  obtain ⟨t, ht⟩ := exec_answers i s
  rcases exec_cases ht with ⟨-, rfl⟩ | ⟨rfl, -⟩ | ⟨hok, -⟩
  · exact ht
  · exact absurd rfl hi
  · simp [herr] at hok

end Sys2Proof.Machine
end

section
/-!
What a step can do (R19, R62, R90), and the errors and the invariant that follow from it.
-/

namespace Sys2Proof.Machine

/-! ### The words of INIT and HTBUILD (R92, R94, R99) -/

theorem zeroField_ok {op mbz : Nat} {i j : Instr} : zeroField op mbz i = .ok j ↔ mbz = 0 ∧ i = j := by
  rw [zeroField]
  split_ifs with h <;> simp [h]

/-- Only the word 0x01000000 is INIT. -/
theorem word_of_decode_init {w : Word} (h : decode w = .ok .init) : w = 0x01000000#32 := by
  rw [decode] at h
  split at h
  case h_2 hop =>
    have hmbz := (zeroField_ok.mp h).1
    simp only [field] at hop hmbz
    bv_omega
  all_goals simp [decodeN, decodeB, zeroField_ok] at h

/-- The table index of a decoded HTBUILD has two bits. -/
theorem lt_of_decode_htbuild {w : Word} {t : Nat} (h : decode w = .ok (.htbuild t)) : t < 4 := by
  rw [decode] at h
  split at h
  case h_3 hop =>
    obtain rfl := Instr.htbuild.inj (zeroField_ok.mp h).2
    exact Nat.mod_lt _ (by decide)
  all_goals simp [decodeN, decodeB, zeroField_ok] at h

/-! ### One access of the host -/

/-- What an access of the host that issues no command can do: only the image size, the stage buffers, the
sink, what a read returned and the record of an unwritten read change; memory keeps its form, and a record
that there is stays. -/
def HostTouched (s t : State) : Prop :=
  t = { s with
    imgW := t.imgW, imgH := t.imgH
    bufS := t.bufS, bufF := t.bufF, bufQ := t.bufQ, bufZ := t.bufZ, bufR := t.bufR
    sink := t.sink, readData := t.readData, reads := t.reads, uninit := t.uninit } ∧
  s.KeepsUninit t.uninit ∧ (Memory.wf s = true → Memory.wf t = true)

/-- CMD is the address 0x0000 alone (R61). -/
theorem region_eq_cmd {a : Addr} (h : region a = .csr 0) : a = 0x0000 := by
  rw [region] at h
  obtain ⟨-, h⟩ | ⟨-, h⟩ := ite_eq_iff.mp h
  · exact BitVec.eq_of_toNat_eq (Region.csr.inj h)
  iterate 10
    obtain ⟨-, h⟩ | ⟨-, h⟩ := ite_eq_iff.mp h
    · cases h
  cases h

theorem hostRead_touched {a : Addr} {s t : State} (h : hostRead a s = .next t) : HostTouched s t := by
  rw [hostRead, State.hostReadAt_eq] at h
  split at h
  · obtain rfl := Host.Outcome.next.inj h
    refine ⟨rfl, fun hs => ?_, id⟩
    obtain ⟨loc, hloc⟩ := Option.ne_none_iff_exists'.mp hs
    simp [hloc]
  · simp at h

/-- A host write issues a command, or touches only what the host may. -/
theorem hostWrite_cases {a : Addr} {v : BusValue} {s t : State} (h : hostWrite a v s = .next t) :
    (a = 0x0000 ∧ issue (busWord v) s = .next t) ∨ HostTouched s t := by
  by_cases ha : region a = .csr 0
  · obtain rfl := region_eq_cmd ha
    exact .inl ⟨rfl, h⟩
  · have hmem : Memory.wf s = true → Memory.wf t = true := fun hw => hostWrite_memory_wf ha hw h
    rw [hostWrite] at h
    split at h
    case h_1 n hn =>
      simp only [writeCsr] at h
      split at h
      · exact absurd hn ha
      all_goals
        obtain rfl := Host.Outcome.next.inj h
        exact .inr ⟨rfl, .refl s, hmem⟩
    case h_12 => simp at h
    all_goals
      obtain rfl := Host.Outcome.next.inj h
      exact .inr ⟨rfl, .refl s, hmem⟩

/-- What a step of the host's next access can do. -/
theorem hostStep_cases {op : HostOp} {s t : State} (h : hostStep op s = .next t) :
    (∃ w, Issues op w ∧ issue w s = .next t) ∨ (op = .reset ∧ t = s.hardReset) ∨ HostTouched s t := by
  cases op with
  | read a => exact .inr (.inr (hostRead_touched h))
  | write a v =>
    rcases hostWrite_cases h with ⟨rfl, hi⟩ | ht
    · exact .inl ⟨_, ⟨v, rfl, rfl⟩, hi⟩
    · exact .inr (.inr ht)
  | sink x =>
    obtain rfl := Host.Outcome.next.inj h
    exact .inr (.inr ⟨rfl, .refl s, id⟩)
  | sinkFlush =>
    obtain rfl := Host.Outcome.next.inj h
    exact .inr (.inr ⟨rfl, .refl s, id⟩)
  | reset => exact .inr (.inl ⟨rfl, (Host.Outcome.next.inj h).symm⟩)

/-- What a step can do: wait, issue a command word, reset the machine, or one access of the host. -/
theorem step_cases {s t : State} (h : step s = .next t) :
    (s.host = [] ∧ t = s) ∨ ∃ op rest, s.host = op :: rest ∧
      ((∃ w, Issues op w ∧ issue w { s with host := rest } = .next t) ∨
        (op = .reset ∧ t = State.hardReset { s with host := rest }) ∨
          HostTouched { s with host := rest } t) := by
  cases hs : s.host with
  | nil => exact .inl ⟨rfl, (Host.Outcome.next.inj (step_nil hs ▸ h)).symm⟩
  | cons op rest => exact .inr ⟨op, rest, rfl, hostStep_cases (step_cons hs ▸ h)⟩

/-! ### Issue -/

/-- Settles O5: the access issues its word (R90), and the word's command is run. -/
theorem stepRunsDecodedCommand : Obligations.StepRunsDecodedCommand := by
  intro s op rest w i hs hop hw _
  rw [step_cons hs, hostStep_issues hop, issue, hw]

/-- The outcome of an issued word: a command's, or IllegalCommand raised, or a refusal (R90, R100, R308). -/
theorem issue_cases {w : Word} {s t : State} (h : issue w s = .next t) :
    (∃ i, decode w = .ok i ∧ exec i s = .next t) ∨ (s.status.err = true ∧ t = s) ∨
      (s.status.err = false ∧ t = (s.setDone false).raised .illegalCommand w) := by
  rw [issue] at h
  split at h
  · rename_i i hi
    exact .inl ⟨i, hi, h⟩
  · rcases command_next h with hrefused | ⟨herr, hb | hb⟩
    · exact .inr (.inl hrefused)
    · simp [raise] at hb
    · exact .inr (.inr ⟨herr, (Flow.stop.inj hb).symm⟩)

/-- While ERR = 1, a word that is not INIT's changes nothing (R308). -/
theorem issue_refused {w : Word} {s t : State} (herr : s.status.err = true) (hw : w ≠ 0x01000000#32)
    (h : issue w s = .next t) : t = s := by
  rcases issue_cases h with ⟨i, hi, he⟩ | ⟨-, ht⟩ | ⟨hok, -⟩
  · have hinit : i ≠ .init := fun hi' => hw (word_of_decode_init (hi' ▸ hi))
    exact (Host.Outcome.next.inj (exec_refused herr hinit ▸ he)).symm
  · exact ht
  · simp [herr] at hok

/-- Settles O48: with ERR = 1 a word other than INIT's is refused, and no access of the host but a reset
writes STATUS or ERRINFO. -/
theorem firstErrorKept : Obligations.FirstErrorKept := by
  intro s t herr h hreset hinit
  rcases step_cases h with ⟨-, rfl⟩ | ⟨op, rest, hs, ⟨w, hop, hi⟩ | ⟨rfl, -⟩ | ⟨ht, -⟩⟩
  · exact ⟨rfl, rfl⟩
  · have hw : w ≠ 0x01000000#32 := fun hw => hinit op rest hs (hw ▸ hop)
    obtain rfl := issue_refused (s := { s with host := rest }) herr hw hi
    exact ⟨rfl, rfl⟩
  · exact absurd hs (hreset rest)
  · rw [ht]
    exact ⟨rfl, rfl⟩

end Sys2Proof.Machine
end

section
/-!
Which commands may write which part of the state (R27 to R38, R83), by the kinds of update they use; DONE
(R25, R45); and the record of UninitRead (R44).
-/

namespace Sys2Proof.Machine

/-! ### The parts of the state -/

/-- A part of the state that some commands write and others do not; `outside` is the image size, the pixel
source, and what belongs to the host and to the configuration, which none writes. -/
inductive Part where
  | packer
  | tables
  | bufS
  | bufF
  | bufQ
  | bufZ
  | bufR
  | csc
  | mcuPosition
  | outside
deriving DecidableEq

/-- t agrees with s on the part. -/
def Part.Same (s t : State) : Part → Prop
  | .packer => t.bitacc = s.bitacc ∧ t.bitidx = s.bitidx
  | .tables => t.ht = s.ht ∧ t.htvalid = s.htvalid
  | .bufS => t.bufS = s.bufS
  | .bufF => t.bufF = s.bufF
  | .bufQ => t.bufQ = s.bufQ
  | .bufZ => t.bufZ = s.bufZ
  | .bufR => t.bufR = s.bufR
  | .csc => t.cscY = s.cscY ∧ t.cscCb = s.cscCb ∧ t.cscCr = s.cscCr
  | .mcuPosition => t.mcuX = s.mcuX ∧ t.mcuY = s.mcuY
  | .outside => t.imgW = s.imgW ∧ t.imgH = s.imgH ∧ t.raster = s.raster ∧ t.host = s.host ∧
      t.readData = s.readData ∧ t.params = s.params

theorem Part.Same.refl (s : State) (p : Part) : p.Same s s := by cases p <;> simp [Part.Same]

theorem Part.Same.trans {s t u : State} {p : Part} (h : p.Same s t) (h' : p.Same t u) : p.Same s u := by
  cases p <;> simp_all [Part.Same]

/-- The parts an update of a kind may write. -/
@[simp] def UpdateKind.writes : UpdateKind → List Part
  | .status | .done | .draws | .pred => []
  | .csc => [.csc]
  | .load => [.bufS, .mcuPosition]
  | .bufF => [.bufF]
  | .bufQ => [.bufQ]
  | .bufZ => [.bufZ]
  | .bufR => [.bufR]
  | .packer => [.packer]
  | .table _ => [.tables]

theorem SameButPacker.same {s t : State} {p : Part} (h : SameButPacker s t) (hp : p ≠ .packer) :
    p.Same s t := by
  rw [h]
  cases p
  case packer => exact absurd rfl hp
  all_goals simp [Part.Same]

theorem Part.Same.of_raised {s t : State} {p : Part} {e : ErrorKind} {info : Word} (h : p.Same s t) :
    p.Same s (t.raised e info) := by cases p <;> exact h

/-- An update keeps every part that its kind does not write. -/
theorem Update.same {k : UpdateKind} {s t : State} {p : Part} (h : Update k s t) (hp : p ∉ k.writes) :
    p.Same s t := by
  cases h with
  | packed h => exact h.1.same (by simpa using hp)
  | packFailed h =>
    obtain ⟨u, info, hu, rfl, -⟩ := h
    exact Part.Same.of_raised (hu.same (by simpa using hp))
  | _ => cases p <;> simp [Part.Same] at hp ⊢

/-- What a command changes, an update of one of its kinds writes; INIT changes the packer, the tables and
the MCU position. -/
theorem exec_writes {i : Instr} {s t : State} {p : Part} (h : exec i s = .next t) (hp : ¬ p.Same s t) :
    (i = .init ∧ (p = .packer ∨ p = .tables ∨ p = .mcuPosition)) ∨
      ∃ k ∈ updatesOf i, p ∈ k.writes := by
  rcases exec_cases h with ⟨-, rfl⟩ | ⟨rfl, rfl⟩ | ⟨-, hr⟩
  · exact absurd (Part.Same.refl t p) hp
  · refine .inl ⟨rfl, ?_⟩
    rw [State.inited_eq] at hp
    cases p <;> simp [Part.Same] at hp ⊢
  · refine .inr ?_
    by_contra hnone
    push Not at hnone
    refine hp (hr.preserves (P := fun u => p.Same s u) (fun k hk u v hu hs => hs.trans ?_) ?_)
    · exact hu.same (hnone k hk)
    · cases p <;> simp [Part.Same]

/-- Settles O51: the kinds of update that write the packer or the tables are in no other command. -/
theorem packerAndTableWriters : Obligations.PackerAndTableWriters := by
  intro i s t h
  refine ⟨fun hne => ?_, fun hne => ?_⟩
  · have hw := exec_writes (p := .packer) h (by simpa [Part.Same, imp_iff_not_or] using hne)
    cases i <;> simp at hw ⊢
  · have hw := exec_writes (p := .tables) h (by simpa [Part.Same, imp_iff_not_or] using hne)
    cases i <;> simp at hw ⊢

/-- Settles O52: a command that changes a part uses a kind of update that writes it. -/
theorem bufferWriters : Obligations.BufferWriters := by
  intro i s t h
  refine ⟨fun hne => ?_, fun hne => ?_, fun hne => ?_, fun hne => ?_, fun hne => ?_, fun hne => ?_,
    fun hne => ?_, ?_⟩
  · have hw := exec_writes (p := .bufS) h hne
    cases i <;> simp at hw ⊢
  · have hw := exec_writes (p := .bufF) h hne
    cases i <;> simp at hw ⊢
  · have hw := exec_writes (p := .bufQ) h hne
    cases i <;> simp at hw ⊢
  · have hw := exec_writes (p := .bufZ) h hne
    cases i <;> simp at hw ⊢
  · have hw := exec_writes (p := .bufR) h hne
    cases i <;> simp at hw ⊢
  · have hw := exec_writes (p := .csc) h (by simpa [Part.Same, imp_iff_not_or] using hne)
    cases i <;> simp at hw ⊢
  · have hw := exec_writes (p := .mcuPosition) h (by simpa [Part.Same, imp_iff_not_or] using hne)
    cases i <;> simp at hw ⊢
  · by_contra hne
    have hw := exec_writes (p := .outside) h hne
    cases i <;> simp at hw

/-! ### DONE (R25, R45) -/

@[simp] theorem Status.raised_done (st : Status) (e : ErrorKind) : (st.raised e).done = false := by
  rw [Status.raised]
  split_ifs <;> rfl

/-- Only the update of kind `done` sets DONE. -/
theorem Update.done_false {k : UpdateKind} {s t : State} (h : Update k s t) (hk : k ≠ .done)
    (hs : s.status.done = false) : t.status.done = false := by
  cases h with
  | raised _ e info => exact s.raised_done e info
  | done => exact absurd rfl hk
  | packed h =>
    rw [h.1]
    exact hs
  | packFailed h =>
    obtain ⟨u, info, -, rfl, -⟩ := h
    exact u.raised_done _ _
  | _ => simpa using hs

/-- Where ENCIMG's course ends with DONE = 1, it has raised no error (R133). -/
theorem encimg_done {s t : State} (h : exec .encimg s = .next t) (herr : s.status.err = false)
    (hdone : t.status.done = true) : t.status.err = false := by
  rw [exec, execEncimg] at h
  refine command_holds (P := fun t => t.status.done = true → t.status.err = false) h
    (fun h' => by simp [herr] at h') (fun _ => ?_) hdone
  refine Flow.Holds.andThen (G := fun u => u.status.err = false)
    (checkDims_holds (fun _ => herr) (by simp)) fun u hu =>
      Flow.Holds.andThen (G := fun u => u.status.err = false)
        (checkTables_holds (fun _ => hu) (fun _ _ => by simp)) fun v hv =>
          (encimgBody_holds v).mono ?_ ?_
  · rintro _ ⟨w, hw, rfl⟩ -
    rw [hw.1]
    exact hv
  · rintro _ ⟨w, e, info, rfl, -⟩ hd
    simp at hd

/-- Settles O49: a command that is not refused clears DONE, and of its updates only ENCIMG's last sets it. -/
theorem doneOnlyByEncimg : Obligations.DoneOnlyByEncimg := by
  intro i s t h hdone
  rcases exec_cases h with ⟨hi, rfl⟩ | ⟨-, rfl⟩ | ⟨herr, hr⟩
  · exact .inr ⟨rfl, hi⟩
  · simp [State.inited_eq, Status.clear] at hdone
  · by_cases hi : i = .encimg
    · subst hi
      exact .inl ⟨rfl, encimg_done h herr hdone⟩
    · have hk : UpdateKind.done ∉ updatesOf i := by cases i <;> simp at hi ⊢
      have := hr.preserves (P := fun u => u.status.done = false)
        (fun k hk' u v hu => hu.done_false fun he => hk (he ▸ hk')) rfl
      simp [this] at hdone

/-! ### The record of UninitRead (R44) -/

theorem Update.keepsUninit {k : UpdateKind} {s t : State} (h : Update k s t) :
    s.KeepsUninit t.uninit := by
  cases h with
  | read r h => exact h
  | packed h => exact h.worked.2.2.2.2
  | packFailed h =>
    obtain ⟨_, _, _, _, _, _, _, hu⟩ := h.workFailed
    exact hu
  | _ => exact fun _ => by simp

theorem Reach.keepsUninit {K : List UpdateKind} {s t : State} (h : Reach K s t) :
    s.KeepsUninit t.uninit :=
  h.preserves (P := fun u => s.KeepsUninit u.uninit) (fun _ _ _ _ hu hs => hs.trans hu.keepsUninit)
    (.refl s)

theorem exec_keepsUninit {i : Instr} {s t : State} (h : exec i s = .next t) :
    s.KeepsUninit t.uninit := by
  rcases exec_cases h with ⟨-, rfl⟩ | ⟨-, rfl⟩ | ⟨-, hr⟩
  · exact .refl t
  · rw [State.inited_eq]
    exact .refl s
  · exact (State.KeepsUninit.refl s).trans hr.keepsUninit

/-- Settles O53: every command is a body that answers, and no update, no reset and no access clears the
record. -/
theorem commandsAnswerNext : Obligations.CommandsAnswerNext := by
  refine ⟨exec_answers, fun s t h => ?_⟩
  rcases step_cases h with ⟨-, rfl⟩ | ⟨op, rest, -, ⟨w, -, hi⟩ | ⟨-, rfl⟩ | ⟨-, hu, -⟩⟩
  · exact fun _ => rfl
  · rcases issue_cases hi with ⟨i, -, he⟩ | ⟨-, rfl⟩ | ⟨-, rfl⟩
    · exact exec_keepsUninit (s := { s with host := rest }) he
    · exact fun _ => rfl
    · exact fun _ => rfl
  · exact fun _ => rfl
  · exact hu

end Sys2Proof.Machine
end

section
/-!
The invariant of the machine (R25, R33 to R37, R42, R83, R242): each update of a command's course keeps it,
INIT and reset set it up, and the host's accesses leave what it speaks of alone.
-/

namespace Sys2Proof.Machine

/-- What the invariant says of a state, apart from its memory, depends on these fields alone. -/
theorem State.Inv.congr {s t : State} (h : s.Inv) (hmem : Memory.wf s = true → Memory.wf t = true)
    (hst : t.status = s.status) (hht : t.ht = s.ht) (hvalid : t.htvalid = s.htvalid)
    (hacc : t.bitacc = s.bitacc) (hidx : t.bitidx = s.bitidx) (hpar : t.params = s.params) : t.Inv := by
  obtain ⟨hwf, hlegal, htab, hpad⟩ := h
  refine ⟨hmem hwf, hst ▸ hlegal, fun u hu hv => ?_, ?_⟩
  · rw [hht]
    exact htab u hu (by rwa [State.tableValid, hvalid] at hv)
  · rwa [PadBitsZero, hst, hacc, hidx, hpar]

/-- Raising an error keeps the invariant whatever the pad bits are. -/
theorem State.Inv.raised {s : State} (hmem : Memory.wf s = true) (hlegal : s.status.legal = true)
    (htab : TablesBuilt s) (e : ErrorKind) (info : Word) : (s.raised e info).Inv :=
  ⟨hmem, Status.legal_raised hlegal e, htab, fun _ herr => by
    rw [State.raised_err] at herr
    exact absurd herr (by decide)⟩

/-- Of HTVALID's four bits, HTBUILD t sets bit t. -/
theorem State.tableValid_withTable (s : State) {t u : Nat} (hu : u < 4) :
    (s.withTable t).tableValid u = (s.tableValid u || decide (u = t)) := by
  have hbit : (1#4 <<< t).getLsbD u = decide (u = t) := by
    rw [BitVec.getLsbD_shiftLeft, BitVec.getLsbD_one, Bool.eq_iff_iff]
    simp only [Bool.and_eq_true, Bool.not_eq_true', decide_eq_true_eq, decide_eq_false_iff_not]
    omega
  rw [State.tableValid, State.withTable_htvalid, BitVec.getLsbD_or, hbit, State.tableValid]

theorem TablesBuilt.withTable {s : State} (h : TablesBuilt s) {t : Nat} (ht : t < 4) :
    TablesBuilt (s.withTable t) := fun u hu hv => by
  rw [State.withTable_ht, HTables.table_setTable _ t u ht hu]
  split_ifs with hut
  · rw [hut]
  · rw [s.tableValid_withTable hu] at hv
    exact h u hu (by simpa [hut] using hv)

/-- An update of a command's course keeps the invariant; a table is one of the four. -/
theorem Update.inv {k : UpdateKind} {s t : State} (h : Update k s t) (hk : ∀ u, k = .table u → u < 4)
    (hs : s.Inv) : t.Inv := by
  obtain ⟨hwf, hlegal, htab, hpad⟩ := id hs
  cases h with
  | raised _ e info => exact .raised hwf hlegal htab e info
  | done => exact ⟨hwf, hlegal, htab, hpad⟩
  | read | tie | csc => exact hs
  | load _ mx my => exact hs.congr (memory_wf_mcuLoaded mx my) rfl rfl rfl rfl rfl rfl
  | setF _ hb hx => exact hs.congr (memory_wf_setF hb hx) rfl rfl rfl rfl rfl rfl
  | setQ _ hb hx => exact hs.congr (memory_wf_setQ hb hx) rfl rfl rfl rfl rfl rfl
  | setZ _ hb hx => exact hs.congr (memory_wf_setZ hb hx) rfl rfl rfl rfl rfl rfl
  | setR _ hb hx => exact hs.congr (memory_wf_setR hb hx) rfl rfl rfl rfl rfl rfl
  | pred _ sl v => cases sl <;> exact hs
  | packed h =>
    obtain ⟨hsame, -, hclean⟩ := id h
    refine ⟨h.worked.2.2.2.1 hwf, by rwa [hsame], ?_, fun hz herr => ?_⟩
    · rwa [hsame]
    · rw [hsame] at herr
      exact hclean (fun hz' => hpad hz' herr) hz
  | packFailed h =>
    obtain ⟨u, info, hsame, rfl, -⟩ := h
    refine .raised ?_ ?_ ?_ _ info <;> rwa [hsame]
  | table _ u =>
    exact ⟨memory_wf_withTable u hwf, hlegal, htab.withTable (hk u rfl), hpad⟩

theorem inited_inv {s : State} (h : s.Inv) : s.inited.Inv := by
  obtain ⟨hwf, -, htab, -⟩ := h
  refine ⟨inited_memory_wf hwf, rfl, ?_, ?_⟩
  · exact (((htab.withTable (t := 0) (by decide)).withTable (t := 1) (by decide)).withTable (t := 2)
      (by decide)).withTable (t := 3) (by decide)
  · exact fun _ _ => by simp [State.inited_eq]

theorem hardReset_inv (s : State) : s.hardReset.Inv :=
  ⟨hardReset_memory_wf s, rfl, fun t _ hv => by simp [State.tableValid, State.hardReset, State.reset] at hv,
    fun _ _ => rfl⟩

/-- A command keeps the invariant; HTBUILD's table is one of the four, as its word has it (R94). -/
theorem exec_inv {i : Instr} {s t : State} (hi : ∀ u, i = .htbuild u → u < 4) (hs : s.Inv)
    (h : exec i s = .next t) : t.Inv := by
  rcases exec_cases h with ⟨-, rfl⟩ | ⟨-, rfl⟩ | ⟨-, hr⟩
  · exact hs
  · exact inited_inv hs
  · refine hr.preserves (fun k hk u v hu => hu.inv fun n hn => ?_) hs
    subst hn
    cases i <;> simp at hk
    exact hi n (by rw [hk])

/-- Settles O54: a step waits, issues a word, resets, or makes an access that leaves STATUS, the tables and
the packer alone and memory in its form. -/
theorem stepKeepsInv : Obligations.StepKeepsInv := by
  intro s t hs h
  rcases step_cases h with ⟨-, rfl⟩ | ⟨op, rest, -, ⟨w, -, hi⟩ | ⟨-, rfl⟩ | ⟨ht, -, hmem⟩⟩
  · exact hs
  · rcases issue_cases hi with ⟨i, hd, he⟩ | ⟨-, rfl⟩ | ⟨-, rfl⟩
    · exact exec_inv (fun u hu => lt_of_decode_htbuild (hu ▸ hd)) (s := { s with host := rest }) hs he
    · exact hs
    · obtain ⟨hwf, hlegal, htab, -⟩ := hs
      exact .raised (s := State.setDone { s with host := rest } false) hwf hlegal htab _ w
  · exact hardReset_inv _
  · refine hs.congr hmem ?_ ?_ ?_ ?_ ?_ ?_ <;> rw [ht]

end Sys2Proof.Machine
end

section
/-!
The host's accesses outside the stage buffers (R61 to R68): where the address map has the registers, the ROMs
and the HT window, what they read as, and what a write to them does.
-/

namespace Sys2Proof.Machine

/-! ### The address map (R61) -/

theorem region_csr {a : Addr} (h : a.toNat ≤ 0x12) : region a = .csr a.toNat := if_pos h

/-- Above the stage buffers the map has the ROMs and the HT window. -/
theorem region_rom {a : Addr} (h : 0x1980 ≤ a.toNat) :
    region a =
      if 0x2000 ≤ a.toNat ∧ a.toNat ≤ 0x207F then .qt ((a.toNat - 0x2000) / 64) ((a.toNat - 0x2000) % 64)
      else if 0x2080 ≤ a.toNat ∧ a.toNat ≤ 0x20BF then .zzt (a.toNat - 0x2080)
      else if 0x2100 ≤ a.toNat ∧ a.toNat ≤ 0x217F ∧ (a.toNat - 0x2100) % 32 ≤ 16 then
        .htBits ((a.toNat - 0x2100) / 32) ((a.toNat - 0x2100) % 32)
      else if 0x2200 ≤ a.toNat ∧ a.toNat ≤ 0x25FF then
        .htValue ((a.toNat - 0x2200) / 256) ((a.toNat - 0x2200) % 256)
      else if 0x2600 ≤ a.toNat ∧ a.toNat ≤ 0x29FF then
        .ht ((a.toNat - 0x2600) / 256) ((a.toNat - 0x2600) % 256)
      else .unmapped := by
  rw [region, if_neg (by omega), if_neg (by omega), if_neg (by omega), if_neg (by omega),
    if_neg (by omega), if_neg (by omega)]

/-- Where the map has a ROM or the HT window. -/
abbrev RomAddr (a : Addr) : Prop :=
  0x2000 ≤ a.toNat ∧ a.toNat ≤ 0x20BF ∨
    0x2100 ≤ a.toNat ∧ a.toNat ≤ 0x217F ∧ (a.toNat - 0x2100) % 32 ≤ 16 ∨
    0x2200 ≤ a.toNat ∧ a.toNat ≤ 0x29FF

/-- Where the map has nothing (R68). -/
abbrev HoleAddr (a : Addr) : Prop :=
  0x13 ≤ a.toNat ∧ a.toNat ≤ 0xFFF ∨
    0x1000 ≤ a.toNat ∧ a.toNat ≤ 0x1FFF ∧
      (0x1A00 ≤ a.toNat ∨ 0x180 ≤ (a.toNat - 0x1000) % 0x200) ∨
    0x20C0 ≤ a.toNat ∧ a.toNat ≤ 0x20FF ∨
    0x2100 ≤ a.toNat ∧ a.toNat ≤ 0x21FF ∧ (0x2180 ≤ a.toNat ∨ 17 ≤ (a.toNat - 0x2100) % 32) ∨
    0x2A00 ≤ a.toNat

theorem region_hole {a : Addr} (h : HoleAddr a) : region a = .unmapped := by
  rw [region, if_neg (by omega), if_neg (by omega), if_neg (by omega), if_neg (by omega),
    if_neg (by omega), if_neg (by omega), if_neg (by omega), if_neg (by omega), if_neg (by omega),
    if_neg (by omega), if_neg (by omega)]

/-! ### Writes (R27, R63, R68) -/

/-- A register other than CMD, IMG_W and IMG_H ignores a write (R63). -/
theorem writeCsr_other {n : Nat} (h0 : n ≠ 0) (h4 : n ≠ 4) (h5 : n ≠ 5) (w : Word) (s : State) :
    writeCsr n w s = .next s := by
  rw [writeCsr]
  · exact fun h => h0 h
  · exact fun h => h4 h
  · exact fun h => h5 h

/-- The ROMs and the HT window ignore a write (R65, R66). -/
theorem hostWrite_rom {a : Addr} (h : RomAddr a) (v : BusValue) (s : State) :
    hostWrite a v s = .next s := by
  have hrom := region_rom (a := a) (by omega)
  rw [hostWrite]
  split_ifs at hrom
  iterate 5 · rw [hrom]
  · omega

/-- Settles O59: the address map decides what the write does. -/
theorem hostWriteElsewhere : Obligations.HostWriteElsewhere := by
  refine ⟨fun s rest a v hs => ⟨?_, ?_, ?_, fun ha => ?_⟩, fun s rest a hs ha => ?_⟩
  · rintro rfl
    exact step_cons hs
  · rintro rfl
    exact step_cons hs
  · rw [step_cons hs, hostStep]
    rintro (⟨h1, h12, h4, h5⟩ | ha)
    · rw [hostWrite, region_csr h12]
      exact writeCsr_other (by omega) h4 h5 _ _
    · exact hostWrite_rom ha v _
  · rw [step_cons hs, hostStep, hostWrite, region_hole ha]
  · rw [step_cons hs, hostStep, hostRead, readValue, region_hole ha]

/-! ### Reads (R22 to R32, R38, R61 to R66) -/

/-- The word of STATUS has ECODE in bits 15..8, DONE in bit 1 and ERR in bit 0 (R25). -/
theorem Status.word_eq (st : Status) :
    st.word = BitVec.ofNat 32 (st.ecode.toNat * 2 ^ 8 + st.done.toNat * 2 + st.err.toNat) := by
  have h : ∀ (c : BitVec 8) (d e : Bool), (⟨e, d, c⟩ : Status).word =
      BitVec.ofNat 32 (c.toNat * 2 ^ 8 + d.toNat * 2 + e.toNat) := by decide +kernel
  exact h st.ecode st.done st.err

/-- A field of a register reads as its number, every higher bit 0 (R63). -/
theorem word_setWidth {n : Nat} (x : BitVec n) : BusValue.word (x.setWidth 32) = dataWord x.toNat := by
  rw [dataWord, BitVec.ofNat_toNat]

theorem readValue_qt {g k : Nat} (hg : g < 2) (hk : k < 64) (s : State) :
    readValue (BitVec.ofNat 16 (0x2000 + 64 * g + k)) s = .ok (dataWord (qt g k)) := by
  have ha : (BitVec.ofNat 16 (0x2000 + 64 * g + k)).toNat = 0x2000 + 64 * g + k := by
    rw [BitVec.toNat_ofNat]; omega
  rw [readValue, region_rom (by omega), ha, if_pos (by omega)]
  simp only [show (0x2000 + 64 * g + k - 0x2000) / 64 = g by omega,
    show (0x2000 + 64 * g + k - 0x2000) % 64 = k by omega]

theorem readValue_zzt {k : Nat} (hk : k < 64) (s : State) :
    readValue (BitVec.ofNat 16 (0x2080 + k)) s = .ok (dataWord (zzt k)) := by
  have ha : (BitVec.ofNat 16 (0x2080 + k)).toNat = 0x2080 + k := by
    rw [BitVec.toNat_ofNat]; omega
  rw [readValue, region_rom (by omega), ha, if_neg (by omega), if_pos (by omega)]
  simp only [show 0x2080 + k - 0x2080 = k by omega]

theorem readValue_htBits {t l : Nat} (ht : t < 4) (hl : l ≤ 16) (s : State) :
    readValue (BitVec.ofNat 16 (0x2100 + 32 * t + l)) s = .ok (dataWord (htBits t l)) := by
  have ha : (BitVec.ofNat 16 (0x2100 + 32 * t + l)).toNat = 0x2100 + 32 * t + l := by
    rw [BitVec.toNat_ofNat]; omega
  rw [readValue, region_rom (by omega), ha, if_neg (by omega), if_neg (by omega), if_pos (by omega)]
  simp only [show (0x2100 + 32 * t + l - 0x2100) / 32 = t by omega,
    show (0x2100 + 32 * t + l - 0x2100) % 32 = l by omega]

theorem readValue_htValue {t i : Nat} (ht : t < 4) (hi : i < 256) (s : State) :
    readValue (BitVec.ofNat 16 (0x2200 + 256 * t + i)) s =
      .ok (dataWord ((htValuesOf t).getD i 0)) := by
  have ha : (BitVec.ofNat 16 (0x2200 + 256 * t + i)).toNat = 0x2200 + 256 * t + i := by
    rw [BitVec.toNat_ofNat]; omega
  rw [readValue, region_rom (by omega), ha, if_neg (by omega), if_neg (by omega), if_neg (by omega),
    if_pos (by omega)]
  simp only [show (0x2200 + 256 * t + i - 0x2200) / 256 = t by omega,
    show (0x2200 + 256 * t + i - 0x2200) % 256 = i by omega, htValue]

theorem readValue_ht {t sym : Nat} (ht : t < 4) (hsym : sym < 256) (s : State) :
    readValue (BitVec.ofNat 16 (0x2600 + 256 * t + sym)) s = .ok (.word (s.htWord t sym)) := by
  have ha : (BitVec.ofNat 16 (0x2600 + 256 * t + sym)).toNat = 0x2600 + 256 * t + sym := by
    rw [BitVec.toNat_ofNat]; omega
  rw [readValue, region_rom (by omega), ha, if_neg (by omega), if_neg (by omega), if_neg (by omega),
    if_neg (by omega), if_pos (by omega)]
  simp only [show (0x2600 + 256 * t + sym - 0x2600) / 256 = t by omega,
    show (0x2600 + 256 * t + sym - 0x2600) % 256 = sym by omega]

/-- The HT window has 0 for a symbol that is absent or in a table not built (R66). -/
theorem htWord_absent {s : State} {t sym : Nat}
    (h : s.tableValid t = false ∨ Buf.get sym (s.ht.table t) = none) : s.htWord t sym = 0 := by
  have hnone : s.htEntry t sym = none := by
    rcases h with h | h <;> simp [State.htEntry, h]
  rw [State.htWord, hnone]

/-- The HT window has the valid bit, the length and the code of a symbol of a built table (R66). -/
theorem htWord_entry {s : State} {t sym : Nat} {c : HCode} (hv : s.tableValid t = true)
    (hc : Buf.get sym (s.ht.table t) = some c) (hlen : c.len ≤ 16) (hcode : c.code < 2 ^ c.len) :
    s.htWord t sym = BitVec.ofNat 32 (2 ^ 31 + c.len * 2 ^ 16 + c.code) := by
  have hentry : s.htEntry t sym = some c := by simp [State.htEntry, hv, hc]
  have hcode16 : c.code < 2 ^ 16 := hcode.trans_le (Nat.pow_le_pow_right (by decide) hlen)
  rw [State.htWord, hentry]
  simp only [Nat.mod_eq_of_lt (show c.len < 32 by omega), Nat.mod_eq_of_lt hcode16]

/-- A specification lists no more symbols than the 256 that its window of the ROM has room for (R61). -/
theorem htValuesOf_length_le : ∀ t < 4, (htValuesOf t).length ≤ 256 := by decide +kernel

/-- Settles O57: the registers one by one, then the ROMs and the HT window. -/
theorem registerAndTableReads : Obligations.RegisterAndTableReads := by
  intro s
  have value : ∀ {v w : BusValue}, v = w → (.ok v : Except Fault BusValue) = .ok w := congrArg _
  refine ⟨rfl, value (congrArg _ s.status.word_eq), rfl, rfl, value (word_setWidth s.imgW),
    value (word_setWidth s.imgH), rfl, rfl, value (word_setWidth s.mcuX), value (word_setWidth s.mcuY),
    rfl, rfl, rfl, value (word_setWidth s.bitacc), value (word_setWidth s.bitidx),
    value (word_setWidth s.htvalid), fun e he => ?_, fun _ => ⟨_, rfl⟩, fun e he => ?_,
    fun _ => ⟨_, rfl⟩, fun e he => ?_, fun _ => ⟨_, rfl⟩, fun g hg k hk => readValue_qt hg hk s,
    fun k hk => readValue_zzt hk s, by decide +kernel, by decide +kernel, by decide +kernel,
    fun t ht => ⟨readValue_htBits ht (Nat.zero_le 16) s, fun l hl => ?_, fun i hi => ?_,
      fun i hi hlen => ?_, fun sym hsym => ⟨fun h => ?_, fun c hv hc hlen hcode => ?_⟩⟩⟩
  · change Except.ok (s.readElem _ s.numValue 0 s.cscY) = _
    rw [he, State.readElem_some, State.numValue]
  · change Except.ok (s.readElem _ s.numValue 1 s.cscCb) = _
    rw [he, State.readElem_some, State.numValue]
  · change Except.ok (s.readElem _ s.numValue 2 s.cscCr) = _
    rw [he, State.readElem_some, State.numValue]
  · exact readValue_htBits ht (l := l + 1) (by omega) s
  · exact readValue_htValue ht (hi.trans_le (htValuesOf_length_le t ht)) s
  · rw [readValue_htValue ht hi, List.getD_eq_default _ _ hlen]
  · rw [readValue_ht ht hsym, htWord_absent h]
    rfl
  · rw [readValue_ht ht hsym, htWord_entry hv hc hlen hcode]
    rfl

end Sys2Proof.Machine
end

section
/-!
MCULOAD (R124, R125, R130, R131): the elements of the six blocks it writes, and what they are exactly.
-/

namespace Sys2Proof.Machine

/-! ### The elements of a block, and of blocks written in a row -/

/-- A block in natural order: element k stands in row k / 8 and column k mod 8 (R14). -/
theorem blockOf_eq {α : Type} (f : Nat → Nat → α) :
    blockOf f = (List.range 64).map fun k => f (k / 8) (k % 8) := rfl

@[simp] theorem blockOf_getElem? {α : Type} (f : Nat → Nat → α) {r c : Nat} (hr : r < 8) (hc : c < 8) :
    (blockOf f)[8 * r + c]? = some (f r c) := by
  rw [blockOf_eq, List.getElem?_map, List.getElem?_range (by omega), Option.map_some,
    show (8 * r + c) / 8 = r by omega, show (8 * r + c) % 8 = c by omega]

/-- The first n blocks written one after the other, and every element after them as before. -/
theorem Buf.get_foldl_setBlock {α : Type} {block : Nat → List α} (hlen : ∀ b, (block b).length = 64)
    (buf : Buf α) (n j : Nat) :
    Buf.get j ((List.range n).foldl (fun buf b => Buf.setBlock b (block b) buf) buf) =
      if j < 64 * n then (block (j / 64))[j % 64]? else Buf.get j buf := by
  induction n with
  | zero => simp
  | succ n ih =>
    rw [List.range_succ, List.foldl_concat, Buf.get_setBlock n j _ _ (hlen n), ih]
    by_cases hn : 64 * n ≤ j ∧ j < 64 * n + 64
    · rw [if_pos hn, if_pos (by omega), show j / 64 = n by omega, show j - 64 * n = j % 64 by omega]
    · rw [if_neg hn]
      by_cases hj : j < 64 * n
      · rw [if_pos hj, if_pos (by omega)]
      · rw [if_neg hj, if_neg (by omega)]

theorem loadedSamples_elem (s : State) (mx my : Nat) {b k : Nat} (hb : b < 6) (hk : k < 64) :
    Buf.get (elemIndex b k) (loadedSamples s mx my) = (mcuBlock s mx my b)[k]? := by
  rw [loadedSamples_eq, Buf.get_foldl_setBlock (mcuBlock_length s mx my), elemIndex, if_pos (by omega),
    show (64 * b + k) / 64 = b by omega, show (64 * b + k) % 64 = k by omega]

theorem loadedSamples_other (s : State) (mx my : Nat) {j : Nat} (hj : 384 ≤ j) :
    Buf.get j (loadedSamples s mx my) = Buf.get j s.bufS := by
  rw [loadedSamples_eq, Buf.get_foldl_setBlock (mcuBlock_length s mx my), if_neg (by omega)]

/-! ### Exact elements (R12, R120) -/

/-- An element that takes an exact result. -/
theorem numElem_exactIn (mode : Config.NumMode) {x : NumVal} {r : ℝ} (h : x.toReal = r) (free : NumVal) :
    (numElem mode x free).ExactIn mode r := by
  cases mode with
  | real => exact ⟨h, fun _ => h⟩
  | inexact eps => exact ⟨h, fun hmode => by simp at hmode⟩

theorem yc_toReal (r g b : Nat) : (yc r g b).toReal = ycFormula r g b := by
  simp only [yc, mix, NumVal.toReal_ofRat, ycFormula]
  push_cast
  ring

theorem cbc_toReal (r g b : Nat) : (cbc r g b).toReal = cbcFormula r g b := by
  simp only [cbc, mix, NumVal.toReal_ofRat, cbcFormula]
  push_cast
  ring

theorem crc_toReal (r g b : Nat) : (crc r g b).toReal = crcFormula r g b := by
  simp only [crc, mix, NumVal.toReal_ofRat, crcFormula]
  push_cast
  ring

/-! ### The command -/

/-- Inside the canvas MCULOAD runs to its end (R131). -/
theorem exec_mcuload {s : State} {mx my : Nat} (herr : s.status.err = false)
    (hdims : 1 ≤ s.imgW.toNat ∧ 1 ≤ s.imgH.toNat) (hmcu : mx < s.nx ∧ my < s.ny) :
    exec (.mcuload mx my) s = .next ((s.setDone false).mcuLoaded mx my) := by
  rw [exec, execMcuload, command_run herr, checkDims_pass (s := s.setDone false) hdims, Flow.andThen_go,
    checkMcu_pass (s := s.setDone false) hmcu, Flow.andThen_go, mculoadBody, Flow.result_go]

/-- Settles O15: the blocks are written one after the other, each element the conversion of its pixel. -/
theorem mculoadLoads : Obligations.MculoadLoads := by
  refine ⟨fun s x y => ?_, fun s mx my herr hw hh hmx hmy => ?_⟩
  · rw [State.pixelRead]
    cases (s.raster.getD y [])[x]? <;> rfl
  · refine ⟨_, exec_mcuload herr ⟨hw, hh⟩ ⟨hmx, hmy⟩, fun q hq r hr c hc => ?_, fun i hi j hj => ?_,
      fun i hi j hj => ?_, fun j hj => ?_, rfl⟩
    · rw [State.mcuLoaded_bufS, loadedSamples_elem _ _ _ (by omega) (by omega), mcuBlock,
        if_pos (by omega), lumaBlock, blockOf_getElem? _ hr hc]
      exact ⟨_, rfl, numElem_exactIn _ (yc_toReal _ _ _) _⟩
    · rw [State.mcuLoaded_bufS, loadedSamples_elem _ _ _ (by omega) (by omega), mcuBlock,
        if_neg (by omega), if_pos rfl, cbBlock, blockOf_getElem? _ hi hj]
      exact ⟨_, rfl, numElem_exactIn _ (cbc_toReal _ _ _) _⟩
    · rw [State.mcuLoaded_bufS, loadedSamples_elem _ _ _ (by omega) (by omega), mcuBlock,
        if_neg (by omega), if_neg (by omega), crBlock, blockOf_getElem? _ hi hj]
      exact ⟨_, rfl, numElem_exactIn _ (crc_toReal _ _ _) _⟩
    · rw [State.mcuLoaded_bufS, loadedSamples_other _ _ _ hj, State.setDone_bufS]

end Sys2Proof.Machine
end

section
/-!
IDCT (R158, R160): its sums are the double sum of the rule, and every element is clamped to [0, 255] (R37).
-/

namespace Sys2Proof.Machine

open Real

/-- C(k)·x (R150): 1/√8 is half of cos(4π/16). -/
theorem mulC_toReal (k : Nat) (x : NumVal) : (mulC k x).toReal = dctC k * x.toReal := by
  rw [mulC, dctC]
  split_ifs with hk
  · have h8 : √8 = 2 * √2 := by
      rw [show (8 : ℝ) = 2 ^ 2 * 2 by norm_num, Real.sqrt_mul (by norm_num), Real.sqrt_sq (by norm_num)]
    have h2 : √2 * √2 = 2 := Real.mul_self_sqrt (by norm_num)
    rw [NumVal.toReal_scale, NumVal.toReal_mulCos, h8]
    push_cast
    rw [cos_four]
    field_simp
    linear_combination x.toReal * h2
  · rw [NumVal.toReal_scale]
    push_cast
    rfl

theorem elem_blockOf (f : Nat → Nat → NumVal) {r c : Nat} (hr : r < 8) (hc : c < 8) :
    elem (blockOf f) (8 * r + c) = f r c := by
  rw [elem, List.getD_eq_getElem?_getD, blockOf_getElem? f hr hc, Option.getD_some]

/-- The coefficients IDCT dequantises (R158). -/
noncomputable def dequantised (g : Nat) (q : Nat → Coef) (k : Nat) : ℝ :=
  ((q k).toInt * (qt g k : Int) : Int)

theorem dequant_toReal (g : Nat) (q : Nat → Coef) {k : Nat} (hk : k < 64) :
    (dequant g ((List.range 64).map q) k).toReal = dequantised g q k := by
  rw [dequant, NumVal.toReal_ofInt, List.getD_eq_getElem?_getD, List.getElem?_map, List.getElem?_range hk]
  rfl

/-- The sums row by row are the double sum of R158. -/
theorem idctElem_toReal (g : Nat) (q : Nat → Coef) {y x : Nat} (hx : x < 8) :
    (idctElem (invRowSums g ((List.range 64).map q)) y x).toReal = idctFormula (dequantised g q) y x := by
  rw [idctElem, toReal_sum8, idctFormula]
  refine Finset.sum_congr rfl fun v hv => ?_
  rw [mulC_toReal, NumVal.toReal_mulCos, invRowSums, elem_blockOf _ (Finset.mem_range.mp hv) hx,
    toReal_sum8, Finset.sum_mul, Finset.mul_sum]
  refine Finset.sum_congr rfl fun u hu => ?_
  have hk : 8 * v + u < 64 := by
    have := Finset.mem_range.mp hv
    have := Finset.mem_range.mp hu
    omega
  rw [mulC_toReal, NumVal.toReal_mulCos, dequant_toReal g q hk, dctCos, dctCos]
  push_cast
  ring

/-- A clamped value is in the range (R37). -/
theorem clamp_range (x : NumVal) :
    0 ≤ (x.clamp 0 255).toReal ∧ (x.clamp 0 255).toReal ≤ 255 := by
  rw [NumVal.toReal_clamp x 0 255 (by decide)]
  push_cast
  exact ⟨le_min (le_max_right _ _) (by norm_num), min_le_right _ _⟩

/-- An element that takes one of two clamped values has its NUM value in the range. -/
theorem numElem_clamp_range (mode : Config.NumMode) (x free : NumVal) :
    0 ≤ (numElem mode (x.clamp 0 255) (free.clamp 0 255)).num.toReal ∧
      (numElem mode (x.clamp 0 255) (free.clamp 0 255)).num.toReal ≤ 255 := by
  cases mode with
  | real => exact clamp_range x
  | inexact eps => exact clamp_range free

/-- Element 8y + x of the elements IDCT writes. -/
theorem idctElems_getElem? (mode : Config.NumMode) (g : Nat) (qs : List Coef) {y x : Nat} (hy : y < 8)
    (hx : x < 8) : ∃ free : NumVal, (idctElems mode g qs)[8 * y + x]? =
      some (numElem mode (((idctElem (invRowSums g qs) y x).add (NumVal.ofInt 128)).clamp 0 255)
        (free.clamp 0 255)) := by
  rw [idctElems, numElems_getElem?, idctBlock, blockOf_getElem? _ hy hx, Option.map_some]
  exact ⟨_, rfl⟩

/-- IDCT on a written block. -/
theorem exec_idct {s : State} {b : Nat} {q : Nat → Coef} (herr : s.status.err = false) (hb : b ≤ 5)
    (hq : BlockHolds s.bufQ b q) :
    exec (.idct b) s = .next ((s.setDone false).setR b
      (idctElems s.params.num (group b) ((List.range 64).map q))) := by
  rw [exec, execIdct, command_run herr, checkBlock_pass hb, Flow.andThen_go, idctBody,
    readBlock_eq (buf := (s.setDone false).bufQ) hq, Flow.result_go]
  rfl

/-- Settles O25: each element takes the clamped double sum. -/
theorem idctExact : Obligations.IdctExact := by
  intro s b q herr hb hq
  have hlen : (idctElems s.params.num (group b) ((List.range 64).map q)).length = 64 := by
    simp [idctElems, idctBlock]
  refine ⟨_, exec_idct herr hb hq, fun y hy x hx => ?_, fun j hj => ?_, rfl⟩
  · obtain ⟨free, hfree⟩ := idctElems_getElem? s.params.num (group b) ((List.range 64).map q) hy hx
    refine ⟨_, (Buf.get_setBlock_elem b _ _ _ hlen (by omega)).trans hfree,
      numElem_exactIn _ ?_ (free.clamp 0 255), numElem_clamp_range _ _ free⟩
    rw [NumVal.toReal_clamp _ 0 255 (by decide), NumVal.toReal_add, NumVal.toReal_ofInt,
      idctElem_toReal _ _ hx]
    simp only [Int.cast_zero, Int.cast_ofNat]
    rfl
  · exact Buf.get_setBlock_other b j _ _ hlen hj

end Sys2Proof.Machine
end

section
/-!
Reading unwritten elements (R44, R311). A body that reads a block and goes on in a way that does not depend on
what it has read from runs as it would where the block held the values read, and leaves the record of the
first unwritten element.
-/

namespace Sys2Proof.Machine

/-! ### The values a read takes -/

section

variable {α : Type}

/-- What the read with number n takes for element k of block b: what it holds, or the free value (R44). -/
def valueRead (kind : ElemKind α) (n b : Nat) (buf : Buf α) (k : Nat) : α :=
  (Buf.get (elemIndex b k) buf).getD (kind.free n (elemIndex b k))

theorem valueRead_fills (kind : ElemKind α) (n b : Nat) (buf : Buf α) :
    FillsBlock b buf (valueRead kind n b buf) := fun k _ y hy => by
  rw [valueRead, hy, Option.getD_some]

theorem filledBlock_holds (b : Nat) (x : Nat → α) (buf : Buf α) :
    BlockHolds (filledBlock b x buf) b x := fun k hk => by
  rw [filledBlock, Buf.get_setBlock_elem b k _ _ (by simp) hk, List.getElem?_map,
    List.getElem?_range hk, Option.map_some]

/-- A read goes on with the values read, in the state it got but for the draws and the record. -/
theorem readElems_valueRead (kind : ElemKind α) (buf : Buf α) (b : Nat) (ks : List Nat) (s : State) :
    ∃ (r : Nat) (o : Option Location), ∀ cont : List α → State → Flow,
      readElems kind buf b ks s cont =
        cont (ks.map (valueRead kind s.reads b buf)) { s with reads := r, uninit := o } := by
  cases h : Buf.firstUnwritten b ks buf with
  | none => exact ⟨s.reads, s.uninit, fun cont => by rw [readElems, h]; rfl⟩
  | some k => exact ⟨_, _, fun cont => by rw [readElems, h]; rfl⟩

theorem readElems_andThen (kind : ElemKind α) (buf : Buf α) (b : Nat) (ks : List Nat) (s : State)
    (cont : List α → State → Flow) (f : State → Flow) :
    (readElems kind buf b ks s cont).andThen f =
      readElems kind buf b ks s fun xs t => (cont xs t).andThen f := by
  rw [readElems, readElems]
  cases Buf.firstUnwritten b ks buf <;> rfl

/-- The first unwritten element of a read in the order of a rule (R44). -/
theorem readElems_firstUnwritten {b lo n k : Nat} {order : Nat → Nat} {buf : Buf α}
    (h : FirstUnwritten b order lo k buf) (hn : k < lo + n) (kind : ElemKind α) (s : State)
    (cont : List α → State → Flow) : ∃ xs, readElems kind buf b ((List.range' lo n).map order) s cont =
      cont xs (s.unwrittenRead (kind.loc b (order k))) := by
  obtain ⟨hlo, -, hnone, hbefore⟩ := h
  have hp : k - lo < ((List.range' lo n).map order).length := by
    rw [List.length_map, List.length_range']
    omega
  have helem : ∀ (j : Nat) (hj : j < ((List.range' lo n).map order).length),
      ((List.range' lo n).map order)[j] = order (lo + j) := fun j hj => by simp
  have := readElems_unwritten (b := b) (buf := buf) hp (by rw [helem, Nat.add_sub_cancel' hlo]; exact hnone)
    (fun j hj => by rw [helem]; exact hbefore _ (by omega) (by omega)) kind s cont
  rw [helem, Nat.add_sub_cancel' hlo] at this
  exact ⟨_, this⟩

end

/-! ### The stage buffers as places of the state -/

/-- A stage buffer's place in the state: what reading and replacing it leave alone. -/
structure Stage (α : Type) where
  get : State → Buf α
  put : Buf α → State → State
  get_put : ∀ B s, get (put B s) = B := by intros; rfl
  put_get : ∀ s, put (get s) s = s := by intros; rfl
  put_put : ∀ B C s, put B (put C s) = put B s := by intros; rfl
  get_setDone : ∀ s v, get (s.setDone v) = get s := by intros; rfl
  put_setDone : ∀ B s v, put B (s.setDone v) = (put B s).setDone v := by intros; rfl
  put_raised : ∀ B s e info, put B (s.raised e info) = (put B s).raised e info := by intros; rfl
  status_put : ∀ B s, (put B s).status = s.status := by intros; rfl
  htvalid_put : ∀ B s, (put B s).htvalid = s.htvalid := by intros; rfl

def Stage.S : Stage NumElem where
  get := State.bufS
  put B s := { s with bufS := B }

def Stage.F : Stage NumElem where
  get := State.bufF
  put B s := { s with bufF := B }

def Stage.Q : Stage Coef where
  get := State.bufQ
  put B s := { s with bufQ := B }

def Stage.Z : Stage Coef where
  get := State.bufZ
  put B s := { s with bufZ := B }

section

variable {α : Type}

/-- The buffer put back, the draws counted and an unwritten read recorded. -/
def Stage.restore (p : Stage α) (B : Buf α) (r : Nat) (o : Option Location) (s : State) : State :=
  { p.put B s with reads := r, uninit := o }

/-! ### Bodies that read and go on -/

/-- The body reads the elements ks of block b of a buffer, and goes on in a way that commutes with the
update g of what it does not read from then on. -/
def ReadsThen (kind : ElemKind α) (buf : State → Buf α) (b : Nat) (ks : List Nat)
    (g : Nat → Option Location → State → State) (body : State → Flow) : Prop :=
  ∃ cont : List α → State → Flow,
    (∀ s, body s = readElems kind (buf s) b ks s cont) ∧
      ∀ r o xs s, cont xs (g r o s) = (cont xs s).map (g r o)

/-- Where the block is written, the body commutes with an update that leaves the buffer. -/
theorem ReadsThen.commutes {kind : ElemKind α} {buf : State → Buf α} {b : Nat} {ks : List Nat}
    {g : Nat → Option Location → State → State} {body : State → Flow} (h : ReadsThen kind buf b ks g body)
    (hks : ∀ k ∈ ks, k < 64) {s : State} {f : Nat → α} (hf : BlockHolds (buf s) b f) {r : Nat}
    {o : Option Location} (hbuf : buf (g r o s) = buf s) : body (g r o s) = (body s).map (g r o) := by
  obtain ⟨cont, hbody, hcont⟩ := h
  have hread := fun k hk => hf k (hks k hk)
  rw [hbody, hbody, hbuf, readElems_eq hread, readElems_eq hread, hcont]

variable {kind : ElemKind α} {p : Stage α} {b : Nat} {ks ts : List Nat} {body : State → Flow} {i : Instr}
  {s : State}

/-- From s a command does what it does where the block holds the values read (R44). -/
theorem ReadsThen.runsAsFilled (h : ReadsThen kind p.get b ks (p.restore (p.get s)) body)
    (hks : ∀ k ∈ ks, k < 64) (herr : s.status.err = false) (hb : b ≤ 5)
    (hexec : ∀ s, exec i s =
      command (fun s => (checkBlock b s).andThen fun s => (checkTables ts s).andThen body) s) :
    RunsAsFilled i s (p.put (filledBlock b (valueRead kind s.reads b (p.get s)) (p.get s)) s)
      (p.put (p.get s)) := by
  set filled := p.put (filledBlock b (valueRead kind s.reads b (p.get s)) (p.get s)) s with hfilled
  have hback : p.put (p.get s) (filled.setDone false) = s.setDone false := by
    rw [p.put_setDone, hfilled, p.put_put, p.put_get]
  have hvalid : (filled.setDone false).tableValid = (s.setDone false).tableValid := by
    funext t
    rw [State.tableValid, State.tableValid, State.setDone_htvalid, State.setDone_htvalid, hfilled,
      p.htvalid_put]
  have hflow : ∃ r o, (checkTables ts (s.setDone false)).andThen body =
      ((checkTables ts (filled.setDone false)).andThen body).map (p.restore (p.get s) r o) := by
    rw [checkTables, checkTables, hvalid]
    cases ts.find? fun t => !(s.setDone false).tableValid t with
    | none =>
      obtain ⟨cont, hbody, hcont⟩ := h
      obtain ⟨r, o, hread⟩ := readElems_valueRead kind (p.get s) b ks (s.setDone false)
      refine ⟨r, o, ?_⟩
      have hheld : ∀ k ∈ ks, Buf.get (elemIndex b k) (p.get (filled.setDone false)) =
          some (valueRead kind s.reads b (p.get s) k) := fun k hk => by
        rw [p.get_setDone, hfilled, p.get_put]
        exact filledBlock_holds _ _ _ k (hks k hk)
      simp only [Flow.andThen_go]
      rw [hbody, p.get_setDone, hread, hbody, readElems_eq hheld, ← hcont, Stage.restore, hback]
      rfl
    | some t =>
      refine ⟨s.reads, s.uninit, ?_⟩
      simp only [raise, Flow.andThen_stop, Flow.map_stop, Stage.restore]
      rw [p.put_raised, hback]
      rfl
  obtain ⟨r, o, hro⟩ := hflow
  have hferr : filled.status.err = false := by rw [hfilled, p.status_put, herr]
  refine ⟨((checkTables ts (filled.setDone false)).andThen body).state, r, o, ?_, ?_⟩
  · rw [hexec, command_run hferr, checkBlock_pass hb, Flow.andThen_go, Flow.result]
  · rw [hexec, command_run herr, checkBlock_pass hb, Flow.andThen_go, hro, Flow.result_map]
    rfl

/-- A command whose checks pass records the first unwritten element that it reads (R44). -/
theorem ReadsThen.recordsUninit {lo n k : Nat} {order : Nat → Nat}
    (h : ReadsThen kind p.get b ((List.range' lo n).map order) (p.restore (p.get s)) body)
    (hfirst : FirstUnwritten b order lo k (p.get s)) (hn : k < lo + n) (herr : s.status.err = false)
    (hb : b ≤ 5) (hts : ∀ t ∈ ts, s.tableValid t = true)
    (hexec : ∀ s, exec i s =
      command (fun s => (checkBlock b s).andThen fun s => (checkTables ts s).andThen body) s) :
    RecordsUninit i s (kind.loc b (order k)) := by
  obtain ⟨cont, hbody, hcont⟩ := h
  obtain ⟨xs, hread⟩ := readElems_firstUnwritten hfirst hn kind (s.setDone false) cont
  have hback : (s.setDone false).unwrittenRead (kind.loc b (order k)) =
      p.restore (p.get s) (s.reads + 1) (s.uninit.or (some (kind.loc b (order k)))) (s.setDone false) := by
    rw [Stage.restore, p.put_setDone, p.put_get]
    rfl
  have hnext : exec i s = .next (p.restore (p.get s) (s.reads + 1)
      (s.uninit.or (some (kind.loc b (order k)))) (cont xs (s.setDone false)).state) := by
    rw [hexec, command_run herr, checkBlock_pass hb, Flow.andThen_go,
      checkTables_pass (s := s.setDone false) hts, Flow.andThen_go, hbody, p.get_setDone, hread, hback,
      hcont, Flow.result_map]
  exact ⟨_, hnext, rfl⟩

end

/-! ### The bodies, each with the buffer it reads -/

/-- An update of the buffers S, F and Q, of the count of draws and of the record of an unwritten read. -/
def State.refill (fS fF : Buf NumElem → Buf NumElem) (fQ : Buf Coef → Buf Coef) (r : Nat)
    (o : Option Location) (s : State) : State :=
  { s with bufS := fS s.bufS, bufF := fF s.bufF, bufQ := fQ s.bufQ, reads := r, uninit := o }

theorem fdctBody_reads (b : Nat) (S : Buf NumElem) :
    ReadsThen (.num .bufS) Stage.S.get b (List.range 64) (Stage.S.restore S) (fdctBody b) := by
  refine ⟨_, fun s => by rw [fdctBody, readBlock]; rfl, fun r o xs s => ?_⟩
  rfl

theorem quantBody_reads (b : Nat) (fS fF : Buf NumElem → Buf NumElem) :
    ReadsThen (.num .bufF) Stage.F.get b (List.range 64) (State.refill fS fF id) (quantBody b) := by
  refine ⟨_, fun s => by rw [quantBody, readBlock]; rfl, fun r o xs s => ?_⟩
  dsimp only [State.refill]
  split <;> rfl

theorem idctBody_reads (b : Nat) (Q : Buf Coef) :
    ReadsThen (.coef .bufQ) Stage.Q.get b (List.range 64) (Stage.Q.restore Q) (idctBody b) := by
  refine ⟨_, fun s => by rw [idctBody, readBlock]; rfl, fun r o xs s => ?_⟩
  rfl

theorem zzBody_reads (b : Nat) (fS : Buf NumElem → Buf NumElem) (fQ : Buf Coef → Buf Coef) :
    ReadsThen (.coef .bufQ) Stage.Q.get b zztTable (State.refill fS id fQ) (zzBody b) := by
  refine ⟨_, fun s => by rw [zzBody]; rfl, fun r o xs s => ?_⟩
  rfl

theorem unzzBody_reads (b : Nat) (Z : Buf Coef) :
    ReadsThen (.coef .bufZ) Stage.Z.get b (List.range 64) (Stage.Z.restore Z) (unzzBody b) := by
  refine ⟨_, fun s => by rw [unzzBody, readBlock]; rfl, fun r o xs s => ?_⟩
  rfl

theorem State.pred_touch (fS : Buf NumElem → Buf NumElem) (fZ : Buf Coef → Buf Coef) (r : Nat)
    (o : Option Location) (s : State) (sl : Slot) : (s.touch fS fZ r o).pred sl = s.pred sl := by
  cases sl <;> rfl

theorem State.setPred_touch (fS : Buf NumElem → Buf NumElem) (fZ : Buf Coef → Buf Coef) (r : Nat)
    (o : Option Location) (s : State) (sl : Slot) (v : Coef) :
    (s.touch fS fZ r o).setPred sl v = (s.setPred sl v).touch fS fZ r o := by
  cases sl <;> rfl

theorem dcencBody_reads (b : Nat) (fS : Buf NumElem → Buf NumElem) (fZ : Buf Coef → Buf Coef) :
    ReadsThen (.coef .bufZ) Stage.Z.get b [0] (State.touch fS fZ) (dcencBody b) := by
  refine ⟨_, fun s => by rw [dcencBody]; rfl, fun r o xs s => ?_⟩
  dsimp only
  rw [State.pred_touch, State.setPred_touch]
  split_ifs
  · rfl
  · exact emitValue_touch fS fZ r o _ _ _ _

theorem acencBody_reads (b : Nat) (fS : Buf NumElem → Buf NumElem) (fZ : Buf Coef → Buf Coef) :
    ReadsThen (.coef .bufZ) Stage.Z.get b (List.range' 1 63) (State.touch fS fZ) (acencBody b) := by
  refine ⟨_, fun s => by rw [acencBody]; rfl, fun r o xs s => ?_⟩
  dsimp only
  split
  · rfl
  · exact forEach_touch fS fZ r o (emitAc_touch fS fZ r o _) _ s

/-! ### BLKENC: after FDCT it reads only what it has written -/

/-- Parts that commute with g where the first part ends in G compose. -/
theorem Flow.map_andThen_of {g : State → State} {G : State → Prop} {x y : Flow} {f f' : State → Flow}
    (hx : y = x.map g) (hG : x.Holds G fun _ => True) (hf : ∀ s, G s → f' (g s) = (f s).map g) :
    y.andThen f' = (x.andThen f).map g := by
  subst hx
  cases x
  · exact hf _ hG
  · rfl

/-- A block written whole holds something. -/
theorem exists_blockHolds_setBlock {α : Type} (b : Nat) {xs : List α} (hx : xs.length = 64) (buf : Buf α) :
    ∃ f, BlockHolds (Buf.setBlock b xs buf) b f :=
  ⟨fun k => xs[k % 64]'(by omega), fun k hk => by
    rw [Buf.get_setBlock_elem b k xs buf hx hk, List.getElem?_eq_getElem (by omega)]
    simp only [Nat.mod_eq_of_lt hk]⟩

theorem zztTable_lt : ∀ k ∈ zztTable, k < 64 := by decide

/-- The part of BLKENC after FDCT, which has written F, reads nothing that the update touches. -/
theorem blkencRest_touch {b : Nat} {s : State} (hF : ∃ f, BlockHolds s.bufF b f)
    (fS : Buf NumElem → Buf NumElem) (r : Nat) (o : Option Location) :
    ((quantBody b (s.touch fS id r o)).andThen fun s => (zzBody b s).andThen fun s =>
        (dcencBody b s).andThen (acencBody b)) =
      ((quantBody b s).andThen fun s => (zzBody b s).andThen fun s =>
        (dcencBody b s).andThen (acencBody b)).map (State.touch fS id r o) := by
  obtain ⟨f, hF⟩ := hF
  refine Flow.map_andThen_of (G := fun t => ∃ f, BlockHolds t.bufQ b f) ?_ ?_ fun t ⟨q, hQ⟩ =>
    Flow.map_andThen_of (G := fun t => ∃ f, BlockHolds t.bufZ b f) ?_ ?_ fun t ⟨z, hZ⟩ =>
      Flow.map_andThen_of (G := fun t => ∃ f, BlockHolds t.bufZ b f) ?_ ?_ fun t ⟨z, hZ⟩ => ?_
  · exact (quantBody_reads b fS id).commutes (by simp) hF rfl
  · refine (quantBody_holds b s).mono ?_ (fun _ _ => trivial)
    rintro _ ⟨xs, o, r, u, hx, -, rfl⟩
    exact exists_blockHolds_setBlock b hx _
  · exact (zzBody_reads b fS id).commutes zztTable_lt hQ rfl
  · refine (zzBody_holds b t).mono ?_ (fun _ _ => trivial)
    rintro _ ⟨xs, r, u, hx, -, rfl⟩
    exact exists_blockHolds_setBlock b hx _
  · exact (dcencBody_reads b fS id).commutes (by simp) hZ rfl
  · refine (dcencBody_holds b t).mono ?_ (fun _ _ => trivial)
    rintro v ⟨dc, r, u, -, hv⟩
    rw [hv.1]
    exact ⟨z, by simpa using hZ⟩
  · exact (acencBody_reads b fS id).commutes (by simp) hZ rfl

theorem blkencBody_reads (b : Nat) (S : Buf NumElem) :
    ReadsThen (.num .bufS) Stage.S.get b (List.range 64) (Stage.S.restore S) (blkencBody b) := by
  refine ⟨_, fun s => by rw [blkencBody, fdctBody, readBlock, readElems_andThen]; rfl, fun r o xs s => ?_⟩
  exact blkencRest_touch (s := s.setF b (fdctElems s.params.num xs))
    (exists_blockHolds_setBlock b (by simp [fdctElems, fdctBlock]) s.bufF) (fun _ => S) r o

/-! ### The host's reads (R44, R62) -/

/-- A host read of an unwritten place answers, and records it. -/
theorem hostRead_unwritten {s : State} {a : Addr} {v : BusValue} {loc : Location}
    (hv : readValue a s = .ok v) (hloc : s.unwrittenAt a = some loc) :
    ∃ r, hostRead a s =
      .next { s with readData := some v, reads := r, uninit := s.uninit.or (some loc) } := by
  rw [hostRead, hv, State.hostReadAt_unwritten hloc]
  exact ⟨_, rfl⟩

/-- A step whose next access reads an unwritten place. -/
theorem step_read_unwritten {s : State} {a : Addr} {v : BusValue} {loc : Location} {rest : List HostOp}
    (hs : s.host = .read a :: rest) (hv : readValue a { s with host := rest } = .ok v)
    (hloc : State.unwrittenAt { s with host := rest } a = some loc) :
    ∃ r, step s = .next { s with
      host := rest, readData := some v, reads := r, uninit := s.uninit.or (some loc) } := by
  rw [step_cons hs, hostStep]
  exact hostRead_unwritten hv hloc

/-- The block and the element that an index of a stage buffer names (R61). -/
theorem elemIndex_div_mod (b : Nat) {k : Nat} (hk : k < 64) :
    elemIndex b k / 64 = b ∧ elemIndex b k % 64 = k := by
  rw [elemIndex]
  omega

/-- Settles O19: each body goes on with the values it has read, so it does what it does where the block holds
them; the read itself records the first unwritten element; and a host read answers the free value. -/
theorem unwrittenReads : Obligations.UnwrittenReads := by
  refine ⟨fun s b herr hb => ?_, fun s b k herr hb => ?_, fun s rest => ?_⟩
  · refine ⟨⟨_, valueRead_fills (.num .bufS) s.reads b s.bufS, ?_⟩,
      ⟨_, valueRead_fills (.num .bufF) s.reads b s.bufF, ?_⟩,
      ⟨_, valueRead_fills (.coef .bufQ) s.reads b s.bufQ, ?_⟩,
      _, valueRead_fills (.coef .bufZ) s.reads b s.bufZ, ?_,
      _, valueRead_fills (.coef .bufZ) s.reads b s.bufZ, ?_⟩
    · simp only [List.forall_mem_cons, List.not_mem_nil, false_imp_iff, implies_true, and_true]
      exact ⟨(fdctBody_reads b s.bufS).runsAsFilled (ts := []) (by simp) herr hb fun _ => rfl,
        (blkencBody_reads b s.bufS).runsAsFilled (by simp) herr hb fun _ => rfl⟩
    · exact ReadsThen.runsAsFilled (p := .F) (ts := []) (quantBody_reads b id fun _ => s.bufF) (by simp)
        herr hb fun _ => rfl
    · simp only [List.forall_mem_cons, List.not_mem_nil, false_imp_iff, implies_true, and_true]
      exact ⟨(idctBody_reads b s.bufQ).runsAsFilled (ts := []) (by simp) herr hb fun _ => rfl,
        ReadsThen.runsAsFilled (p := .Q) (ts := []) (zzBody_reads b id fun _ => s.bufQ) zztTable_lt herr hb
          fun _ => rfl⟩
    · simp only [List.forall_mem_cons, List.not_mem_nil, false_imp_iff, implies_true, and_true]
      exact ⟨(unzzBody_reads b s.bufZ).runsAsFilled (ts := []) (by simp) herr hb fun _ => rfl,
        ReadsThen.runsAsFilled (p := .Z) (dcencBody_reads b id fun _ => s.bufZ) (by simp) herr hb
          fun _ => rfl⟩
    · exact ReadsThen.runsAsFilled (p := .Z) (acencBody_reads b id fun _ => s.bufZ) (by simp) herr hb
        fun _ => rfl
  · refine ⟨fun h => ⟨?_, fun hdc hac => ?_⟩, fun h => ?_, fun h => ?_, fun h => ?_, fun h => ?_,
      fun hdc h => ?_, fun hac h => ?_⟩
    · exact (fdctBody_reads b s.bufS).recordsUninit (order := id) (n := 64) (ts := []) h (by omega) herr hb
        (by simp) fun _ => rfl
    · exact (blkencBody_reads b s.bufS).recordsUninit (order := id) (n := 64) h (by omega) herr hb
        (by simp [hdc, hac]) fun _ => rfl
    · exact ReadsThen.recordsUninit (p := .F) (order := id) (n := 64) (ts := [])
        (quantBody_reads b id fun _ => s.bufF) h (by omega) herr hb (by simp) fun _ => rfl
    · exact (idctBody_reads b s.bufQ).recordsUninit (order := id) (n := 64) (ts := []) h (by omega) herr hb
        (by simp) fun _ => rfl
    · exact ReadsThen.recordsUninit (p := .Q) (lo := 0) (order := zzt) (n := 64) (ts := [])
        (zzBody_reads b id fun _ => s.bufQ) h (by omega) herr hb (by simp) fun _ => rfl
    · exact (unzzBody_reads b s.bufZ).recordsUninit (order := id) (n := 64) (ts := []) h (by omega) herr hb
        (by simp) fun _ => rfl
    · exact ReadsThen.recordsUninit (p := .Z) (order := id) (n := 1)
        (dcencBody_reads b id fun _ => s.bufZ) h (by omega) herr hb (by simp [hdc]) fun _ => rfl
    · exact ReadsThen.recordsUninit (p := .Z) (order := id) (n := 63)
        (acencBody_reads b id fun _ => s.bufZ) h (by omega) herr hb (by simp [hac]) fun _ => rfl
  · refine ⟨fun b k hb hk => ?_, fun hs h => ⟨_, step_read_unwritten hs rfl (by
      simp [State.unwrittenAt, region, h])⟩, fun hs h => ⟨_, step_read_unwritten hs rfl (by
      simp [State.unwrittenAt, region, h])⟩, fun hs h => ⟨_, step_read_unwritten hs rfl (by
      simp [State.unwrittenAt, region, h])⟩⟩
    have hkb := elemIndex_div_mod b hk
    refine ⟨fun hs h => ⟨_, step_read_unwritten hs (by rw [readValue, region_S hb hk]; rfl) ?_⟩,
      fun hs h => ⟨_, step_read_unwritten hs (by rw [readValue, region_F hb hk]; rfl) ?_⟩,
      fun hs h => ⟨_, step_read_unwritten hs (by rw [readValue, region_Q hb hk]; rfl) ?_⟩,
      fun hs h => ⟨_, step_read_unwritten hs (by rw [readValue, region_Z hb hk]; rfl) ?_⟩,
      fun hs h => ⟨_, step_read_unwritten hs (by rw [readValue, region_R hb hk]; rfl) ?_⟩⟩
    · simp [State.unwrittenAt, region_S hb hk, h, hkb]
    · simp [State.unwrittenAt, region_F hb hk, h, hkb]
    · simp [State.unwrittenAt, region_Q hb hk, h, hkb]
    · simp [State.unwrittenAt, region_Z hb hk, h, hkb]
    · simp [State.unwrittenAt, region_R hb hk, h, hkb]

end Sys2Proof.Machine
end

section
/-!
The output stream (R72, R73, R306, R340): what each access of the host and each update of a command's course
does to it, and the whole step of a host read, a SINK byte and a sink flush (R62, R74, R78).
-/

namespace Sys2Proof.Machine

/-! ### A host read (R62, R78) -/

/-- What a read returns does not depend on the accesses still to come. -/
@[simp] theorem readValue_host (a : Addr) (s : State) (rest : List HostOp) :
    readValue a { s with host := rest } = readValue a s := by
  rw [readValue, readValue]
  cases region a <;> rfl

/-- A host read that answers leaves everything but the value read, the draws and the record. -/
theorem hostRead_ok {a : Addr} {s : State} {v : BusValue} (h : readValue a s = .ok v) :
    hostRead a s = .next { s with
      readData := some v, reads := (s.hostReadAt a).reads, uninit := (s.hostReadAt a).uninit } := by
  rw [hostRead, h, State.hostReadAt]
  cases s.unwrittenAt a <;> rfl

theorem hostRead_error {a : Addr} {s : State} {f : Fault} (h : readValue a s = .error f) :
    hostRead a s = .fault f := by
  rw [hostRead, h]

/-- The registers up to HTVALID and whatever stands above the stage buffers are never unwritten. -/
theorem State.unwrittenAt_none {a : Addr} (h : a.toNat ≤ 0x0F ∨ 0x2000 ≤ a.toNat) (s : State) :
    s.unwrittenAt a = none := by
  rw [State.unwrittenAt]
  rcases h with hlow | hhigh
  · rw [region_csr (by omega)]
    split <;> simp_all
  · have hrom := region_rom (a := a) (by omega)
    split_ifs at hrom <;> rw [hrom]

/-- Nor is a CSC register that a CSC has written (R38). -/
theorem State.unwrittenAt_csc {a : Addr} {s : State}
    (h : a = 0x0010 ∧ s.cscY ≠ none ∨ a = 0x0011 ∧ s.cscCb ≠ none ∨ a = 0x0012 ∧ s.cscCr ≠ none) :
    s.unwrittenAt a = none := by
  rcases h with ⟨rfl, h⟩ | ⟨rfl, h⟩ | ⟨rfl, h⟩ <;> simpa [State.unwrittenAt, region] using h

/-- Settles O56: a read answers or is the fault, and the sink's accesses are single updates. -/
theorem hostReadAndSink : Obligations.HostReadAndSink := by
  refine ⟨fun s a rest hs => ⟨fun v hv => ?_, fun f hf => ?_⟩, fun s x rest hs => step_cons hs,
    fun s rest hs => step_cons hs⟩
  · have hread := hostRead_ok (s := { s with host := rest }) ((readValue_host a s rest).trans hv)
    refine ⟨_, _, (step_cons hs).trans hread, fun hw => ?_⟩
    have hnone : State.unwrittenAt { s with host := rest } a = none := by
      rcases hw with hlow | hhigh | hcsc
      · exact State.unwrittenAt_none (.inl hlow) _
      · exact State.unwrittenAt_none (.inr hhigh) _
      · exact State.unwrittenAt_csc hcsc
    rw [State.hostReadAt_written hnone]
    exact ⟨rfl, rfl⟩
  · rw [step_cons hs, hostStep, hostRead_error ((readValue_host a s rest).trans hf)]

/-! ### The stream only grows -/

/-- A host write issues a command, or leaves the sink alone. -/
theorem hostWrite_sink {a : Addr} {v : BusValue} {s t : State} (h : hostWrite a v s = .next t) :
    (a = 0x0000 ∧ issue (busWord v) s = .next t) ∨ t.sink = s.sink := by
  by_cases ha : region a = .csr 0
  · obtain rfl := region_eq_cmd ha
    exact .inl ⟨rfl, h⟩
  · rw [hostWrite] at h
    split at h
    case h_1 n hn =>
      simp only [writeCsr] at h
      split at h
      · exact absurd hn ha
      all_goals
        obtain rfl := Host.Outcome.next.inj h
        exact .inr rfl
    case h_12 => simp at h
    all_goals
      obtain rfl := Host.Outcome.next.inj h
      exact .inr rfl

theorem hostRead_sink {a : Addr} {s t : State} (h : hostRead a s = .next t) : t.sink = s.sink := by
  cases hv : readValue a s with
  | ok v =>
    rw [hostRead_ok hv] at h
    rw [← Host.Outcome.next.inj h]
  | error f => simp [hostRead_error hv] at h

/-- An access that issues no word takes no byte of the stream back (R73, R340). -/
theorem hostStep_stream_prefix {op : HostOp} {s t : State} (h : hostStep op s = .next t) :
    (∃ w, issue w s = .next t) ∨ s.sink.stream <+: t.sink.stream := by
  cases op with
  | read a => exact .inr (by rw [hostRead_sink h])
  | write a v => exact (hostWrite_sink h).imp (fun ⟨_, hi⟩ => ⟨_, hi⟩) (fun hk => by rw [hk])
  | sink x =>
    obtain rfl := Host.Outcome.next.inj h
    exact .inr (List.prefix_append _ _)
  | sinkFlush =>
    obtain rfl := Host.Outcome.next.inj h
    exact .inr (List.prefix_refl _)
  | reset =>
    obtain rfl := Host.Outcome.next.inj h
    exact .inr (List.prefix_refl _)

theorem Packed.stream_prefix {s t : State} (h : Packed s t) : s.sink.stream <+: t.sink.stream := by
  obtain ⟨-, ⟨bs, hbs⟩, -⟩ := h
  exact ⟨_, hbs.symm⟩

theorem PackFailed.stream_prefix {s t : State} (h : PackFailed s t) :
    s.sink.stream <+: t.sink.stream := by
  obtain ⟨u, info, -, rfl, bs, hbs | ⟨hbs, -⟩⟩ := h
  · exact ⟨_, hbs.symm⟩
  · exact ⟨_, (hbs.trans (List.append_assoc _ _ _)).symm⟩

/-- An update of a command's course only adds to the stream (R306). -/
theorem Update.stream_prefix {k : UpdateKind} {s t : State} (h : Update k s t) :
    s.sink.stream <+: t.sink.stream := by
  cases h with
  | packed h => exact h.stream_prefix
  | packFailed h => exact h.stream_prefix
  | _ => simp

theorem exec_stream_prefix {i : Instr} {s t : State} (h : exec i s = .next t) :
    s.sink.stream <+: t.sink.stream := by
  rcases exec_cases h with ⟨-, rfl⟩ | ⟨-, rfl⟩ | ⟨-, hr⟩
  · exact List.prefix_refl _
  · rw [State.inited_eq]
  · exact hr.preserves (P := fun u => s.sink.stream <+: u.sink.stream)
      (fun _ _ _ _ hu hs => hs.trans hu.stream_prefix) (List.prefix_refl _)

theorem issue_stream_prefix {w : Word} {s t : State} (h : issue w s = .next t) :
    s.sink.stream <+: t.sink.stream := by
  rcases issue_cases h with ⟨i, -, he⟩ | ⟨-, rfl⟩ | ⟨-, rfl⟩
  · exact exec_stream_prefix he
  · exact List.prefix_refl _
  · exact List.prefix_refl _

/-- Settles O41: a step waits, or makes an access that keeps the stream or issues a word, whose command only
adds to it. -/
theorem streamOnlyGrows : Obligations.StreamOnlyGrows := by
  intro s t h
  cases hs : s.host with
  | nil =>
    obtain rfl := Host.Outcome.next.inj (step_nil hs ▸ h)
    exact List.prefix_refl _
  | cons op rest =>
    rcases hostStep_stream_prefix (step_cons hs ▸ h) with ⟨w, hi⟩ | hgrow
    · exact issue_stream_prefix (s := { s with host := rest }) hi
    · exact hgrow

end Sys2Proof.Machine
end

section
/-!
The host's accesses to the stage buffers (R62, R64, R77, R79): where the address map has an element, what a
write to it stores and what a read of it answers.
-/

namespace Sys2Proof.Machine

/-- At address a stands element i of the buffer that `get` and `put` place in the state: a host write of v
stores `take v` there, and a host read of a written element answers what `give` makes of it (R62, R64). -/
structure HoldsElem {α : Type} (get : State → Buf α) (put : Buf α → State → State) (a : Addr) (i : Nat)
    (take : BusValue → α) (give : Config.NumMode → α → BusValue) : Prop where
  write : ∀ v s, hostWrite a v s = .next (put (Buf.set i (take v) (get s)) s)
  read : ∀ {s x}, Buf.get i (get s) = some x → readValue a s = .ok (give s.params.num x)
  written : ∀ {s x}, Buf.get i (get s) = some x → s.unwrittenAt a = none
  get_put : ∀ B s, get (put B s) = B := by intros; rfl
  get_host : ∀ s rest, get { s with host := rest } = get s := by intros; rfl
  params_put : ∀ B s, (put B s).params = s.params := by intros; rfl

section

variable {α : Type} {get : State → Buf α} {put : Buf α → State → State} {a : Addr} {i : Nat}
  {take : BusValue → α} {give : Config.NumMode → α → BusValue} {s : State} {rest : List HostOp}

/-- A step that writes an element: it holds the value, the next read answers it, the other elements are as
before, and nothing else has changed (R62, R79). -/
theorem HoldsElem.step_write (h : HoldsElem get put a i take give) {v : BusValue}
    (hs : s.host = .write a v :: rest) :
    ∃ t, step s = .next t ∧ Buf.get i (get t) = some (take v) ∧
      readValue a t = .ok (give s.params.num (take v)) ∧
      (∀ j, j ≠ i → Buf.get j (get t) = Buf.get j (get s)) ∧ t = put (get t) { s with host := rest } := by
  have hget : get (put (Buf.set i (take v) (get s)) { s with host := rest }) =
      Buf.set i (take v) (get s) := h.get_put _ _
  have hself : Buf.get i (get (put (Buf.set i (take v) (get s)) { s with host := rest })) =
      some (take v) := by rw [hget, Buf.get_set_self]
  refine ⟨_, ?_, hself, ?_, fun j hj => ?_, by rw [hget]⟩
  · rw [step_cons hs, hostStep, h.write, h.get_host]
  · rw [h.read hself, h.params_put]
  · rw [hget, Buf.get_set_ne hj.symm]

/-- A step that reads a written element (R62, R79). -/
theorem HoldsElem.step_read (h : HoldsElem get put a i take give) {x : α}
    (hx : Buf.get i (get s) = some x) (hs : s.host = .read a :: rest) :
    step s = .next { s with host := rest, readData := some (give s.params.num x) } := by
  have hx' : Buf.get i (get { s with host := rest }) = some x := by rw [h.get_host, hx]
  rw [step_cons hs, hostStep, hostRead_ok (h.read hx'), State.hostReadAt_written (h.written hx')]

end

/-- What a host write leaves in an element of S, F or R (R67). -/
def numTaken (v : BusValue) : NumElem := .of (busNum v)

/-- What a host write leaves in an element of Q or Z: int16 of the word (R35, R36). -/
def coefTaken (v : BusValue) : Coef := (busWord v).setWidth 16

/-- What a host read of an element of S, F or R answers: its `NUM` value (R67), with NUM = Real the one
that QUANT reads (log entry 8). -/
def numGiven (mode : Config.NumMode) (e : NumElem) : BusValue :=
  .num (if mode = .real then e.real else e.num)

theorem numValue_eq_numGiven (s : State) (e : NumElem) : s.numValue e = numGiven s.params.num e := by
  rw [State.numValue, numGiven]
  cases s.params.num <;> rfl

/-- A NUM value that the host has written reads back as it is (R64). -/
theorem numGiven_numTaken (mode : Config.NumMode) (v : BusValue) :
    numGiven mode (numTaken v) = .num (busNum v) := by
  cases mode <;> rfl

section

variable {b k : Nat}

theorem holdsElem_S (hb : b ≤ 5) (hk : k < 64) :
    HoldsElem State.bufS (fun B s => { s with bufS := B }) (BitVec.ofNat 16 (0x1000 + 64 * b + k))
      (elemIndex b k) numTaken numGiven where
  write v s := by rw [hostWrite, region_S hb hk]; rfl
  read hx := by simp [readValue, region_S hb hk, hx, numValue_eq_numGiven]
  written hx := by simp [State.unwrittenAt, region_S hb hk, hx]

theorem holdsElem_F (hb : b ≤ 5) (hk : k < 64) :
    HoldsElem State.bufF (fun B s => { s with bufF := B }) (BitVec.ofNat 16 (0x1200 + 64 * b + k))
      (elemIndex b k) numTaken numGiven where
  write v s := by rw [hostWrite, region_F hb hk]; rfl
  read hx := by simp [readValue, region_F hb hk, hx, numValue_eq_numGiven]
  written hx := by simp [State.unwrittenAt, region_F hb hk, hx]

theorem holdsElem_Q (hb : b ≤ 5) (hk : k < 64) :
    HoldsElem State.bufQ (fun B s => { s with bufQ := B }) (BitVec.ofNat 16 (0x1400 + 64 * b + k))
      (elemIndex b k) coefTaken (fun _ => coefWord) where
  write v s := by rw [hostWrite, region_Q hb hk]; rfl
  read hx := by simp [readValue, region_Q hb hk, hx]
  written hx := by simp [State.unwrittenAt, region_Q hb hk, hx]

theorem holdsElem_Z (hb : b ≤ 5) (hk : k < 64) :
    HoldsElem State.bufZ (fun B s => { s with bufZ := B }) (BitVec.ofNat 16 (0x1600 + 64 * b + k))
      (elemIndex b k) coefTaken (fun _ => coefWord) where
  write v s := by rw [hostWrite, region_Z hb hk]; rfl
  read hx := by simp [readValue, region_Z hb hk, hx]
  written hx := by simp [State.unwrittenAt, region_Z hb hk, hx]

theorem holdsElem_R (hb : b ≤ 5) (hk : k < 64) :
    HoldsElem State.bufR (fun B s => { s with bufR := B }) (BitVec.ofNat 16 (0x1800 + 64 * b + k))
      (elemIndex b k) numTaken numGiven where
  write v s := by rw [hostWrite, region_R hb hk]; rfl
  read hx := by simp [readValue, region_R hb hk, hx, numValue_eq_numGiven]
  written hx := by simp [State.unwrittenAt, region_R hb hk, hx]

end

/-- Settles O58: the five buffers stand where the address map has them, so a write and a read of one of their
elements do what they do of any. -/
theorem stageWriteThenRead : Obligations.StageWriteThenRead := by
  refine ⟨fun _ => rfl, fun _ => rfl, fun s rest b k hb hk => ?_⟩
  have hS := holdsElem_S hb hk
  have hF := holdsElem_F hb hk
  have hQ := holdsElem_Q hb hk
  have hZ := holdsElem_Z hb hk
  have hR := holdsElem_R hb hk
  refine ⟨fun v => ?_, fun _ => hS.step_read, fun _ => hF.step_read, fun _ => hQ.step_read,
    fun _ => hZ.step_read, fun _ => hR.step_read⟩
  rw [← numGiven_numTaken s.params.num v]
  exact ⟨hS.step_write, hF.step_write, hQ.step_write, hZ.step_write, hR.step_write⟩

end Sys2Proof.Machine
end

section
/-!
PUTBITS and FLUSH (R240 to R251): the bits they append to a sink that accepts, and where they stop at a sink
that refuses (R72, R300, R306).
-/

namespace Sys2Proof.Machine

/-- PUTBITS with a legal count runs PutBits (R250). -/
theorem exec_putbits {s : State} {n : Nat} (herr : s.status.err = false) (hn : n ≤ 16) (v : BitVec 16) :
    exec (.putbits n v) s = (putBits v.toNat n (s.setDone false)).result := by
  rw [exec, execPutbits, command_run herr, checkCount_pass hn, Flow.andThen_go]

/-- Settles O37: with the at most seven pending bits, 16 bits fill at most two bytes, so four writes that
succeed are enough. -/
theorem putbitsAppends : Obligations.PutbitsAppends := by
  intro s n v herr hn hsink
  obtain ⟨t, ht, hsame, happ, hlow, -⟩ := putBits_go v.toNat n (s := s.setDone false) (c := 0)
    (hsink.mono (by omega))
  exact ⟨t, by rw [exec_putbits herr hn, ht, Flow.result_go], happ, hlow, hsame⟩

/-! ### A sink that refuses -/

theorem sinkWrite_refused {x : Byte} {s : State} (h : s.sink.accepts = false) :
    sinkWrite x s = raise .sinkError (x.setWidth 32) { s with sink := s.sink.drawn } := by
  rw [sinkWrite, if_neg (by simp [h])]

/-- EmitByte whose byte the sink refuses (R72). -/
theorem emitByte_refused {x : Byte} {s : State} (h : s.sink.accepts = false) :
    emitByte x s = raise .sinkError (x.setWidth 32) { s with sink := s.sink.drawn } := by
  rw [emitByte, sinkWrite_refused h, raise_andThen]

/-- EmitByte whose 0xFF the sink takes and whose 0x00 it refuses (R241, R306). -/
theorem emitByte_stuffing_refused {x : Byte} {s : State} (hx : x = 0xFF#8) (h : s.sink.accepts = true)
    (h0 : s.sink.drawn.accepts = false) :
    emitByte x s = raise .sinkError 0 { s with sink := (s.sink.drawn.append x).drawn } := by
  rw [emitByte, sinkWrite_go h, Flow.andThen_go, if_pos hx, sinkWrite_refused h0]
  rfl

/-- The outcome of a command that has packed and then raised SinkError (R300). -/
theorem result_raise_sinkError {u : State} (herr : u.status.err = false) (info : Word) (acc : Byte)
    (idx : BitVec 3) (k : Sink) :
    (raise .sinkError info { u.setDone false with bitacc := acc, bitidx := idx, sink := k }).result =
      .next { u.erring 0x02 info with bitacc := acc, bitidx := idx, sink := k } := by
  rw [raise, Flow.result_stop, State.raised_of_ok (by exact herr)]
  rfl

/-- A FLUSH with something to emit (R243, R251). -/
theorem exec_flush {s : State} (herr : s.status.err = false)
    (h : s.bitidx ≠ 7 ∨ s.params.emptyFlush = .emit) :
    exec .flush s =
      ((emitByte s.bitacc (s.setDone false)).andThen fun s => .go s.byteDone).result := by
  rw [exec, execFlush, command_run herr, flushBits]
  exact congrArg _ (if_pos h)

/-- A command that packs its bits in a state that has the packer of s stops where the sink refuses a byte that
they fill, or its 0x00 (R72, R300, R306 (c)). -/
theorem stopsAtSink_of_forEach {r : Result} {s u : State} {bits : List Bool}
    (hr : r = (forEach bits putBit (u.setDone false)).result) (herr : u.status.err = false)
    (hacc : u.bitacc = s.bitacc) (hidx : u.bitidx = s.bitidx) (hsink : u.sink = s.sink) :
    StopsAtSink r s u bits := by
  intro before after byte hfull haccepts
  rw [pendingBits, ← hacc, ← hidx] at hfull
  rw [← hsink] at haccepts ⊢
  obtain ⟨hbyte, hstuffing⟩ := forEach_putBit_refused (s := u.setDone false) hfull haccepts
  refine ⟨fun h => ?_, fun h hff h0 => ?_⟩
  · rw [hr, hbyte h]
    exact result_raise_sinkError herr _ _ _ _
  · rw [hr, hstuffing h hff h0]
    subst hff
    exact result_raise_sinkError herr _ _ _ _

/-- Settles O40: a FLUSH emits one byte, and PUTBITS stops as the bits it packs do. -/
theorem sinkErrors : Obligations.SinkErrors := by
  intro s herr
  refine ⟨fun hemit => ⟨fun h => ?_, fun h hff h0 => ?_⟩, fun n v hn => ?_⟩
  · rw [exec_flush herr hemit, emitByte_refused (s := s.setDone false) h, raise_andThen]
    exact result_raise_sinkError herr _ s.bitacc s.bitidx _
  · rw [exec_flush herr hemit, emitByte_stuffing_refused (s := s.setDone false) hff h h0, raise_andThen,
      hff]
    exact result_raise_sinkError herr _ s.bitacc s.bitidx _
  · exact stopsAtSink_of_forEach (by rw [exec_putbits herr hn, putBits_eq_forEach]) herr rfl rfl rfl

end Sys2Proof.Machine
end

section
/-!
DCENC and ACENC with their tables built are packed bits (R210, R220): every symbol they emit has a code, so what
they do is what PutBit does with the bits of the symbols in a row; else they raise SymbolMissing and do nothing.
-/

namespace Sys2Proof.Machine

/-! ### Packing bits in a row -/

theorem Flow.andThen_congr {G S : State → Prop} {x : Flow} {f g : State → Flow} (h : x.Holds G S)
    (hfg : ∀ s, G s → f s = g s) : x.andThen f = x.andThen g := by
  cases x
  · exact hfg _ h
  · rfl

/-- Everything a row of bits can do. -/
theorem forEach_putBit_holds (bits : List Bool) (s : State) :
    (forEach bits putBit s).Holds (Packed s) (PackFailed s) :=
  forEach_holds (fun v _ u hu => (putBit_holds v u).mono (fun _ => hu.trans)
    (fun _ => PackFailed.of_packed hu)) (Packed.refl s)

/-- Table t is built and holds what HTBUILD stores (R83, R182). -/
def HasTable (t : Nat) (s : State) : Prop := s.tableValid t = true ∧ s.ht.table t = builtTable t

theorem HasTable.congr {t : Nat} {s u : State} (h : HasTable t s) (hvalid : u.htvalid = s.htvalid)
    (hht : u.ht = s.ht) : HasTable t u := by
  rwa [HasTable, State.tableValid, hvalid, hht]

theorem HasTable.of_packed {t : Nat} {s u : State} (h : HasTable t s) (hu : Packed s u) : HasTable t u :=
  h.congr (by rw [hu.1]) (by rw [hu.1])

theorem TablesBuilt.hasTable {t : Nat} {s : State} (h : TablesBuilt s) (ht : t < 4)
    (hvalid : s.tableValid t = true) : HasTable t s := ⟨hvalid, h t ht hvalid⟩

theorem group_lt (b : Nat) : group b < 2 := by
  rw [group]
  split_ifs <;> decide

/-! ### The symbols that have a code (R181, R214, R221) -/

theorem Buf.isSome_get_set {α : Type} {i j : Nat} {x : α} {buf : Buf α} (h : i = j ∨ (Buf.get j buf).isSome) :
    (Buf.get j (Buf.set i x buf)).isSome := by
  rw [Buf.get_set]
  split_ifs with hij
  · rfl
  · exact h.resolve_left hij

/-- The symbols of one length all get a code, those that had one keep it, and the rest of them is left. -/
theorem assignCodes_isSome (len n code sym : Nat) (syms : List Nat) (tab : Buf HCode) :
    (sym ∈ syms.take n ∨ (Buf.get sym tab).isSome →
      (Buf.get sym (assignCodes len n code syms tab).1).isSome) ∧
    (assignCodes len n code syms tab).2.2 = syms.drop n := by
  induction n generalizing code syms tab with
  | zero => simp [assignCodes]
  | succ n ih =>
    cases syms with
    | nil => simp [assignCodes]
    | cons a syms =>
      obtain ⟨hsome, hrest⟩ := ih (code + 1) syms (Buf.set a ⟨code, len⟩ tab)
      refine ⟨fun h => hsome ?_, hrest⟩
      rw [List.take_succ_cons, List.mem_cons] at h
      rcases h with (rfl | hmem) | htab
      · exact .inr (Buf.isSome_get_set (.inl rfl))
      · exact .inl hmem
      · exact .inr (Buf.isSome_get_set (.inr htab))

/-- Every symbol that the counts reach gets a code. -/
theorem buildFrom_isSome {len code sym : Nat} {bits syms : List Nat} {tab : Buf HCode}
    (h : sym ∈ syms.take bits.sum ∨ (Buf.get sym tab).isSome) :
    (Buf.get sym (buildFrom len code bits syms tab)).isSome := by
  induction bits generalizing len code syms tab with
  | nil => simpa [buildFrom] using h
  | cons n rest ih =>
    obtain ⟨hsome, hrest⟩ := assignCodes_isSome len n code sym syms tab
    rw [List.sum_cons, List.take_add, List.mem_append] at h
    refine ih ?_
    rw [hrest]
    rcases h with (hfirst | hlater) | htab
    · exact .inr (hsome (.inl hfirst))
    · exact .inl hlater
    · exact .inr (hsome (.inr htab))

/-- HTBUILD gives every symbol that its specification counts a code (R180, R182). -/
theorem builtTable_isSome {t sym : Nat} (h : sym ∈ (htValuesOf t).take (htBitsOf t).sum) :
    (Buf.get sym (builtTable t)).isSome := by
  unfold builtTable
  exact buildFrom_isSome (.inl h)

theorem dcCode_isSome {g size : Nat} (hg : g < 2) (hsize : size ≤ 11) :
    (Buf.get (0 * 16 + size) (builtTable (tdc g))).isSome := by
  have h : ∀ g < 2, ∀ size ≤ 11,
      0 * 16 + size ∈ (htValuesOf (tdc g)).take (htBitsOf (tdc g)).sum := by decide +kernel
  exact builtTable_isSome (h g hg size hsize)

theorem acCode_isSome {g run size : Nat} (hg : g < 2) (hrun : run < 16) (hsize : size ≤ 10)
    (hpos : size ≠ 0) : (Buf.get (run * 16 + size) (builtTable (tac g))).isSome := by
  have h : ∀ g < 2, ∀ run < 16, ∀ low < 10,
      run * 16 + (low + 1) ∈ (htValuesOf (tac g)).take (htBitsOf (tac g)).sum := by decide +kernel
  obtain ⟨low, rfl⟩ := Nat.exists_eq_succ_of_ne_zero hpos
  exact builtTable_isSome (h g hg run hrun low (by omega))

theorem zrl_eob_isSome {g : Nat} (hg : g < 2) :
    (Buf.get (15 * 16 + 0) (builtTable (tac g))).isSome ∧
      (Buf.get (0 * 16 + 0) (builtTable (tac g))).isSome := by
  have h : ∀ g < 2, 15 * 16 + 0 ∈ (htValuesOf (tac g)).take (htBitsOf (tac g)).sum ∧
      0 * 16 + 0 ∈ (htValuesOf (tac g)).take (htBitsOf (tac g)).sum := by decide +kernel
  exact ⟨builtTable_isSome (h g hg).1, builtTable_isSome (h g hg).2⟩

theorem vliSize_ne_zero {z : Int} (hz : z ≠ 0) : vliSize z ≠ 0 := by
  rw [vliSize, if_neg hz]
  omega

/-! ### The AC symbols of a block -/

/-- A value the loop of R220 emits is one of the coefficients, not zero, after a run of at most 15 zeros. -/
theorem value_mem_acLoop {eob k run r : Nat} {z : Int} {zs : List Int} (hr : r < 16)
    (h : AcSym.value run z ∈ acLoop eob k r zs) : run < 16 ∧ z ≠ 0 ∧ z ∈ zs := by
  induction zs generalizing k r with
  | nil => simp [acLoop] at h
  | cons x zs ih =>
    rw [acLoop, List.mem_append] at h
    rcases h with hout | hrest
    · by_cases hx : x = 0
      · simp only [if_pos hx] at hout
        split_ifs at hout <;> simp at hout
      · simp only [if_neg hx, List.mem_singleton, AcSym.value.injEq] at hout
        obtain ⟨rfl, rfl⟩ := hout
        exact ⟨hr, hx, List.mem_cons_self⟩
    · split_ifs at hrest
      case pos => simp at hrest
      all_goals
        obtain ⟨h16, hz, hmem⟩ := ih (by omega) hrest
        exact ⟨h16, hz, List.mem_cons_of_mem _ hmem⟩

theorem value_mem_acSymbolsOf {z : Nat → Coef} {run : Nat} {n : Int}
    (h : AcSym.value run n ∈ acSymbolsOf z) :
    run < 16 ∧ n ≠ 0 ∧ ∃ k, 1 ≤ k ∧ k < 64 ∧ n = (z k).toInt := by
  obtain ⟨h16, hn, hmem⟩ := value_mem_acLoop (by decide) h
  obtain ⟨k, hk, rfl⟩ := List.mem_map.mp hmem
  obtain ⟨hlo, hhi⟩ := List.mem_range'_1.mp hk
  exact ⟨h16, hn, k, hlo, hhi, rfl⟩

/-- The check (3) of R221 passes where every value has a size of at most 10. -/
theorem acTooLarge_eq_none {syms : List AcSym} :
    acTooLarge syms = none ↔ ∀ run z, AcSym.value run z ∈ syms → vliSize z ≤ 10 := by
  rw [acTooLarge, List.findSome?_eq_none_iff]
  constructor
  · intro h run z hmem
    simpa using h _ hmem
  · rintro h (_ | ⟨run, z⟩ | _) hmem
    · rfl
    · simpa using h run z hmem
    · rfl

/-- An AC symbol whose code the tables have. -/
def AcSym.Coded : AcSym → Prop
  | .zrl => True
  | .value run z => run < 16 ∧ z ≠ 0 ∧ vliSize z ≤ 10
  | .eob => True

theorem acSymbolsOf_coded {z : Nat → Coef} (h : acTooLarge (acSymbolsOf z) = none) :
    ∀ sym ∈ acSymbolsOf z, sym.Coded := by
  rintro (_ | ⟨run, n⟩ | _) hmem
  · trivial
  · obtain ⟨h16, hn, -⟩ := value_mem_acSymbolsOf hmem
    exact ⟨h16, hn, acTooLarge_eq_none.mp h run n hmem⟩
  · trivial

/-! ### Coding is packing -/

theorem emitAc_eq_forEach {g : Nat} (hg : g < 2) {sym : AcSym} (hsym : sym.Coded) {s : State}
    (h : HasTable (tac g) s) : emitAc (tac g) sym s = forEach (acBits (tac g) sym) putBit s := by
  obtain ⟨hvalid, hbuilt⟩ := h
  obtain ⟨hzrl, heob⟩ := zrl_eob_isSome hg
  cases sym with
  | zrl => exact emitSymbol_eq_forEach hvalid hbuilt (Option.eq_some_of_isSome hzrl)
  | value run z =>
    obtain ⟨h16, hz, hsize⟩ := hsym
    have hcode := acCode_isSome hg h16 hsize (vliSize_ne_zero hz)
    exact emitValue_eq_forEach hvalid hbuilt (Option.eq_some_of_isSome hcode)
  | eob => exact emitSymbol_eq_forEach hvalid hbuilt (Option.eq_some_of_isSome heob)

theorem forEach_emitAc_eq_forEach {g : Nat} (hg : g < 2) {syms : List AcSym}
    (hsyms : ∀ sym ∈ syms, sym.Coded) {s : State} (h : HasTable (tac g) s) :
    forEach syms (emitAc (tac g)) s = forEach (syms.flatMap (acBits (tac g))) putBit s := by
  induction syms generalizing s with
  | nil => rfl
  | cons sym rest ih =>
    obtain ⟨hsym, hrest⟩ := List.forall_mem_cons.mp hsyms
    rw [forEach, emitAc_eq_forEach hg hsym h, List.flatMap_cons, forEach_append]
    exact Flow.andThen_congr (forEach_putBit_holds _ s) fun u hu => ih hrest (h.of_packed hu)

section

variable {b : Nat} {s : State}

theorem dcencBody_eq {dc : Coef} (hdc : Buf.get (elemIndex b 0) s.bufZ = some dc) :
    dcencBody b s =
      if 11 < vliSize (dc.toInt - (s.pred (slot b)).toInt) then
        raise .symbolMissing
          (symbolInfo (tdc (group b)) 0 (vliSize (dc.toInt - (s.pred (slot b)).toInt))) s
      else emitValue (tdc (group b)) 0 (dc.toInt - (s.pred (slot b)).toInt) (s.setPred (slot b) dc) := by
  rw [dcencBody, readElems_eq (f := fun _ => dc) (by simpa using hdc)]
  rfl

/-- DCENC whose difference has a code packs its bits after the predictor took the DC (R210). -/
theorem dcencBody_codes {dc : Coef} (htab : HasTable (tdc (group b)) s)
    (hdc : Buf.get (elemIndex b 0) s.bufZ = some dc)
    (hsize : vliSize (dc.toInt - (s.pred (slot b)).toInt) ≤ 11) :
    dcencBody b s = forEach (valueBits (tdc (group b)) 0 (dc.toInt - (s.pred (slot b)).toInt)) putBit
      (s.setPred (slot b) dc) := by
  have hcode := dcCode_isSome (group_lt b) hsize
  obtain ⟨hvalid, hbuilt⟩ := htab.congr (u := s.setPred (slot b) dc) (by simp) (by simp)
  rw [dcencBody_eq hdc, if_neg (by omega)]
  exact emitValue_eq_forEach hvalid hbuilt (Option.eq_some_of_isSome hcode)

theorem readElems_ac {z : Nat → Coef}
    (hz : ∀ k, 1 ≤ k → k < 64 → Buf.get (elemIndex b k) s.bufZ = some (z k))
    (cont : List Coef → State → Flow) :
    readElems (.coef .bufZ) s.bufZ b (List.range' 1 63) s cont = cont ((List.range' 1 63).map z) s :=
  readElems_eq (fun k hk => by
    obtain ⟨hlo, hhi⟩ := List.mem_range'_1.mp hk
    exact hz k hlo hhi) _ _ _

theorem acSymbols_map_toInt (z : Nat → Coef) :
    acSymbols (((List.range' 1 63).map z).map BitVec.toInt) = acSymbolsOf z := by
  rw [List.map_map]
  rfl

/-- ACENC with a value that has no code raises SymbolMissing (R221). -/
theorem acencBody_missing {z : Nat → Coef}
    (hz : ∀ k, 1 ≤ k → k < 64 → Buf.get (elemIndex b k) s.bufZ = some (z k)) {run : Nat} {n : Int}
    (hsize : acTooLarge (acSymbolsOf z) = some (run, n)) :
    acencBody b s = raise .symbolMissing (symbolInfo (tac (group b)) run (vliSize n)) s := by
  rw [acencBody, readElems_ac hz]
  simp only [acSymbols_map_toInt, hsize]

/-- ACENC whose values all have a code packs the bits of its symbols (R220). -/
theorem acencBody_codes {z : Nat → Coef} (htab : HasTable (tac (group b)) s)
    (hz : ∀ k, 1 ≤ k → k < 64 → Buf.get (elemIndex b k) s.bufZ = some (z k))
    (hsize : acTooLarge (acSymbolsOf z) = none) :
    acencBody b s = forEach ((acSymbolsOf z).flatMap (acBits (tac (group b)))) putBit s := by
  rw [acencBody, readElems_ac hz]
  simp only [acSymbols_map_toInt, hsize]
  exact forEach_emitAc_eq_forEach (group_lt b) (acSymbolsOf_coded hsize) htab

/-- DCENC on a written DC packs, or raises SymbolMissing having changed nothing (R214, R306). -/
theorem dcencBody_outcome {dc : Coef} (htab : HasTable (tdc (group b)) s)
    (hdc : Buf.get (elemIndex b 0) s.bufZ = some dc) :
    (dcencBody b s).Holds (Packed (s.setPred (slot b) dc)) fun t =>
      PackFailed (s.setPred (slot b) dc) t ∨ ∃ info, t = s.raised .symbolMissing info := by
  by_cases hsize : vliSize (dc.toInt - (s.pred (slot b)).toInt) ≤ 11
  · rw [dcencBody_codes htab hdc hsize]
    exact (forEach_putBit_holds _ _).mono (fun _ => id) (fun _ => .inl)
  · rw [dcencBody_eq hdc, if_pos (by omega)]
    exact .inr ⟨_, rfl⟩

/-- ACENC on a written block packs, or raises SymbolMissing having changed nothing (R221, R306). -/
theorem acencBody_outcome {z : Nat → Coef} (htab : HasTable (tac (group b)) s)
    (hz : ∀ k, 1 ≤ k → k < 64 → Buf.get (elemIndex b k) s.bufZ = some (z k)) :
    (acencBody b s).Holds (Packed s) fun t =>
      PackFailed s t ∨ ∃ info, t = s.raised .symbolMissing info := by
  cases hsize : acTooLarge (acSymbolsOf z) with
  | none =>
    rw [acencBody_codes htab hz hsize]
    exact (forEach_putBit_holds _ _).mono (fun _ => id) (fun _ => .inl)
  | some p =>
    rw [acencBody_missing hz hsize]
    exact .inr ⟨_, rfl⟩

end

end Sys2Proof.Machine
end

section
/-!
Commands one after the other (R225): from a state that a command's course leaves, a sequence does what a course
of the commands' bodies does, an error included, since a state with ERR = 1 refuses what comes after (R308).
-/

namespace Sys2Proof.Machine

/-! ### Sequences -/

/-- Where ERR = 1, commands in a row change nothing (R308). -/
theorem runCommands_refused {is : List Instr} {s : State} (herr : s.status.err = true)
    (hinit : .init ∉ is) : runCommands is s = .next s := by
  induction is with
  | nil => rfl
  | cons i rest ih =>
    rw [List.mem_cons, not_or] at hinit
    rw [runCommands, exec_refused herr (Ne.symm hinit.1)]
    exact ih hinit.2

theorem runCommands_append {is js : List Instr} {s t : State} (h : runCommands is s = .next t) :
    runCommands (is ++ js) s = runCommands js t := by
  induction is generalizing s with
  | nil =>
    obtain rfl := Host.Outcome.next.inj h
    rfl
  | cons i rest ih =>
    obtain ⟨u, hu⟩ := exec_answers i s
    rw [runCommands, hu] at h
    rw [List.cons_append, runCommands, hu]
    exact ih h

theorem runCommands_singleton (i : Instr) (s : State) : runCommands [i] s = exec i s := by
  obtain ⟨u, hu⟩ := exec_answers i s
  rw [runCommands, hu]
  rfl

/-- From every state of P the commands do what the part f of a course does; where f goes on P holds again, and
where it has stopped ERR is 1. -/
def DoAs (P : State → Prop) (is : List Instr) (f : State → Flow) : Prop :=
  ∀ s, P s → runCommands is s = (f s).result ∧ (f s).Holds P fun t => t.status.err = true

theorem DoAs.append {P : State → Prop} {is js : List Instr} {f g : State → Flow} (hf : DoAs P is f)
    (hg : DoAs P js g) (hinit : .init ∉ js) : DoAs P (is ++ js) fun s => (f s).andThen g := by
  intro s hs
  obtain ⟨hrun, hends⟩ := hf s hs
  cases hfs : f s with
  | go t =>
    rw [hfs] at hrun hends
    simp only [runCommands_append hrun, hfs]
    exact hg t hends
  | stop t =>
    rw [hfs] at hrun hends
    simp only [runCommands_append hrun, hfs]
    exact ⟨runCommands_refused hends hinit, hends⟩

/-! ### A course that goes on -/

/-- A state that a command's course has come to without an error: ERR = 0, DONE = 0, and the listed tables are
built. -/
structure Ongoing (ts : List Nat) (s : State) : Prop where
  err : s.status.err = false
  done : s.status.done = false
  tables : ∀ t ∈ ts, s.tableValid t = true

/-- Clearing DONE starts a course. -/
theorem Ongoing.start {ts : List Nat} {s : State} (herr : s.status.err = false)
    (hts : ∀ t ∈ ts, s.tableValid t = true) : Ongoing ts (s.setDone false) := ⟨herr, rfl, hts⟩

theorem Ongoing.congr {ts : List Nat} {s t : State} (h : Ongoing ts s) (hst : t.status = s.status)
    (hvalid : t.htvalid = s.htvalid) : Ongoing ts t :=
  ⟨hst ▸ h.err, hst ▸ h.done, fun u hu => by
    rw [State.tableValid, hvalid]
    exact h.tables u hu⟩

theorem Ongoing.setDone {ts : List Nat} {s : State} (h : Ongoing ts s) : s.setDone false = s := by
  rw [State.setDone, ← h.done]

/-- A command on a block whose checks pass runs its body with DONE cleared. -/
theorem exec_block {i : Instr} {b : Nat} {ts : List Nat} {body : State → Flow} {s : State}
    (hexec : exec i s =
      command (fun s => (checkBlock b s).andThen fun s => (checkTables ts s).andThen body) s)
    (herr : s.status.err = false) (hb : b ≤ 5) (hts : ∀ t ∈ ts, s.tableValid t = true) :
    exec i s = (body (s.setDone false)).result := by
  rw [hexec, command_run herr, checkBlock_pass hb, Flow.andThen_go,
    checkTables_pass (s := s.setDone false) hts, Flow.andThen_go]

/-- The form of a command on a block in a sequence. -/
theorem DoAs.block {i : Instr} {b : Nat} {us ts : List Nat} {body : State → Flow}
    (hexec : ∀ s, exec i s =
      command (fun s => (checkBlock b s).andThen fun s => (checkTables us s).andThen body) s)
    (hb : b ≤ 5) (hus : us ⊆ ts)
    (hbody : ∀ s, Ongoing ts s → (body s).Holds (Ongoing ts) fun t => t.status.err = true) :
    DoAs (Ongoing ts) [i] body := fun s hs => by
  refine ⟨?_, hbody s hs⟩
  rw [runCommands_singleton, exec_block (hexec s) hs.err hb fun t ht => hs.tables t (hus ht), hs.setDone]

/-- A sequence that begins with any command but NOP and INIT does not see DONE, which the command clears. -/
theorem runCommands_setDone {i : Instr} {rest : List Instr} {s : State} (herr : s.status.err = false)
    (hnop : i ≠ .nop) (hinit : i ≠ .init) :
    runCommands (i :: rest) (s.setDone false) = runCommands (i :: rest) s := by
  have hexec : exec i (s.setDone false) = exec i s := by
    obtain rfl | rfl | ⟨body, -, hbody⟩ := exec_eq_command i
    · exact absurd rfl hnop
    · exact absurd rfl hinit
    · rw [hbody, hbody, command_run herr, command_run (s := s.setDone false) herr]
      rfl
  rw [runCommands, runCommands, hexec]

/-! ### The commands of a block -/

section

variable {b : Nat} {ts : List Nat}

theorem fdct_doAs (hb : b ≤ 5) : DoAs (Ongoing ts) [.fdct b] (fdctBody b) :=
  DoAs.block (us := []) (fun _ => rfl) hb (by simp) fun s hs =>
    (fdctBody_holds b s).mono
      (by rintro _ ⟨xs, r, u, -, -, rfl⟩; exact hs.congr rfl rfl) (fun _ h => h.elim)

theorem quant_doAs (hb : b ≤ 5) : DoAs (Ongoing ts) [.quant b] (quantBody b) :=
  DoAs.block (us := []) (fun _ => rfl) hb (by simp) fun s hs =>
    (quantBody_holds b s).mono
      (by rintro _ ⟨xs, o, r, u, -, -, rfl⟩; exact hs.congr rfl rfl)
      (by rintro _ ⟨o, r, u, info, -, rfl⟩; exact State.raised_err _ _ _)

theorem zz_doAs (hb : b ≤ 5) : DoAs (Ongoing ts) [.zz b] (zzBody b) :=
  DoAs.block (us := []) (fun _ => rfl) hb (by simp) fun s hs =>
    (zzBody_holds b s).mono
      (by rintro _ ⟨xs, r, u, -, -, rfl⟩; exact hs.congr rfl rfl) (fun _ h => h.elim)

theorem PackFailed.err {s t : State} (h : PackFailed s t) : t.status.err = true := by
  obtain ⟨u, info, -, rfl, -⟩ := h
  exact State.raised_err _ _ _

theorem CodeFailed.err {s t : State} (h : CodeFailed s t) : t.status.err = true := by
  rcases h with h | ⟨u, info, -, rfl⟩
  · exact h.err
  · exact State.raised_err _ _ _

theorem Ongoing.packed {s t : State} (h : Ongoing ts s) (hp : Packed s t) : Ongoing ts t :=
  h.congr (by rw [hp.1]) (by rw [hp.1])

theorem dcenc_doAs (hb : b ≤ 5) (ht : tdc (group b) ∈ ts) : DoAs (Ongoing ts) [.dcenc b] (dcencBody b) :=
  DoAs.block (us := [tdc (group b)]) (fun _ => rfl) hb (by simpa using ht) fun s hs =>
    (dcencBody_holds b s).mono
      (by
        rintro t ⟨dc, r, u, -, h⟩
        exact (hs.congr (by simp) (by simp) : Ongoing ts (State.setPred _ _ _)).packed h)
      (by
        rintro _ ⟨r, u, -, ⟨dc, h⟩ | ⟨info, rfl⟩⟩
        · exact h.err
        · exact State.raised_err _ _ _)

theorem acenc_doAs (hb : b ≤ 5) (ht : tac (group b) ∈ ts) : DoAs (Ongoing ts) [.acenc b] (acencBody b) :=
  DoAs.block (us := [tac (group b)]) (fun _ => rfl) hb (by simpa using ht) fun s hs =>
    (acencBody_holds b s).mono
      (by
        rintro t ⟨r, u, -, h⟩
        exact (hs.congr rfl rfl : Ongoing ts { s with reads := r, uninit := u }).packed h)
      (by rintro _ ⟨r, u, -, h⟩; exact h.err)

/-- The part of BLKENC before coding. -/
def scanBody (b : Nat) (s : State) : Flow :=
  (fdctBody b s).andThen fun s => (quantBody b s).andThen (zzBody b)

theorem blkencBody_eq_scanBody (b : Nat) (s : State) :
    blkencBody b s = (scanBody b s).andThen fun s => (dcencBody b s).andThen (acencBody b) := by
  rw [scanBody, Flow.andThen_assoc]
  simp only [Flow.andThen_assoc]
  rfl

theorem scan_doAs (hb : b ≤ 5) : DoAs (Ongoing ts) [.fdct b, .quant b, .zz b] (scanBody b) :=
  (fdct_doAs hb).append ((quant_doAs hb).append (zz_doAs hb) (by simp)) (by simp)

/-- The five commands of a block do what BLKENC's body does (R225). -/
theorem blockCommands_doAs (hb : b ≤ 5) (hdc : tdc (group b) ∈ ts) (hac : tac (group b) ∈ ts) :
    DoAs (Ongoing ts) (blockCommands b) (blkencBody b) :=
  (fdct_doAs hb).append ((quant_doAs hb).append ((zz_doAs hb).append
    ((dcenc_doAs hb hdc).append (acenc_doAs hb hac) (by simp)) (by simp)) (by simp)) (by simp)

/-- BLKENC with its tables built does what its five commands do one after the other (R225). -/
theorem exec_blkenc_eq_runCommands {s : State} (herr : s.status.err = false) (hb : b ≤ 5)
    (hdc : s.tableValid (tdc (group b)) = true) (hac : s.tableValid (tac (group b)) = true) :
    exec (.blkenc b) s = runCommands (blockCommands b) s := by
  have hts : ∀ t ∈ [tdc (group b), tac (group b)], s.tableValid t = true := by simp [hdc, hac]
  obtain ⟨hrun, -⟩ := blockCommands_doAs hb (by simp) (by simp) _ (Ongoing.start herr hts)
  rw [exec_block (body := blkencBody b) rfl herr hb hts, ← hrun]
  exact runCommands_setDone herr (by simp) (by simp)

end

end Sys2Proof.Machine
end

section
/-!
What DCENC, ACENC and BLKENC keep at an error (R214, R221, R225, R306).
-/

namespace Sys2Proof.Machine

/-! ### Packing, whatever the sink answers -/

theorem State.setPred_setDone (s : State) (sl : Slot) (v : Coef) (d : Bool) :
    (s.setDone d).setPred sl v = (s.setPred sl v).setDone d := by cases sl <;> rfl

/-- The first error raised in a course is the one STATUS records (R305). -/
theorem State.raised_status_of_ok {s : State} (h : s.status.err = false) (e : ErrorKind) (info : Word) :
    (s.raised e info).status = ⟨true, false, e.code⟩ := by rw [State.raised_of_ok h]

theorem PackFailed.status {s t : State} (herr : s.status.err = false) (h : PackFailed s t) :
    t.status = ⟨true, false, 0x02⟩ := by
  obtain ⟨u, info, hu, rfl, -⟩ := h
  exact State.raised_status_of_ok (by rw [hu]; exact herr) .sinkError info

/-- What a command that packs `bits` leaves: the stream has only grown, and only the packer and, on a
SinkError, STATUS and ERRINFO have changed (R306). -/
theorem forEach_putBit_partial {s : State} (herr : s.status.err = false) (bits : List Bool) :
    ∃ t, (forEach bits putBit s).result = .next t ∧ s.sink.stream <+: t.sink.stream ∧
      ((t.status = s.status ∧ t.errinfo = s.errinfo) ∨ t.status = ⟨true, false, 0x02⟩) ∧
      t = { s with
        bitacc := t.bitacc, bitidx := t.bitidx, sink := t.sink
        status := t.status, errinfo := t.errinfo } := by
  have hends := forEach_putBit_holds bits s
  cases hflow : forEach bits putBit s with
  | go t =>
    rw [hflow] at hends
    have hp : Packed s t := hends
    refine ⟨t, rfl, hp.stream_prefix, .inl ⟨by rw [hp.1], by rw [hp.1]⟩, ?_⟩
    rw [hp.1]
  | stop t =>
    rw [hflow] at hends
    have hp : PackFailed s t := hends
    refine ⟨t, rfl, hp.stream_prefix, .inr (hp.status herr), ?_⟩
    obtain ⟨u, info, hu, rfl, -⟩ := hp
    rw [hu]
    rfl

/-! ### BLKENC up to its coding -/

/-- FDCT goes on, with F written and only the draws and the record of its reads besides (R153). -/
theorem fdctBody_go (b : Nat) (s : State) : ∃ u, fdctBody b s = .go u ∧ u.status = s.status ∧
    u.htvalid = s.htvalid ∧ u.ht = s.ht ∧ ∃ f, BlockHolds u.bufF b f := by
  have hends := fdctBody_holds b s
  cases hflow : fdctBody b s with
  | go u =>
    rw [hflow] at hends
    obtain ⟨xs, r, o, hx, -, rfl⟩ := hends
    exact ⟨_, rfl, rfl, rfl, rfl, exists_blockHolds_setBlock b hx _⟩
  | stop u =>
    rw [hflow] at hends
    exact hends.elim

/-- QUANT on a written block draws nothing for its reads: it writes Q, or raises RangeError with nothing
written (R156). -/
theorem quantBody_written {b : Nat} {s : State} {f : Nat → NumElem} (hF : BlockHolds s.bufF b f) :
    (quantBody b s).Holds
      (fun t => ∃ o xs, xs.length = 64 ∧ t = State.setQ { s with tie := o } b xs)
      (fun t => ∃ o info, t = State.raised { s with tie := o } .rangeError info) := by
  rw [quantBody, readBlock_eq hF]
  dsimp only
  split
  · exact ⟨_, _, rfl⟩
  · exact ⟨_, _, by simp, rfl⟩

/-- ZZ goes on, with Z written (R204). -/
theorem zzBody_go (b : Nat) (s : State) : ∃ u, zzBody b s = .go u ∧ u.status = s.status ∧
    u.htvalid = s.htvalid ∧ u.ht = s.ht ∧ ∃ z, BlockHolds u.bufZ b z := by
  have hends := zzBody_holds b s
  cases hflow : zzBody b s with
  | go u =>
    rw [hflow] at hends
    obtain ⟨xs, r, o, hx, -, rfl⟩ := hends
    exact ⟨_, rfl, rfl, rfl, rfl, exists_blockHolds_setBlock b hx _⟩
  | stop u =>
    rw [hflow] at hends
    exact hends.elim

/-- The part of BLKENC before coding ends with Z written, or with the RangeError of QUANT, which keeps what
FDCT did. -/
theorem scanBody_holds (b : Nat) (s : State) :
    (scanBody b s).Holds
      (fun t => t.status = s.status ∧ t.htvalid = s.htvalid ∧ t.ht = s.ht ∧ ∃ z, BlockHolds t.bufZ b z)
      (fun t => ∃ u o info, fdctBody b s = .go u ∧ u.status = s.status ∧
        t = State.raised { u with tie := o } .rangeError info) := by
  obtain ⟨u, hu, hst, hvalid, hht, f, hF⟩ := fdctBody_go b s
  rw [scanBody, hu, Flow.andThen_go]
  refine Flow.Holds.andThen
    ((quantBody_written hF).mono (fun _ => id) fun t ⟨o, info, ht⟩ => ⟨u, o, info, rfl, hst, ht⟩) ?_
  rintro _ ⟨o, xs, -, rfl⟩
  obtain ⟨v, hv, hst', hvalid', hht', hZ⟩ := zzBody_go b (State.setQ { u with tie := o } b xs)
  rw [hv]
  exact ⟨hst'.trans hst, hvalid'.trans hvalid, hht'.trans hht, hZ⟩

/-! ### Where BLKENC stops -/

/-- How BLKENC from s stops in t (R225, R306): with QUANT's RangeError; with SymbolMissing in the DC step, which
has changed nothing, or in the AC step; or with SinkError. -/
inductive BlkencStops (b : Nat) (s t : State) : Prop
  | range {u : State} {o : Oracle} {info : Word} (hu : fdctBody b s = .go u)
      (hst : u.status.err = false) (ht : t = State.raised { u with tie := o } .rangeError info)
  | missingDc {u : State} {info : Word} (hu : scanBody b s = .go u) (hst : u.status.err = false)
      (ht : t = u.raised .symbolMissing info)
  | missingAc {u v : State} {info : Word} (hu : scanBody b s = .go u) (hst : u.status.err = false)
      (hv : dcencBody b u = .go v) (hverr : v.status.err = false)
      (hbufs : v.bufF = u.bufF ∧ v.bufQ = u.bufQ ∧ v.bufZ = u.bufZ) (ht : t = v.raised .symbolMissing info)
  | sink (hst : t.status = ⟨true, false, 0x02⟩)

theorem blkencBody_stops {b : Nat} {s : State} (herr : s.status.err = false)
    (hdc : HasTable (tdc (group b)) s) (hac : HasTable (tac (group b)) s) :
    (blkencBody b s).Holds (fun t => t.status.err = false) (BlkencStops b s) := by
  rw [blkencBody_eq_scanBody]
  have hscan := scanBody_holds b s
  cases hu : scanBody b s with
  | stop t =>
    rw [hu] at hscan
    obtain ⟨u, o, info, hfdct, hst, ht⟩ := hscan
    exact .range hfdct (hst ▸ herr) ht
  | go u =>
    rw [hu] at hscan
    obtain ⟨hst, hvalid, hht, z, hZ⟩ := hscan
    have huerr : u.status.err = false := hst ▸ herr
    have hdcenc := dcencBody_outcome (hdc.congr hvalid hht) (hZ 0 (by decide))
    rw [Flow.andThen_go]
    cases hv : dcencBody b u with
    | stop t =>
      rw [hv] at hdcenc
      rcases hdcenc with hsink | ⟨info, ht⟩
      · exact .sink (hsink.status (by simpa using huerr))
      · exact .missingDc hu huerr ht
    | go v =>
      rw [hv] at hdcenc
      have hp : Packed (u.setPred (slot b) (z 0)) v := hdcenc
      have hverr : v.status.err = false := by
        rw [hp.1]
        simpa using huerr
      have hbufs : v.bufF = u.bufF ∧ v.bufQ = u.bufQ ∧ v.bufZ = u.bufZ := by
        rw [hp.1]
        simp
      have hvtab : HasTable (tac (group b)) v :=
        ((hac.congr hvalid hht).congr (by simp) (by simp) : HasTable _ (u.setPred _ _)).of_packed hp
      refine (acencBody_outcome hvtab fun k _ hk => hbufs.2.2 ▸ hZ k hk).mono (fun t ht => ?_) ?_
      · rw [ht.1]
        exact hverr
      · rintro t (hsink | ⟨info, ht⟩)
        · exact .sink (hsink.status hverr)
        · exact .missingAc hu huerr hv hverr hbufs ht

section

variable {b : Nat} {s t : State}

/-- A RangeError keeps what FDCT did (R306 (b)). -/
theorem BlkencStops.of_rangeError (h : BlkencStops b s t) (hst : t.status = ⟨true, false, 0x08⟩) :
    ∃ u, fdctBody b s = .go u ∧
      t = { u with status := t.status, errinfo := t.errinfo, tie := t.tie } := by
  have hcode : ErrorKind.symbolMissing.code ≠ 0x08 := by decide
  cases h with
  | range hu _ ht =>
    subst ht
    exact ⟨_, hu, rfl⟩
  | missingDc _ huerr ht =>
    rw [ht, State.raised_status_of_ok huerr] at hst
    exact absurd (congrArg Status.ecode hst) hcode
  | missingAc _ _ _ hverr _ ht =>
    rw [ht, State.raised_status_of_ok hverr] at hst
    exact absurd (congrArg Status.ecode hst) hcode
  | sink hsink => exact absurd (hsink.symm.trans hst) (by decide)

/-- A SymbolMissing keeps F, Q and Z and, in the AC step, all that the DC step did (R306 (b)). -/
theorem BlkencStops.of_symbolMissing (h : BlkencStops b s t) (hst : t.status = ⟨true, false, 0x07⟩) :
    ∃ u, scanBody b s = .go u ∧ u.status.err = false ∧
      t.bufF = u.bufF ∧ t.bufQ = u.bufQ ∧ t.bufZ = u.bufZ ∧
      (t = { u with status := t.status, errinfo := t.errinfo } ∨
        ∃ v, dcencBody b u = .go v ∧ v.status.err = false ∧
          t = { v with status := t.status, errinfo := t.errinfo }) := by
  cases h with
  | range _ huerr ht =>
    rw [ht, State.raised_status_of_ok (by exact huerr)] at hst
    exact absurd (congrArg Status.ecode hst) (by decide)
  | missingDc hu huerr ht =>
    subst ht
    exact ⟨_, hu, huerr, rfl, rfl, rfl, .inl rfl⟩
  | missingAc hu huerr hv hverr hbufs ht =>
    obtain ⟨hF, hQ, hZ⟩ := hbufs
    subst ht
    exact ⟨_, hu, huerr, hF, hQ, hZ, .inr ⟨_, hv, hverr, rfl⟩⟩
  | sink hsink => exact absurd (hsink.symm.trans hst) (by decide)

end

/-! ### The commands -/

section

variable {s : State} {b : Nat}

theorem TablesBuilt.hasTable_dc (h : TablesBuilt s) (hvalid : s.tableValid (tdc (group b)) = true) :
    HasTable (tdc (group b)) s := h.hasTable (by have := group_lt b; rw [tdc]; omega) hvalid

theorem TablesBuilt.hasTable_ac (h : TablesBuilt s) (hvalid : s.tableValid (tac (group b)) = true) :
    HasTable (tac (group b)) s := h.hasTable (by have := group_lt b; rw [tac]; omega) hvalid

/-- DCENC that passes its checks packs its bits (R214). -/
theorem exec_dcenc {dc : Coef} (herr : s.status.err = false) (hb : b ≤ 5) (htab : TablesBuilt s)
    (hvalid : s.tableValid (tdc (group b)) = true) (hdc : Buf.get (elemIndex b 0) s.bufZ = some dc)
    (hsize : vliSize (dc.toInt - (s.pred (slot b)).toInt) ≤ 11) :
    exec (.dcenc b) s = (forEach (valueBits (tdc (group b)) 0 (dc.toInt - (s.pred (slot b)).toInt)) putBit
      ((s.setDone false).setPred (slot b) dc)).result := by
  have hcodes := dcencBody_codes (s := s.setDone false) (htab.hasTable_dc hvalid) hdc
    (by rwa [State.pred_setDone])
  rw [exec_block (ts := [tdc (group b)]) (body := dcencBody b) rfl herr hb (by simpa using hvalid), hcodes,
    State.pred_setDone]

/-- ACENC that passes its checks packs the bits of its symbols (R221). -/
theorem exec_acenc {z : Nat → Coef} (herr : s.status.err = false) (hb : b ≤ 5) (htab : TablesBuilt s)
    (hvalid : s.tableValid (tac (group b)) = true)
    (hz : ∀ k, 1 ≤ k → k < 64 → Buf.get (elemIndex b k) s.bufZ = some (z k) ∧ vliSize (z k).toInt ≤ 10) :
    exec (.acenc b) s = (forEach ((acSymbolsOf z).flatMap (acBits (tac (group b)))) putBit
      (s.setDone false)).result := by
  have hsize : acTooLarge (acSymbolsOf z) = none := acTooLarge_eq_none.mpr fun run n hmem => by
    obtain ⟨-, -, k, hlo, hhi, rfl⟩ := value_mem_acSymbolsOf hmem
    exact (hz k hlo hhi).2
  have hcodes := acencBody_codes (s := s.setDone false) (htab.hasTable_ac hvalid)
    (fun k hlo hhi => (hz k hlo hhi).1) hsize
  rw [exec_block (ts := [tac (group b)]) (body := acencBody b) rfl herr hb (by simpa using hvalid), hcodes]

/-- How BLKENC with its tables built ends: without an error, or stopped. -/
theorem exec_blkenc_stops {t : State} (herr : s.status.err = false) (hb : b ≤ 5) (htab : TablesBuilt s)
    (hdc : s.tableValid (tdc (group b)) = true) (hac : s.tableValid (tac (group b)) = true)
    (h : exec (.blkenc b) s = .next t) (hterr : t.status.err = true) :
    BlkencStops b (s.setDone false) t := by
  have hts : ∀ t ∈ [tdc (group b), tac (group b)], s.tableValid t = true := by simp [hdc, hac]
  have hends := blkencBody_stops (s := s.setDone false) herr (htab.hasTable_dc hdc) (htab.hasTable_ac hac)
  rw [exec_block (body := blkencBody b) rfl herr hb hts] at h
  obtain rfl := Host.Outcome.next.inj h
  exact Flow.Holds.state (P := fun u => u.status.err = true → BlkencStops b (s.setDone false) u)
    (hends.mono (fun u hu hu' => by simp [hu] at hu') (fun _ hu _ => hu)) hterr

end

/-- Settles O31: DCENC and ACENC pack bits, which only the sink can stop; BLKENC is its five commands, and how
it stops says what it keeps. -/
theorem codingPartialEffects : Obligations.CodingPartialEffects := by
  intro s b herr hb htab ends
  refine ⟨fun dc hvalid hdc hsize => ?_, fun z hvalid hz => ?_, fun hdcv hacv =>
    ⟨exec_blkenc_eq_runCommands herr hb hdcv hacv, fun t ht => ⟨fun hst => ?_, fun hst => ?_⟩⟩⟩
  · have hexec := exec_dcenc herr hb htab hvalid hdc hsize
    obtain ⟨t, ht, hstream, hst, hframe⟩ := forEach_putBit_partial
      (s := (s.setDone false).setPred (slot b) dc) (by simpa using herr) _
    refine ⟨⟨t, hexec.trans ht, ⟨?_, ?_⟩, hframe⟩, ?_⟩
    · simpa using hstream
    · simpa using hst
    · exact stopsAtSink_of_forEach (by rw [hexec, State.setPred_setDone]) (by simpa using herr) (by simp)
        (by simp) (by simp)
  · have hexec := exec_acenc herr hb htab hvalid hz
    obtain ⟨t, ht, hstream, hst, hframe⟩ := forEach_putBit_partial (s := s.setDone false) herr _
    exact ⟨⟨t, hexec.trans ht, ⟨hstream, hst⟩, hframe⟩, stopsAtSink_of_forEach hexec herr rfl rfl rfl⟩
  · obtain ⟨u, hu, hframe⟩ :=
      (exec_blkenc_stops herr hb htab hdcv hacv ht (by rw [hst])).of_rangeError hst
    exact ⟨u, by rw [exec_block (ts := []) (body := fdctBody b) rfl herr hb (by simp), hu, Flow.result_go],
      hframe⟩
  · obtain ⟨u, hu, huerr, hF, hQ, hZ, hkept⟩ :=
      (exec_blkenc_stops herr hb htab hdcv hacv ht (by rw [hst])).of_symbolMissing hst
    have hstart : Ongoing [tdc (group b)] (s.setDone false) := .start herr (by simpa using hdcv)
    obtain ⟨hscan, hends⟩ := scan_doAs hb _ hstart
    rw [hu] at hscan hends
    refine ⟨u, ?_, huerr, hF, hQ, hZ, hkept.imp_right fun ⟨v, hv, hverr, hframe⟩ => ⟨v, ?_, hverr, hframe⟩⟩
    · exact (runCommands_setDone herr (by simp) (by simp)).symm.trans hscan
    · have hdcenc := (dcenc_doAs hb (by simp) u hends).1
      rwa [runCommands_singleton, hv] at hdcenc

end Sys2Proof.Machine
end

section
/-!
The command words (R91 to R100, R106): what the decoder reads of a word is its opcode field w[31:24] and its
operand field w[23:0]. Both round trips and the rows of opcode_table.json are stated in these two numbers.
-/

namespace Sys2Proof

open Machine

/-! ### The two fields of a word (R91) -/

/-- The number of operand bits that the format of an opcode of R98 uses; the bits of w[23:0] above them must
be 0 (R92 to R97). -/
def operandBits : Nat → Nat
  | 0x00 | 0x01 | 0x0C | 0x0F => 0
  | 0x02 => 2
  | 0x0B => 21
  | 0x03 | 0x04 | 0x0E => 24
  | _ => 3

theorem operandBits_le (op : Nat) : operandBits op ≤ 24 := by
  unfold operandBits
  split <;> decide

theorem Instr.opcode_lt (i : Instr) : i.opcode < 17 := by
  cases i <;> simp [Instr.opcode]

/-- The operands of a well-formed command fit the bits of its format (R92 to R97). -/
theorem Instr.operands_lt {i : Instr} (h : i.WellFormed) : i.operands < 2 ^ operandBits i.opcode := by
  cases i
  case nop | init | flush | encimg => decide
  case htbuild t => exact h
  case fdct b | quant b | idct b | zz b | unzz b | dcenc b | acenc b | blkenc b => exact h
  case csc r g b =>
    obtain ⟨hr, hg, hb⟩ := h
    simp only [Instr.operands, Instr.opcode, operandBits]
    omega
  case mcuload mx my | encmcu mx my =>
    obtain ⟨hx, hy⟩ := h
    simp only [Instr.operands, Instr.opcode, operandBits]
    omega
  case putbits n v =>
    have hn : n < 32 := h
    have hv := v.isLt
    simp only [Instr.operands, Instr.opcode, operandBits]
    omega

/-- The word of a well-formed command holds its opcode and its operands (R91). -/
theorem fields_encode {i : Instr} (h : i.WellFormed) :
    field (encode i) 31 24 = i.opcode ∧ field (encode i) 23 0 = i.operands :=
  Laws.OpcodeField.of_layout (i.opcode_lt.trans (by decide))
    ((Instr.operands_lt h).trans_le (Nat.pow_le_pow_right (by decide) (operandBits_le _)))

/-- A word is the word of the command that has its two fields. -/
theorem encode_eq_of_fields {w : Word} {i : Instr} (hop : field w 31 24 = i.opcode)
    (hargs : field w 23 0 = i.operands) : encode i = w := by
  refine BitVec.eq_of_toNat_eq ?_
  simp only [encode, ← hop, ← hargs, field, BitVec.toNat_ofNat]
  omega

/-! ### The decoder in the two fields (R92 to R99) -/

/-- Format N accepts the operand field 0 alone (R92). -/
theorem decodeN_ok {w : Word} {op : Nat} {i j : Instr} :
    decodeN w op i = .ok j ↔ field w 23 0 = 0 ∧ i = j := zeroField_ok

/-- Format B accepts the operand fields below 8, as the block index (R93). -/
theorem decodeB_ok {w : Word} {op : Nat} {f : Nat → Instr} {j : Instr} :
    decodeB w op f = .ok j ↔ field w 23 0 < 8 ∧ f (field w 23 0) = j := by
  have hzero : field w 23 3 = 0 ↔ field w 23 0 < 8 := by
    simp only [field]
    omega
  rw [decodeB, zeroField_ok, hzero]
  refine and_congr_right fun hlt => ?_
  rw [show field w 2 0 = field w 23 0 by simp only [field] at hlt ⊢; omega]

/-- A word that decodes holds the fields of the well-formed command it decodes to. -/
theorem fields_of_decode {w : Word} {i : Instr} (h : decode w = .ok i) :
    i.WellFormed ∧ field w 31 24 = i.opcode ∧ field w 23 0 = i.operands := by
  rw [decode] at h
  split at h
  case h_1 hop | h_2 hop | h_13 hop | h_16 hop =>
    obtain ⟨hargs, rfl⟩ := decodeN_ok.mp h
    exact ⟨trivial, hop, hargs⟩
  case h_6 hop | h_7 hop | h_8 hop | h_9 hop | h_10 hop | h_11 hop | h_14 hop | h_17 hop =>
    obtain ⟨hlt, rfl⟩ := decodeB_ok.mp h
    exact ⟨hlt, hop, rfl⟩
  case h_3 hop =>
    obtain ⟨hzero, rfl⟩ := zeroField_ok.mp h
    refine ⟨Nat.mod_lt _ (by decide), hop, ?_⟩
    simp only [field, Instr.operands] at hzero ⊢
    omega
  case h_4 hop =>
    obtain rfl := Except.ok.inj h
    refine ⟨⟨Nat.mod_lt _ (by decide), Nat.mod_lt _ (by decide), Nat.mod_lt _ (by decide)⟩, hop, ?_⟩
    simp only [field, Instr.operands]
    omega
  case h_5 hop | h_15 hop =>
    obtain rfl := Except.ok.inj h
    refine ⟨⟨Nat.mod_lt _ (by decide), Nat.mod_lt _ (by decide)⟩, hop, ?_⟩
    simp only [field, Instr.operands]
    omega
  case h_12 hop =>
    obtain ⟨hzero, rfl⟩ := zeroField_ok.mp h
    refine ⟨Nat.mod_lt _ (by decide), hop, ?_⟩
    simp only [field, Instr.operands, BitVec.toNat_ofNat] at hzero ⊢
    omega
  case h_18 => cases h

/-- A word that holds the fields of a well-formed command decodes to it. -/
theorem decode_of_fields {w : Word} {i : Instr} (hwf : i.WellFormed) (hop : field w 31 24 = i.opcode)
    (hargs : field w 23 0 = i.operands) : decode w = .ok i := by
  rw [decode, hop]
  cases i
  case nop | init | flush | encimg => exact decodeN_ok.mpr ⟨hargs, rfl⟩
  case fdct b | quant b | idct b | zz b | unzz b | dcenc b | acenc b | blkenc b =>
    exact decodeB_ok.mpr ⟨hargs ▸ hwf, congrArg _ hargs⟩
  case htbuild t =>
    have ht : t < 4 := hwf
    simp only [field, Instr.operands] at hargs
    refine zeroField_ok.mpr ⟨?_, congrArg Instr.htbuild ?_⟩ <;> simp only [field] <;> omega
  case csc r g b =>
    obtain ⟨hr, hg, hb⟩ := hwf
    simp only [field, Instr.operands] at hargs
    simp only [Instr.opcode, field, Except.ok.injEq, Instr.csc.injEq]
    omega
  case mcuload mx my | encmcu mx my =>
    obtain ⟨hx, hy⟩ := hwf
    simp only [field, Instr.operands] at hargs
    simp only [Instr.opcode, field, Except.ok.injEq, Instr.mcuload.injEq, Instr.encmcu.injEq]
    omega
  case putbits n v =>
    have hn : n < 32 := hwf
    have hv := v.isLt
    simp only [field, Instr.operands] at hargs
    refine zeroField_ok.mpr ⟨?_, congrArg₂ Instr.putbits ?_ (BitVec.eq_of_toNat_eq ?_)⟩ <;>
      simp only [field, BitVec.toNat_ofNat] <;> omega

/-- Settles O1: a command's word holds its fields, and the decoder reads the command from them. -/
theorem decodeOfEncode : Obligations.DecodeOfEncode := by
  intro i hwf
  obtain ⟨hop, hargs⟩ := fields_encode hwf
  exact decode_of_fields hwf hop hargs

/-- Settles O2: the command's fields are the word's, and a word is nothing but its two fields. -/
theorem encodeOfDecode : Obligations.EncodeOfDecode := by
  intro w i h
  obtain ⟨hwf, hop, hargs⟩ := fields_of_decode h
  exact ⟨hwf, encode_eq_of_fields hop hargs⟩

/-! ### The rows of opcode_table.json (R99) -/

/-- A word decodes if its opcode is one of R98 and its operand field has only bits that the format uses. -/
theorem exists_decode_of_fields {w : Word} (hop : field w 31 24 < 17)
    (hargs : field w 23 0 < 2 ^ operandBits (field w 31 24)) : ∃ i, decode w = .ok i := by
  rw [decode]
  split
  case h_1 heq | h_2 heq | h_13 heq | h_16 heq =>
    rw [heq] at hargs
    exact ⟨_, decodeN_ok.mpr ⟨Nat.lt_one_iff.mp hargs, rfl⟩⟩
  case h_6 heq | h_7 heq | h_8 heq | h_9 heq | h_10 heq | h_11 heq | h_14 heq | h_17 heq =>
    rw [heq] at hargs
    exact ⟨_, decodeB_ok.mpr ⟨hargs, rfl⟩⟩
  case h_4 | h_5 | h_15 => exact ⟨_, rfl⟩
  case h_3 heq | h_12 heq =>
    rw [heq] at hargs
    refine ⟨_, zeroField_ok.mpr ⟨?_, rfl⟩⟩
    simp only [field, operandBits] at hargs ⊢
    omega
  case h_18 =>
    simp only [imp_false] at *
    omega

/-- The row of opcode_table.json that stands for a command: its opcode, above as many free bits as its
format has operand bits (R99). -/
def Instr.row (i : Instr) : OpcodeRow :=
  ⟨i.mnemonic, BitVec.ofNat 32 (i.opcode * 2 ^ 24), BitVec.allOnes 32 <<< operandBits i.opcode⟩

/-- The rows are those of the 17 commands, whatever operands these have. -/
theorem opcodeRows_eq_map_row :
    opcodeRows =
      [Instr.nop, .init, .htbuild 0, .csc 0 0 0, .mcuload 0 0, .fdct 0, .quant 0, .idct 0, .zz 0, .dcenc 0,
        .acenc 0, .putbits 0 0, .flush, .blkenc 0, .encmcu 0 0, .encimg, .unzz 0].map Instr.row := rfl

/-- The rows stand in the order of the opcodes. -/
theorem opcodeRows_getElem? (i : Instr) : opcodeRows[i.opcode]? = some i.row := by
  rw [opcodeRows_eq_map_row]
  cases i <;> rfl

theorem row_mem_opcodeRows (i : Instr) : i.row ∈ opcodeRows := List.mem_of_getElem? (opcodeRows_getElem? i)

/-- Every row stands for a command. -/
theorem exists_row_eq {row : OpcodeRow} (h : row ∈ opcodeRows) : ∃ i : Instr, i.row = row := by
  rw [opcodeRows_eq_map_row] at h
  obtain ⟨i, -, hi⟩ := List.mem_map.mp h
  exact ⟨i, hi⟩

/-- A mask of the bits from k on selects the words of an opcode whose operand field has no bit from k on. -/
theorem masked_eq_iff {w : Word} {k op : Nat} (hk : k ≤ 24) (hop : op < 256) :
    w &&& (BitVec.allOnes 32 <<< k) = BitVec.ofNat 32 (op * 2 ^ 24) ↔
      field w 31 24 = op ∧ field w 23 0 < 2 ^ k := by
  have hw := w.isLt
  have hdiv : w.toNat / 2 ^ k * 2 ^ k + w.toNat % 2 ^ k = w.toNat := Nat.div_add_mod' _ _
  have hmod : w.toNat % 2 ^ k = w.toNat % 2 ^ 24 % 2 ^ k := (Nat.mod_mod_of_dvd _ (pow_dvd_pow 2 hk)).symm
  have hlow : w.toNat % 2 ^ k < 2 ^ k := Nat.mod_lt _ (by positivity)
  have hle : 2 ^ k ≤ 2 ^ 24 := Nat.pow_le_pow_right (by decide) hk
  rw [← BitVec.shiftLeft_ushiftRight, ← BitVec.toNat_inj, BitVec.toNat_shiftLeft, BitVec.toNat_ushiftRight,
    Nat.shiftLeft_eq, Nat.shiftRight_eq_div_pow, BitVec.toNat_ofNat]
  simp only [field]
  refine ⟨fun h => ⟨by omega, by omega⟩, fun ⟨h, hargs⟩ => ?_⟩
  rw [Nat.mod_eq_of_lt (a := w.toNat % 2 ^ 24) (by omega)] at hmod
  omega

/-- A row selects the words with its opcode whose operand field has only bits that the format uses. -/
theorem row_selects_iff (i : Instr) (w : Word) :
    w &&& i.row.mask = i.row.pattern ↔
      field w 31 24 = i.opcode ∧ field w 23 0 < 2 ^ operandBits i.opcode :=
  masked_eq_iff (operandBits_le _) (i.opcode_lt.trans (by decide))

/-- Settles O3: a row and the decoder both ask for the row's opcode and an operand field of its format, and
the opcode names the row. -/
theorem decoderMatchesTable : Obligations.DecoderMatchesTable := by
  intro w
  refine ⟨⟨fun ⟨i, hi⟩ => ?_, fun ⟨row, hrow, hsel⟩ => ?_⟩, fun i hi row hrow hsel => ?_⟩
  · obtain ⟨hwf, hop, hargs⟩ := fields_of_decode hi
    exact ⟨i.row, row_mem_opcodeRows i,
      (row_selects_iff i w).mpr ⟨hop, hargs ▸ Instr.operands_lt hwf⟩⟩
  · obtain ⟨j, rfl⟩ := exists_row_eq hrow
    obtain ⟨hop, hargs⟩ := (row_selects_iff j w).mp hsel
    exact exists_decode_of_fields (hop ▸ j.opcode_lt) (hop ▸ hargs)
  · obtain ⟨j, rfl⟩ := exists_row_eq hrow
    obtain ⟨-, hop, -⟩ := fields_of_decode hi
    have hop' := ((row_selects_iff j w).mp hsel).1
    have hrows : some j.row = some i.row := by
      rw [← opcodeRows_getElem? j, ← opcodeRows_getElem? i, ← hop, ← hop']
    exact congrArg OpcodeRow.mnemonic (Option.some.inj hrows)

/-- Settles O4: the words of R106 are decoded one by one. -/
theorem sampleWordsDecode : Obligations.SampleWordsDecode := by
  unfold Obligations.SampleWordsDecode
  decide

end Sys2Proof
end

section
/-!
The errors that end a command before it has done anything: an illegal word (R100), an operand that a check
refuses (R93, R96, R97, R131), and the refusal of every word while ERR = 1 (R308).
-/

namespace Sys2Proof.Machine

/-! ### Issue -/

/-- Settles O6: the word issues no command, and raising IllegalCommand is all that happens. -/
theorem illegalWordRaises : Obligations.IllegalWordRaises := by
  intro s op rest w e hs hop hw herr
  rw [step_cons hs, hostStep_issues hop, issue, hw]
  exact command_raises (s := { s with host := rest }) (e := .illegalCommand) herr rfl

/-- An issued word always answers a next state, legal or not (R100, R305). -/
theorem issue_answers (w : Word) (s : State) : ∃ t, issue w s = .next t := by
  rw [issue]
  split
  · exact exec_answers _ s
  · exact command_answers _ s

/-- Settles O7: an issued word answers, and what it answers is the state it got, as is what a command by itself
answers; that the word or command is not NOP's is not needed, since NOP does nothing in any state. -/
theorem refusedWhileErr : Obligations.RefusedWhileErr := by
  refine ⟨fun s op rest w herr hs hop _ hinit => ?_, fun s i herr _ hinit => exec_refused herr hinit⟩
  obtain ⟨t, ht⟩ := issue_answers w { s with host := rest }
  rw [step_cons hs, hostStep_issues hop, ht, issue_refused (s := { s with host := rest }) herr hinit ht]

/-! ### The operand checks -/

/-- A command whose first check raises an error does nothing else, whatever follows the check. -/
theorem command_check_raises {check f : State → Flow} {s : State} {e : ErrorKind} {info : Word}
    (herr : s.status.err = false) (h : check (s.setDone false) = raise e info (s.setDone false)) :
    command (fun s => (check s).andThen f) s = .next (s.erring e.code info) :=
  command_raises herr (by rw [h, raise_andThen])

/-- A dimension that is 0 fails the check of R131; the error's info is IMG_H ‖ IMG_W. -/
theorem checkDims_fail {s : State} (h : s.imgW = 0 ∨ s.imgH = 0) :
    checkDims s =
      raise .sourceError (BitVec.ofNat 32 (s.imgH.toNat * 2 ^ 16 + s.imgW.toNat)) s := by
  have hinfo : s.imgH ++ s.imgW = BitVec.ofNat 32 (s.imgH.toNat * 2 ^ 16 + s.imgW.toNat) := by
    refine BitVec.eq_of_toNat_eq ?_
    rw [BitVec.toNat_append, ← Nat.shiftLeft_add_eq_or_of_lt s.imgW.isLt, Nat.shiftLeft_eq,
      BitVec.toNat_ofNat, Nat.mod_eq_of_lt (by omega)]
  rw [checkDims, if_neg (by bv_omega), hinfo]

theorem checkMcu_fail {mx my : Nat} {s : State} (h : s.nx ≤ mx ∨ s.ny ≤ my) (w : Word) :
    checkMcu mx my w s = raise .badOperand w s := if_neg (by omega)

theorem checkCount_fail {n : Nat} (h : 16 < n) (w : Word) (s : State) :
    checkCount n w s = raise .badOperand w s := if_neg (by omega)

/-- NX and NY are the image size in MCUs, rounded up (R28, R123). -/
theorem nx_ny_eq (s : State) :
    s.nx = (s.imgW.toNat + 15) / 16 ∧ s.ny = (s.imgH.toNat + 15) / 16 := by
  simp only [State.nx, State.ny, State.compW, State.compH, completion]
  omega

/-- An MCU command with an index outside a nonempty canvas: the second check decides (R131). -/
theorem mcuCommand_badOperand {s : State} {mx my : Nat} {w : Word} {f : State → Flow}
    (herr : s.status.err = false) (hw : s.imgW ≠ 0) (hh : s.imgH ≠ 0) (hmcu : s.nx ≤ mx ∨ s.ny ≤ my) :
    command (fun s => (checkDims s).andThen fun s => (checkMcu mx my w s).andThen f) s =
      .next (s.erring 0x05 w) := by
  refine command_raises (e := .badOperand) herr ?_
  rw [checkDims_pass_of_ne (s := s.setDone false) hw hh, Flow.andThen_go,
    checkMcu_fail (s := s.setDone false) hmcu, raise_andThen]

/-- Settles O16: each command's checks stand before its body, and the first that fails is all it does. -/
theorem operandErrors : Obligations.OperandErrors := by
  refine ⟨nx_ny_eq, fun s herr => ⟨fun hdims => ?_, fun hw hh mx my hmcu => ?_, fun n v hn _ => ?_⟩⟩
  · have hfail := checkDims_fail (s := s.setDone false) hdims
    exact ⟨command_check_raises herr hfail,
      fun mx my => ⟨command_check_raises herr hfail, command_check_raises herr hfail⟩⟩
  · exact ⟨mcuCommand_badOperand herr hw hh hmcu, mcuCommand_badOperand herr hw hh hmcu⟩
  · exact command_check_raises (e := .badOperand) herr (checkCount_fail hn _ _)

/-- Settles O17: the check of b stands first in every block command. -/
theorem invalidBlockRaised : Obligations.InvalidBlockRaised := by
  intro s b herr hb i hi
  have hfail := checkBlock_fail (b := b) (by omega) (s.setDone false)
  have hraises (f : State → Flow) : command (fun s => (checkBlock b s).andThen f) s =
      .next (s.erring 0x03 (BitVec.ofNat 32 b)) := command_check_raises herr hfail
  simp only [List.mem_cons, List.not_mem_nil, or_false] at hi
  rcases hi with rfl | rfl | rfl | rfl | rfl | rfl | rfl | rfl <;> exact hraises _

end Sys2Proof.Machine
end

section
/-!
Colour conversion (R120 to R122): CSC leaves the three conversions of its levels, and levels of 8 bits keep them
in the ranges of R122.
-/

namespace Sys2Proof.Machine

/-- Settles O13: CSC writes the three elements, each of which takes the exact result of its formula. -/
theorem cscConverts : Obligations.CscConverts := by
  intro s r g b herr
  have hexec : exec (.csc r g b) s = (cscBody r g b (s.setDone false)).result := by
    rw [exec, execCsc, command_run herr]
  exact ⟨_, _, _, hexec, numElem_exactIn _ (yc_toReal r g b) _, numElem_exactIn _ (cbc_toReal r g b) _,
    numElem_exactIn _ (crc_toReal r g b) _⟩

/-- Settles O14: the formulas are monotone in each level, and the weights of a grey pixel add up to 1 or to 0. -/
theorem conversionRanges : Obligations.ConversionRanges := by
  simp only [Obligations.ConversionRanges, yc_toReal, cbc_toReal, crc_toReal, ycFormula, cbcFormula, crcFormula]
  refine ⟨fun r g b hr hg hb => ?_, fun v => ⟨by ring, by ring, by ring⟩⟩
  have hr' : (r : ℝ) ≤ 255 := by exact_mod_cast hr
  have hg' : (g : ℝ) ≤ 255 := by exact_mod_cast hg
  have hb' : (b : ℝ) ≤ 255 := by exact_mod_cast hb
  have hr0 : (0 : ℝ) ≤ r := r.cast_nonneg
  have hg0 : (0 : ℝ) ≤ g := g.cast_nonneg
  have hb0 : (0 : ℝ) ≤ b := b.cast_nonneg
  refine ⟨⟨?_, ?_⟩, ⟨?_, ?_⟩, ?_, ?_⟩ <;> linarith

end Sys2Proof.Machine
end

section
/-!
The range of the pipeline's coefficients (R134, R153, R155): the sums of FDCT are the double sum of R153, which
samples of the converter's range keep within 2048, and so the rounded quotients within 205.
-/

namespace Sys2Proof.Machine

open Real

/-- The sums row by row are the double sum of R153. -/
theorem fdctElem_toReal (f : Nat → NumVal) (v : Nat) {u : Nat} (hu : u < 8) :
    (fdctElem (rowSums ((List.range 64).map f)) v u).toReal = dctFormula (fun k => (f k).toReal) v u := by
  rw [fdctElem, mulC_toReal, mulC_toReal, toReal_sum8, dctFormula, mul_assoc]
  congr 2
  refine Finset.sum_congr rfl fun y hy => ?_
  rw [NumVal.toReal_mulCos, rowSums, elem_blockOf _ (Finset.mem_range.mp hy) hu, toReal_sum8, Finset.sum_mul]
  refine Finset.sum_congr rfl fun x hx => ?_
  have hk : 8 * y + x < 64 := by
    have := Finset.mem_range.mp hy
    have := Finset.mem_range.mp hx
    omega
  rw [NumVal.toReal_mulCos, levelShift, elem, List.getD_eq_getElem?_getD, List.getElem?_map,
    List.getElem?_range hk, NumVal.toReal_sub, NumVal.toReal_ofInt, dctCos, dctCos]
  push_cast
  rfl

/-- The samples are in the range of the colour conversion (R122). -/
def SampleRange (x : Nat → NumElem) : Prop := ∀ k < 64, 0 ≤ (x k).real.toReal ∧ (x k).real.toReal ≤ 255.5

theorem abs_dctC_le (k : Nat) : |dctC k| ≤ 1 / 2 := by
  rw [dctC]
  split_ifs
  · rw [abs_of_nonneg (by positivity)]
    exact one_div_le_one_div_of_le (by norm_num) ((Real.le_sqrt' (by norm_num)).mpr (by norm_num))
  · norm_num

/-- A DCT coefficient of level-shifted samples of at most 128 is at most 2048: the sum has 64 terms, and C(u) and
C(v) are at most 1/2 (R150, R153). -/
theorem abs_dctFormula_le {s : Nat → ℝ} (hs : ∀ k < 64, |s k - 128| ≤ 128) (v u : Nat) :
    |dctFormula s v u| ≤ 2048 := by
  have hterm : ∀ y ∈ Finset.range 8, ∀ x ∈ Finset.range 8,
      |(s (8 * y + x) - 128) * dctCos x u * dctCos y v| ≤ 128 := by
    intro y hy x hx
    have hk : 8 * y + x < 64 := by
      have := Finset.mem_range.mp hy
      have := Finset.mem_range.mp hx
      omega
    rw [abs_mul, abs_mul]
    calc |s (8 * y + x) - 128| * |dctCos x u| * |dctCos y v| ≤ 128 * 1 * 1 := by
          gcongr
          · exact hs _ hk
          · exact abs_cos_le_one _
          · exact abs_cos_le_one _
      _ = 128 := by norm_num
  have hrow : ∀ y ∈ Finset.range 8,
      |∑ x ∈ Finset.range 8, (s (8 * y + x) - 128) * dctCos x u * dctCos y v| ≤ 8 * 128 := fun y hy =>
    (Finset.abs_sum_le_sum_abs _ _).trans ((Finset.sum_le_card_nsmul _ _ _ (hterm y hy)).trans (by simp))
  have hsum := (Finset.abs_sum_le_sum_abs _ _).trans (Finset.sum_le_card_nsmul _ _ _ hrow)
  rw [dctFormula, abs_mul, abs_mul]
  calc _ ≤ 1 / 2 * (1 / 2) * (8 * (8 * 128) : ℝ) := by
        gcongr
        · exact abs_dctC_le u
        · exact abs_dctC_le v
        · simpa using hsum
    _ = 2048 := by norm_num

/-- Every quantisation value is at least 10 (R151). -/
theorem qt_ge {g k : Nat} (hg : g < 2) (hk : k < 64) : 10 ≤ qt g k := by
  have h : ∀ g < 2, ∀ k < 64, 10 ≤ qt g k := by decide +kernel
  exact h g hg k hk

theorem quantFormula_range {x : ℝ} (hx : |x| ≤ 2048) {t : Nat} (ht : 10 ≤ t) :
    -205 ≤ quantFormula x t ∧ quantFormula x t ≤ 205 := by
  have ht' : (10 : ℝ) ≤ t := by exact_mod_cast ht
  have habs : |x / t| ≤ 2048 / 10 := by
    rw [abs_div, Nat.abs_cast]
    gcongr
  obtain ⟨hlo, hhi⟩ := abs_le.mp habs
  rw [quantFormula]
  constructor
  · rw [Int.le_floor]
    push_cast
    linarith
  · refine Int.lt_add_one_iff.mp (Int.floor_lt.mpr ?_)
    push_cast
    linarith

/-- A value below 2^m has a size of at most m (R200). -/
theorem vliSize_le {n : Int} {m : Nat} (h : n.natAbs < 2 ^ m) : vliSize n ≤ m := by
  rw [vliSize]
  split_ifs with h0
  · exact Nat.zero_le m
  · exact (Nat.log2_lt (by omega)).mpr h

end Sys2Proof.Machine
end

section
/-!
How many bits a block takes (R181, R201, R220), and packing them to a sink that accepts (R240 to R242).
-/

namespace Sys2Proof.Machine

/-! ### Packing bits in a row to a sink that accepts -/

/-- The bits are appended; each byte they fill takes at most two writes, its stuffing counted (R241). -/
theorem forEach_putBit_go (bits : List Bool) {s : State} {c : Nat}
    (h : SinkAccepts (c + 2 * ((7 - s.bitidx.toNat + bits.length) / 8)) s.sink) :
    ∃ t, forEach bits putBit s = .go t ∧ SameButPacker s t ∧ Appends s t bits ∧ LowBitsKept s t bits ∧
      SinkAccepts c t.sink := by
  induction bits generalizing s with
  | nil => exact ⟨s, rfl, rfl, Appends.nil s, LowBitsKept.nil s, h.mono (by omega)⟩
  | cons v bits ih =>
    rw [List.length_cons] at h
    obtain ⟨u, hu, hsame, happ, hlow, hidx, haccepts⟩ := putBit_go (s := s)
      (c := c + 2 * (((7 - s.bitidx.toNat + 1) % 8 + bits.length) / 8)) v (h.mono (by omega))
    rw [← hidx] at haccepts
    obtain ⟨t, ht, hsame', happ', hlow', haccepts'⟩ := ih haccepts
    refine ⟨t, by rw [forEach, hu, Flow.andThen_go, ht], hsame.trans hsame', ?_⟩
    rw [← List.singleton_append]
    exact ⟨happ.trans happ',
      LowBitsKept.trans (by rw [hsame]) happ happ' hlow hlow', haccepts'⟩

/-- What has been appended to a state has been appended to every state with its packer, sink and PAD_MODE. -/
theorem Appends.of_samePacker {s u t : State} {bits : List Bool} (hacc : u.bitacc = s.bitacc)
    (hidx : u.bitidx = s.bitidx) (hsink : u.sink = s.sink) (hparams : u.params = s.params)
    (happ : Appends u t bits) (hlow : LowBitsKept u t bits) : Appends s t bits ∧ LowBitsKept s t bits := by
  have hstart := Appends.of_same hacc hidx hsink
  rw [← List.nil_append bits]
  exact ⟨hstart.trans happ, LowBitsKept.trans hparams hstart happ (.of_same hacc) hlow⟩

/-! ### The bits of a symbol -/

@[simp] theorem bitsOf_length (v n : Nat) : (bitsOf v n).length = n := by simp [bitsOf]

theorem Buf.mem_of_get {α : Type} {i : Nat} {x : α} {buf : Buf α} (h : Buf.get i buf = some x) :
    (i, x) ∈ buf := by
  induction buf with
  | nil => simp at h
  | cons p rest ih =>
    obtain ⟨j, y⟩ := p
    rw [Buf.get] at h
    split_ifs at h with hj
    · obtain rfl := Option.some.inj h
      exact hj ▸ List.mem_cons_self
    · exact List.mem_cons_of_mem _ (ih h)

/-- No code is longer than 16 bits (R180). -/
theorem symbolBits_length_le (t : Nat) (ht : t < 4) (sym : Nat) : (symbolBits t sym).length ≤ 16 := by
  have hlen : ∀ t < 4, (builtTable t).all (fun p => p.2.len ≤ 16) = true := by decide +kernel
  rw [symbolBits]
  split
  · rename_i c hc
    simpa using List.all_eq_true.mp (hlen t ht) _ (Buf.mem_of_get hc)
  · simp

theorem valueBits_length_le {t : Nat} (ht : t < 4) (run : Nat) (n : Int) :
    (valueBits t run n).length ≤ 16 + vliSize n := by
  have := symbolBits_length_le t ht (run * 16 + vliSize n)
  rw [valueBits, List.length_append, bitsOf_length]
  omega

theorem acBits_length_le {t : Nat} (ht : t < 4) {sym : AcSym} (hsym : sym.Coded) :
    (acBits t sym).length ≤ 26 := by
  cases sym with
  | zrl => exact (symbolBits_length_le t ht _).trans (by decide)
  | value run z =>
    obtain ⟨-, -, hsize⟩ := hsym
    exact (valueBits_length_le ht run z).trans (by omega)
  | eob => exact (symbolBits_length_le t ht _).trans (by decide)

/-! ### The bits of a block -/

/-- A coefficient emits at most one symbol, and EOB may follow the last (R220). -/
theorem acLoop_length_le (eob k run : Nat) (zs : List Int) : (acLoop eob k run zs).length ≤ zs.length + 1 := by
  induction zs generalizing k run with
  | nil => simp [acLoop]
  | cons z zs ih =>
    have hrest (r : Nat) :
        (if eob ≤ k ∧ eob < 63 then [AcSym.eob] else acLoop eob (k + 1) r zs).length ≤ zs.length + 1 := by
      split_ifs
      · simp
      · exact ih _ _
    rw [acLoop, List.length_append, List.length_cons, Nat.add_comm (zs.length + 1)]
    refine Nat.add_le_add ?_ (hrest _)
    split_ifs <;> simp

theorem acSymbolsOf_length_le (z : Nat → Coef) : (acSymbolsOf z).length ≤ 64 :=
  (acLoop_length_le _ _ _ _).trans (by simp)

/-- The AC symbols of a block take at most 64 times 26 bits. -/
theorem acSymbolsOf_bits_length_le {t : Nat} (ht : t < 4) {z : Nat → Coef}
    (hz : acTooLarge (acSymbolsOf z) = none) : ((acSymbolsOf z).flatMap (acBits t)).length ≤ 64 * 26 := by
  have hsum : ((acSymbolsOf z).map fun sym => (acBits t sym).length).sum ≤
      ((acSymbolsOf z).map fun sym => (acBits t sym).length).length • 26 :=
    List.sum_le_card_nsmul _ _ fun n hn => by
      obtain ⟨sym, hsym, rfl⟩ := List.mem_map.mp hn
      exact acBits_length_le ht (acSymbolsOf_coded hz sym hsym)
  have := acSymbolsOf_length_le z
  rw [List.length_map, smul_eq_mul] at hsum
  rw [List.length_flatMap]
  omega

end Sys2Proof.Machine
end

section
/-!
BLKENC on samples of the converter's range with NUM = Real (R134, R225): the blocks that FDCT, QUANT and ZZ write,
and the bits that the coding then appends.
-/

namespace Sys2Proof.Machine

/-! ### The blocks written before coding -/

/-- Element k of F[b] for the samples of a block, with NUM = Real (R153). -/
def transformed (x : Nat → NumElem) (k : Nat) : NumElem :=
  .of (fdctElem (rowSums ((List.range 64).map fun j => (x j).real)) (k / 8) (k % 8))

/-- Element k of Q[b] for the samples of block b, with NUM = Real (R155, R156). -/
noncomputable def coefficient (b : Nat) (x : Nat → NumElem) (k : Nat) : Coef :=
  BitVec.ofInt 16 (quantised b (transformed x) k)

theorem transformed_toReal (x : Nat → NumElem) (v : Nat) {u : Nat} (hu : u < 8) :
    (transformed x (8 * v + u)).real.toReal = dctFormula (fun k => (x k).real.toReal) v u := by
  rw [transformed, show (8 * v + u) / 8 = v by omega, show (8 * v + u) % 8 = u by omega]
  exact fdctElem_toReal _ v hu

/-- The quotients of a block of samples are small (R134). -/
theorem quantised_range (b : Nat) {x : Nat → NumElem} (hx : SampleRange x) {k : Nat} (hk : k < 64) :
    -205 ≤ quantised b (transformed x) k ∧ quantised b (transformed x) k ≤ 205 := by
  have habs : |dctFormula (fun k => (x k).real.toReal) (k / 8) (k % 8)| ≤ 2048 :=
    abs_dctFormula_le (fun k hk => by
      obtain ⟨hlo, hhi⟩ := hx k hk
      exact abs_le.mpr ⟨by linarith, by linarith⟩) _ _
  have hk' : k = 8 * (k / 8) + k % 8 := by omega
  rw [← transformed_toReal x _ (by omega), ← hk'] at habs
  exact quantFormula_range habs (qt_ge (group_lt b) hk)

/-- A quotient is kept as it is. -/
theorem coefficient_toInt (b : Nat) {x : Nat → NumElem} (hx : SampleRange x) {k : Nat} (hk : k < 64) :
    (coefficient b x k).toInt = quantised b (transformed x) k := by
  obtain ⟨hlo, hhi⟩ := quantised_range b hx hk
  exact toInt_ofInt_of_inInt16 ⟨by omega, by omega⟩

theorem coefficient_range (b : Nat) {x : Nat → NumElem} (hx : SampleRange x) {k : Nat} (hk : k < 64) :
    -205 ≤ (coefficient b x k).toInt ∧ (coefficient b x k).toInt ≤ 205 :=
  coefficient_toInt b hx hk ▸ quantised_range b hx hk

/-- A block written whole from its elements holds them. -/
theorem blockHolds_setBlock {α : Type} (b : Nat) (f : Nat → α) (buf : Buf α) :
    BlockHolds (Buf.setBlock b ((List.range 64).map f) buf) b f := fun k hk => by
  rw [Buf.get_setBlock_elem b k _ _ (by simp) hk, List.getElem?_map, List.getElem?_range hk, Option.map_some]

theorem otherBlocksKept_setBlock {α : Type} (b : Nat) (f : Nat → α) (buf : Buf α) :
    OtherBlocksKept b buf (Buf.setBlock b ((List.range 64).map f) buf) :=
  fun j hj => Buf.get_setBlock_other b j _ _ (by simp) hj

/-- s with the blocks that BLKENC b writes before it codes: the transform, its quotients and their scan. -/
noncomputable def State.scanned (s : State) (b : Nat) (x : Nat → NumElem) : State :=
  ((s.setF b ((List.range 64).map (transformed x))).setQ b ((List.range 64).map (coefficient b x))).setZ b
    ((List.range 64).map fun k => coefficient b x (zzt k))

section

variable {s : State} {b : Nat} {x : Nat → NumElem}

/-- FDCT on a written block with NUM = Real (R153). -/
theorem fdctBody_real (hnum : s.params.num = .real) (hx : BlockHolds s.bufS b x) :
    fdctBody b s = .go (s.setF b ((List.range 64).map (transformed x))) := by
  rw [fdctBody, readBlock_eq hx, hnum, fdctElems, numElems_ofReal, fdctBlock, blockOf_eq, List.map_map,
    List.map_map]
  rfl

/-- ZZ on a written block (R204). -/
theorem zzBody_written {q : Nat → Coef} (hq : BlockHolds s.bufQ b q) :
    zzBody b s = .go (s.setZ b ((List.range 64).map fun k => q (zzt k))) := by
  have hscan : zztTable.map q = (List.range 64).map fun k => q (zzt k) := rfl
  rw [zzBody, readElems_eq (fun k hk => hq k (zztTable_lt k hk)), hscan]

/-- The part of BLKENC before coding raises no RangeError for samples of the converter's range (R134). -/
theorem scanBody_real (hnum : s.params.num = .real) (hx : BlockHolds s.bufS b x) (hrange : SampleRange x) :
    scanBody b s = .go (s.scanned b x) := by
  have hquant := quantBody_real_of_fits (s := s.setF b ((List.range 64).map (transformed x))) (b := b) hnum
    (blockHolds_setBlock b (transformed x) s.bufF) fun k hk => by
      obtain ⟨hlo, hhi⟩ := quantised_range b hrange hk
      exact ⟨by omega, by omega⟩
  rw [scanBody, fdctBody_real hnum hx, Flow.andThen_go, hquant, Flow.andThen_go, List.map_map]
  exact zzBody_written (blockHolds_setBlock b (coefficient b x) s.bufQ)

/-! ### Coding -/

/-- The bits of the DC difference and of the AC symbols of a block (R225). -/
noncomputable def blockBits (s : State) (b : Nat) (x : Nat → NumElem) : List Bool :=
  valueBits (tdc (group b)) 0 ((coefficient b x 0).toInt - (s.pred (slot b)).toInt) ++
    (acSymbolsOf fun k => coefficient b x (zzt k)).flatMap (acBits (tac (group b)))

theorem zzt_lt {k : Nat} (hk : k < 64) : zzt k < 64 := by
  have h : ∀ k < 64, zzt k < 64 := by decide
  exact h k hk

/-- Small predictors keep the size of the DC difference within the DC table (R134, R214). -/
theorem dcSize_le (hrange : SampleRange x) (hpred : PredictorsSmall s) :
    vliSize ((coefficient b x 0).toInt - (s.pred (slot b)).toInt) ≤ 11 := by
  obtain ⟨hlo, hhi⟩ := coefficient_range b hrange (k := 0) (by decide)
  obtain ⟨hplo, hphi⟩ := hpred (slot b)
  exact vliSize_le (by omega)

/-- Every AC coefficient has a size of at most 10 (R134, R221). -/
theorem acTooLarge_block (hrange : SampleRange x) :
    acTooLarge (acSymbolsOf fun k => coefficient b x (zzt k)) = none :=
  acTooLarge_eq_none.mpr fun run z hmem => by
    obtain ⟨-, -, k, -, hk, rfl⟩ := value_mem_acSymbolsOf hmem
    obtain ⟨hlo, hhi⟩ := coefficient_range b hrange (zzt_lt hk)
    exact vliSize_le (by omega)

/-- A block takes at most 16 + 11 bits for its DC difference and 64 symbols of 26 bits. -/
theorem blockBits_length_le (hrange : SampleRange x) (hpred : PredictorsSmall s) :
    (blockBits s b x).length ≤ 1691 := by
  have hg := group_lt b
  have hdc := valueBits_length_le (t := tdc (group b)) (by rw [tdc]; omega) 0
    ((coefficient b x 0).toInt - (s.pred (slot b)).toInt)
  have hsize := dcSize_le (b := b) hrange hpred
  have hac := acSymbolsOf_bits_length_le (t := tac (group b)) (by rw [tac]; omega)
    (acTooLarge_block (b := b) hrange)
  rw [blockBits, List.length_append]
  omega

/-- A state in which a block can be coded to the end (R134, R225): tables built, exact numbers, small
predictors. -/
structure Codable (b : Nat) (s : State) : Prop where
  dc : HasTable (tdc (group b)) s
  ac : HasTable (tac (group b)) s
  num : s.params.num = .real
  pred : PredictorsSmall s

/-- BLKENC codes the block: the course is packing the bits, the blocks and the predictor written before. -/
theorem blkencBody_eq_forEach (hs : Codable b s) (hx : BlockHolds s.bufS b x) (hrange : SampleRange x) :
    blkencBody b s = forEach (blockBits s b x) putBit ((s.scanned b x).setPred (slot b) (coefficient b x 0)) := by
  have hz : BlockHolds (s.scanned b x).bufZ b fun k => coefficient b x (zzt k) :=
    blockHolds_setBlock b _ s.bufZ
  have hpred : (s.scanned b x).pred (slot b) = s.pred (slot b) := State.pred_congr rfl rfl rfl
  have hdcenc := dcencBody_codes (s := s.scanned b x) (hs.dc.congr rfl rfl) (hz 0 (by decide))
    (hpred ▸ dcSize_le hrange hs.pred)
  rw [blkencBody_eq_scanBody, scanBody_real hs.num hx hrange, Flow.andThen_go, hdcenc, hpred, blockBits,
    forEach_append]
  refine Flow.andThen_congr (forEach_putBit_holds _ _) fun u hu => ?_
  have hac : HasTable (tac (group b)) ((s.scanned b x).setPred (slot b) (coefficient b x 0)) :=
    hs.ac.congr (by simp [State.scanned]) (by simp [State.scanned])
  refine acencBody_codes (hac.of_packed hu) (fun k _ hk => ?_) (acTooLarge_block hrange)
  rw [hu.1]
  simpa using hz k hk

/-- BLKENC completes to a sink that accepts (R134, R225): all it changes is the three blocks, the predictor and the
packer, which takes the bits. -/
theorem blkencBody_real {c : Nat} (hs : Codable b s) (hx : BlockHolds s.bufS b x) (hrange : SampleRange x)
    (hsink : SinkAccepts (c + 424) s.sink) :
    ∃ t, blkencBody b s = .go t ∧
      SameButPacker ((s.scanned b x).setPred (slot b) (coefficient b x 0)) t ∧
      Appends s t (blockBits s b x) ∧ LowBitsKept s t (blockBits s b x) ∧ SinkAccepts c t.sink := by
  have hlen := blockBits_length_le (b := b) hrange hs.pred
  obtain ⟨t, ht, hsame, happ, hlow, haccepts⟩ := forEach_putBit_go (blockBits s b x) (c := c)
    (s := (s.scanned b x).setPred (slot b) (coefficient b x 0))
    (by simpa [State.scanned] using hsink.mono (by omega))
  obtain ⟨happ', hlow'⟩ := Appends.of_samePacker (s := s) (by simp [State.scanned]) (by simp [State.scanned])
    (by simp [State.scanned]) (by simp [State.scanned]) happ hlow
  exact ⟨t, by rw [blkencBody_eq_forEach hs hx hrange, ht], hsame, happ', hlow', haccepts⟩

end

/-- Settles O43: the samples' coefficients are in range, so no check of the five bodies fails, and a block's bits
take at most 424 writes. -/
theorem blkencCodesBlock : Obligations.BlkencCodesBlock := by
  intro s b x herr hb hdcv hacv htab hnum hpred hx hrange hsink
  have hs : Codable b (s.setDone false) :=
    ⟨htab.hasTable_dc hdcv, htab.hasTable_ac hacv, hnum, fun sl => by simpa using hpred sl⟩
  obtain ⟨t, ht, hsame, happ, hlow, -⟩ := blkencBody_real (s := s.setDone false) (c := 0) hs hx hrange
    (hsink.mono (by omega))
  have hexec : exec (.blkenc b) s = .next t := by
    rw [exec_block (ts := [tdc (group b), tac (group b)]) (body := blkencBody b) rfl herr hb
      (by simp [hdcv, hacv]), ht, Flow.result_go]
  have hF : t.bufF = Buf.setBlock b ((List.range 64).map (transformed x)) s.bufF := by
    rw [hsame]
    simp [State.scanned]
  have hQ : t.bufQ = Buf.setBlock b ((List.range 64).map (coefficient b x)) s.bufQ := by
    rw [hsame]
    simp [State.scanned]
  have hZ : t.bufZ = Buf.setBlock b ((List.range 64).map fun k => coefficient b x (zzt k)) s.bufZ := by
    rw [hsame]
    simp [State.scanned]
  have hbits : blockBits (s.setDone false) b x = blockBits s b x := by
    rw [blockBits, State.pred_setDone, ← blockBits]
  rw [hbits] at happ hlow
  refine ⟨t, coefficient b x, hexec, fun v hv u hu => ⟨transformed x (8 * v + u), ?_, ?_, ?_⟩,
    hQ ▸ blockHolds_setBlock b _ _, hZ ▸ blockHolds_setBlock b _ _, ⟨happ, hlow⟩,
    hF ▸ otherBlocksKept_setBlock b _ _, hQ ▸ otherBlocksKept_setBlock b _ _,
    hZ ▸ otherBlocksKept_setBlock b _ _, ?_⟩
  · exact hF ▸ blockHolds_setBlock b _ _ _ (by omega)
  · exact ⟨transformed_toReal x v hu, transformed_toReal x v hu⟩
  · exact coefficient_toInt b hrange (by omega)
  · rw [hsame]
    cases slot b <;> rfl

end Sys2Proof.Machine
end

section
/-!
ENCMCU and ENCIMG are their sequences of commands (R132, R133, R135), and what a sequence that raises no error says
of the checks of its commands.
-/

namespace Sys2Proof.Machine

/-! ### Sequences command by command -/

/-- Parts that do as their commands do, one after the other. -/
theorem DoAs.forEach {α : Type} {P : State → Prop} {xs : List α} {cmds : α → List Instr}
    {f : α → State → Flow} (h : ∀ x ∈ xs, DoAs P (cmds x) (f x)) (hinit : ∀ x ∈ xs, .init ∉ cmds x) :
    DoAs P (xs.flatMap cmds) (forEach xs f) := by
  induction xs with
  | nil => exact fun s hs => ⟨rfl, hs⟩
  | cons x rest ih =>
    obtain ⟨hx, hrest⟩ := List.forall_mem_cons.mp h
    obtain ⟨-, hinit'⟩ := List.forall_mem_cons.mp hinit
    rw [List.flatMap_cons]
    exact hx.append (ih hrest hinit') (by simpa using hinit')

/-- A sequence that raises no error starts without one (R308). -/
theorem runCommands_ok_start {is : List Instr} {s t : State} (h : runCommands is s = .next t)
    (hok : t.status.err = false) (hinit : .init ∉ is) : s.status.err = false := by
  by_contra herr
  rw [Bool.not_eq_false] at herr
  rw [runCommands_refused herr hinit] at h
  obtain rfl := Host.Outcome.next.inj h
  simp [herr] at hok

/-- The image size and the record of built tables, which the commands of a sequence do not change. -/
def SameSetup (s t : State) : Prop := t.htvalid = s.htvalid ∧ t.imgW = s.imgW ∧ t.imgH = s.imgH

theorem SameSetup.trans {s t u : State} (h : SameSetup s t) (h' : SameSetup t u) : SameSetup s u := by
  obtain ⟨h1, h2, h3⟩ := h
  obtain ⟨k1, k2, k3⟩ := h'
  exact ⟨k1.trans h1, k2.trans h2, k3.trans h3⟩

/-- Only INIT and HTBUILD build tables (R83), and no command changes the image size (R27). -/
theorem exec_sameSetup {i : Instr} {s t : State} (h : exec i s = .next t) (hinit : i ≠ .init)
    (hbuild : ∀ u, i ≠ .htbuild u) : SameSetup s t := by
  obtain ⟨-, -, -, -, -, -, -, himgW, himgH, -⟩ := bufferWriters i s t h
  refine ⟨?_, himgW, himgH⟩
  by_contra hne
  obtain hi | ⟨u, hi⟩ := (packerAndTableWriters i s t h).2 (.inr hne)
  · exact hinit hi
  · exact hbuild u hi

/-- A command other than INIT that ends without an error has started without one (R308). -/
theorem exec_ok_start {i : Instr} {s t : State} (h : exec i s = .next t) (hok : t.status.err = false)
    (hinit : i ≠ .init) : s.status.err = false :=
  runCommands_ok_start ((runCommands_singleton i s).trans h) hok (by simpa using Ne.symm hinit)

/-- In a sequence that raises no error every command runs without one, with the setup of the start. -/
theorem exec_ok_of_mem {is : List Instr} {s t : State} (h : runCommands is s = .next t)
    (hok : t.status.err = false) (hinit : .init ∉ is) (hbuild : ∀ u, .htbuild u ∉ is) {i : Instr}
    (hi : i ∈ is) :
    ∃ u v, SameSetup s u ∧ u.status.err = false ∧ exec i u = .next v ∧ v.status.err = false := by
  induction is generalizing s with
  | nil => simp at hi
  | cons j rest ih =>
    rw [List.mem_cons, not_or] at hinit
    obtain ⟨hj, hinit'⟩ := hinit
    obtain ⟨v, hv⟩ := exec_answers j s
    rw [runCommands, hv] at h
    rcases List.mem_cons.mp hi with rfl | hmem
    · have hvok := runCommands_ok_start h hok hinit'
      exact ⟨s, v, ⟨rfl, rfl, rfl⟩, exec_ok_start hv hvok (Ne.symm hj), hv, hvok⟩
    · obtain ⟨u, w, hu, hw⟩ := ih h hinit' (fun u hu => hbuild u (List.mem_cons_of_mem _ hu)) hmem
      have hsetup := exec_sameSetup hv (Ne.symm hj) fun u hu => hbuild u (hu ▸ List.mem_cons_self)
      exact ⟨u, w, hsetup.trans hu, hw⟩

/-! ### What a command that raises no error has checked -/

theorem not_raises {i : Instr} {s t : State} {ecode : BitVec 8} {info : Word} (h : exec i s = .next t)
    (hok : t.status.err = false) (hraises : exec i s = .next (s.erring ecode info)) : False := by
  obtain rfl := Host.Outcome.next.inj (h.symm.trans hraises)
  simp [State.erring] at hok

/-- MCULOAD has checked that the image is nonempty and has the MCU (R131). -/
theorem mcuload_checks {s t : State} {mx my : Nat} (herr : s.status.err = false)
    (h : exec (.mcuload mx my) s = .next t) (hok : t.status.err = false) :
    s.imgW ≠ 0 ∧ s.imgH ≠ 0 ∧ mx < s.nx ∧ my < s.ny := by
  obtain ⟨hdims, hmcu, -⟩ := operandErrors.2 s herr
  have hnonzero : ¬ (s.imgW = 0 ∨ s.imgH = 0) := fun hd => not_raises h hok ((hdims hd).2 mx my).1
  rw [not_or] at hnonzero
  obtain ⟨hw, hh⟩ := hnonzero
  have hinside : ¬ (s.nx ≤ mx ∨ s.ny ≤ my) := fun hd => not_raises h hok (hmcu hw hh mx my hd).1
  exact ⟨hw, hh, by omega, by omega⟩

/-- DCENC has checked its DC table, and ACENC its AC table (R214, R221). -/
theorem coding_checks {i : Instr} {s u : State} {b t : Nat} (herr : s.status.err = false) (hb : b ≤ 5) (ht : t < 4)
    (hi : i = .dcenc b ∧ t = tdc (group b) ∨ i = .acenc b ∧ t = tac (group b)) (h : exec i s = .next u)
    (hok : u.status.err = false) : s.tableValid t = true := by
  by_contra hvalid
  obtain ⟨hdc, hac, -⟩ := tableNotBuiltRaised.2 s t herr ht (by simpa using hvalid)
  rcases hi with ⟨rfl, htable⟩ | ⟨rfl, htable⟩
  · exact not_raises h hok (hdc b hb htable)
  · exact not_raises h hok (hac b hb htable)

/-- ENCMCU inside a nonempty canvas has checked all four tables (R132). -/
theorem encmcu_checks {s t : State} {mx my : Nat} (herr : s.status.err = false) (hw : s.imgW ≠ 0)
    (hh : s.imgH ≠ 0) (hmcu : mx < s.nx ∧ my < s.ny) (h : exec (.encmcu mx my) s = .next t)
    (hok : t.status.err = false) : ∀ t < 4, s.tableValid t = true := by
  intro t
  induction t using Nat.strong_induction_on with
  | _ t ih =>
    intro ht
    by_contra hvalid
    obtain ⟨-, -, -, hpipeline⟩ := tableNotBuiltRaised.2 s t herr ht (by simpa using hvalid)
    have hraises := (hpipeline (fun t' ht' => ih t' ht' (by omega)) hw hh).2 mx my hmcu.1 hmcu.2
    exact not_raises h hok hraises

/-- HTVALID has a bit a table (R32). -/
theorem htvalid_eq_iff (s : State) : s.htvalid = 0xF#4 ↔ ∀ t < 4, s.tableValid t = true := by
  have h : ∀ v : BitVec 4, v = 0xF#4 ↔ ∀ t < 4, v.getLsbD t = true := by decide
  exact h s.htvalid

/-! ### ENCMCU -/

/-- The checks of ENCMCU and ENCIMG pass, but for that of the MCU (R132, R133). -/
structure ChecksPass (s : State) : Prop where
  err : s.status.err = false
  dims : 1 ≤ s.imgW.toNat ∧ 1 ≤ s.imgH.toNat
  tables : ∀ t ∈ [0, 1, 2, 3], s.tableValid t = true

theorem ChecksPass.of_ne {s : State} (herr : s.status.err = false) (hw : s.imgW ≠ 0) (hh : s.imgH ≠ 0)
    (hvalid : s.htvalid = 0xF#4) : ChecksPass s :=
  ⟨herr, ⟨by bv_omega, by bv_omega⟩, fun t ht =>
    (htvalid_eq_iff s).mp hvalid t (List.mem_range (n := 4).mp ht)⟩

theorem exec_encmcu {s : State} (hs : ChecksPass s) {mx my : Nat} (hmcu : mx < s.nx ∧ my < s.ny) :
    exec (.encmcu mx my) s = (encmcuBody mx my (s.setDone false)).result := by
  rw [exec, execEncmcu, command_run hs.err, checkDims_pass (s := s.setDone false) hs.dims, Flow.andThen_go,
    checkMcu_pass (s := s.setDone false) hmcu, Flow.andThen_go,
    checkTables_pass (s := s.setDone false) hs.tables, Flow.andThen_go]

theorem tables_mem (b : Nat) : tdc (group b) ∈ [0, 1, 2, 3] ∧ tac (group b) ∈ [0, 1, 2, 3] := by
  have h : ∀ g < 2, tdc g ∈ [0, 1, 2, 3] ∧ tac g ∈ [0, 1, 2, 3] := by decide
  exact h _ (group_lt b)

/-- The commands of the six blocks do what ENCMCU does after its load (R132). -/
theorem sixBlocks_doAs : DoAs (Ongoing [0, 1, 2, 3]) ((List.range 6).flatMap blockCommands)
    (forEach (List.range 6) blkencBody) :=
  DoAs.forEach (fun b hb => blockCommands_doAs (by have := List.mem_range.mp hb; omega) (tables_mem b).1
    (tables_mem b).2) fun b _ => by simp [blockCommands]

/-- Where its checks pass, ENCMCU does what its commands do one after the other (R135). -/
theorem exec_encmcu_eq_runCommands {s : State} (hs : ChecksPass s) {mx my : Nat}
    (hmcu : mx < s.nx ∧ my < s.ny) : exec (.encmcu mx my) s = runCommands (mcuCommands mx my) s := by
  have hload : Ongoing [0, 1, 2, 3] ((s.setDone false).mcuLoaded mx my) :=
    (Ongoing.start hs.err hs.tables).congr rfl rfl
  obtain ⟨hrun, -⟩ := sixBlocks_doAs _ hload
  rw [mcuCommands, runCommands, exec_mcuload hs.err hs.dims hmcu, exec_encmcu hs hmcu]
  exact hrun.symm

theorem mcuCommands_no_init (mx my : Nat) :
    .init ∉ mcuCommands mx my ∧ ∀ u, .htbuild u ∉ mcuCommands mx my := by
  simp [mcuCommands, blockCommands]

/-- Each table is that of a block of an MCU (R15, R16). -/
theorem exists_block_of_table {t : Nat} (ht : t < 4) : ∃ b < 6, t = tdc (group b) ∨ t = tac (group b) := by
  have h : ∀ t < 4, ∃ b < 6, t = tdc (group b) ∨ t = tac (group b) := by decide
  exact h t ht

/-- An MCU's commands that raise no error have built tables: each table is checked by a DCENC or an ACENC. -/
theorem mcuCommands_tables {s t : State} {mx my : Nat} (h : runCommands (mcuCommands mx my) s = .next t)
    (hok : t.status.err = false) : s.htvalid = 0xF#4 := by
  obtain ⟨hinit, hbuild⟩ := mcuCommands_no_init mx my
  refine (htvalid_eq_iff s).mpr fun n hn => ?_
  obtain ⟨b, hb, htable⟩ := exists_block_of_table hn
  obtain ⟨i, hcoding, hi⟩ : ∃ i, (i = .dcenc b ∧ n = tdc (group b) ∨ i = .acenc b ∧ n = tac (group b)) ∧
      i ∈ blockCommands b := by
    rcases htable with hdc | hac
    · exact ⟨.dcenc b, .inl ⟨rfl, hdc⟩, by simp [blockCommands]⟩
    · exact ⟨.acenc b, .inr ⟨rfl, hac⟩, by simp [blockCommands]⟩
  have hmem : i ∈ mcuCommands mx my :=
    List.mem_cons_of_mem _ (List.mem_flatMap.mpr ⟨b, List.mem_range.mpr hb, hi⟩)
  obtain ⟨u, v, ⟨hvalid, -⟩, huerr, hv, hvok⟩ := exec_ok_of_mem h hok hinit hbuild hmem
  rw [State.tableValid, ← hvalid]
  exact coding_checks huerr (by omega) hn hcoding hv hvok

/-- Settles O44: a sequence that raises no error has passed every check of ENCMCU; and where these pass, the
bodies of the two are the same course. -/
theorem encmcuIsSequence : Obligations.EncmcuIsSequence := by
  refine ⟨fun s t mx my h hok => ?_, fun s mx my herr hw hh hmx hmy hvalid =>
    exec_encmcu_eq_runCommands (.of_ne herr hw hh hvalid) ⟨hmx, hmy⟩⟩
  have herr := runCommands_ok_start h hok (mcuCommands_no_init mx my).1
  have hvalid := mcuCommands_tables h hok
  obtain ⟨u, hu⟩ := exec_answers (.mcuload mx my) s
  have hrest := h
  rw [mcuCommands, runCommands, hu] at hrest
  obtain ⟨hw, hh, hmcu⟩ := mcuload_checks herr hu
    (runCommands_ok_start hrest hok (by simp [blockCommands]))
  rw [exec_encmcu_eq_runCommands (.of_ne herr hw hh hvalid) hmcu, h]

/-! ### ENCIMG -/

theorem mem_mcuGrid {nx ny : Nat} {m : Nat × Nat} : m ∈ mcuGrid nx ny ↔ m.1 < nx ∧ m.2 < ny := by
  obtain ⟨mx, my⟩ := m
  simp only [mcuGrid, List.mem_flatMap, List.mem_map, List.mem_range, Prod.mk.injEq]
  constructor
  · rintro ⟨y, hy, x, hx, rfl, rfl⟩
    exact ⟨hx, hy⟩
  · rintro ⟨hx, hy⟩
    exact ⟨my, hy, mx, hx, rfl, rfl⟩

theorem nx_congr {s u : State} (h : u.imgW = s.imgW) : u.nx = s.nx := by
  rw [State.nx, State.nx, State.compW, State.compW, h]

theorem ny_congr {s u : State} (h : u.imgH = s.imgH) : u.ny = s.ny := by
  rw [State.ny, State.ny, State.compH, State.compH, h]

/-- A nonempty image has MCUs (R123). -/
theorem grid_pos {s : State} (hw : s.imgW ≠ 0) (hh : s.imgH ≠ 0) : 0 < s.nx ∧ 0 < s.ny := by
  obtain ⟨hnx, hny⟩ := nx_ny_eq s
  bv_omega

/-- A state that ENCIMG from s has come to: its course goes on, and the image size is as it was. -/
def AtWork (s u : State) : Prop := Ongoing [0, 1, 2, 3] u ∧ u.imgW = s.imgW ∧ u.imgH = s.imgH

theorem AtWork.worked {s u v : State} (h : AtWork s u) (hv : Worked u v) : AtWork s v := by
  obtain ⟨hu, hw, hh⟩ := h
  obtain ⟨hframe, -⟩ := hv
  rw [hframe]
  exact ⟨hu.congr rfl rfl, hw, hh⟩

theorem WorkFailed.err {s t : State} (h : WorkFailed s t) : t.status.err = true := by
  obtain ⟨u, e, info, rfl, -⟩ := h
  exact State.raised_err _ _ _

theorem encmcu_doAs {s : State} (hs : ChecksPass s) {mx my : Nat} (hmcu : mx < s.nx ∧ my < s.ny) :
    DoAs (AtWork s) [.encmcu mx my] (encmcuBody mx my) := by
  intro u hu
  have ⟨hgoes, hw, hh⟩ := hu
  have hpass : ChecksPass u := ⟨hgoes.err, hw ▸ hh ▸ hs.dims, hgoes.tables⟩
  rw [runCommands_singleton, exec_encmcu hpass (nx_congr hw ▸ ny_congr hh ▸ hmcu), hgoes.setDone]
  exact ⟨rfl, (encmcuBody_holds mx my u).mono (fun _ hv => hu.worked hv) (fun _ hv => hv.err)⟩

theorem flush_doAs (s : State) : DoAs (AtWork s) [.flush] flushBits := by
  intro u hu
  rw [runCommands_singleton, exec, execFlush, command_run hu.1.err, hu.1.setDone]
  exact ⟨rfl, (flushBits_holds u).mono (fun _ hv => hu.worked hv.worked) (fun _ hv => hv.err)⟩

/-- The body of ENCIMG without its last step, which sets DONE (R133). -/
def imageBody (nx ny : Nat) (s : State) : Flow :=
  (forEach (mcuGrid nx ny) (fun m => encmcuBody m.1 m.2) s).andThen flushBits

theorem image_doAs {s : State} (hs : ChecksPass s) :
    DoAs (AtWork s) (imageCommands s.nx s.ny) (imageBody s.nx s.ny) := by
  rw [imageCommands, List.map_eq_flatMap]
  exact (DoAs.forEach (fun m hm => encmcu_doAs hs (mem_mcuGrid.mp hm)) fun m _ => by simp).append
    (flush_doAs s) (by simp)

theorem exec_encimg {s : State} (hs : ChecksPass s) :
    exec .encimg s =
      ((imageBody s.nx s.ny (s.setDone false)).andThen fun s => .go (s.setDone true)).result := by
  rw [exec, execEncimg, command_run hs.err, checkDims_pass (s := s.setDone false) hs.dims, Flow.andThen_go,
    checkTables_pass (s := s.setDone false) hs.tables, Flow.andThen_go, imageBody, Flow.andThen_assoc]
  rfl

theorem imageCommands_no_init (nx ny : Nat) :
    .init ∉ imageCommands nx ny ∧ (∀ u, .htbuild u ∉ imageCommands nx ny) ∧ .nop ∉ imageCommands nx ny := by
  simp [imageCommands]

/-- ENCIMG's commands from s do what ENCIMG does before it sets DONE (R135). -/
theorem runCommands_imageCommands {s : State} (hs : ChecksPass s) :
    runCommands (imageCommands s.nx s.ny) s = (imageBody s.nx s.ny (s.setDone false)).result := by
  obtain ⟨hrun, -⟩ := image_doAs hs (s.setDone false) ⟨.start hs.err hs.tables, rfl, rfl⟩
  obtain ⟨hinit, -, hnop⟩ := imageCommands_no_init s.nx s.ny
  rw [← hrun]
  cases himg : imageCommands s.nx s.ny with
  | nil => simp [imageCommands] at himg
  | cons i rest =>
    rw [himg, List.mem_cons, not_or] at hinit hnop
    exact (runCommands_setDone hs.err (Ne.symm hnop.1) (Ne.symm hinit.1)).symm

/-- How ENCIMG ends follows from how its commands end: without an error it sets DONE, and with one it stops
where they stop (R133, R135, R306). -/
theorem exec_encimg_of_runCommands {s t : State} (hs : ChecksPass s)
    (h : runCommands (imageCommands s.nx s.ny) s = .next t) :
    exec .encimg s = .next (if t.status.err then t else t.setDone true) := by
  obtain ⟨-, hends⟩ := image_doAs hs (s.setDone false) ⟨.start hs.err hs.tables, rfl, rfl⟩
  rw [runCommands_imageCommands hs] at h
  rw [exec_encimg hs]
  cases hbody : imageBody s.nx s.ny (s.setDone false) with
  | go u =>
    rw [hbody] at h hends
    obtain rfl := Host.Outcome.next.inj h
    have hok : u.status.err = false := hends.1.err
    simp [hok]
  | stop u =>
    rw [hbody] at h hends
    obtain rfl := Host.Outcome.next.inj h
    have herr : u.status.err = true := hends
    simp [herr]

/-- Settles O45: the first ENCMCU of a sequence that raises no error has passed the checks of ENCIMG. -/
theorem encimgIsSequence : Obligations.EncimgIsSequence := by
  refine ⟨fun s t hw hh h hok => ?_, fun s t herr hw hh hvalid h hterr => ?_⟩
  · obtain ⟨hinit, hbuild, -⟩ := imageCommands_no_init s.nx s.ny
    have hgrid := grid_pos hw hh
    have hmem : Instr.encmcu 0 0 ∈ imageCommands s.nx s.ny :=
      List.mem_append_left _ (List.mem_map.mpr ⟨(0, 0), mem_mcuGrid.mpr hgrid, rfl⟩)
    obtain ⟨u, v, ⟨hvalid, huw, huh⟩, huerr, hv, hvok⟩ := exec_ok_of_mem h hok hinit hbuild hmem
    have htables := encmcu_checks huerr (huw ▸ hw) (huh ▸ hh) (nx_congr huw ▸ ny_congr huh ▸ hgrid) hv hvok
    have hs : ChecksPass s := .of_ne (runCommands_ok_start h hok hinit) hw hh
      (hvalid ▸ (htvalid_eq_iff u).mpr htables)
    rw [exec_encimg_of_runCommands hs h, hok]
    rfl
  · rw [exec_encimg_of_runCommands (.of_ne herr hw hh hvalid) h, hterr]
    rfl

end Sys2Proof.Machine
end

section
/-!
ENCMCU and ENCIMG complete with NUM = Real and a sink that accepts (R132 to R134): every block of an MCU holds
samples of the converter's range, and coding a block keeps the predictors small.
-/

namespace Sys2Proof.Machine

/-! ### The samples of an MCU -/

theorem mem_blockOf {α : Type} {f : Nat → Nat → α} {e : α} (h : e ∈ blockOf f) : ∃ r c, e = f r c := by
  rw [blockOf_eq, List.mem_map] at h
  obtain ⟨k, -, rfl⟩ := h
  exact ⟨_, _, rfl⟩

/-- The conversions of a pixel are in the range of samples (R122). -/
theorem ofPixel_range (mode : Config.NumMode) (p : Rgb) :
    ∀ conv ∈ [ycElem mode, cbcElem mode, crcElem mode],
      0 ≤ (ofPixel conv p).real.toReal ∧ (ofPixel conv p).real.toReal ≤ 255.5 := by
  have hr := p.r.isLt
  have hg := p.g.isLt
  have hb := p.b.isLt
  obtain ⟨⟨hy0, hy⟩, ⟨hcb0, hcb⟩, hcr0, hcr⟩ := conversionRanges.1 p.r.toNat p.g.toNat p.b.toNat
    (by omega) (by omega) (by omega)
  simp only [List.forall_mem_cons, List.not_mem_nil, false_imp_iff, forall_const, and_true, ofPixel, ycElem,
    cbcElem, crcElem, numElem_real]
  exact ⟨⟨by linarith, by linarith⟩, ⟨by linarith, by linarith⟩, by linarith, by linarith⟩

theorem mcuBlock_range {s : State} {mx my b : Nat} {e : NumElem} (h : e ∈ mcuBlock s mx my b) :
    0 ≤ e.real.toReal ∧ e.real.toReal ≤ 255.5 := by
  rw [mcuBlock] at h
  split_ifs at h
  all_goals
    obtain ⟨r, c, rfl⟩ := mem_blockOf h
    exact ofPixel_range s.params.num _ _ (by simp)

/-- A loaded MCU holds samples in each of its blocks (R131). -/
theorem exists_loadedSamples (s : State) (mx my : Nat) {b : Nat} (hb : b < 6) :
    ∃ x, BlockHolds (loadedSamples s mx my) b x ∧ SampleRange x := by
  have hlen := mcuBlock_length s mx my b
  have helem {k : Nat} (hk : k < 64) : (mcuBlock s mx my b)[k]? = some ((mcuBlock s mx my b).getD k (.of .zero)) := by
    rw [List.getD_eq_getElem?_getD, List.getElem?_eq_getElem (by omega), Option.getD_some]
  exact ⟨fun k => (mcuBlock s mx my b).getD k (.of .zero),
    fun k hk => (loadedSamples_elem s mx my hb hk).trans (helem hk),
    fun k hk => mcuBlock_range (List.mem_of_getElem? (helem hk))⟩

/-! ### A loop to a sink that accepts -/

/-- Rounds that go on, each with at most w writes, make a loop that goes on. -/
theorem forEach_accepts {α : Type} {I : State → Prop} {f : α → State → Flow} {w : Nat} {xs : List α}
    (hf : ∀ x ∈ xs, ∀ s c, I s → SinkAccepts (c + w) s.sink →
      ∃ t, f x s = .go t ∧ I t ∧ SinkAccepts c t.sink)
    {s : State} {c : Nat} (hs : I s) (hsink : SinkAccepts (c + w * xs.length) s.sink) :
    ∃ t, forEach xs f s = .go t ∧ I t ∧ SinkAccepts c t.sink := by
  induction xs generalizing s with
  | nil => exact ⟨s, rfl, hs, hsink⟩
  | cons x rest ih =>
    obtain ⟨hx, hrest⟩ := List.forall_mem_cons.mp hf
    rw [List.length_cons, Nat.mul_succ, ← Nat.add_assoc] at hsink
    obtain ⟨u, hu, hi, haccepts⟩ := hx s _ hs hsink
    obtain ⟨t, ht, hends⟩ := ih hrest hi haccepts
    exact ⟨t, by rw [forEach, hu, Flow.andThen_go, ht], hends⟩

/-! ### Coding the blocks of an MCU -/

/-- t is s but for what coding a block writes: the predictors, the buffers F, Q and Z, the packer and the sink. -/
def CodingFrame (s t : State) : Prop :=
  t = { s with
    predY := t.predY, predCb := t.predCb, predCr := t.predCr
    bufF := t.bufF, bufQ := t.bufQ, bufZ := t.bufZ
    bitacc := t.bitacc, bitidx := t.bitidx, sink := t.sink }

theorem CodingFrame.trans {s t u : State} (h : CodingFrame s t) (h' : CodingFrame t u) : CodingFrame s u := by
  rw [CodingFrame] at *
  rw [h', h]

theorem SameButPacker.codingFrame {s t : State} (h : SameButPacker s t) : CodingFrame s t := by
  rw [CodingFrame, h]

theorem State.scanned_codingFrame (s : State) (b : Nat) (x : Nat → NumElem) : CodingFrame s (s.scanned b x) := rfl

theorem State.setPred_codingFrame (s : State) (sl : Slot) (v : Coef) : CodingFrame s (s.setPred sl v) := by
  cases sl <;> rfl

/-- What coding blocks does from s without an error: it writes its part of the state, the predictors are small, and
the stream has only grown (R134). -/
structure CodedFrom (s t : State) : Prop where
  frame : CodingFrame s t
  pred : PredictorsSmall t
  stream : s.sink.stream <+: t.sink.stream

theorem CodedFrom.refl {s : State} (h : PredictorsSmall s) : CodedFrom s s := ⟨rfl, h, List.prefix_rfl⟩

theorem CodedFrom.trans {s t u : State} (h : CodedFrom s t) (h' : CodedFrom t u) : CodedFrom s u :=
  ⟨h.frame.trans h'.frame, h'.pred, h.stream.trans h'.stream⟩

/-- All four tables are built, and numbers are exact. -/
structure Equipped (s : State) : Prop where
  tables : ∀ t < 4, HasTable t s
  num : s.params.num = .real

theorem Equipped.congr {s u : State} (h : Equipped s) (hvalid : u.htvalid = s.htvalid) (hht : u.ht = s.ht)
    (hparams : u.params = s.params) : Equipped u :=
  ⟨fun t ht => (h.tables t ht).congr hvalid hht, hparams ▸ h.num⟩

theorem Equipped.codable {s : State} (h : Equipped s) (hpred : PredictorsSmall s) (b : Nat) : Codable b s := by
  have hg := group_lt b
  exact ⟨h.tables _ (by rw [tdc]; omega), h.tables _ (by rw [tac]; omega), h.num, hpred⟩

/-- A block's DC is small enough to be the next predictor (R134). -/
theorem predictorsSmall_setPred {s t : State} {b : Nat} {x : Nat → NumElem} (hpred : PredictorsSmall s)
    (hrange : SampleRange x)
    (hsame : SameButPacker ((s.scanned b x).setPred (slot b) (coefficient b x 0)) t) : PredictorsSmall t := by
  intro sl
  obtain ⟨hlo, hhi⟩ := coefficient_range b hrange (k := 0) (by decide)
  rw [hsame.pred, State.pred_setPred, State.pred_congr (s := s) (t := s.scanned b x) rfl rfl rfl]
  split_ifs
  · exact ⟨by omega, by omega⟩
  · exact hpred sl

/-- A block of samples is coded without an error (R134, R225). -/
theorem blkencBody_codedFrom {s : State} {b c : Nat} {x : Nat → NumElem} (hs : Codable b s)
    (hx : BlockHolds s.bufS b x) (hrange : SampleRange x) (hsink : SinkAccepts (c + 424) s.sink) :
    ∃ t, blkencBody b s = .go t ∧ CodedFrom s t ∧ SinkAccepts c t.sink := by
  obtain ⟨t, ht, hsame, ⟨hstream, -⟩, -, haccepts⟩ := blkencBody_real hs hx hrange hsink
  have hframe := ((s.scanned_codingFrame b x).trans (State.setPred_codingFrame _ _ _)).trans hsame.codingFrame
  refine ⟨t, ht, ⟨hframe, predictorsSmall_setPred hs.pred hrange hsame, ?_⟩, haccepts⟩
  rw [hstream]
  exact List.prefix_append _ _

/-- An MCU is coded without an error (R132, R134). -/
theorem encmcuBody_codedFrom {s : State} (hs : Equipped s) (hpred : PredictorsSmall s) (mx my : Nat) {c : Nat}
    (hsink : SinkAccepts (c + 2600) s.sink) :
    ∃ t, encmcuBody mx my s = .go t ∧ CodedFrom (s.mcuLoaded mx my) t ∧ SinkAccepts c t.sink := by
  have hblock : ∀ b ∈ List.range 6, ∀ u c, CodedFrom (s.mcuLoaded mx my) u → SinkAccepts (c + 424) u.sink →
      ∃ t, blkencBody b u = .go t ∧ CodedFrom (s.mcuLoaded mx my) t ∧ SinkAccepts c t.sink := by
    intro b hb u c hu haccepts
    obtain ⟨x, hx, hrange⟩ := exists_loadedSamples s mx my (List.mem_range.mp hb)
    have hcodable : Codable b u :=
      (hs.congr (by rw [hu.frame]; rfl) (by rw [hu.frame]; rfl) (by rw [hu.frame]; rfl)).codable hu.pred b
    have hsamples : u.bufS = loadedSamples s mx my := by
      rw [hu.frame]
      exact State.mcuLoaded_bufS s mx my
    obtain ⟨t, ht, hcoded, haccepts'⟩ := blkencBody_codedFrom hcodable (hsamples ▸ hx) hrange haccepts
    exact ⟨t, ht, hu.trans hcoded, haccepts'⟩
  have hload : PredictorsSmall (s.mcuLoaded mx my) := fun sl =>
    State.pred_congr (s := s) (t := s.mcuLoaded mx my) (sl := sl) rfl rfl rfl ▸ hpred sl
  rw [encmcuBody, mculoadBody, Flow.andThen_go]
  exact forEach_accepts hblock (.refl hload)
    ((hsink.mono (by simp only [List.length_range]; omega) : SinkAccepts (c + 424 * (List.range 6).length) s.sink))

/-! ### ENCMCU -/

section

variable {s : State}

theorem equipped_of_ready (h : ReadyToEncode s) : Equipped s := by
  obtain ⟨-, -, -, hvalid, htab, hnum, -⟩ := h
  exact ⟨fun t ht => htab.hasTable ht ((htvalid_eq_iff s).mp hvalid t ht), hnum⟩

theorem checksPass_of_ready (h : ReadyToEncode s) : ChecksPass s := by
  obtain ⟨herr, hw, hh, hvalid, -⟩ := h
  exact .of_ne herr (by bv_omega) (by bv_omega) hvalid

/-- Clearing DONE leaves what coding starts from. -/
theorem start_of_ready (h : ReadyToEncode s) :
    Equipped (s.setDone false) ∧ PredictorsSmall (s.setDone false) := by
  have heq := equipped_of_ready h
  obtain ⟨-, -, -, -, -, -, hpred⟩ := h
  exact ⟨heq.congr rfl rfl rfl, fun sl => by simpa using hpred sl⟩

end

/-- Settles O46: the checks pass, and the six blocks are coded without an error. -/
theorem encmcuCompletes : Obligations.EncmcuCompletes := by
  intro s mx my hready hmx hmy hsink
  obtain ⟨heq, hpred⟩ := start_of_ready hready
  obtain ⟨t, ht, hcoded, -⟩ := encmcuBody_codedFrom (s := s.setDone false) heq hpred mx my (c := 0)
    (hsink.mono (by omega))
  refine ⟨t, ?_, hcoded.pred, hcoded.stream, ?_⟩
  · rw [exec_encmcu (checksPass_of_ready hready) ⟨hmx, hmy⟩, ht, Flow.result_go]
  · rw [hcoded.frame]
    rfl

/-! ### ENCIMG -/

/-- s with the MCU position and the samples of u. -/
def State.loadedAs (s u : State) : State := { s with mcuX := u.mcuX, mcuY := u.mcuY, bufS := u.bufS }

/-- An MCU more: what has been coded from s before it, and it, are coded from s. -/
theorem CodedFrom.mcu {s u t : State} {mx my : Nat} (h : CodedFrom (s.loadedAs u) u)
    (h' : CodedFrom (u.mcuLoaded mx my) t) : CodedFrom (s.loadedAs t) t := by
  refine ⟨?_, h'.pred, h.stream.trans h'.stream⟩
  rw [h'.frame, h.frame]
  rfl

/-- From a state coded from s, an MCU is coded without an error. -/
theorem encmcuBody_loadedAs {s u : State} {c : Nat} (hs : Equipped s) (hu : CodedFrom (s.loadedAs u) u)
    (mx my : Nat) (hsink : SinkAccepts (c + 2600) u.sink) :
    ∃ t, encmcuBody mx my u = .go t ∧
      (CodedFrom (s.loadedAs t) t ∧ t.mcuX = BitVec.ofNat 12 mx ∧ t.mcuY = BitVec.ofNat 12 my) ∧
      SinkAccepts c t.sink := by
  have heq : Equipped u := hs.congr (by rw [hu.frame]; rfl) (by rw [hu.frame]; rfl) (by rw [hu.frame]; rfl)
  obtain ⟨t, ht, hcoded, haccepts⟩ := encmcuBody_codedFrom heq hu.pred mx my hsink
  refine ⟨t, ht, ⟨hu.mcu hcoded, ?_, ?_⟩, haccepts⟩
  · rw [hcoded.frame]
    rfl
  · rw [hcoded.frame]
    rfl

theorem mcuGrid_length (nx ny : Nat) : (mcuGrid nx ny).length = nx * ny := by
  simp [mcuGrid, List.length_flatMap, Nat.mul_comm]

/-- The last MCU of the row-major order is that of the last row and column (R123). -/
theorem mcuGrid_last {nx ny : Nat} (hnx : 0 < nx) (hny : 0 < ny) :
    ∃ ms, mcuGrid nx ny = ms ++ [(nx - 1, ny - 1)] := by
  obtain ⟨x, rfl⟩ := Nat.exists_eq_add_of_lt hnx
  obtain ⟨y, rfl⟩ := Nat.exists_eq_add_of_lt hny
  refine ⟨(List.range y).flatMap (fun my => (List.range (x + 1)).map fun mx => (mx, my)) ++
    (List.range x).map fun mx => (mx, y), ?_⟩
  simp [mcuGrid, List.range_succ]

/-- The MCUs of the image are coded without an error, the last one last (R133, R134). -/
theorem forEach_encmcuBody {s : State} (hs : Equipped s) (hpred : PredictorsSmall s) {nx ny c : Nat}
    (hnx : 0 < nx) (hny : 0 < ny) (hsink : SinkAccepts (c + 2600 * (nx * ny)) s.sink) :
    ∃ t, forEach (mcuGrid nx ny) (fun m => encmcuBody m.1 m.2) s = .go t ∧
      (CodedFrom (s.loadedAs t) t ∧ t.mcuX = BitVec.ofNat 12 (nx - 1) ∧ t.mcuY = BitVec.ofNat 12 (ny - 1)) ∧
      SinkAccepts c t.sink := by
  obtain ⟨ms, hms⟩ := mcuGrid_last hnx hny
  have hlen : ms.length + 1 = nx * ny := by
    rw [← mcuGrid_length, hms, List.length_append, List.length_singleton]
  rw [← hlen, Nat.mul_succ, Nat.add_comm (2600 * ms.length), ← Nat.add_assoc] at hsink
  obtain ⟨u, hu, hcoded, haccepts⟩ := forEach_accepts (I := fun u => CodedFrom (s.loadedAs u) u)
    (f := fun m => encmcuBody m.1 m.2) (xs := ms)
    (fun m _ u c hu haccepts => by
      obtain ⟨t, ht, ⟨hcoded, -⟩, haccepts'⟩ := encmcuBody_loadedAs hs hu m.1 m.2 haccepts
      exact ⟨t, ht, hcoded, haccepts'⟩)
    (s := s) (.refl hpred) hsink
  obtain ⟨t, ht, hlast⟩ := encmcuBody_loadedAs hs hcoded (nx - 1) (ny - 1) haccepts
  exact ⟨t, by rw [hms, forEach_append, hu, Flow.andThen_go, forEach, ht]; rfl, hlast⟩

/-- A flush to a sink that accepts leaves no bit pending (R243). -/
theorem flushBits_go {s : State} (hsink : SinkAccepts 2 s.sink) :
    ∃ t, flushBits s = .go t ∧ SameButPacker s t ∧ t.bitidx = 7 ∧ s.sink.stream <+: t.sink.stream := by
  rw [flushBits]
  split_ifs with hemit
  · obtain ⟨k, hk, hstream, -⟩ := emitByte_go (x := s.bitacc) (c := 0) hsink
    rw [hk]
    exact ⟨_, rfl, rfl, rfl, hstream ▸ List.prefix_append _ _⟩
  · rw [not_or, not_not] at hemit
    exact ⟨s, rfl, rfl, hemit.1, List.prefix_rfl⟩

/-- Settles O47: the checks pass, every MCU is coded without an error, and the flush takes the last two writes. -/
theorem encimgCompletes : Obligations.EncimgCompletes := by
  intro s hready hsink
  have hpass := checksPass_of_ready hready
  obtain ⟨heq, hpred⟩ := start_of_ready hready
  obtain ⟨hnx, hny⟩ := grid_pos (s := s) (by have := hpass.dims; bv_omega) (by have := hpass.dims; bv_omega)
  obtain ⟨u, hu, ⟨hcoded, hmx, hmy⟩, haccepts⟩ := forEach_encmcuBody (s := s.setDone false) heq hpred
    (c := 2) hnx hny (hsink.mono (by omega))
  obtain ⟨t, ht, hsame, hidx, hstream⟩ := flushBits_go haccepts
  refine ⟨t.setDone true, ?_, fun sl => ?_, hcoded.stream.trans hstream, ?_⟩
  · rw [exec_encimg hpass, imageBody, hu, Flow.andThen_go, ht, Flow.andThen_go, Flow.result_go]
  · rw [State.pred_setDone, hsame.pred]
    exact hcoded.pred sl
  · rw [← hmx, ← hmy, ← hidx, hsame, hcoded.frame]
    rfl

end Sys2Proof.Machine
end

section
/-!
FDCT (R150 to R154): each element takes the double sum of the level-shifted samples, which for a constant block
is 0 everywhere but at element 0.
-/

namespace Sys2Proof.Machine

open Real

/-- Element 8v + u of the elements FDCT writes. -/
theorem fdctElems_getElem? (mode : Config.NumMode) (xs : List NumElem) {v u : Nat} (hv : v < 8) (hu : u < 8) :
    ∃ free : NumVal, (fdctElems mode xs)[8 * v + u]? =
      some (numElem mode (fdctElem (rowSums (xs.map NumElem.real)) v u) free) := by
  rw [fdctElems, numElems_getElem?, fdctBlock, blockOf_getElem? _ hv hu, Option.map_some]
  exact ⟨_, rfl⟩

/-- FDCT on a written block. -/
theorem exec_fdct {s : State} {b : Nat} {x : Nat → NumElem} (herr : s.status.err = false) (hb : b ≤ 5)
    (hx : BlockHolds s.bufS b x) :
    exec (.fdct b) s = .next ((s.setDone false).setF b
      (fdctElems s.params.num ((List.range 64).map x))) := by
  rw [exec_block (ts := []) (body := fdctBody b) rfl herr hb (by simp), fdctBody,
    readBlock_eq (buf := (s.setDone false).bufS) hx, Flow.result_go]
  rfl

/-- Settles O20: each element takes the double sum of R153. -/
theorem fdctExact : Obligations.FdctExact := by
  intro s b x herr hb hx
  have hlen : (fdctElems s.params.num ((List.range 64).map x)).length = 64 := by
    simp [fdctElems, fdctBlock]
  refine ⟨_, exec_fdct herr hb hx, fun v hv u hu => ?_, fun j hj => ?_, rfl⟩
  · obtain ⟨free, hfree⟩ := fdctElems_getElem? s.params.num ((List.range 64).map x) hv hu
    refine ⟨_, (Buf.get_setBlock_elem b _ _ _ hlen (by omega)).trans hfree, numElem_exactIn _ ?_ free⟩
    rw [List.map_map]
    exact fdctElem_toReal _ v hu
  · exact Buf.get_setBlock_other b j _ _ hlen hj

/-- Twice sin(uπ/16) times a basis cosine is a difference of two sines, so that sums of them telescope. -/
theorem two_sin_mul_dctCos (x u : Nat) :
    2 * sin (u * π / 16) * dctCos x u =
      sin (2 * (x + 1 : Nat) * (u * π / 16)) - sin (2 * x * (u * π / 16)) := by
  rw [sin_sub_sin, dctCos]
  push_cast
  congr 2 <;> ring_nf

/-- A basis function of R153 sums to 0, but for the constant one. -/
theorem sum_dctCos {u : Nat} (hu : u < 8) : ∑ x ∈ Finset.range 8, dctCos x u = if u = 0 then 8 else 0 := by
  split_ifs with h0
  · simp [dctCos, h0]
  · have hupos : (0 : ℝ) < u := by exact_mod_cast Nat.pos_of_ne_zero h0
    have hu8 : (u : ℝ) < 8 := by exact_mod_cast hu
    have hsin : 0 < sin (u * π / 16) := sin_pos_of_pos_of_lt_pi (by positivity) (by nlinarith [pi_pos])
    refine (mul_eq_zero.mp ?_).resolve_left (mul_pos two_pos hsin).ne'
    rw [Finset.mul_sum, Finset.sum_congr rfl fun x _ => two_sin_mul_dctCos x u,
      Finset.sum_range_sub fun x : Nat => sin (2 * x * (u * π / 16)),
      show 2 * (8 : Nat) * (u * π / 16) = u * π by push_cast; ring, sin_nat_mul_pi]
    simp

/-- R154's block: the double sum of equal samples is a product of two sums of basis functions. -/
theorem dctFormula_const (c : ℝ) {v u : Nat} (hv : v < 8) (hu : u < 8) :
    dctFormula (fun _ => c) v u = if v = 0 ∧ u = 0 then 8 * (c - 128) else 0 := by
  have hprod : dctFormula (fun _ => c) v u = dctC u * dctC v *
      ((c - 128) * (∑ x ∈ Finset.range 8, dctCos x u) * ∑ y ∈ Finset.range 8, dctCos y v) := by
    simp only [dctFormula, ← Finset.sum_mul, ← Finset.mul_sum]
  rw [hprod, sum_dctCos hu, sum_dctCos hv]
  by_cases h : v = 0 ∧ u = 0
  · obtain ⟨rfl, rfl⟩ := h
    have h8 : √8 * √8 = 8 := mul_self_sqrt (by norm_num)
    simp only [dctC, if_true, and_self]
    field_simp
    linear_combination (128 - c) * h8
  · rw [if_neg h]
    rcases not_and_or.mp h with h | h <;> simp [h]

/-- Settles O21: FDCT is exact with NUM = Real, and R153's sum of a constant block is R154's value. -/
theorem fdctConstantBlock : Obligations.FdctConstantBlock := by
  intro s b c herr hb hnum hc
  obtain ⟨t, ht, hF, -⟩ := fdctExact s b _ herr hb hc
  refine ⟨t, ht, fun k hk => ?_⟩
  obtain ⟨y, hy, hreal, hreal'⟩ := hF (k / 8) (by omega) (k % 8) (by omega)
  rw [dctFormula_const _ (by omega) (by omega)] at hreal hreal'
  have hk0 : (k / 8 = 0 ∧ k % 8 = 0) ↔ k = 0 := by omega
  simp only [hk0] at hreal hreal'
  rw [Nat.div_add_mod] at hy
  exact ⟨y, hy, hreal, hreal' hnum⟩

end Sys2Proof.Machine
end

section
/-!
QUANT in every number type (R156, R157): each element is quantised after the tie draws of those before it, and
whether all values fit 16 bits decides between writing them and RangeError.
-/

namespace Sys2Proof.Machine

/-! ### The values of a block, one after the other -/

/-- The tie oracle before element k, where it is o before element 0 (R157). -/
def tieBefore (mode : Config.NumMode) (g : Nat) (f : Nat → NumVal) (o : Oracle) : Nat → Oracle
  | 0 => o
  | k + 1 => (quantDraw mode (f k) (qt g k) (tieBefore mode g f o k)).2

/-- The value QUANT computes for element k (R156). -/
def quantAt (mode : Config.NumMode) (g : Nat) (f : Nat → NumVal) (o : Oracle) (k : Nat) : Int :=
  (quantDraw mode (f k) (qt g k) (tieBefore mode g f o k)).1

theorem quantList_range' (mode : Config.NumMode) (g : Nat) (f : Nat → NumVal) (o : Oracle) (k n : Nat) :
    quantList mode g k ((List.range' k n).map f) (tieBefore mode g f o k) =
      ((List.range' k n).map (quantAt mode g f o), tieBefore mode g f o (k + n)) := by
  induction n generalizing k with
  | zero => rfl
  | succ n ih =>
    have hrest := ih (k + 1)
    rw [tieBefore] at hrest
    rw [List.range'_succ, List.map_cons, quantList, hrest, Nat.succ_add_eq_add_succ]
    rfl

/-- The values q are those QUANT computes in s for a block x of F, and o is the tie oracle after them (R156,
R157). -/
abbrev Quantises (s : State) (b : Nat) (x : Nat → NumElem) (q : Nat → Int) (o : Oracle) : Prop :=
  quantList s.params.num (group b) 0 (((List.range 64).map x).map NumElem.real) s.tie =
    ((List.range 64).map q, o)

/-- With NUM = Real the values are round_hu of the exact quotients, and no draw is taken (R155). -/
theorem quantises_real {s : State} (hnum : s.params.num = .real) (b : Nat) (x : Nat → NumElem) :
    Quantises s b x (quantised b x) s.tie := by
  rw [Quantises, hnum, List.map_map, List.range_eq_range', quantList_real]
  rfl

/-- In every number type element k is quantised after the draws of the elements before it. -/
theorem quantises_quantAt (s : State) (b : Nat) (x : Nat → NumElem) :
    Quantises s b x (quantAt s.params.num (group b) (fun k => (x k).real) s.tie)
      (tieBefore s.params.num (group b) (fun k => (x k).real) s.tie 64) := by
  rw [Quantises, List.map_map, List.range_eq_range']
  exact quantList_range' _ _ (fun k => (x k).real) s.tie 0 64

/-! ### The two ends of the body and of the command -/

section

variable {s : State} {b : Nat} {x : Nat → NumElem} {q : Nat → Int} {o : Oracle}
  (hx : BlockHolds s.bufF b x) (hq : Quantises s b x q o)
include hx hq

/-- Values that all fit 16 bits are written (R156). -/
theorem quantBody_of_fits (hfit : ∀ k < 64, -32768 ≤ q k ∧ q k ≤ 32767) :
    quantBody b s =
      .go (State.setQ { s with tie := o } b ((List.range 64).map fun k => BitVec.ofInt 16 (q k))) := by
  have hnone : ((List.range 64).map q).findIdx? (fun z => !inInt16 z) = none := by
    simpa [List.findIdx?_eq_none_iff, inInt16_iff] using hfit
  rw [quantBody, readBlock_eq hx, hq]
  simp only [hnone, List.map_map]
  rfl

/-- The lowest value that does not fit 16 bits is the one of the RangeError (R156, R300). -/
theorem quantBody_of_not_fits {k : Nat} (hk : k < 64) (hbad : ¬ (-32768 ≤ q k ∧ q k ≤ 32767))
    (hlow : ∀ j < k, -32768 ≤ q j ∧ q j ≤ 32767) :
    quantBody b s = raise .rangeError (BitVec.ofNat 32 k) { s with tie := o } := by
  have hsome : ((List.range 64).map q).findIdx? (fun z => !inInt16 z) = some k :=
    List.findIdx?_eq_some_iff_getElem.mpr ⟨by simpa using hk, by simpa [← inInt16_iff] using hbad,
      fun j hj => by simpa [inInt16_iff] using hlow j hj⟩
  rw [quantBody, readBlock_eq hx, hq]
  simp only [hsome]

variable (herr : s.status.err = false) (hb : b ≤ 5)
include herr hb

theorem exec_quant_of_fits (hfit : ∀ k < 64, -32768 ≤ q k ∧ q k ≤ 32767) :
    exec (.quant b) s = .next (State.setQ { s.setDone false with tie := o } b
      ((List.range 64).map fun k => BitVec.ofInt 16 (q k))) := by
  rw [exec_block (ts := []) (body := quantBody b) rfl herr hb (by simp),
    quantBody_of_fits (s := s.setDone false) hx hq hfit, Flow.result_go]

theorem exec_quant_of_not_fits {k : Nat} (hk : k < 64) (hbad : ¬ (-32768 ≤ q k ∧ q k ≤ 32767))
    (hlow : ∀ j < k, -32768 ≤ q j ∧ q j ≤ 32767) :
    exec (.quant b) s = .next { s.erring 0x08 (BitVec.ofNat 32 k) with tie := o } := by
  rw [exec_block (ts := []) (body := quantBody b) rfl herr hb (by simp),
    quantBody_of_not_fits (s := s.setDone false) hx hq hk hbad hlow, raise, Flow.result_stop,
    State.raised_of_ok (s := { s.setDone false with tie := o }) herr]
  rfl

end

/-- Settles O23: no draw is taken, and k is the lowest index whose value does not fit. -/
theorem quantRangeError : Obligations.QuantRangeError := by
  intro s b x k herr hb hnum hx hk hbad hlow
  have hbad' : ¬ (-32768 ≤ quantised b x k ∧ quantised b x k ≤ 32767) := by
    rw [quantised]
    omega
  exact exec_quant_of_not_fits hx (quantises_real hnum b x) herr hb hk hbad' hlow

/-! ### One value in an inexact number type -/

/-- round_hu of a quotient is its floor or the next integer (R13). -/
theorem quantFormula_neighbour (x : ℝ) (t : Nat) :
    quantFormula x t = ⌊x / t⌋ ∨ quantFormula x t = ⌊x / t⌋ + 1 := by
  have hlo : ⌊x / t⌋ ≤ quantFormula x t := Int.floor_le_floor (by linarith)
  have hhi : quantFormula x t ≤ ⌊x / t⌋ + 1 := by
    rw [← Int.floor_add_one]
    exact Int.floor_le_floor (by linarith)
  omega

theorem scaled_toReal (x : NumVal) (t : Nat) : (x.scale (1 / (t : Rat))).toReal = x.toReal / t := by
  rw [NumVal.toReal_scale]
  push_cast
  rw [one_div_mul_eq_div]

/-- The model's test is R157's inequality for the tie above floor(x). -/
theorem nearTie_iff (eps x : NumVal) :
    nearTie eps x = true ↔ |x.toReal - (⌊x.toReal⌋ + 1 / 2)| ≤ eps.toReal := by
  simp only [nearTie, Bool.and_eq_true, Bool.not_eq_true', ← Bool.not_eq_true, NumVal.lt_iff, not_lt,
    NumVal.toReal_sub, NumVal.toReal_ofRat, NumVal.toReal_scale, NumVal.floor_eq, abs_le]
  push_cast
  rw [neg_one_mul, and_comm]

/-- Near a tie the value is one of the two neighbours, and elsewhere it is rounded (R157). -/
theorem quantDraw_inexact (eps x : NumVal) (t : Nat) (o : Oracle) :
    let z := (quantDraw (.inexact eps) x t o).1
    (z = ⌊x.toReal / t⌋ ∨ z = ⌊x.toReal / t⌋ + 1) ∧
      ((∀ m : Int, eps.toReal < |x.toReal / t - (m + 1 / 2)|) → z = quantFormula x.toReal t) := by
  have hnear := nearTie_iff eps (x.scale (1 / (t : Rat)))
  rw [scaled_toReal] at hnear
  simp only [quantDraw]
  by_cases h : nearTie eps (x.scale (1 / (t : Rat))) = true
  · rw [if_pos h, NumVal.floor_eq, scaled_toReal]
    refine ⟨?_, fun haway => absurd (hnear.mp h) (haway _).not_ge⟩
    split_ifs
    · exact .inr rfl
    · exact .inl rfl
  · rw [if_neg h, quant_eq_quantFormula]
    exact ⟨quantFormula_neighbour _ _, fun _ => rfl⟩

/-- Settles O24: each value is one draw's, and the list of them decides between Q and RangeError. -/
theorem quantInexact : Obligations.QuantInexact := by
  intro s b x eps herr hb hnum hx ratio fits
  have hq := quantises_quantAt s b x
  rw [hnum] at hq
  refine ⟨_, fun k _ => quantDraw_inexact eps (x k).real (qt (group b) k) _,
    fun hfit => ⟨_, exec_quant_of_fits hx hq herr hb hfit, fun k hk => ⟨_, blockHolds_setBlock b _ _ k hk, ?_⟩,
      otherBlocksKept_setBlock b _ _, rfl⟩,
    fun k hk hbad hlow => ⟨_, exec_quant_of_not_fits hx hq herr hb hk hbad hlow⟩⟩
  exact toInt_ofInt_of_inInt16 (hfit k hk)

end Sys2Proof.Machine
end

section
/-!
HTBUILD (R180 to R184): what it changes, and what the canonical codes are. The builder is a pairing of VALUES with
a list of codes that depends on BITS alone, in which each code is the one after the code before it.
-/

namespace Sys2Proof.Machine

/-! ### The effect of HTBUILD -/

theorem exec_htbuild {s : State} (herr : s.status.err = false) (t : Nat) :
    exec (.htbuild t) s = .next ((s.setDone false).withTable t) := by
  rw [exec, execHtbuild, command_run herr, htbuildBody, Flow.result_go]

/-- Settles O10: of the tables and valid bits, HTBUILD writes only those of t. -/
theorem htbuildEffect : Obligations.HtbuildEffect := by
  intro s t herr ht
  refine ⟨_, exec_htbuild herr t, ?_, ?_, fun t' ht' hne => ⟨?_, ?_⟩, rfl⟩
  · rw [State.withTable_ht, HTables.table_setTable _ t t ht ht, if_pos rfl, builtTable]
  · simp [State.tableValid_withTable _ ht]
  · rw [State.withTable_ht, HTables.table_setTable _ t t' ht ht', if_neg hne, State.setDone_ht]
  · rw [State.tableValid_withTable _ ht', decide_eq_false hne, Bool.or_false]
    rfl

/-! ### Elements of a buffer -/

theorem Buf.set_perm {α : Type} {i : Nat} (x : α) {buf : Buf α} (h : i ∉ buf.map Prod.fst) :
    (Buf.set i x buf).Perm ((i, x) :: buf) := by
  induction buf with
  | nil => exact .refl _
  | cons p rest ih =>
    obtain ⟨hne, hrest⟩ : i ≠ p.1 ∧ i ∉ rest.map Prod.fst := by simpa using h
    rw [Buf.set, if_neg hne]
    split_ifs
    · exact .refl _
    · exact ((ih hrest).cons p).trans (.swap _ _ _)

/-- Write each of the listed elements at its index, in the order of the list. -/
def Buf.setAll {α : Type} (ps : List (Nat × α)) (buf : Buf α) : Buf α :=
  ps.foldl (fun b p => Buf.set p.1 p.2 b) buf

/-- Elements written at indexes that differ are the elements there are. -/
theorem Buf.setAll_perm {α : Type} {ps : List (Nat × α)} {buf : Buf α}
    (h : ((ps ++ buf).map Prod.fst).Nodup) : (Buf.setAll ps buf).Perm (ps ++ buf) := by
  induction ps generalizing buf with
  | nil => exact .refl _
  | cons p ps ih =>
    rw [List.cons_append, List.map_cons, List.nodup_cons] at h
    have hset : (Buf.set p.1 p.2 buf).Perm (p :: buf) :=
      Buf.set_perm p.2 fun hmem => h.1 (by rw [List.map_append]; exact List.mem_append_right _ hmem)
    have hperm : (ps ++ Buf.set p.1 p.2 buf).Perm (p :: (ps ++ buf)) :=
      (hset.append_left ps).trans List.perm_middle
    exact (ih ((hperm.map Prod.fst).nodup_iff.mpr (List.nodup_cons.mpr h))).trans hperm

/-- An element of a canonical buffer is what its index reads. -/
theorem Buf.get_of_mem {α : Type} {n lo i : Nat} {x : α} {buf : Buf α} (hw : Buf.wfFrom n lo buf = true)
    (h : (i, x) ∈ buf) : lo ≤ i ∧ Buf.get i buf = some x := by
  induction buf generalizing lo with
  | nil => simp at h
  | cons p rest ih =>
    obtain ⟨j, y⟩ := p
    simp only [Buf.wfFrom, Bool.and_eq_true, decide_eq_true_eq] at hw
    obtain ⟨⟨hlo, -⟩, hrest⟩ := hw
    rcases List.mem_cons.mp h with heq | hmem
    · cases heq
      exact ⟨hlo, by simp [Buf.get]⟩
    · obtain ⟨hj, hget⟩ := ih hrest hmem
      exact ⟨by omega, by rw [Buf.get, if_neg (by omega), if_neg (by omega), hget]⟩

/-! ### The builder as a pairing of the symbols with their codes (R180) -/

/-- The codes of n symbols of one length. -/
def codesOfLen (len code n : Nat) : List HCode := (List.range' code n).map fun c => ⟨c, len⟩

/-- The codes of the lengths len, len + 1, … in the order in which the builder gives them. -/
def codesFrom (len code : Nat) : List Nat → List HCode
  | [] => []
  | n :: bits => codesOfLen len code n ++ codesFrom (len + 1) (2 * (code + n)) bits

/-- The builder's code after it has passed the counts `bits`. -/
def codeAfter (code : Nat) (bits : List Nat) : Nat := bits.foldl (fun c n => 2 * (c + n)) code

@[simp] theorem codesOfLen_length (len code n : Nat) : (codesOfLen len code n).length = n := by
  simp [codesOfLen]

@[simp] theorem mem_codesOfLen {len code n : Nat} {c : HCode} :
    c ∈ codesOfLen len code n ↔ c.len = len ∧ code ≤ c.code ∧ c.code < code + n := by
  cases c
  simp only [codesOfLen, List.mem_map, List.mem_range'_1, HCode.mk.injEq]
  constructor
  · rintro ⟨_, hc, rfl, rfl⟩
    exact ⟨rfl, hc⟩
  · rintro ⟨rfl, hc⟩
    exact ⟨_, hc, rfl, rfl⟩

theorem codesFrom_length (len code : Nat) (bits : List Nat) : (codesFrom len code bits).length = bits.sum := by
  induction bits generalizing len code with
  | nil => rfl
  | cons n bits ih => simp [codesFrom, ih]

theorem assignCodes_eq {len n code : Nat} {syms : List Nat} {tab : Buf HCode} (h : n ≤ syms.length) :
    assignCodes len n code syms tab =
      (Buf.setAll ((syms.take n).zip (codesOfLen len code n)) tab, code + n, syms.drop n) := by
  induction n generalizing code syms tab with
  | zero => rfl
  | succ n ih =>
    cases syms with
    | nil => simp at h
    | cons sym syms =>
      rw [assignCodes, ih (by simpa using h), codesOfLen, codesOfLen, List.range'_succ, Nat.add_assoc,
        Nat.add_comm 1 n]
      rfl

theorem buildFrom_eq {len code : Nat} {bits syms : List Nat} {tab : Buf HCode} (h : bits.sum = syms.length) :
    buildFrom len code bits syms tab = Buf.setAll (syms.zip (codesFrom len code bits)) tab := by
  induction bits generalizing len code syms tab with
  | nil => simp [buildFrom, codesFrom, Buf.setAll]
  | cons n bits ih =>
    rw [List.sum_cons] at h
    have hzip : syms.zip (codesFrom len code (n :: bits)) =
        (syms.take n).zip (codesOfLen len code n) ++
          (syms.drop n).zip (codesFrom (len + 1) (2 * (code + n)) bits) := by
      conv_lhs => rw [codesFrom, ← List.take_append_drop n syms]
      exact List.zip_append (by rw [codesOfLen_length, List.length_take]; omega)
    rw [buildFrom, assignCodes_eq (by omega), ih (by rw [List.length_drop]; omega), hzip, Buf.setAll, Buf.setAll,
      Buf.setAll, List.foldl_append]

/-- A built table holds the pairs of a symbol and its code, and nothing else. -/
theorem build_perm {bits values : List Nat} (hnodup : values.Nodup) (hsum : bits.sum = values.length) :
    (build bits values).Perm (values.zip (codesFrom 1 0 bits)) := by
  have hfst : (values.zip (codesFrom 1 0 bits)).map Prod.fst = values :=
    List.map_fst_zip (by rw [codesFrom_length, hsum])
  rw [build, buildFrom_eq hsum]
  simpa using Buf.setAll_perm (buf := []) (by rwa [List.append_nil, hfst])

/-! ### The order of the codes (R180) -/

/-- b is the code after a, with zeros appended where the length grows. -/
def HCode.Next (a b : HCode) : Prop := a.len ≤ b.len ∧ b.code = (a.code + 1) * 2 ^ (b.len - a.len)

/-- b is past a and every extension of a. -/
def HCode.Before (a b : HCode) : Prop := a.len ≤ b.len ∧ (a.code + 1) * 2 ^ (b.len - a.len) ≤ b.code

/-- The first code is the code the builder starts with, with zeros appended. -/
theorem codesFrom_head {len code : Nat} {bits : List Nat} {c : HCode}
    (h : c ∈ (codesFrom len code bits).head?) : len ≤ c.len ∧ c.code = code * 2 ^ (c.len - len) := by
  induction bits generalizing len code with
  | nil => simp [codesFrom] at h
  | cons n bits ih =>
    cases n with
    | zero =>
      obtain ⟨hlen, hcode⟩ := ih h
      refine ⟨by omega, ?_⟩
      rw [hcode, show c.len - len = (c.len - (len + 1)) + 1 by omega]
      ring
    | succ n =>
      obtain rfl : (⟨code, len⟩ : HCode) = c := by
        simpa [codesFrom, codesOfLen, List.range'_succ] using h
      simp

theorem codesOfLen_isChain (len code n : Nat) : (codesOfLen len code n).IsChain HCode.Next := by
  refine (List.isChain_map _).mpr ((List.isChain_range' code n 1).imp fun a b hab => ⟨le_rfl, ?_⟩)
  simp [hab]

theorem codesFrom_isChain (len code : Nat) (bits : List Nat) :
    (codesFrom len code bits).IsChain HCode.Next := by
  induction bits generalizing len code with
  | nil => exact .nil
  | cons n bits ih =>
    refine List.isChain_append.mpr ⟨codesOfLen_isChain len code n, ih _ _, fun a ha b hb => ?_⟩
    obtain ⟨hlen, hcode⟩ := codesFrom_head hb
    have ha' : a.len = len ∧ a.code + 1 = code + n := by
      simp only [codesOfLen, List.getLast?_map, List.getLast?_range', Option.mem_def] at ha
      split_ifs at ha
      · simp at ha
      · obtain rfl : (⟨code + n - 1, len⟩ : HCode) = a := by simpa using ha
        exact ⟨rfl, by simp only; omega⟩
    refine ⟨by omega, ?_⟩
    rw [hcode, ha'.1, ha'.2, show b.len - len = (b.len - (len + 1)) + 1 by omega]
    ring

theorem HCode.Before.trans {a b c : HCode} (hab : a.Before b) (hbc : b.Before c) : a.Before c := by
  obtain ⟨hlen, hcode⟩ := hab
  obtain ⟨hlen', hcode'⟩ := hbc
  refine ⟨hlen.trans hlen', ?_⟩
  calc (a.code + 1) * 2 ^ (c.len - a.len)
      = (a.code + 1) * 2 ^ (b.len - a.len) * 2 ^ (c.len - b.len) := by
        rw [mul_assoc, ← pow_add, show b.len - a.len + (c.len - b.len) = c.len - a.len by omega]
    _ ≤ (b.code + 1) * 2 ^ (c.len - b.len) := Nat.mul_le_mul_right _ (by omega)
    _ ≤ c.code := hcode'

/-- Each code is before all that come later. -/
theorem codesFrom_pairwise (len code : Nat) (bits : List Nat) :
    (codesFrom len code bits).Pairwise HCode.Before := by
  have : Trans HCode.Before HCode.Before HCode.Before := ⟨HCode.Before.trans⟩
  exact ((codesFrom_isChain len code bits).imp fun _ _ h => ⟨h.1, h.2.ge⟩).pairwise

/-! ### Prefixes, bounds and lengths (R184) -/

/-- The bits of the code a are the first bits of the code b. -/
def HCode.Prefix (a b : HCode) : Prop := a.len ≤ b.len ∧ b.code / 2 ^ (b.len - a.len) = a.code

/-- Neither of two codes begins with the other. -/
def HCode.Apart (a b : HCode) : Prop := ¬ a.Prefix b ∧ ¬ b.Prefix a

theorem HCode.Before.apart {a b : HCode} (h : a.Before b) : a.Apart b := by
  obtain ⟨hlen, hcode⟩ := h
  constructor
  · rintro ⟨-, hpre⟩
    have := (Nat.le_div_iff_mul_le (by positivity)).mpr hcode
    omega
  · rintro ⟨hlen', hpre⟩
    rw [show a.len = b.len by omega, Nat.sub_self, pow_zero] at hcode hpre
    omega

theorem codeAfter_ge (code : Nat) (bits : List Nat) : code * 2 ^ bits.length ≤ codeAfter code bits := by
  induction bits generalizing code with
  | nil => simp [codeAfter]
  | cons n bits ih =>
    calc code * 2 ^ (bits.length + 1) = 2 * code * 2 ^ bits.length := by ring
      _ ≤ 2 * (code + n) * 2 ^ bits.length := Nat.mul_le_mul_right _ (by omega)
      _ ≤ codeAfter code (n :: bits) := ih _

/-- A code has one of the lengths, and the code after it is at most the last code the builder comes to. -/
theorem codesFrom_bounds {len code : Nat} {bits : List Nat} {c : HCode} (h : c ∈ codesFrom len code bits) :
    len ≤ c.len ∧ c.len < len + bits.length ∧
      (c.code + 1) * 2 ^ (len + bits.length - c.len) ≤ codeAfter code bits := by
  induction bits generalizing len code with
  | nil => simp [codesFrom] at h
  | cons n bits ih =>
    rw [codesFrom, List.mem_append, mem_codesOfLen] at h
    rw [List.length_cons]
    rcases h with ⟨rfl, -, hcode⟩ | hmem
    · refine ⟨le_rfl, by omega, ?_⟩
      calc (c.code + 1) * 2 ^ (c.len + (bits.length + 1) - c.len)
          = 2 * (c.code + 1) * 2 ^ bits.length := by rw [Nat.add_sub_cancel_left]; ring
        _ ≤ 2 * (code + n) * 2 ^ bits.length := Nat.mul_le_mul_right _ (by omega)
        _ ≤ codeAfter code (n :: bits) := codeAfter_ge _ bits
    · obtain ⟨hlo, hhi, hle⟩ := ih hmem
      refine ⟨by omega, by omega, ?_⟩
      rwa [show len + (bits.length + 1) = len + 1 + bits.length by omega]

/-- The counts of the lengths are those of BITS. -/
theorem codesFrom_countP (len code l : Nat) (bits : List Nat) :
    (codesFrom len code bits).countP (·.len == len + l) = bits.getD l 0 := by
  induction bits generalizing len code l with
  | nil => simp [codesFrom]
  | cons n bits ih =>
    rw [codesFrom, List.countP_append]
    cases l with
    | zero =>
      have hfirst : (codesOfLen len code n).countP (·.len == len + 0) = n := by
        conv_rhs => rw [← codesOfLen_length len code n]
        exact List.countP_eq_length.mpr fun c hc => by simp [(mem_codesOfLen.mp hc).1]
      have hlater : (codesFrom (len + 1) (2 * (code + n)) bits).countP (·.len == len + 0) = 0 :=
        List.countP_eq_zero.mpr fun c hc => by
          have := (codesFrom_bounds hc).1
          simp only [beq_iff_eq]
          omega
      rw [hfirst, hlater, Nat.add_zero, List.getD_cons_zero]
    | succ l =>
      have hfirst : (codesOfLen len code n).countP (·.len == len + (l + 1)) = 0 :=
        List.countP_eq_zero.mpr fun c hc => by simp [(mem_codesOfLen.mp hc).1]
      rw [hfirst, Nat.zero_add, List.getD_cons_succ, ← ih (len + 1) (2 * (code + n)) l,
        show len + 1 + l = len + (l + 1) by omega]

/-! ### The four built tables -/

/-- The specifications of R181: BITS counts the symbols of VALUES, which differ, at 16 lengths, and at the
greatest length a code is left over. -/
theorem htSpec_ok : ∀ t < 4, (htValuesOf t).Nodup ∧ (htBitsOf t).sum = (htValuesOf t).length ∧
    (htBitsOf t).length = 16 ∧ codeAfter 0 (htBitsOf t) < 2 ^ 17 ∧ 0 < (htValuesOf t).length := by
  decide +kernel

/-- The codes of table t in the order of VALUES. -/
def tableCodesOf (t : Nat) : List HCode := codesFrom 1 0 (htBitsOf t)

section

variable {t : Nat} (ht : t < 4)

include ht

theorem tableCodesOf_length : (tableCodesOf t).length = (htValuesOf t).length := by
  obtain ⟨-, hsum, -⟩ := htSpec_ok t ht
  rw [tableCodesOf, codesFrom_length, hsum]

theorem builtTable_perm : (builtTable t).Perm ((htValuesOf t).zip (tableCodesOf t)) := by
  obtain ⟨hnodup, hsum, -⟩ := htSpec_ok t ht
  rw [builtTable]
  exact build_perm hnodup hsum

theorem builtTable_map_snd : ((htValuesOf t).zip (tableCodesOf t)).map Prod.snd = tableCodesOf t :=
  List.map_snd_zip (tableCodesOf_length ht).le

/-- Symbol i of VALUES reads code i. -/
theorem get_builtTable {i : Nat} (hi : i < (tableCodesOf t).length) :
    (Buf.get ((htValuesOf t).getD i 0) (builtTable t)).getD ⟨0, 0⟩ = (tableCodesOf t)[i] := by
  have hi' : i < (htValuesOf t).length := by rwa [← tableCodesOf_length ht]
  have hmem : ((htValuesOf t)[i], (tableCodesOf t)[i]) ∈ builtTable t :=
    (builtTable_perm ht).mem_iff.mpr (List.mem_of_getElem? (i := i)
      (List.getElem?_zip_eq_some.mpr ⟨List.getElem?_eq_getElem hi', List.getElem?_eq_getElem hi⟩))
  rw [List.getD_eq_getElem _ _ hi', (Buf.get_of_mem (builtTable_wf t) hmem).2, Option.getD_some]

theorem code_mem_of_mem_builtTable {p : Nat × HCode} (hp : p ∈ builtTable t) : p.2 ∈ tableCodesOf t :=
  (List.of_mem_zip ((builtTable_perm ht).mem_iff.mp hp)).2

/-- A code has 1 to 16 bits, and is less than the code of 1-bits only: there is a code after it. -/
theorem tableCodesOf_bounds {c : HCode} (hc : c ∈ tableCodesOf t) :
    1 ≤ c.len ∧ c.len ≤ 16 ∧ c.code < 2 ^ c.len - 1 := by
  obtain ⟨-, -, hlength, hafter, -⟩ := htSpec_ok t ht
  obtain ⟨hlo, hhi, hle⟩ := codesFrom_bounds hc
  rw [hlength] at hhi hle
  have hlt : (c.code + 1) * 2 ^ (17 - c.len) < 2 ^ c.len * 2 ^ (17 - c.len) := by
    rw [← pow_add, Nat.add_sub_cancel' (by omega)]
    exact hle.trans_lt hafter
  have := Nat.lt_of_mul_lt_mul_right hlt
  omega

theorem builtTable_prefixFree {p q : Nat × HCode} (hp : p ∈ builtTable t) (hq : q ∈ builtTable t) (hne : p ≠ q) :
    ¬ p.2.Prefix q.2 := by
  have hcodes : (((htValuesOf t).zip (tableCodesOf t)).map Prod.snd).Pairwise HCode.Apart := by
    rw [builtTable_map_snd ht]
    exact (codesFrom_pairwise 1 0 _).imp HCode.Before.apart
  have : Std.Symm fun p q : Nat × HCode => p.2.Apart q.2 := ⟨fun _ _ => And.symm⟩
  have hperm := builtTable_perm ht
  exact ((List.pairwise_map.mp hcodes).forall (hperm.mem_iff.mp hp) (hperm.mem_iff.mp hq) hne).1

theorem builtTable_lengths (l : Nat) :
    ((builtTable t).filter fun p => p.2.len == l + 1).length = (htBitsOf t).getD l 0 := by
  calc ((builtTable t).filter fun p => p.2.len == l + 1).length
      = ((htValuesOf t).zip (tableCodesOf t)).countP fun p => p.2.len == l + 1 := by
        rw [← List.countP_eq_length_filter, (builtTable_perm ht).countP_eq]
    _ = (tableCodesOf t).countP (·.len == 1 + l) := by
        conv_rhs => rw [← builtTable_map_snd ht, List.countP_map, Nat.add_comm]
        rfl
    _ = (htBitsOf t).getD l 0 := codesFrom_countP 1 0 l _

end

/-- Settles O11: the table pairs the symbols with the canonical codes, each of which is before all that come
later. -/
theorem tableCodes : Obligations.TableCodes := by
  intro t ht
  have hlen := tableCodesOf_length ht
  obtain ⟨-, -, -, -, hpos⟩ := htSpec_ok t ht
  refine ⟨⟨by rw [builtTable], ?_, fun i hi => ?_⟩,
    fun p hp => tableCodesOf_bounds ht (code_mem_of_mem_builtTable ht hp),
    fun p hp q hq hne => builtTable_prefixFree ht hp hq fun h => hne (congrArg Prod.fst h),
    fun l _ => builtTable_lengths ht l⟩
  · have hi : 0 < (tableCodesOf t).length := by omega
    have hhead : (tableCodesOf t)[0] ∈ (tableCodesOf t).head? := by simp [List.head?_eq_getElem?, hi]
    simp only [get_builtTable ht hi, (codesFrom_head hhead).2, Nat.zero_mul]
  · have hi' : i + 1 < (tableCodesOf t).length := by omega
    simp only [get_builtTable ht (Nat.lt_of_succ_lt hi'), get_builtTable ht hi']
    exact List.isChain_iff_getElem.mp (codesFrom_isChain 1 0 _) i hi'

end Sys2Proof.Machine
end

section
/-!
ZZ and UNZZ (R203 to R206): ZZT is a permutation, so the position of each natural index inverts it.
-/

namespace Sys2Proof.Machine

/-! ### The permutation (R203, R206) -/

theorem zztTable_perm : zztTable.Perm (List.range 64) := by decide

theorem zigzagPos_lt {n : Nat} (hn : n < 64) : zigzagPos n < 64 :=
  List.idxOf_lt_length_iff.mpr (zztTable_perm.mem_iff.mpr (List.mem_range.mpr hn))

theorem zzt_zigzagPos {n : Nat} (hn : n < 64) : zzt (zigzagPos n) = n := by
  have hpos : zztTable.idxOf n < zztTable.length := zigzagPos_lt hn
  rw [zzt, zigzagPos, List.getD_eq_getElem _ _ hpos, List.getElem_idxOf hpos]

theorem zigzagPos_zzt {k : Nat} (hk : k < 64) : zigzagPos (zzt k) = k := by
  have hnodup : zztTable.Nodup := zztTable_perm.nodup_iff.mpr List.nodup_range
  have hk' : k < zztTable.length := hk
  rw [zzt, zigzagPos, List.getD_eq_getElem _ _ hk', hnodup.idxOf_getElem k hk']

theorem unzigzag_map (z : Nat → Coef) :
    unzigzag ((List.range 64).map z) = (List.range 64).map fun n => z (zigzagPos n) :=
  List.map_congr_left fun n hn => by
    have hpos := zigzagPos_lt (List.mem_range.mp hn)
    rw [List.getD_eq_getElem?_getD, List.getElem?_map, List.getElem?_range hpos, Option.map_some,
      Option.getD_some]

/-! ### The commands -/

section

variable {s : State} {b : Nat}

/-- UNZZ on a written block (R205). -/
theorem unzzBody_written {z : Nat → Coef} (hz : BlockHolds s.bufZ b z) :
    unzzBody b s = .go (s.setQ b ((List.range 64).map fun n => z (zigzagPos n))) := by
  rw [unzzBody, readBlock_eq hz, unzigzag_map]

theorem exec_zz {q : Nat → Coef} (herr : s.status.err = false) (hb : b ≤ 5) (hq : BlockHolds s.bufQ b q) :
    exec (.zz b) s = .next ((s.setDone false).setZ b ((List.range 64).map fun k => q (zzt k))) := by
  rw [exec_block (ts := []) (body := zzBody b) rfl herr hb (by simp),
    zzBody_written (s := s.setDone false) hq, Flow.result_go]

theorem exec_unzz {z : Nat → Coef} (herr : s.status.err = false) (hb : b ≤ 5) (hz : BlockHolds s.bufZ b z) :
    exec (.unzz b) s =
      .next ((s.setDone false).setQ b ((List.range 64).map fun n => z (zigzagPos n))) := by
  rw [exec_block (ts := []) (body := unzzBody b) rfl herr hb (by simp),
    unzzBody_written (s := s.setDone false) hz, Flow.result_go]

end

/-- Two commands in a row, of which the first answers a next state. -/
theorem runCommands_pair {i j : Instr} {s t u : State} (hi : exec i s = .next t) (hj : exec j t = .next u) :
    runCommands [i, j] s = .next u := by
  rw [runCommands, hi]
  exact (runCommands_singleton j t).trans hj

/-- A block is what it holds at its 64 positions. -/
theorem BlockHolds.congr {α : Type} {buf : Buf α} {b : Nat} {f g : Nat → α} (h : BlockHolds buf b f)
    (hfg : ∀ k < 64, f k = g k) : BlockHolds buf b g := fun k hk => by rw [h k hk, hfg k hk]

/-- Settles O26: the block that ZZ writes is Q[b] in the order of ZZT. -/
theorem zzScans : Obligations.ZzScans := fun _ b _ herr hb hq =>
  ⟨_, exec_zz herr hb hq, blockHolds_setBlock b _ _, otherBlocksKept_setBlock b _ _, rfl⟩

/-- Settles O27: UNZZ writes Z[b][zigzagPos n] at n, and the position of ZZT[k] is k. -/
theorem unzzRestores : Obligations.UnzzRestores := by
  intro s b z herr hb hz
  refine ⟨_, exec_unzz herr hb hz, fun k hk => ?_, otherBlocksKept_setBlock b _ _, rfl⟩
  have h := blockHolds_setBlock b (fun n => z (zigzagPos n)) s.bufQ (zzt k) (zzt_lt hk)
  simpa [zigzagPos_zzt hk] using h

/-- Settles O28: the block that comes back is read by ZZT and its inverse, one after the other. -/
theorem zigzagRoundTrips : Obligations.ZigzagRoundTrips := by
  refine ⟨fun k => zzt_lt, fun n hn => ⟨zigzagPos n, zigzagPos_lt hn, zzt_zigzagPos hn⟩,
    fun s b f herr hb => ⟨fun hq => ?_, fun hz => ?_⟩⟩
  · have hunzz := exec_unzz (s := (s.setDone false).setZ b _) herr hb
      (blockHolds_setBlock b (fun k => f (zzt k)) s.bufZ)
    refine ⟨_, runCommands_pair (exec_zz herr hb hq) hunzz, ?_⟩
    exact BlockHolds.congr (blockHolds_setBlock b _ _) fun n hn => by rw [zzt_zigzagPos hn]
  · have hzz := exec_zz (s := (s.setDone false).setQ b _) herr hb
      (blockHolds_setBlock b (fun n => f (zigzagPos n)) s.bufQ)
    refine ⟨_, runCommands_pair (exec_unzz herr hb hz) hzz, ?_⟩
    exact BlockHolds.congr (blockHolds_setBlock b _ _) fun k hk => by rw [zigzagPos_zzt hk]

end Sys2Proof.Machine
end

section
/-!
Variable-length integers (R200 to R202): a value n of size s lies in 2^(s−1) ≤ |n| < 2^s, so its field is in the
upper half of the s-bit words where n is positive and in the lower half where it is negative.
-/

namespace Sys2Proof.Machine

theorem natAbs_lt_two_pow_vliSize (n : Int) : n.natAbs < 2 ^ vliSize n := by
  rw [vliSize]
  split_ifs with h
  · simp [h]
  · exact Nat.lt_log2_self

theorem two_pow_le_natAbs {n : Int} (hn : n ≠ 0) : 2 ^ (vliSize n - 1) ≤ n.natAbs := by
  rw [vliSize, if_neg hn, Nat.add_sub_cancel]
  exact Nat.log2_self_le (by omega)

theorem vliSize_neg (n : Int) : vliSize (-n) = vliSize n := by simp [vliSize]

/-- A size is its predecessor and one, so 2^s is twice 2^(s−1). -/
theorem two_pow_vliSize {n : Int} (hn : n ≠ 0) : 2 ^ vliSize n = 2 * 2 ^ (vliSize n - 1) := by
  rw [← pow_succ', Nat.sub_add_cancel (Nat.one_le_iff_ne_zero.mpr (vliSize_ne_zero hn))]

theorem vli_of_pos {n : Int} (hn : 0 < n) (s : Nat) : vli n s = n.natAbs := by
  rw [vli, if_pos hn]
  omega

theorem vli_of_neg {n : Int} (hn : n < 0) (s : Nat) : vli n s = 2 ^ s - 1 - n.natAbs := by
  have hcast : ((2 ^ s : Nat) : Int) = 2 ^ s := by simp
  rw [vli, if_neg (by omega), ← hcast]
  omega

theorem vli_lt {n : Int} (hn : n ≠ 0) : vli n (vliSize n) < 2 ^ vliSize n := by
  have hlt := natAbs_lt_two_pow_vliSize n
  rcases Int.lt_or_gt_of_ne hn with hneg | hpos
  · rw [vli_of_neg hneg]
    omega
  · rwa [vli_of_pos hpos]

/-- The top bit of the field is 1 where n is positive, and 0 where it is negative; so decoding recovers n. -/
theorem vliDecode_vli {n : Int} (hn : n ≠ 0) : vliDecode (vli n (vliSize n)) (vliSize n) = n := by
  have hlt := natAbs_lt_two_pow_vliSize n
  have hle := two_pow_le_natAbs hn
  have hdouble := two_pow_vliSize hn
  rcases Int.lt_or_gt_of_ne hn with hneg | hpos
  · have hlow : vli n (vliSize n) < 2 ^ (vliSize n - 1) := by
      rw [vli_of_neg hneg]
      omega
    have hcast : ((2 ^ vliSize n : Nat) : Int) = 2 ^ vliSize n := by simp
    rw [vliDecode, Nat.testBit_lt_two_pow hlow, if_neg (by decide), vli_of_neg hneg, ← hcast]
    omega
  · have htop : (vli n (vliSize n)).testBit (vliSize n - 1) = true := by
      rw [vli_of_pos hpos]
      exact Nat.testBit_of_two_pow_le_and_two_pow_add_one_gt hle (by rw [pow_succ']; omega)
    rw [vliDecode, htop, if_pos rfl, vli_of_pos hpos]
    omega

/-- Settles O29: a size is a bit length, which |n| alone decides, and the top bit of the field is the sign. -/
theorem vliRoundTrip : Obligations.VliRoundTrip :=
  ⟨fun n => ⟨natAbs_lt_two_pow_vliSize n, fun _ => vliSize_le⟩,
    fun n hn _ => ⟨(vliSize_neg n).symm, vli_lt hn, vliDecode_vli hn⟩⟩

end Sys2Proof.Machine
end

section
/-!
DCENC and ACENC on a sink that accepts (R210, R214, R220, R221), and a DC difference without a code.
-/

namespace Sys2Proof.Machine

/-- A command that packs its bits from u, which has the packer and the sink of s, appends them to s where the sink
takes the bytes they can fill, each with its stuffing (R240 to R242). -/
theorem appends_of_forEach {r : Result} {s u : State} {bits : List Bool} {n : Nat}
    (hr : r = (forEach bits putBit u).result) (hacc : u.bitacc = s.bitacc) (hidx : u.bitidx = s.bitidx)
    (hsink : u.sink = s.sink) (hparams : u.params = s.params) (haccepts : SinkAccepts n s.sink)
    (hlen : 2 * ((7 + bits.length) / 8) ≤ n) :
    ∃ t, r = .next t ∧ Appends s t bits ∧ LowBitsKept s t bits ∧ SameButPacker u t := by
  obtain ⟨t, ht, hsame, happ, hlow, -⟩ := forEach_putBit_go bits (s := u) (c := 0)
    (hsink ▸ haccepts.mono (by omega))
  obtain ⟨happ', hlow'⟩ := Appends.of_samePacker hacc hidx hsink hparams happ hlow
  exact ⟨t, by rw [hr, ht, Flow.result_go], happ', hlow', hsame⟩

/-- A command on a block whose checks of the operand pass and whose body comes to nothing but `raise` leaves what
R305 says. -/
theorem exec_block_raises {i : Instr} {b : Nat} {ts : List Nat} {body : State → Flow} {s : State} {e : ErrorKind}
    {info : Word}
    (hexec : exec i s =
      command (fun s => (checkBlock b s).andThen fun s => (checkTables ts s).andThen body) s)
    (herr : s.status.err = false) (hb : b ≤ 5) (hts : ∀ t ∈ ts, s.tableValid t = true)
    (hbody : body (s.setDone false) = raise e info (s.setDone false)) :
    exec i s = .next (s.erring e.code info) := by
  rw [hexec]
  refine command_raises herr ?_
  rw [checkBlock_pass hb, Flow.andThen_go, checkTables_pass (s := s.setDone false) hts, Flow.andThen_go, hbody]

theorem tdc_lt (b : Nat) : tdc (group b) < 4 := by
  have := group_lt b
  rw [tdc]
  omega

theorem tac_lt (b : Nat) : tac (group b) < 4 := by
  have := group_lt b
  rw [tac]
  omega

/-- Settles O30: a code of at most 16 bits and a field of at most 11 fill at most four bytes. -/
theorem dcencAppends : Obligations.DcencAppends := by
  intro s b dc herr hb hvalid htab hdc hsize haccepts
  have hlen := valueBits_length_le (tdc_lt b) 0 (dc.toInt - (s.pred (slot b)).toInt)
  exact appends_of_forEach (exec_dcenc herr hb htab hvalid hdc hsize) (by simp) (by simp) (by simp) (by simp)
    haccepts (by omega)

/-- Settles O32: the check of the difference comes before all that DCENC changes. -/
theorem dcSymbolMissing : Obligations.DcSymbolMissing := by
  intro s b dc herr hb hvalid hdc hsize
  refine exec_block_raises (ts := [tdc (group b)]) (body := dcencBody b) (e := .symbolMissing) rfl herr hb
    (by simpa using hvalid) ?_
  rw [dcencBody_eq (s := s.setDone false) hdc, State.pred_setDone, if_pos hsize, symbolInfo, Nat.zero_mul,
    Nat.add_zero]

theorem acTooLarge_acSymbolsOf {z : Nat → Coef} (h : ∀ k, 1 ≤ k → k < 64 → vliSize (z k).toInt ≤ 10) :
    acTooLarge (acSymbolsOf z) = none := acTooLarge_eq_none.mpr fun run n hmem => by
  obtain ⟨-, -, k, hlo, hhi, rfl⟩ := value_mem_acSymbolsOf hmem
  exact h k hlo hhi

/-- Settles O33: the symbols of a block take at most 64 times 26 bits. -/
theorem acencAppends : Obligations.AcencAppends := by
  intro s b z herr hb hvalid htab hz haccepts
  have hlen := acSymbolsOf_bits_length_le (tac_lt b) (acTooLarge_acSymbolsOf fun k hlo hhi => (hz k hlo hhi).2)
  exact appends_of_forEach (exec_acenc herr hb htab hvalid hz) rfl rfl rfl rfl haccepts (by omega)

end Sys2Proof.Machine
end

section
/-!
The first AC coefficient without a code (R221): the loop of R220 reaches it with the zeros since the last nonzero
coefficient counted modulo 16, and no value before it is too large.
-/

namespace Sys2Proof.Machine

theorem acTooLarge_value (run : Nat) (z : Int) (syms : List AcSym) :
    acTooLarge (.value run z :: syms) = if 10 < vliSize z then some (run, z) else acTooLarge syms := by
  simp only [acTooLarge, List.findSome?_cons]
  split_ifs <;> rfl

/-- A zero before the EOB index emits no value, and counts modulo 16 (R220). -/
theorem acTooLarge_acLoop_zero {eob k run : Nat} (hk : k < eob) (hrun : run < 16) (zs : List Int) :
    acTooLarge (acLoop eob k run (0 :: zs)) = acTooLarge (acLoop eob (k + 1) ((run + 1) % 16) zs) := by
  by_cases h15 : run = 15
  · rw [h15, acLoop_sixteenth_zero hk]
    rfl
  · rw [acLoop_zero hk h15, Nat.mod_eq_of_lt (by omega)]

/-- A nonzero coefficient with a code, before the EOB index, starts a new run. -/
theorem acTooLarge_acLoop_small {eob k : Nat} (hk : k < eob) (run : Nat) {z : Int} (hz : z ≠ 0)
    (hsmall : vliSize z ≤ 10) (zs : List Int) :
    acTooLarge (acLoop eob k run (z :: zs)) = acTooLarge (acLoop eob (k + 1) 0 zs) := by
  rw [acLoop_value hk run hz, acTooLarge_value, if_neg (by omega)]

/-- A coefficient without a code is the one that the check finds, with the run counted so far. -/
theorem acTooLarge_acLoop_large (eob k run : Nat) {z : Int} (hlarge : 10 < vliSize z) (zs : List Int) :
    acTooLarge (acLoop eob k run (z :: zs)) = some (run, z) := by
  have hz : z ≠ 0 := by
    rintro rfl
    exact absurd hlarge (by decide)
  rw [acLoop]
  simp only [if_neg hz, List.singleton_append]
  rw [acTooLarge_value, if_pos hlarge]

/-- The EOB index is at or after every nonzero coefficient. -/
theorem le_lastNonzero {k acc i : Nat} {zs : List Int} (hi : i < zs.length) (hz : zs[i] ≠ 0) :
    k + i ≤ lastNonzero k acc zs := by
  induction zs generalizing k acc i with
  | nil => simp at hi
  | cons z zs ih =>
    rw [lastNonzero]
    cases i with
    | zero =>
      rw [if_neg (by simpa using hz)]
      rcases lastNonzero_cases (k + 1) k zs with ⟨h, -⟩ | h <;> omega
    | succ i =>
      have := ih (k := k + 1) (acc := if z = 0 then acc else k) (by simpa using hi) (by simpa using hz)
      omega

/-- The loop from position j on, of coefficients of which that at k is the first too large, and that at p the
last nonzero one before it, where there is one: the run is counted from p, or from the start. -/
theorem acTooLarge_acLoop_from {f : Nat → Int} {eob p k d j run : Nat} (hj : j + d = k) (hpos : 1 ≤ j)
    (hk : k < 64) (heob : k ≤ eob) (hlarge : 10 < vliSize (f k))
    (hsmall : ∀ i, 1 ≤ i → i < k → vliSize (f i) ≤ 10) (hpk : p < k) (hp : p = 0 ∨ f p ≠ 0)
    (hzero : ∀ i, p < i → i < k → f i = 0) (hrun : run < 16) :
    acTooLarge (acLoop eob j run ((List.range' j (64 - j)).map f)) =
      some ((if p < j then run + d else k - p - 1) % 16, f k) := by
  induction d generalizing j run with
  | zero =>
    obtain rfl : j = k := hj
    rw [show 64 - j = (63 - j) + 1 by omega, List.range'_succ, List.map_cons,
      acTooLarge_acLoop_large _ _ _ hlarge, if_pos hpk, Nat.add_zero, Nat.mod_eq_of_lt hrun]
  | succ d ih =>
    have hstep : (List.range' j (64 - j)).map f = f j :: (List.range' (j + 1) (64 - (j + 1))).map f := by
      rw [show 64 - j = 64 - (j + 1) + 1 by omega, List.range'_succ, List.map_cons]
    rw [hstep]
    by_cases hfj : f j = 0
    · have hne : p ≠ j := by
        rintro rfl
        exact hp.elim (by omega) (· hfj)
      rw [hfj, acTooLarge_acLoop_zero (by omega) hrun, ih (by omega) (by omega) (Nat.mod_lt _ (by decide))]
      congr 2
      split_ifs <;> omega
    · have hle : j ≤ p := not_lt.mp fun hpj => hfj (hzero j hpj (by omega))
      rw [acTooLarge_acLoop_small (by omega) run hfj (hsmall j hpos (by omega)),
        ih (by omega) (by omega) (by decide)]
      congr 2
      split_ifs <;> omega

/-- Settles O34: the first value too large has the run since p, and its check comes before all that ACENC
changes. -/
theorem acSymbolMissing : Obligations.AcSymbolMissing := by
  intro s b z p k herr hb hvalid hz hlo hhi hlarge hsmall hpk hp hzero
  have hne : ∀ i, z i ≠ 0 → (z i).toInt ≠ 0 := fun i hi h => hi (BitVec.toInt_inj.mp h)
  have hzk : (z k).toInt ≠ 0 := by
    intro h
    rw [h] at hlarge
    exact absurd hlarge (by decide)
  have heob : k ≤ lastNonzero 1 0 ((List.range' 1 63).map fun i => (z i).toInt) := by
    have := le_lastNonzero (k := 1) (acc := 0) (i := k - 1)
      (zs := (List.range' 1 63).map fun i => (z i).toInt) (by simp; omega)
      (by simpa [Nat.add_sub_cancel' hlo] using hzk)
    omega
  have hfirst : acTooLarge (acSymbolsOf z) = some ((k - p - 1) % 16, (z k).toInt) := by
    have := acTooLarge_acLoop_from (f := fun i => (z i).toInt) (d := k - 1) (j := 1) (run := 0)
      (by omega) le_rfl hhi heob hlarge hsmall hpk (hp.imp_right (hne p))
      (fun i hpi hik => by rw [hzero i hpi hik]; rfl) (by decide)
    rw [acSymbolsOf, acSymbols, this]
    congr 2
    split_ifs <;> omega
  refine exec_block_raises (ts := [tac (group b)]) (body := acencBody b) (e := .symbolMissing) rfl herr hb
    (by simpa using hvalid) ?_
  rw [acencBody_missing (s := s.setDone false) hz hfirst, symbolInfo]

end Sys2Proof.Machine
end

section
/-!
The form of a block's AC symbols (R222): ZRLs and values that end in a value, if there are any, and then EOB where
the EOB index is below 63, that is where position 63 is zero.
-/

namespace Sys2Proof.Machine

/-! ### The EOB index -/

theorem lastNonzero_concat (k acc : Nat) (zs : List Int) (z : Int) :
    lastNonzero k acc (zs ++ [z]) = if z = 0 then lastNonzero k acc zs else k + zs.length := by
  induction zs generalizing k acc with
  | nil => rfl
  | cons a zs ih =>
    rw [List.cons_append, lastNonzero, ih, lastNonzero, List.length_cons]
    split_ifs <;> omega

theorem lastNonzero_lt {k acc : Nat} {zs : List Int} (hacc : acc < k + zs.length) :
    lastNonzero k acc zs < k + zs.length := by
  induction zs generalizing k acc with
  | nil => exact hacc
  | cons z zs ih =>
    rw [List.length_cons] at hacc ⊢
    have := ih (k := k + 1) (acc := if z = 0 then acc else k) (by split_ifs <;> omega)
    rw [lastNonzero]
    omega

/-- The EOB index is 63 just where position 63 is not zero. -/
theorem lastNonzero_lt_63_iff {zs : List Int} (hlen : zs.length = 63) :
    lastNonzero 1 0 zs < 63 ↔ zs.getLast? = some 0 := by
  obtain ⟨ys, z, rfl⟩ := (List.eq_nil_or_concat' zs).resolve_left (List.ne_nil_of_length_eq_add_one hlen)
  have hys : ys.length = 62 := by simpa using hlen
  have hlt : lastNonzero 1 0 ys < 63 := by
    have := lastNonzero_lt (k := 1) (acc := 0) (zs := ys) (by omega)
    omega
  rw [lastNonzero_concat, List.getLast?_concat, Option.some_inj, hys]
  split_ifs with hz
  · exact iff_of_true hlt hz
  · exact iff_of_false (by decide) hz

/-! ### The form of the symbols -/

/-- The EOB that ends the symbols of a block whose EOB index is `eob` (R220). -/
def eobOf (eob : Nat) : List AcSym := if eob < 63 then [.eob] else []

/-- From a position up to the EOB index on, the loop emits ZRLs and values, the value at the EOB index, and EOB
where the index is below 63. -/
theorem acLoop_eq_append {k run acc : Nat} {zs : List Int} (hlen : k + zs.length = 64)
    (hlast : k ≤ lastNonzero k acc zs) (hacc : acc < k) :
    ∃ body r z, AcSym.eob ∉ body ∧ acLoop (lastNonzero k acc zs) k run zs =
      body ++ .value r z :: eobOf (lastNonzero k acc zs) := by
  induction zs generalizing k run acc with
  | nil => exact absurd hlast (by rw [lastNonzero]; omega)
  | cons z zs ih =>
    rw [List.length_cons] at hlen
    by_cases hz : z = 0
    · subst hz
      have hrec : lastNonzero k acc (0 :: zs) = lastNonzero (k + 1) acc zs := by simp [lastNonzero]
      rw [hrec] at hlast ⊢
      have hbefore : k + 1 ≤ lastNonzero (k + 1) acc zs := by
        rcases lastNonzero_cases (k + 1) acc zs with ⟨h, -⟩ | h
        · omega
        · exact h
      by_cases h15 : run = 15
      · obtain ⟨body, r, z, heob, h⟩ := ih (run := 0) (by omega) hbefore (by omega)
        exact ⟨.zrl :: body, r, z, by simpa using heob,
          by rw [h15, acLoop_sixteenth_zero hbefore, h, List.cons_append]⟩
      · rw [acLoop_zero hbefore h15]
        exact ih (by omega) hbefore (by omega)
    · have hrec : lastNonzero k acc (z :: zs) = lastNonzero (k + 1) k zs := by simp [lastNonzero, hz]
      rw [hrec]
      rcases lastNonzero_cases (k + 1) k zs with ⟨h, -⟩ | hbefore
      · refine ⟨[], run, z, by simp, ?_⟩
        rw [h, eobOf]
        split_ifs with hk
        · exact acLoop_last hk run hz zs
        · obtain rfl : k = 63 := by omega
          obtain rfl : zs = [] := List.length_eq_zero_iff.mp (by omega)
          exact acLoop_end run hz
      · obtain ⟨body, r, z', heob, h'⟩ := ih (run := 0) (by omega) hbefore (by omega)
        exact ⟨.value run z :: body, r, z', by simpa using heob,
          by rw [acLoop_value hbefore run hz, h', List.cons_append]⟩

/-- The symbols of 63 coefficients: EOB alone where all are zero, else a body, a value and perhaps EOB. -/
theorem acSymbols_eq_append {zs : List Int} (hlen : zs.length = 63) :
    ∃ body, AcSym.eob ∉ body ∧ acSymbols zs = body ++ eobOf (lastNonzero 1 0 zs) ∧
      (body = [] ∨ ∃ front r z, body = front ++ [.value r z]) := by
  rw [acSymbols]
  rcases lastNonzero_cases 1 0 zs with ⟨h, hzs⟩ | h
  · refine ⟨[], by simp, ?_, .inl rfl⟩
    rw [h, hzs, hlen, List.replicate_succ, acLoop_zeros (by omega) (by omega) 0 (by omega)]
    rfl
  · obtain ⟨front, r, z, heob, hsyms⟩ := acLoop_eq_append (run := 0) (by omega) h (by omega)
    exact ⟨front ++ [.value r z], by simpa using heob, by rw [hsyms]; simp, .inr ⟨front, r, z, rfl⟩⟩

theorem eob_mem_eobOf {eob : Nat} : AcSym.eob ∈ eobOf eob ↔ eob < 63 := by
  rw [eobOf]
  split_ifs with h <;> simp [h]

theorem eq_eob_of_mem_eobOf {eob : Nat} {sym : AcSym} (h : sym ∈ eobOf eob) : sym = .eob := by
  rw [eobOf] at h
  split_ifs at h
  · exact List.mem_singleton.mp h
  · simp at h

theorem eobOf_length_le (eob : Nat) : (eobOf eob).length ≤ 1 := by
  rw [eobOf]
  split_ifs <;> simp

/-- An element of a list in two parts, with what is before and after it, is one of the first part or of the second. -/
theorem append_eq_append_cons {α : Type} {body tail a c : List α} {x : α} (h : body ++ tail = a ++ x :: c) :
    (∃ c', body = a ++ x :: c' ∧ c = c' ++ tail) ∨ ∃ a', tail = a' ++ x :: c := by
  rcases List.append_eq_append_iff.mp h with ⟨a', -, htail⟩ | ⟨l, hbody, hl⟩
  · exact .inr ⟨a', htail⟩
  · cases l with
    | nil => exact .inr ⟨[], hl.symm⟩
    | cons y c' =>
      obtain ⟨rfl, rfl⟩ := List.cons.inj hl
      exact .inl ⟨c', hbody, rfl⟩

/-- What is after a ZRL of symbols that end in a value has that value. -/
theorem value_mem_of_append_zrl {a c front : List AcSym} {r : Nat} {z : Int}
    (h : front ++ [.value r z] = a ++ .zrl :: c) : AcSym.value r z ∈ c := by
  rcases List.eq_nil_or_concat' c with rfl | ⟨d, y, rfl⟩
  · exact absurd (List.append_inj_right' h rfl) (by simp)
  · rw [← List.cons_append, ← List.append_assoc] at h
    obtain rfl : AcSym.value r z = y := by simpa using List.append_inj_right' h rfl
    exact List.mem_append_right d List.mem_cons_self

/-- Settles O36: the body has no EOB and ends in a value, which is after every ZRL. -/
theorem acSymbolLaws : Obligations.AcSymbolLaws := by
  intro zs hlen
  obtain ⟨body, heob, hsyms, hbody⟩ := acSymbols_eq_append hlen
  refine ⟨fun a c hsplit => ?_, fun a c hsplit => ?_, ?_, fun run z hmem => ?_⟩
  · rcases append_eq_append_cons (hsyms ▸ hsplit) with ⟨c', hzrl, rfl⟩ | ⟨a', htail⟩
    · rcases hbody with rfl | ⟨front, r, z, rfl⟩
      · simp at hzrl
      · exact ⟨r, z, List.mem_append_left _ (value_mem_of_append_zrl hzrl)⟩
    · exact absurd (eq_eob_of_mem_eobOf (htail ▸ List.mem_append_right a' List.mem_cons_self)) (by simp)
  · rcases append_eq_append_cons (hsyms ▸ hsplit) with ⟨c', hbody', -⟩ | ⟨a', htail⟩
    · exact absurd (by simp [hbody']) heob
    · have hlen' := htail ▸ eobOf_length_le (lastNonzero 1 0 zs)
      rw [List.length_append, List.length_cons] at hlen'
      exact List.length_eq_zero_iff.mp (by omega)
  · rw [hsyms, List.mem_append, or_iff_right heob, eob_mem_eobOf, lastNonzero_lt_63_iff hlen]
  · obtain ⟨hrun, hz, -⟩ := value_mem_acLoop (by decide) hmem
    exact ⟨hrun, hz⟩

end Sys2Proof.Machine
end

section
/-!
FLUSH to a sink that accepts (R243, R251), and the byte it emits in mode zero (R245).
-/

namespace Sys2Proof.Machine

/-- The byte done in either mode of PAD_MODE (R243). -/
theorem State.byteDone_bitacc (s : State) :
    s.byteDone.bitacc = if s.params.padMode = .zero then 0x00#8 else s.bitacc := by
  rw [State.byteDone]
  cases s.params.padMode <;> rfl

/-- A FLUSH with nothing pending and EMPTY_FLUSH skip (R243, R251). -/
theorem exec_flush_skip {s : State} (herr : s.status.err = false) (hidx : s.bitidx = 7)
    (hskip : s.params.emptyFlush = .skip) : exec .flush s = .next (s.setDone false) := by
  rw [exec, execFlush, command_run herr, flushBits]
  exact congrArg Flow.result (if_neg (by simp [hidx, hskip]))

/-- Settles O38: FLUSH with something to emit is EmitByte, which the sink takes, and the byte done. -/
theorem flushEmits : Obligations.FlushEmits := by
  refine fun s herr hsink => ⟨fun hemit => ?_, exec_flush_skip herr⟩
  obtain ⟨k, hk, hstream, -⟩ := emitByte_go (x := s.bitacc) (s := s.setDone false) (c := 0) hsink
  refine ⟨State.byteDone { s.setDone false with sink := k }, ?_, hstream, State.byteDone_bitacc _, rfl, rfl⟩
  rw [exec_flush herr hemit, hk, Flow.andThen_go, Flow.result_go]

/-- A byte whose bits from the fill index down are 0 is its pending bits and 0-bits. -/
theorem byteOfBits_pendingOf_zeros : ∀ (acc : Byte) (idx : BitVec 3),
    acc.toNat % 2 ^ (idx.toNat + 1) = 0 →
      byteOfBits (pendingOf acc idx ++ List.replicate (idx.toNat + 1) false) = acc := by
  decide +kernel

/-- Settles O39: the invariant keeps the bits of BITACC that are not pending at 0, so BITACC, which FLUSH
emits, is the padded byte. -/
theorem flushPadsWithZeros : Obligations.FlushPadsWithZeros := by
  intro s herr ⟨_, _, _, hclean⟩ hmode hidx hsink
  obtain ⟨t, ht, hstream, -⟩ := (flushEmits s herr hsink).1 (.inl hidx)
  refine ⟨t, ht, ?_⟩
  rw [byteOfBits_pendingOf_zeros _ _ (hclean hmode herr)]
  exact hstream

end Sys2Proof.Machine
end

section
/-!
The stuffing law (R241, R244): every part of a course appends stuffed bytes, or ends at a SinkError that may have
kept the 0x00 of its last 0xFF (R306).
-/

namespace Sys2Proof.Machine

/-! ### What is appended -/

/-- t is s with bytes appended each 0xFF of which is stuffed, and no error since (R241). -/
def StuffedOnto (s t : State) : Prop :=
  t.status.err = s.status.err ∧ ∃ bs, t.sink.stream = s.sink.stream ++ stuffed bs

/-- What was appended on the way from s to t is stuffed but for a last 0xFF whose 0x00 the sink has refused, which
is then the error on record (R305, R306). -/
def StuffedUpTo (s t : State) : Prop :=
  ∃ bs, t.sink.stream = s.sink.stream ++ stuffed bs ∨
    (t.sink.stream = s.sink.stream ++ stuffed bs ++ [0xFF#8] ∧
      t.status = ⟨true, false, 0x02⟩ ∧ t.errinfo = 0)

theorem StuffedOnto.of_same {s t : State} (herr : t.status.err = s.status.err)
    (hsink : t.sink = s.sink) : StuffedOnto s t := ⟨herr, [], by simp [hsink, stuffed]⟩

theorem StuffedOnto.refl (s : State) : StuffedOnto s s := .of_same rfl rfl

theorem StuffedOnto.trans {s t u : State} (h : StuffedOnto s t) (h' : StuffedOnto t u) :
    StuffedOnto s u := by
  obtain ⟨herr, bs, hbs⟩ := h
  obtain ⟨herr', cs, hcs⟩ := h'
  exact ⟨herr'.trans herr, bs ++ cs, by rw [hcs, hbs, stuffed_append, List.append_assoc]⟩

theorem StuffedOnto.upTo {s t : State} (h : StuffedOnto s t) : StuffedUpTo s t := by
  obtain ⟨-, bs, hbs⟩ := h
  exact ⟨bs, .inl hbs⟩

theorem StuffedUpTo.of_onto {s t u : State} (h : StuffedOnto s t) (h' : StuffedUpTo t u) :
    StuffedUpTo s u := by
  obtain ⟨-, bs, hbs⟩ := h
  obtain ⟨cs, hcs⟩ := h'
  exact ⟨bs ++ cs, by simpa [hbs, stuffed_append] using hcs⟩

/-- An error of a check appends nothing. -/
theorem StuffedUpTo.raised (s : State) (e : ErrorKind) (info : Word) : StuffedUpTo s (s.raised e info) :=
  ⟨[], .inl (by simp [stuffed])⟩

theorem Worked.stuffedOnto {s t : State} (h : Worked s t) : StuffedOnto s t := by
  obtain ⟨hframe, hbs, -⟩ := h
  exact ⟨by rw [hframe], hbs⟩

/-- The error that has kept a 0x00 is the first one, so it is recorded (R305). -/
theorem WorkFailed.stuffedUpTo {s t : State} (h : WorkFailed s t) (herr : s.status.err = false) :
    StuffedUpTo s t := by
  obtain ⟨u, e, info, rfl, hframe, ⟨bs, hbs⟩, -⟩ := h
  refine ⟨bs, hbs.imp_right fun ⟨hbare, he, hinfo⟩ => ⟨hbare, ?_⟩⟩
  have hok : u.status.err = false := by rwa [hframe]
  rw [State.raised_of_ok hok, he, hinfo]
  exact ⟨rfl, rfl⟩

/-! ### Parts of a course -/

/-- With no error before it, a part of a command's course appends stuffed bytes, however it ends. -/
def Stuffs (f : State → Flow) : Prop :=
  ∀ s, s.status.err = false → (f s).Holds (StuffedOnto s) (StuffedUpTo s)

theorem Stuffs.andThen {f g : State → Flow} (hf : Stuffs f) (hg : Stuffs g) :
    Stuffs fun s => (f s).andThen g := fun s herr =>
  (hf s herr).andThen fun u hu => (hg u (hu.1.trans herr)).mono (fun _ => hu.trans) (fun _ => .of_onto hu)

theorem checkDims_stuffs : Stuffs checkDims := fun s _ =>
  checkDims_holds (fun _ => .refl s) (.raised s _ _)

theorem checkMcu_stuffs (mx my : Nat) (w : Word) : Stuffs (checkMcu mx my w) := fun s _ =>
  checkMcu_holds (fun _ => .refl s) (.raised s _ _)

theorem checkCount_stuffs (n : Nat) (w : Word) : Stuffs (checkCount n w) := fun s _ =>
  checkCount_holds (fun _ => .refl s) (.raised s _ _)

theorem checkTables_stuffs (ts : List Nat) : Stuffs (checkTables ts) := fun s _ =>
  checkTables_holds (fun _ => .refl s) fun _ _ => .raised s _ _

/-- A part that stuffs where b is legal stuffs behind the check of b. -/
theorem Stuffs.onBlock {b : Nat} {f : State → Flow} (hf : b ≤ 5 → Stuffs f) :
    Stuffs fun s => (checkBlock b s).andThen f := fun s herr =>
  (checkBlock_holds (G := fun t => b ≤ 5 ∧ t = s) (fun hb => ⟨hb, rfl⟩)
    fun _ => .raised s _ _).andThen fun _ ⟨hb, ht⟩ => ht ▸ hf hb s herr

/-- The pipeline's laws say what it appends. -/
theorem Stuffs.of_work {f : State → Flow} (h : ∀ s, (f s).Holds (Worked s) (WorkFailed s)) : Stuffs f :=
  fun s herr => (h s).mono (fun _ => Worked.stuffedOnto) (fun _ k => k.stuffedUpTo herr)

theorem putBits_stuffs (v n : Nat) : Stuffs (putBits v n) :=
  .of_work fun s => (putBits_holds v n s).mono (fun _ => Packed.worked) (fun _ => PackFailed.workFailed)

theorem flushBits_stuffs : Stuffs flushBits :=
  .of_work fun s => (flushBits_holds s).mono (fun _ => Packed.worked) (fun _ => PackFailed.workFailed)

theorem dcencBody_stuffs (b : Nat) : Stuffs (dcencBody b) := by
  have hpred : ∀ {s : State} {u : Option Location} (r : Nat) (dc : Coef), s.KeepsUninit u →
      Worked s (State.setPred { s with reads := r, uninit := u } (slot b) dc) :=
    fun r dc hu => (Worked.setReads r hu).trans (Worked.setPred _ _ dc)
  refine .of_work fun s => (dcencBody_holds b s).mono ?_ ?_
  · rintro t ⟨dc, r, u, hu, h⟩
    exact (hpred r dc hu).trans h.worked
  · rintro t ⟨r, u, hu, ⟨dc, h⟩ | ⟨info, rfl⟩⟩
    · exact .of_worked (hpred r dc hu) h.workFailed
    · exact .raised (Worked.setReads r hu) _ _

theorem acencBody_stuffs (b : Nat) : Stuffs (acencBody b) :=
  .of_work fun s => (acencBody_holds b s).mono
    (fun _ ⟨r, _, hu, h⟩ => (Worked.setReads r hu).trans h.worked)
    (fun _ ⟨r, _, hu, h⟩ => .of_worked (Worked.setReads r hu) h.workFailed)

theorem encimgBody_stuffs : Stuffs encimgBody := fun s herr =>
  (encimgBody_holds s).mono
    (fun _ ⟨_, hu, ht⟩ => ht ▸ hu.stuffedOnto.trans (.of_same rfl rfl)) (fun _ h => h.stuffedUpTo herr)

/-! ### The commands -/

/-- A command that packs is a body that stuffs, in the frame of R90 and R308. -/
theorem exec_eq_command_stuffs {i : Instr} (hi : .packer ∈ updatesOf i) :
    ∃ body, Stuffs body ∧ ∀ s, exec i s = command body s := by
  cases i with
  | putbits n v => exact ⟨_, (checkCount_stuffs n _).andThen (putBits_stuffs v.toNat n), fun _ => rfl⟩
  | flush => exact ⟨_, flushBits_stuffs, fun _ => rfl⟩
  | dcenc b =>
    exact ⟨_, .onBlock fun _ => (checkTables_stuffs _).andThen (dcencBody_stuffs b), fun _ => rfl⟩
  | acenc b =>
    exact ⟨_, .onBlock fun _ => (checkTables_stuffs _).andThen (acencBody_stuffs b), fun _ => rfl⟩
  | blkenc b =>
    exact ⟨_, .onBlock fun hb => (checkTables_stuffs _).andThen (.of_work (blkencBody_holds hb)),
      fun _ => rfl⟩
  | encmcu mx my =>
    exact ⟨_, checkDims_stuffs.andThen <| (checkMcu_stuffs mx my _).andThen <|
      (checkTables_stuffs _).andThen (.of_work (encmcuBody_holds mx my)), fun _ => rfl⟩
  | encimg =>
    exact ⟨_, checkDims_stuffs.andThen ((checkTables_stuffs _).andThen encimgBody_stuffs), fun _ => rfl⟩
  | _ => simp at hi

theorem Update.sink_of_ne_packer {k : UpdateKind} {s t : State} (h : Update k s t) (hk : k ≠ .packer) :
    t.sink = s.sink := by
  cases h with
  | packed | packFailed => exact absurd rfl hk
  | _ => simp

/-- A command that does not pack leaves the sink alone. -/
theorem exec_sink_of_not_packer {i : Instr} {s t : State} (h : exec i s = .next t)
    (hi : .packer ∉ updatesOf i) : t.sink = s.sink := by
  rcases exec_cases h with ⟨-, rfl⟩ | ⟨-, rfl⟩ | ⟨-, hr⟩
  · rfl
  · rw [State.inited_eq]
  · exact hr.preserves (P := fun u => u.sink = s.sink)
      (fun k hk _ _ hu hs => (hu.sink_of_ne_packer fun he => hi (he ▸ hk)).trans hs) rfl

/-- Settles O42: a command that packs is refused, or its course, from no error, stuffs what it appends; any other
appends nothing. -/
theorem stuffingLaw : Obligations.StuffingLaw := by
  intro i s t h
  by_cases hi : .packer ∈ updatesOf i
  · obtain ⟨body, hbody, he⟩ := exec_eq_command_stuffs hi
    exact command_holds (P := StuffedUpTo s) (he s ▸ h) (fun _ => (StuffedOnto.refl s).upTo) fun herr =>
      (hbody (s.setDone false) herr).mono (fun _ => StuffedOnto.upTo) (fun _ => id)
  · exact ⟨[], .inl (by simp [exec_sink_of_not_packer h hi, stuffed])⟩

end Sys2Proof.Machine
end

section
/-!
The control commands NOP (R260) and INIT (R261).
-/

namespace Sys2Proof.Machine

/-- NOP changes nothing, also while ERR = 1 (R260, R308). -/
theorem exec_nop (s : State) : exec .nop s = .next s := rfl

/-- INIT is carried out in every state, also while ERR = 1 (R261, R308). -/
theorem exec_init (s : State) : exec .init s = .next s.inited := rfl

/-- Settles O8: a word that decodes to NOP is NOP's encoding, which is 0 and decodes back to it. -/
theorem nopKeepsState : Obligations.NopKeepsState := by
  have hword : encode .nop = 0x00000000#32 := rfl
  refine ⟨exec_nop, fun w => ⟨fun h => ?_, fun h => ?_⟩⟩
  · exact (encodeOfDecode w .nop h).2.symm.trans hword
  · rw [h, ← hword]
    exact decodeOfEncode .nop trivial

/-- Settles O9: INIT is one update of the state, and the tables it stores are the builder's. -/
theorem initEffect : Obligations.InitEffect := by
  intro s
  rw [exec_init, State.inited_eq]
  simp only [builtTable, Status.clear, BitVec.ofNat_eq_ofNat]

end Sys2Proof.Machine
end

section
/-!
The framed header (R270 to R280): the length of each segment, and the whole header from them.
-/

namespace Sys2Proof.Machine

/-! ### The length of each segment -/

/-- Two bytes of marker and two of length stand before the payload (R271). -/
@[simp] theorem segment_length (marker : Byte) (payload : List Byte) :
    (segment marker payload).length = 4 + payload.length := by
  simp only [segment, be16, List.length_append, List.length_cons, List.length_nil]

@[simp] theorem dqt_length (g : Nat) : (dqt g).length = 69 := by
  simp [dqt]

@[simp] theorem sof0_length (h w : Nat) : (sof0 h w).length = 19 :=
  segment_length _ _

@[simp] theorem sos_length : sos.length = 14 := segment_length _ _

/-- The class/id byte and the 16 of BITS, then one byte a value (R278). -/
theorem dht_length {t : Nat} (ht : t < 4) : (dht t).length = 21 + (htValuesOf t).length := by
  have hbits : (htBitsOf t).length = 16 := (htSpec_ok t ht).2.2.1
  simp only [dht, segment_length, List.cons_append, List.length_cons, List.length_append,
    List.length_map, hbits]
  omega

/-- The DC tables have 12 values and the AC tables 162 (R181). -/
theorem htValuesOf_lengths : (htValuesOf 0).length = 12 ∧ (htValuesOf 1).length = 12 ∧
    (htValuesOf 2).length = 162 ∧ (htValuesOf 3).length = 162 := by decide +kernel

/-! ### COM and the header -/

/-- A comment that the length field can count is framed (R275). -/
theorem com_of_le {c : List Byte} (hc : c.length ≤ 65533) : com c = some (segment 0xFE#8 c) :=
  if_pos hc

/-- A longer comment is not (R275). -/
theorem com_of_lt {c : List Byte} (hc : 65533 < c.length) : com c = none :=
  if_neg (Nat.not_le_of_lt hc)

/-- SOI and APP0 up to its tail: the 13 fixed bytes (R274). -/
def headerStart : List Byte :=
  [0xFF#8, 0xD8#8, 0xFF#8, 0xE0#8, 0x00#8, 0x10#8, 0x4A#8, 0x46#8, 0x49#8, 0x46#8, 0x00#8,
    0x01#8, 0x01#8]

/-- What stands between the first 13 bytes and SOS (R272). -/
def headerMiddle (t : Config.App0Tail) (c : List Byte) (h w : Nat) : List Byte :=
  app0TailBytes t ++ segment 0xFE#8 c ++ dqt 0 ++ dqt 1 ++ sof0 h w ++ dht 0 ++ dht 1 ++ dht 2 ++ dht 3

theorem soi_append_app0 (t : Config.App0Tail) : soi ++ app0 t = headerStart ++ app0TailBytes t := by
  simp [soi, app0, segment, be16, byteOf, app0TailBytes, headerStart]

/-- The header of a comment that is framed, in the order of R272. -/
theorem header_of_le (t : Config.App0Tail) {c : List Byte} (hc : c.length ≤ 65533) (h w : Nat) :
    header t c h w = some (headerStart ++ headerMiddle t c h w ++ sos) := by
  rw [header, com_of_le hc, Option.map_some, soi_append_app0]
  simp only [headerMiddle, List.append_assoc]

/-- The sum of R280 without SOI, the fixed part of APP0, and SOS. -/
theorem headerMiddle_length (t : Config.App0Tail) (c : List Byte) (h w : Nat) :
    (headerMiddle t c h w).length = 600 + c.length := by
  obtain ⟨h0, h1, h2, h3⟩ := htValuesOf_lengths
  have htail : (app0TailBytes t).length = 7 := rfl
  simp only [headerMiddle, List.length_append, htail, segment_length, dqt_length, sof0_length,
    dht_length (show 0 < 4 by decide), dht_length (show 1 < 4 by decide),
    dht_length (show 2 < 4 by decide), dht_length (show 3 < 4 by decide), h0, h1, h2, h3]
  omega

/-- Settles O60: the header is its 13 fixed bytes, what stands between, and SOS; with a longer comment there is
no COM to frame. -/
theorem headerBytes : Obligations.HeaderBytes := by
  intro t c h w
  refine ⟨fun hc => ⟨_, header_of_le t hc h w, ?_, ?_, ?_⟩, fun hc => ?_⟩
  · have hstart : headerStart.length = 13 := rfl
    simp only [List.length_append, hstart, headerMiddle_length, sos_length]
    omega
  · exact (List.prefix_append _ _).trans (List.prefix_append _ _)
  · exact List.suffix_append _ sos
  · rw [header, com_of_lt hc, Option.map_none]

end Sys2Proof.Machine
end

section
/-!
Hardware reset (R317, R340): no Huffman table is left valid, and the state after reset is its own reset.
-/

namespace Sys2Proof.Machine

/-- HTVALID is 0 after reset, whatever the number asked for (R32, R340). -/
@[simp] theorem tableValid_hardReset (s : State) (t : Nat) : s.hardReset.tableValid t = false := by
  rw [State.tableValid, s.hardReset_eq]
  exact BitVec.getLsbD_zero

/-- So no symbol has a code (R83, R340). -/
@[simp] theorem htEntry_hardReset (s : State) (t sym : Nat) : s.hardReset.htEntry t sym = none := by
  simp [State.htEntry]

/-- The access that resets the machine answers the reset state (R317). -/
theorem step_reset {s : State} {rest : List HostOp} (h : s.host = .reset :: rest) :
    step s = .next (State.hardReset { s with host := rest }) := by
  rw [step_cons h, hostStep]

/-- A second reset of the state after reset changes nothing. -/
@[simp] theorem hardReset_reset : State.reset.hardReset = State.reset := rfl

/-- Settles O12: apart from the HT entries, which no table is valid to give, and the buffers, which hold no
element, each clause is a field of the reset state or of `s` (R340). -/
theorem hardResetEffect : Obligations.HardResetEffect := by
  intro s rest hs
  have hht (u : Nat) (_ : u < 4) (sym : Nat) := htEntry_hardReset { s with host := rest } u sym
  refine ⟨_, step_reset hs, ?_, ?_, ?_, ?_, ?_, ?_, ?_, ?_, ?_, ?_, ?_, ?_, hht, ?_, ?_, ?_,
    fun j => ⟨Buf.get_nil j, Buf.get_nil j, Buf.get_nil j, Buf.get_nil j, Buf.get_nil j⟩,
    ?_, ?_, ?_, ?_, ?_, ?_, ?_, ?_⟩ <;> rfl

/-- Settles O55: the state after reset is what reset makes of it, and every reset meets the invariant. -/
theorem resetMeetsInv : Obligations.ResetMeetsInv := by
  have h := hardReset_inv State.reset
  rwa [hardReset_reset] at h

end Sys2Proof.Machine
end
